-- ==== Sys2Proof/Word.lean ====
section
/-! DEFINITION. The word types of the hub's wire: the byte and the route word. Everything wider is carried as
bytes, most significant first (R190), and read as a number; the byte-order helpers stand in Machine/Bytes.lean. -/

namespace Sys2Proof

/-- A byte on the wire (R189). -/
abbrev Byte := BitVec 8

/-- The 16-bit route word of a frame (R189). -/
abbrev RouteWord := BitVec 16

/-- The byte that holds `n`, taken modulo 256. -/
abbrev byte (n : Nat) : Byte := BitVec.ofNat 8 n

end Sys2Proof
end

