-- ==== Sys2Proof/Syntax.lean ====
section
/-! DEFINITION. The commands of the hub, one constructor of `Instr` for each row of spec/opcode_table.json, and the
operands they carry. A command is an event at the hub's boundary: a frame arriving on a port, a tick of the crystal, the expiry of
a timer, the end of a transmission, or a change of supply. A frame's operands are its bytes, so that every payload
the wire can carry is a command, the malformed ones among them. -/

namespace Sys2Proof

/-- The six cab-link ports, by letter (00_scope, "Ports and peers"): dispatch modem, driver console, partition unit, card terminal,
roof sign, vehicle gateway. -/
inductive Port where
  | d | c | p | k | s | v
deriving DecidableEq, Repr

/-- The two cadence timers (R127). -/
inductive TimerId where
  | ct0 | ct1
deriving DecidableEq, Repr

/-- The two chime players (R158). -/
inductive PlayerId where
  | driver | partition
deriving DecidableEq, Repr

/-- A good frame: one that passed its check (R163). The check is the CRC-16 of the bytes before it, so it is no field of its own.
`len` is the length field, which need not be the number of payload bytes (R164, test 1). -/
structure Frame where
  kind : Byte
  route : RouteWord
  tag : Byte
  len : Byte
  payload : List Byte
deriving DecidableEq, Repr

/-- The orders the manual leaves open within one frame's arrival, chosen by the command (notes/assumptions/2.md).
`copyFirst`: the copies of a consumed frame are placed before its block handles it (R165).
`flagsFirst`: a MOTION frame's flags are handed on, and with them a wake, before its count is taken (R33, R35).
`emergencyFirst`: at D going UP the sign unit acts before the payment unit (R167). -/
structure Order where
  copyFirst : Bool
  flagsFirst : Bool
  emergencyFirst : Bool
deriving DecidableEq, Repr

/-- The arrival of a well-framed frame: its ingress port, its route word and tag, and the open orders. -/
structure Arrival where
  port : Port
  route : RouteWord
  tag : Byte
  order : Order
deriving DecidableEq, Repr

/-- The commands. A request's `args` are the argument bytes that follow its request code (R194); a PAY frame's
`fields` follow its sub-kind byte (R193); `payload` is a frame's whole payload. -/
inductive Instr where
  /-- LOAD_BEGIN (R5). Fleet request that opens the staging buffer with every entry absent, discarding any earlier staging. -/
  | loadBegin (a : Arrival) (args : List Byte)
  /-- LOAD_PART (R6). Fleet request that writes one entry of the staging buffer as present or absent. -/
  | loadPart (a : Arrival) (args : List Byte)
  /-- LOAD_COMMIT (R7). Fleet request that tests the staged set and, if none of its refusal classes applies, installs it as the set in force; it discards staging in every attempt. -/
  | loadCommit (a : Arrival) (args : List Byte)
  /-- TARIFF_READ (R11). Returns one entry of the set in force or of staging. -/
  | tariffRead (a : Arrival) (args : List Byte)
  /-- TARIFF_STATUS (R12). Returns the tariff store state, the clock, the band and the cab number. -/
  | tariffStatus (a : Arrival) (args : List Byte)
  /-- SET_CLOCK (R14). Fleet request that sets the cab clock valid and evaluates the active band. -/
  | setClock (a : Arrival) (args : List Byte)
  /-- SET_CAB_ID (R17). Fleet request that writes the cab number while the shift is CLOSED. -/
  | setCabId (a : Arrival) (args : List Byte)
  /-- HIRE (R22). Driver request that opens a trip in the lowest IDLE slot after its refusal classes are tested. -/
  | hire (a : Arrival) (args : List Byte)
  /-- TOTAL (R24). Ends metering of a METERING party, taking it to HOLD or SETTLED. -/
  | total (a : Arrival) (args : List Byte)
  /-- RESUME (R25). Returns an unpaid HOLD party to METERING after deferred step processing. -/
  | resume (a : Arrival) (args : List Byte)
  /-- VOID (R26). Cancels a METERING trip that is still in both allowances with no extras. -/
  | void (a : Arrival) (args : List Byte)
  /-- PAY_CASH (R27). Records cash clamped to the due for a HOLD party, possibly settling it. -/
  | payCash (a : Arrival) (args : List Byte)
  /-- CLOSE_TRIP (R28). Posts a SETTLED trip to the shift and returns its slot to IDLE. -/
  | closeTrip (a : Arrival) (args : List Byte)
  /-- ADD_EXTRA (R29). Driver request that adds an extras entry to a METERING or HOLD party, up to the extras cap. -/
  | addExtra (a : Arrival) (args : List Byte)
  /-- SET_TARIFF (R30). Driver request that changes a party's tariff and lock as a mid-trip tariff change. -/
  | setTariff (a : Arrival) (args : List Byte)
  /-- SET_STATION (R31). Moves a non-IDLE party to another intercom station. -/
  | setStation (a : Arrival) (args : List Byte)
  /-- SHARE (R19). Driver request that sets or clears the share flag and so the seat limit. -/
  | share (a : Arrival) (args : List Byte)
  /-- PARTY_READ (R49). Returns one slot's whole party record with its due and trip distance. -/
  | partyRead (a : Arrival) (args : List Byte)
  /-- MILESTONE_SET (R51). Fleet request that writes one milestone entry whole and rearms it. -/
  | milestoneSet (a : Arrival) (args : List Byte)
  /-- MILESTONE_READ (R61). Returns one milestone entry with its next levels and fired marks. -/
  | milestoneRead (a : Arrival) (args : List Byte)
  /-- OFFER_CARD (R64). Driver request that offers a HOLD party's due to the card terminal and appends a payment record. -/
  | offerCard (a : Arrival) (args : List Byte)
  /-- CANCEL_CARD (R65). Driver request that cancels a payment record that is not AUTHORIZING. -/
  | cancelCard (a : Arrival) (args : List Byte)
  /-- POLICY_SET (R85). Fleet request that writes all six payment policy fields while the shift is CLOSED. -/
  | policySet (a : Arrival) (args : List Byte)
  /-- REFUSAL_LIST_ADD (R86). Adds a token prefix to the offline refusal list. -/
  | refusalListAdd (a : Arrival) (args : List Byte)
  /-- REFUSAL_LIST_REMOVE (R86). Removes a token prefix from the offline refusal list. -/
  | refusalListRemove (a : Arrival) (args : List Byte)
  /-- REFUSAL_LIST_CLEAR (R86). Empties the offline refusal list. -/
  | refusalListClear (a : Arrival) (args : List Byte)
  /-- PAY_STATUS (R90). Returns the payment unit state and optionally clears the unmatched-answer counter. -/
  | payStatus (a : Arrival) (args : List Byte)
  /-- SHIFT_OPEN (R93). Driver request that opens a shift, zeroing the totals and recording its identity. -/
  | shiftOpen (a : Arrival) (args : List Byte)
  /-- SHIFT_BREAK (R95). Takes an OPEN shift with every slot IDLE to BREAK. -/
  | shiftBreak (a : Arrival) (args : List Byte)
  /-- SHIFT_RESUME (R95). Takes a BREAK shift back to OPEN. -/
  | shiftResume (a : Arrival) (args : List Byte)
  /-- SHIFT_CLOSE (R96). Closes an OPEN or BREAK shift with every slot IDLE and appends its report. -/
  | shiftClose (a : Arrival) (args : List Byte)
  /-- TOTALS_READ (R105). Returns one totals page, live or from a snapshot, possibly taking a snapshot. -/
  | totalsRead (a : Arrival) (args : List Byte)
  /-- TOTALS_THAW (R107). Releases a held snapshot. -/
  | totalsThaw (a : Arrival) (args : List Byte)
  /-- REPORT_READ (R109). Fleet request that returns one page of one held report. -/
  | reportRead (a : Arrival) (args : List Byte)
  /-- REPORT_DROP (R110). Fleet request that removes the oldest report if its shift number matches. -/
  | reportDrop (a : Arrival) (args : List Byte)
  /-- OFF_DUTY_OVERRIDE (R116). Driver request that sets or clears the off-duty override and rederives the sign mode. -/
  | offDutyOverride (a : Arrival) (args : List Byte)
  /-- EMERGENCY_CLEAR (R114). Fleet request that clears the emergency latch. -/
  | emergencyClear (a : Arrival) (args : List Byte)
  /-- VIEW_SET (R117). Fleet request that writes one sign view entry whole. -/
  | viewSet (a : Arrival) (args : List Byte)
  /-- IMAGE_SET (R119). Fleet request that replaces one 80-column image. -/
  | imageSet (a : Arrival) (args : List Byte)
  /-- STRIPES_SET (R120). Fleet request that replaces the whole stripe set. -/
  | stripesSet (a : Arrival) (args : List Byte)
  /-- BLOCK_SET (R121). Fleet request that replaces the block pattern. -/
  | blockSet (a : Arrival) (args : List Byte)
  /-- SIGN_STATUS (R125). Returns the sign state, with the latch hidden toward C. -/
  | signStatus (a : Arrival) (args : List Byte)
  /-- SIGN_READ (R126). Returns one entry of the sign tables. -/
  | signRead (a : Arrival) (args : List Byte)
  /-- TIMER_SET (R130). Fleet request that writes a cadence timer's programmed period (clamped) and mode. -/
  | timerSet (a : Arrival) (args : List Byte)
  /-- COMPARATOR_SET (R134). Fleet request that writes one lamp comparator's fields. -/
  | comparatorSet (a : Arrival) (args : List Byte)
  /-- TIMER_START (R131). Loads a cadence timer with its programmed period and runs it, offering the count to the comparators. -/
  | timerStart (a : Arrival) (args : List Byte)
  /-- TIMER_STOP (R132). Stops a cadence timer at once, without a terminal count. -/
  | timerStop (a : Arrival) (args : List Byte)
  /-- TIMER_STOP_AT_END (R132). Makes a RUNNING timer DRAINING so that it stops at its next terminal count. -/
  | timerStopAtEnd (a : Arrival) (args : List Byte)
  /-- TIMER_STATUS (R133). Returns the timers, comparators and latches, then clears both terminal-count flags. -/
  | timerStatus (a : Arrival) (args : List Byte)
  /-- LAMP_WRITE (R140). Sets one lamp latch directly. -/
  | lampWrite (a : Arrival) (args : List Byte)
  /-- ANSWER (R148). Driver request that opens an intercom conversation with the named stations. -/
  | answer (a : Arrival) (args : List Byte)
  /-- HANGUP (R149). Driver request that returns the intercom to QUIET. -/
  | hangup (a : Arrival) (args : List Byte)
  /-- GAINS_SET (R153). Writes the four intercom gains, clamped. -/
  | gainsSet (a : Arrival) (args : List Byte)
  /-- INTERCOM_STATUS (R162). Returns the intercom state, with the listen path hidden toward C. -/
  | intercomStatus (a : Arrival) (args : List Byte)
  /-- CHIME_READ (R162). Returns one chime table entry. -/
  | chimeRead (a : Arrival) (args : List Byte)
  /-- CHIME_SET (R157). Fleet request that writes one chime table entry. -/
  | chimeSet (a : Arrival) (args : List Byte)
  /-- ROUTE_SET (R172). Fleet request that writes one route table entry whole. -/
  | routeSet (a : Arrival) (args : List Byte)
  /-- ROUTE_READ (R172). Returns one route table entry. -/
  | routeRead (a : Arrival) (args : List Byte)
  /-- PORT_STATUS (R175). Returns the link state, lanes and counters of each port and optionally clears the counters. -/
  | portStatus (a : Arrival) (args : List Byte)
  /-- UNKNOWN_REQUEST (R176). A REQ whose header is incomplete or whose code names no request is answered MALFORMED or UNKNOWN. -/
  | unknownRequest (a : Arrival) (payload : List Byte)
  /-- CHECK_ERROR (R163). A received frame that fails its CRC is dropped and counted, and the bring-up count is reset. The operands are the bytes received, whether a stop bit read 0, and the choices open should the bytes be a good frame after all. -/
  | checkError (port : Port) (bytes : List Byte) (stopBitLow : Bool) (o : Order)
  /-- GOOD_FRAME_ON_DOWN_PORT (R166). A good frame on a DOWN port advances bring-up and restarts the silence timer. -/
  | goodFrameOnDownPort (port : Port) (f : Frame) (o : Order)
  /-- FRAME_DISCARDED_AT_INGRESS (R164). A good frame on an UP port failing a length or kind test is discarded with its reason. -/
  | frameDiscardedAtIngress (port : Port) (f : Frame) (o : Order)
  /-- IDLE (R164). An IDLE frame received restarts the silence timer and is dropped. -/
  | idle (a : Arrival)
  /-- MOTION (R33). A MOTION frame from V yields an odometer delta, passes on its ignition and alarm flags, and is copied by the route table. -/
  | motion (a : Arrival) (payload : List Byte)
  /-- SIGN_STAT (R124). A sign status frame updates the sign health. -/
  | signStat (a : Arrival) (payload : List Byte)
  /-- AUDIO_FROM_P (R142). A partition audio frame is taken for call buttons, muting, the driver block and the listen block. -/
  | audioFromP (a : Arrival) (payload : List Byte)
  /-- AUDIO_FROM_C (R155). A console audio frame is taken for the talk key and the partition block. -/
  | audioFromC (a : Arrival) (payload : List Byte)
  /-- CARD_STAGE (R66). A terminal stage report on the head payment record: PIN_START, PIN_END or CANCELLED. -/
  | cardStage (a : Arrival) (fields : List Byte)
  /-- AUTH_ASK (R68). A terminal authorization ask, checked and sent on the online or offline path. -/
  | authAsk (a : Arrival) (fields : List Byte)
  /-- AUTH_ANSWER (R71). An acquirer answer, matched against the AUTHORIZING head and posted or declined. -/
  | authAnswer (a : Arrival) (fields : List Byte)
  /-- UPLOAD_ACK (R81). A fleet acknowledgement that removes the head store-and-forward entry if it matches. -/
  | uploadAck (a : Arrival) (fields : List Byte)
  /-- PASS (R173). A pass-through frame, copied to the destinations its route entry and route word give. -/
  | pass (a : Arrival) (payload : List Byte)
  /-- WAKE_CALL (R186). A frame from D taken while PARKED is searched for the wake call pattern and is otherwise dropped. -/
  | wakeCall (f : Frame) (o : Order)
  /-- DECISECOND_TICK (R13). The clock advances one decisecond, and the fare engine and shift unit take the tick. -/
  | decisecondTick (bandFirst : Bool)
  /-- CADENCE_COUNT (R129). The 10 ms count that decrements running timers, evaluates comparators and drives sign composition. -/
  | cadenceCount (signFirst : Bool)
  /-- TERMINAL_COUNT (R129). A running timer's count reaching 1 at a cadence count sets its flag and reloads or stops the timer. The event is the cadence count at which timer `t` stands at 1. -/
  | terminalCount (t : TimerId) (signFirst : Bool)
  /-- SIGN_REFRESH (R123). The refresh count reaching 100 resends the last sign output. The event is the cadence count that takes the refresh count to 100. -/
  | signRefresh (signFirst : Bool)
  /-- CHIME_END (R159). A chime player's block count reaching its duration makes the player IDLE. The event is the arrival of the AUDIO frame that clocks the chime's last block. -/
  | chimeEnd (player : PlayerId) (a : Arrival) (payload : List Byte)
  /-- OFFER_TIMER_EXPIRY (R67). The offer timer expires and the OFFERED head is cancelled with cause TIMEOUT. -/
  | offerTimerExpiry
  /-- ANSWER_TIMER_EXPIRY (R74). The answer timer expires, which queues a reversal and releases the party. -/
  | answerTimerExpiry
  /-- UPLOAD_TIMER_EXPIRY (R80). The upload timer expires in AWAITING and the head entry is resent. -/
  | uploadTimerExpiry
  /-- CALL_TIMER_EXPIRY (R147). The call timer expires in CALLING and the waiting calls are missed. -/
  | callTimerExpiry
  /-- PARK (R185). The park delay timer expires and the hub parks. -/
  | park
  /-- SILENCE_TIMER_EXPIRY (R166). 500 ms without a good frame takes an UP port DOWN or resets bring-up on a DOWN port. -/
  | silenceTimerExpiry (port : Port)
  /-- QUIET_TIMER_EXPIRY (R168). With both lanes empty and the transmitter idle, an IDLE frame is sent. -/
  | quietTimerExpiry (port : Port)
  /-- TRANSMIT_COMPLETE (R170). A transmitter finishes a frame, then takes the next one (voice lane first) or goes idle. -/
  | transmitComplete (port : Port)
  /-- S_SHUT (R185). After the park, S is shut once its general lane has drained and its transmitter is idle. -/
  | sShut
  /-- POWER_ON_RESET (R188). Supply reaches a part in OFF; every block takes its reset values and the power state becomes RUN. -/
  | powerOnReset
  /-- BACKUP_SUPPLY_LOST (R184). Both the cab's supply and the backup supply are lost, so the power state becomes OFF and the part holds no state and takes no event until power-on reset. -/
  | backupSupplyLost
deriving DecidableEq, Repr

end Sys2Proof
end

