-- ==== Sys2Proof/Decode.lean ====
section
/-! DEFINITION. The command that a word spells by the bits of spec/opcode_table.json. No row of the table gives bits (a command of the
hub is a frame of many bytes or an event without an encoding), so no word spells a command. How a frame's bytes are read, down to the
arguments of each request, stands in Machine/Formats.lean and Machine/Operands.lean. -/

namespace Sys2Proof

/-- The command a word spells by the table's bits: none, since no row has bits (notes/assumptions/8.md). -/
def decodeTableWord (_nbits _w : Nat) : Option Instr :=
  none

end Sys2Proof
end

