-- ==== Sys2Proof/Config.lean ====
section
/-! DEFINITION. The numbers the manual fixes for every CH62: capacities, caps, saturation bounds and timer periods.
The manual leaves no value of the hub open that the model would have to hold free, so there is no opaque constant here. -/

namespace Sys2Proof.Config

/-- Frames a voice lane holds (R169). -/
def voiceCapacity : Nat := 4
/-- Frames a general lane holds (R169). -/
def generalCapacity : Nat := 16
/-- Largest payload length a frame may carry (R164, R189). -/
def maxPayload : Nat := 200
/-- Where the port counters, the unmatched-answer counter and the tariff change counter stop (R10, R73, R163, R174). -/
def counterMax : Nat := 65535
/-- Where the totals, trip pulses and trip ticks saturate (R18, R100). -/
def totalMax : Nat := 4294967295
/-- The fare cap in cents (R42). -/
def fareCap : Nat := 9999999
/-- The extras cap in cents (R29). -/
def extrasCap : Nat := 999999
/-- Entries the store-and-forward queue holds (R78). -/
def storeCapacity : Nat := 32
/-- Occupancy from which no offline sale is approved (R75, R79). -/
def offlineLimit : Nat := 28
/-- Reports the report queue holds (R108). -/
def reportCapacity : Nat := 8
/-- Prefixes the offline refusal list holds (R86). -/
def refusalCapacity : Nat := 64
/-- Deciseconds in a day (R13). -/
def dayLength : Nat := 864000
/-- Cadence counts between two repaints of an unchanged sign (R123). -/
def refreshLimit : Nat := 100
/-- Columns of the sign panel (R119). -/
def panelColumns : Nat := 80
/-- Samples of one audio block (R142). -/
def blockSamples : Nat := 40

/-- Offer timer, in milliseconds (R63). -/
def offerPeriod : Nat := 120000
/-- Upload timer, in milliseconds (R80). -/
def uploadPeriod : Nat := 20000
/-- Call timer, in milliseconds (R144). -/
def callPeriod : Nat := 30000
/-- Park delay timer, in milliseconds (R184). -/
def parkPeriod : Nat := 60000
/-- Silence timer, in milliseconds (R166). -/
def silencePeriod : Nat := 500
/-- Quiet timer, in milliseconds (R168). -/
def quietPeriod : Nat := 100
/-- One cadence count, in milliseconds (R129). -/
def cadencePeriod : Nat := 10

end Sys2Proof.Config
end

