-- ==== Sys2Proof/Machine/Bytes.lean ====
section
/-! DEFINITION. Bytes and numbers: big-endian fields (R190), flags, code fields, audio samples, and the CRC-16 check (R189). -/

namespace Sys2Proof.Machine

/-- The `n` low bytes of `v`, most significant first (R190). -/
def be : Nat → Nat → List Byte
  | 0, _ => []
  | n + 1, v => byte (v / 256 ^ n) :: be n v

/-- The number a field holds, most significant byte first (R190). -/
def num (bs : List Byte) : Nat :=
  bs.foldl (fun acc b => acc * 256 + b.toNat) 0

/-- A flag as sent: 0 clear or off, 1 set or on (R190). -/
def flag (b : Bool) : Byte :=
  if b then 1 else 0

/-- A flag as received; `none` is a flag outside its representable set (R191). -/
def flagOf (b : Byte) : Option Bool :=
  if b = 0 then some false else if b = 1 then some true else none

/-- The code of `x` in a field whose values the manual lists in the order `all`, numbered 0 upward (R190). -/
def enc {α : Type} [DecidableEq α] (all : List α) (x : α) : Byte :=
  byte (all.idxOf x)

/-- The value a code field names; `none` is a code its list does not assign (R191). -/
def dec {α : Type} (all : List α) (b : Byte) : Option α :=
  all[b.toNat]?

/-- The 16-bit two's complement sample held by two bytes, high byte first (R190). -/
def sampleOf (hi lo : Byte) : Int :=
  (hi ++ lo : BitVec 16).toInt

/-- The two bytes of a sample, high byte first (R190). -/
def sampleBytes (x : Int) : List Byte :=
  let w := BitVec.ofInt 16 x
  [w.extractLsb' 8 8, w.extractLsb' 0 8]

/-- The samples of a run of bytes, two bytes each. -/
def samples : List Byte → List Int
  | hi :: lo :: rest => sampleOf hi lo :: samples rest
  | _ => []

/-- The bytes of a run of samples. -/
def samplesBytes (xs : List Int) : List Byte :=
  xs.flatMap sampleBytes

/-- One data bit through the check register: shift left, and combine with 1021 hex when the bit shifted out differs from the
data bit (R189). -/
def crcBit (r : BitVec 16) (b : Bool) : BitVec 16 :=
  if r.msb != b then (r <<< 1) ^^^ 0x1021#16 else r <<< 1

/-- One byte through the check register, most significant bit first (R189). -/
def crcByte (r : BitVec 16) (b : Byte) : BitVec 16 :=
  [7, 6, 5, 4, 3, 2, 1, 0].foldl (fun r i => crcBit r (b.getLsbD i)) r

/-- A run of bytes through the check register. No register reads 65536: the test makes the kernel compute the
register before it goes on to the next byte. -/
def crcRun : List Byte → BitVec 16 → BitVec 16
  | [], r => r
  | b :: bs, r => bif r.toNat == 65536 then r else crcRun bs (crcByte r b)

/-- The check of a run of bytes: the register starts at FFFF hex and is not inverted (R189). -/
def crc16 (bs : List Byte) : BitVec 16 :=
  crcRun bs 0xFFFF#16

/-- The two bytes of a 16-bit word, high byte first. -/
def wordBytes (w : BitVec 16) : List Byte :=
  [w.extractLsb' 8 8, w.extractLsb' 0 8]

end Sys2Proof.Machine
end

