-- ==== Sys2Proof/Machine/Types.lean ====
section
/-! DEFINITION. The named values of the hub's fields. Each type's constructors, and its list `all`, stand in the order in which the
manual's defining rule or table lists them, which is the order of their codes on the wire (R190). -/

namespace Sys2Proof

/-- Ports in the order of their numbers (00_scope). -/
def Port.all : List Port :=
  [.d, .c, .p, .k, .s, .v]

/-- A port's number. -/
def Port.number : Port → Nat
  | .d => 0 | .c => 1 | .p => 2 | .k => 3 | .s => 4 | .v => 5

/-- The cadence timers in the order of their codes (R127). -/
def TimerId.all : List TimerId := [.ct0, .ct1]

/-- The chime players, the driver player first (R158). -/
def PlayerId.all : List PlayerId := [.driver, .partition]

end Sys2Proof

namespace Sys2Proof.Machine

/-! ### Frames -/

/-- Frame kinds, code 0 upward (R189). -/
inductive Kind where
  | idle | pass | motion | signStat | audio | pay | req | reply | note | sign | fareView
deriving DecidableEq, Repr

def Kind.all : List Kind :=
  [.idle, .pass, .motion, .signStat, .audio, .pay, .req, .reply, .note, .sign, .fareView]

/-- PAY sub-kinds, code 1 upward (R193). -/
inductive PaySub where
  | chargeOffer | chargeWithdraw | cardStage | authAsk | authResult | authForward | authAnswer | upload | uploadAck
deriving DecidableEq, Repr

def PaySub.all : List PaySub :=
  [.chargeOffer, .chargeWithdraw, .cardStage, .authAsk, .authResult, .authForward, .authAnswer, .upload, .uploadAck]

/-- Any subset of {D, C, P, K, S, V, H}: bit n for port number n, bit 6 for H (R172, R189). -/
abbrev PortSet := BitVec 7

/-- Whether a port is in a port set. -/
def PortSet.has (t : PortSet) (q : Port) : Bool :=
  t.getLsbD q.number

/-- Route table classes (R172). -/
inductive RouteClass where
  | pass | telemetry
deriving DecidableEq, Repr

def RouteClass.all : List RouteClass := [.pass, .telemetry]

/-- Direct policies (R172). -/
inductive DirectPolicy where
  | none | maskOnly | any
deriving DecidableEq, Repr

def DirectPolicy.all : List DirectPolicy := [.none, .maskOnly, .any]

/-- Discard reasons, in the order of R174. -/
inductive DiscardReason where
  | length | kindNotAllowed | directRefused | emptyRoute | queueFull | linkDown
deriving DecidableEq, Repr

def DiscardReason.all : List DiscardReason :=
  [.length, .kindNotAllowed, .directRefused, .emptyRoute, .queueFull, .linkDown]

/-! ### Requests, replies, notices -/

/-- Authorities of requests (R177). -/
inductive Authority where
  | driver | fleet | either
deriving DecidableEq, Repr

/-- Reply statuses (R178, R190). -/
inductive Status where
  | done | refused | notPermitted | malformed | unknown
deriving DecidableEq, Repr

def Status.all : List Status := [.done, .refused, .notPermitted, .malformed, .unknown]

/-- Reason codes of a REFUSED reply, code 1 upward, in the order of R179. -/
inductive Reason where
  | noTariff | seatLimit | shiftState | partyState | stationTaken | paymentState | linkDown | limit | full | mismatch | range
  | notFound | check | incomplete
deriving DecidableEq, Repr

def Reason.all : List Reason :=
  [.noTariff, .seatLimit, .shiftState, .partyState, .stationTaken, .paymentState, .linkDown, .limit, .full, .mismatch, .range,
   .notFound, .check, .incomplete]

/-- Notices, code 1 upward, in the order of R181. -/
inductive Notice where
  | trip | band | milestone | pay | link | discard | emergency | call | missed | shift | signHealth | motion | parking | store
deriving DecidableEq, Repr

def Notice.all : List Notice :=
  [.trip, .band, .milestone, .pay, .link, .discard, .emergency, .call, .missed, .shift, .signHealth, .motion, .parking, .store]

/-! ### Tariff store -/

/-- The tables of a tariff set (R6). -/
inductive TariffTable where
  | parameters | tariff | schedule | extras
deriving DecidableEq, Repr

def TariffTable.all : List TariffTable := [.parameters, .tariff, .schedule, .extras]

/-- Where TARIFF_READ reads (R11). -/
inductive TariffSource where
  | inForce | staging
deriving DecidableEq, Repr

def TariffSource.all : List TariffSource := [.inForce, .staging]

/-- Charging methods (R2). -/
inductive Method where
  | double | single
deriving DecidableEq, Repr

def Method.all : List Method := [.double, .single]

/-- Kinds of extras (R3). -/
inductive ExtraKind where
  | fixed | variable
deriving DecidableEq, Repr

def ExtraKind.all : List ExtraKind := [.fixed, .variable]

/-- A set of weekdays, Monday bit 0 to Sunday bit 6 (R190). -/
abbrev DaySet := BitVec 7

/-- A clock stamp, and the cab clock itself: day number, decisecond of the day, validity (R13). -/
structure Stamp where
  day : Nat
  ds : Nat
  valid : Bool
deriving DecidableEq, Repr

/-! ### Fare engine -/

/-- Party states (R18). -/
inductive PartyState where
  | idle | metering | hold | paying | settled
deriving DecidableEq, Repr

def PartyState.all : List PartyState := [.idle, .metering, .hold, .paying, .settled]

/-- Intercom stations of parties (R18). -/
inductive Station where
  | none | left | right
deriving DecidableEq, Repr

def Station.all : List Station := [.none, .left, .right]

/-- Tariff locks (R18). -/
inductive Lock where
  | auto | fixed
deriving DecidableEq, Repr

def Lock.all : List Lock := [.auto, .fixed]

/-- Accumulator phases (R18). -/
inductive Phase where
  | allowance | stepping
deriving DecidableEq, Repr

def Phase.all : List Phase := [.allowance, .stepping]

/-! ### Milestone unit -/

/-- Trip quantities a milestone watches (R50). -/
inductive Quantity where
  | distance | time | fare
deriving DecidableEq, Repr

def Quantity.all : List Quantity := [.distance, .time, .fare]

/-- How often a milestone fires (R50). -/
inductive Repetition where
  | once | every
deriving DecidableEq, Repr

def Repetition.all : List Repetition := [.once, .every]

/-- Kinds of tariff filter (R190). -/
inductive FilterKind where
  | any | tariff
deriving DecidableEq, Repr

def FilterKind.all : List FilterKind := [.any, .tariff]

/-- Milestone actions (R50). -/
inductive MilestoneAction where
  | notify | switchTariff | addExtra
deriving DecidableEq, Repr

def MilestoneAction.all : List MilestoneAction := [.notify, .switchTariff, .addExtra]

/-- Outcomes of a firing (R55). -/
inductive FiringOutcome where
  | notified | switched | skipped | added | limit
deriving DecidableEq, Repr

def FiringOutcome.all : List FiringOutcome := [.notified, .switched, .skipped, .added, .limit]

/-! ### Payment unit -/

/-- States of a payment record (R63). -/
inductive RecordState where
  | queued | offered | pin | authorizing
deriving DecidableEq, Repr

def RecordState.all : List RecordState := [.queued, .offered, .pin, .authorizing]

/-- Upload states (R80). -/
inductive UploadState where
  | idle | awaiting
deriving DecidableEq, Repr

def UploadState.all : List UploadState := [.idle, .awaiting]

/-- Stages a terminal reports (R66). -/
inductive CardStage where
  | pinStart | pinEnd | cancelled
deriving DecidableEq, Repr

def CardStage.all : List CardStage := [.pinStart, .pinEnd, .cancelled]

/-- Results of an AUTH_ANSWER (R193). -/
inductive AnswerResult where
  | approved | declined
deriving DecidableEq, Repr

def AnswerResult.all : List AnswerResult := [.approved, .declined]

/-- Results of an AUTH_RESULT (R193). -/
inductive AuthResult where
  | approved | declined | timeout | offlineApproved | offlineRefused | refusedState | refusedAmount
deriving DecidableEq, Repr

def AuthResult.all : List AuthResult :=
  [.approved, .declined, .timeout, .offlineApproved, .offlineRefused, .refusedState, .refusedAmount]

/-- Reasons of an offline refusal, code 1 upward (R75, R193). -/
inductive OfflineReason where
  | floor | cap | queue | listed
deriving DecidableEq, Repr

def OfflineReason.all : List OfflineReason := [.floor, .cap, .queue, .listed]

/-- Causes of a cancellation, code 1 upward (R65, R190). -/
inductive CancelCause where
  | console | terminal | timeout | link
deriving DecidableEq, Repr

def CancelCause.all : List CancelCause := [.console, .terminal, .timeout, .link]

/-- Results a PAY notice carries (R89). -/
inductive PayResult where
  | approved | declined | timeout | offlineApproved | offlineRefused | cancelled
deriving DecidableEq, Repr

def PayResult.all : List PayResult := [.approved, .declined, .timeout, .offlineApproved, .offlineRefused, .cancelled]

/-! ### Shift unit -/

/-- Shift states (R91). -/
inductive ShiftState where
  | closed | opened | onBreak
deriving DecidableEq, Repr

def ShiftState.all : List ShiftState := [.closed, .opened, .onBreak]

/-- Sources of a totals page (R196). -/
inductive PageSource where
  | live | snapshot | report
deriving DecidableEq, Repr

def PageSource.all : List PageSource := [.live, .snapshot, .report]

/-! ### Sign unit -/

/-- Sign modes, in order of precedence (R111). -/
inductive SignMode where
  | emergency | hired | shareOpen | offDuty | forHire
deriving DecidableEq, Repr

def SignMode.all : List SignMode := [.emergency, .hired, .shareOpen, .offDuty, .forHire]

/-- Panel sources (R117). -/
inductive PanelSource where
  | dark | image | stripes | block
deriving DecidableEq, Repr

def PanelSource.all : List PanelSource := [.dark, .image, .stripes, .block]

/-- Animations (R117). -/
inductive Animation where
  | steady | blinkInvert | alternate
deriving DecidableEq, Repr

def Animation.all : List Animation := [.steady, .blinkInvert, .alternate]

/-- Lamp programs (R117). -/
inductive LampProgram where
  | off | on | latch
deriving DecidableEq, Repr

def LampProgram.all : List LampProgram := [.off, .on, .latch]

/-- Tables SIGN_READ reads (R126). -/
inductive SignTable where
  | view | image | stripes | block
deriving DecidableEq, Repr

def SignTable.all : List SignTable := [.view, .image, .stripes, .block]

/-- One truth value for each of the four roof lamps or lamp latches (R117, R124, R140). -/
abbrev Lamps := Vector Bool 4

/-! ### Cadence unit -/

/-- Timer modes (R127). -/
inductive TimerMode where
  | repeating | once
deriving DecidableEq, Repr

def TimerMode.all : List TimerMode := [.repeating, .once]

/-- Timer states (R127). -/
inductive TimerState where
  | stopped | running | draining
deriving DecidableEq, Repr

def TimerState.all : List TimerState := [.stopped, .running, .draining]

/-- Comparator modes (R134). -/
inductive ComparatorMode where
  | off | toggle | onceToggle | setClear | pair
deriving DecidableEq, Repr

def ComparatorMode.all : List ComparatorMode := [.off, .toggle, .onceToggle, .setClear, .pair]

/-! ### Intercom unit -/

/-- Intercom states (R144). -/
inductive IntercomState where
  | quiet | calling | opened | announce
deriving DecidableEq, Repr

def IntercomState.all : List IntercomState := [.quiet, .calling, .opened, .announce]

/-- A subset of the passenger stations {LEFT, RIGHT} (R144). -/
structure StationSet where
  left : Bool
  right : Bool
deriving DecidableEq, Repr

/-- The stations an ANSWER names (R148). -/
inductive AnswerStations where
  | left | right | both
deriving DecidableEq, Repr

def AnswerStations.all : List AnswerStations := [.left, .right, .both]

/-- Chimes (R157). -/
inductive ChimeId where
  | call | band | paid
deriving DecidableEq, Repr

def ChimeId.all : List ChimeId := [.call, .band, .paid]

/-- Gates of a chime (R157). -/
inductive Gate where
  | none | ct0 | ct1
deriving DecidableEq, Repr

def Gate.all : List Gate := [.none, .ct0, .ct1]

/-! ### Power unit -/

/-- Power states (R184). -/
inductive PowerState where
  | off | run | parked
deriving DecidableEq, Repr

end Sys2Proof.Machine
end

