-- ==== Sys2Proof/Machine/Formats.lean ====
section
/-! DEFINITION. Frame formats: the bytes of a frame and its check (R189), the tests a good frame is put to at ingress (R164), and the
payload layouts those tests refer to (R192, R193). -/

namespace Sys2Proof.Machine

/-- The bytes a frame's check is computed over: kind, route word, tag, length, payload (R189). -/
def frameBody (f : Frame) : List Byte :=
  f.kind :: wordBytes f.route ++ f.tag :: f.len :: f.payload

/-- A frame as its bytes stand on the wire, check included (R189). -/
def frameBytes (f : Frame) : List Byte :=
  frameBody f ++ wordBytes (crc16 (frameBody f))

/-- The frame of a kind that carries `payload`, its length field being the number of payload bytes. -/
def frameOf (kind : Kind) (route : RouteWord) (tag : Byte) (payload : List Byte) : Frame where
  kind := enc Kind.all kind
  route := route
  tag := tag
  len := byte payload.length
  payload := payload

/-- Whether received bytes pass the check: at least seven bytes, no stop bit read 0, and the last two bytes are the check of
those before them (R163, R189). -/
def checkPasses (bytes : List Byte) (stopBitLow : Bool) : Bool :=
  !stopBitLow && decide (7 ≤ bytes.length)
    && bytes.drop (bytes.length - 2) == wordBytes (crc16 (bytes.take (bytes.length - 2)))

/-- The good frame that bytes hold once their check has passed (R163). -/
def frameOfBytes (bytes : List Byte) : Option Frame :=
  match bytes with
  | kind :: hi :: lo :: tag :: len :: rest =>
    some ⟨kind, hi ++ lo, tag, len, rest.take (rest.length - 2)⟩
  | _ => none

/-- The route word's direct flag (R189). -/
def directFlag (r : RouteWord) : Bool :=
  r.getLsbD 15

/-- The route word's replace flag (R189). -/
def replaceFlag (r : RouteWord) : Bool :=
  r.getLsbD 14

/-- The route word's target set (R189). -/
def routeTargets (r : RouteWord) : PortSet :=
  r.extractLsb' 0 7

/-- The kind a frame's kind byte names; `none` for codes 11 to 255 (R189). -/
def kindOf (f : Frame) : Option Kind :=
  dec Kind.all f.kind

/-- The kinds a port may send (R164). -/
def acceptedKinds : Port → List Kind
  | .d => [.idle, .pay, .req, .pass]
  | .c => [.idle, .audio, .req, .pass]
  | .p => [.idle, .audio, .pass]
  | .k => [.idle, .pay, .pass]
  | .s => [.idle, .signStat, .pass]
  | .v => [.idle, .motion, .pass]

/-- The PAY sub-kinds a port may send (R164). -/
def acceptedSubs : Port → List PaySub
  | .d => [.authAnswer, .uploadAck]
  | .k => [.cardStage, .authAsk]
  | _ => []

/-- The sub-kind a PAY sub-kind byte names, code 1 upward (R193). -/
def paySubOf (b : Byte) : Option PaySub :=
  if b = 0 then none else PaySub.all[b.toNat - 1]?

/-- The code of a PAY sub-kind (R193). -/
def paySubCode (x : PaySub) : Byte :=
  byte (PaySub.all.idxOf x + 1)

/-- Test 1 of R164: the length field is at most 200 and the frame holds exactly the bytes it calls for. -/
def lengthTest (f : Frame) : Bool :=
  decide (f.len.toNat ≤ Config.maxPayload) && f.len.toNat == f.payload.length

/-- Test 3 of R164 on a payload of kind PAY: the sub-kind is one the port may send. A payload without a sub-kind byte names none. -/
def subTest (q : Port) (payload : List Byte) : Bool :=
  match payload with
  | [] => false
  | b :: _ =>
    match paySubOf b with
    | none => false
    | some x => decide (x ∈ acceptedSubs q)

/-- Test 4 of R164 on the fields of an accepted PAY sub-kind: its length, and its code fields (R191, R193). -/
def paySubFieldsTest (x : PaySub) (fields : List Byte) : Bool :=
  match x with
  | .cardStage =>
    match fields with
    | [_, stage] => (dec CardStage.all stage).isSome
    | _ => false
  | .authAsk => fields.length == 29
  | .authAnswer =>
    match fields with
    | [_, _, result] => (dec AnswerResult.all result).isSome
    | _ => false
  | .uploadAck => fields.length == 2
  | _ => false

/-- Test 4 of R164: the payload has a length the kind allows and every field lies in its representable set. REQ and PASS
payloads are not tested here. -/
def payloadTest (q : Port) (kind : Kind) (payload : List Byte) : Bool :=
  match kind with
  | .idle => payload.isEmpty
  | .motion => payload.length == 3
  | .audio => payload.length == (if q = .p then 161 else 81)
  | .signStat =>
    match payload with
    | [_, panel] => (flagOf panel).isSome
    | _ => false
  | .pay =>
    match payload with
    | [] => false
    | b :: fields =>
      match paySubOf b with
      | none => false
      | some x => paySubFieldsTest x fields
  | _ => true

/-- Why R164 discards a good frame on an UP port, by the first test it fails; `none` when it passes all four. -/
def ingressFailure (q : Port) (f : Frame) : Option DiscardReason :=
  if !lengthTest f then some .length
  else
    match kindOf f with
    | none => some .kindNotAllowed
    | some kind =>
      if kind ∉ acceptedKinds q then some .kindNotAllowed
      else if kind = .pay ∧ !subTest q f.payload then some .kindNotAllowed
      else if !payloadTest q kind f.payload then some .length
      else none

/-- The number of requests in the catalogue; their codes run from 1 (R190). -/
def requestCount : Nat := 59

end Sys2Proof.Machine
end

