-- ==== Sys2Proof/Machine/State.lean ====
section
/-! DEFINITION. The state of the hub, block by block as the manual's block list gives it (00_scope), its values after power-on
reset, and the reasons a step can stop. Every field is plain data. INVENTORY.md lists each field with its rule and its reset value. -/

namespace Sys2Proof.Machine

/-! ### Reasons to stop -/

/-- Reasons for a fault. No event of the manual stops the hub: every request is done or refused by a reply, every frame is
taken, dropped or discarded with a count. So no meaning raises a fault, and the type has no constructor. -/
inductive Fault where
deriving DecidableEq, Repr

/-- Reasons for a refusal of the model itself (not a REFUSED reply, which is an effect on State). -/
inductive Refusal where
  /-- Raised by exec's arm for a command that has no meaning yet; no arm raises it now. Safe: the model stops. -/
  | notModelled (mnemonic : String)
deriving DecidableEq, Repr

/-! ### Timers -/

/-- A timer that ends in an expiry event: stopped, or running with the period in milliseconds it was last started with. -/
abbrev Timer := Option Nat

/-! ### Link switch (R163 to R175) -/

/-- One value for each port. -/
structure PerPort (α : Type) where
  d : α
  c : α
  p : α
  k : α
  s : α
  v : α
deriving DecidableEq, Repr

/-- The value of port `q`. -/
def PerPort.get {α : Type} (x : PerPort α) : Port → α
  | .d => x.d | .c => x.c | .p => x.p | .k => x.k | .s => x.s | .v => x.v

/-- `x` with port `q`'s value replaced. -/
def PerPort.set {α : Type} (x : PerPort α) (q : Port) (y : α) : PerPort α :=
  match q with
  | .d => { x with d := y } | .c => { x with c := y } | .p => { x with p := y }
  | .k => { x with k := y } | .s => { x with s := y } | .v => { x with v := y }

/-- What the link switch holds for one port (R166 to R170, R175). -/
structure PortState where
  up : Bool
  shut : Bool
  bringUp : Bool
  silence : Timer
  quiet : Timer
  voice : List Frame
  general : List Frame
  sending : Option Frame
  checkErrors : Nat
  discards : Nat
deriving DecidableEq, Repr

/-- A route table entry (R172). -/
structure Route where
  targets : PortSet
  policy : DirectPolicy
  report : Bool
deriving DecidableEq, Repr

/-- The link switch. -/
structure LinkSwitch where
  ports : PerPort PortState
  passRoutes : PerPort Route
  telemetryRoutes : PerPort Route
deriving DecidableEq, Repr

/-! ### Request unit (R181) -/

/-- The notice sequence numbers. -/
structure RequestUnit where
  seqC : Nat
  seqD : Nat
deriving DecidableEq, Repr

/-! ### Tariff store and cab clock (R1 to R17) -/

/-- The parameters entry (R1). -/
structure Params where
  defaultTariff : Nat
  k : Nat
  plausibility : Nat
  seatLimit : Nat
  setId : Nat
deriving DecidableEq, Repr

/-- A tariff entry (R2). -/
structure Tariff where
  method : Method
  flagFall : Nat
  allowDistance : Nat
  allowTime : Nat
  stepAmount : Nat
  stepDistance : Nat
  stepTime : Nat
deriving DecidableEq, Repr

/-- A schedule entry (R3). -/
structure Schedule where
  days : DaySet
  start : Nat
  tariff : Nat
deriving DecidableEq, Repr

/-- An extras entry (R3). -/
structure Extra where
  kind : ExtraKind
  amount : Nat
  limit : Nat
deriving DecidableEq, Repr

/-- The four tables of a tariff set; `none` is an absent entry. -/
structure TariffSet where
  params : Option Params
  tariffs : Vector (Option Tariff) 8
  schedule : Vector (Option Schedule) 16
  extras : Vector (Option Extra) 8
deriving DecidableEq, Repr

/-- The set with every entry absent (R4, R5). -/
def TariffSet.empty : TariffSet where
  params := none
  tariffs := Vector.replicate 8 none
  schedule := Vector.replicate 16 none
  extras := Vector.replicate 8 none

/-- The tariff store and the cab clock. `staging` is `none` while the buffer is ABSENT; `band` is `none` for NONE. -/
structure TariffStore where
  inForce : TariffSet
  setId : Nat
  changes : Nat
  staging : Option TariffSet
  cabNumber : BitVec 32
  clock : Stamp
  band : Option Nat
deriving DecidableEq, Repr

/-! ### Fare engine (R18 to R49) -/

/-- A party record (R18). -/
structure Party where
  state : PartyState
  trip : Nat
  station : Station
  tariff : Nat
  lock : Lock
  phaseD : Phase
  phaseT : Phase
  accD : Nat
  accT : Nat
  pulses : Nat
  ticks : Nat
  fare : Nat
  extras : Nat
  uses : Vector Nat 8
  cash : Nat
  cardOnline : Nat
  cardOffline : Nat
  tipsOnline : Nat
  tipsOffline : Nat
  capped : Bool
  shared : Bool
  motionLost : Bool
  hireTime : Stamp
deriving DecidableEq, Repr

/-- The values of an IDLE slot (R18). -/
def Party.vacant : Party where
  state := .idle
  trip := 0
  station := .none
  tariff := 0
  lock := .auto
  phaseD := .allowance
  phaseT := .allowance
  accD := 0
  accT := 0
  pulses := 0
  ticks := 0
  fare := 0
  extras := 0
  uses := Vector.replicate 8 0
  cash := 0
  cardOnline := 0
  cardOffline := 0
  tipsOnline := 0
  tipsOffline := 0
  capped := false
  shared := false
  motionLost := false
  hireTime := ⟨0, 0, false⟩

/-- The fare engine: the party table, the last odometer count and whether it is known (R33), the share flag (R19). -/
structure FareEngine where
  parties : Vector Party 4
  lastCount : Nat
  countKnown : Bool
  share : Bool
deriving DecidableEq, Repr

/-! ### Milestone unit (R50 to R61) -/

/-- A milestone entry (R50); the filter is `none` for ANY. -/
structure Milestone where
  enabled : Bool
  quantity : Quantity
  threshold : Nat
  repetition : Repetition
  filter : Option Nat
  action : MilestoneAction
  argument : Nat
deriving DecidableEq, Repr

/-- One cell of the armed matrix: the next level and the fired mark (R53). -/
structure Armed where
  level : Nat
  fired : Bool
deriving DecidableEq, Repr

/-- The milestone table and the armed matrix, entry by slot. -/
structure MilestoneUnit where
  table : Vector Milestone 12
  matrix : Vector (Vector Armed 4) 12
deriving DecidableEq, Repr

/-! ### Payment unit (R62 to R90) -/

/-- A payment record (R62). -/
structure Record where
  slot : Fin 4
  offered : Nat
  state : RecordState
  terminalRef : Option (BitVec 32)
  amountAsked : Option Nat
  tipAsked : Option Nat
  hubRef : Option Nat
deriving DecidableEq, Repr

/-- The two kinds of store-and-forward entry, with the fields only an offline sale carries (R78). -/
inductive StoreKind where
  | sale (amount tip : Nat) (token : BitVec 128)
  | reversal
deriving DecidableEq, Repr

/-- A store-and-forward entry (R78). -/
structure StoreEntry where
  kind : StoreKind
  hubRef : Nat
  slot : Fin 4
  trip : Nat
  shift : Nat
  stamp : Stamp
deriving DecidableEq, Repr

/-- The payment policy (R84). -/
structure Policy where
  floorLimit : Nat
  shiftCap : Nat
  answerTimeout : Nat
  tipPercent : Nat
  forceOffline : Bool
  listen : Bool
deriving DecidableEq, Repr

/-- The payment unit. The refusal list is held in the order its prefixes were added, without repeats (R86). -/
structure PaymentUnit where
  queue : List Record
  policy : Policy
  refusalList : List (BitVec 64)
  store : List StoreEntry
  refCounter : Nat
  unmatched : Nat
  upload : UploadState
  offerTimer : Timer
  answerTimer : Timer
  uploadTimer : Timer
deriving DecidableEq, Repr

/-! ### Shift unit (R91 to R110) -/

/-- The counts, money, and distance and time a shift accumulates (R98, R99). -/
structure Totals where
  started : Nat
  closed : Nat
  voided : Nat
  capped : Nat
  shared : Nat
  signFaults : Nat
  implausible : Nat
  offlineSales : Nat
  reversals : Nat
  fares : Nat
  extras : Nat
  tips : Nat
  cash : Nat
  cardOnline : Nat
  cardOffline : Nat
  committed : Nat
  saturated : Bool
  hiredPulses : Nat
  emptyPulses : Nat
  hiredTicks : Nat
  breakTicks : Nat
  shiftTicks : Nat
deriving DecidableEq, Repr

/-- Every total 0 with the saturation flag clear (R91, R94). -/
def Totals.zero : Totals :=
  ⟨0, 0, 0, 0, 0, 0, 0, 0, 0, 0, 0, 0, 0, 0, 0, 0, false, 0, 0, 0, 0, 0⟩

/-- Three totals pages of one moment, as read live, held in a snapshot or held in a report (R97, R106). -/
structure Pages where
  number : Nat
  driverId : Nat
  state : ShiftState
  openTime : Stamp
  stamp : Stamp
  setId : Nat
  changes : Nat
  totals : Totals
  occupancy : Nat
  hiredMetres : Nat
  emptyMetres : Nat
deriving DecidableEq, Repr

/-- A held snapshot: its pages and the read marks of pages 0, 1 and 2 (R106). -/
structure Snapshot where
  pages : Pages
  read0 : Bool
  read1 : Bool
  read2 : Bool
deriving DecidableEq, Repr

/-- The shift unit: the shift record (R91), the snapshot and the report queue, oldest report first. -/
structure ShiftUnit where
  state : ShiftState
  number : Nat
  driverId : Nat
  openTime : Stamp
  setId : Nat
  changes : Nat
  totals : Totals
  snapshot : Option Snapshot
  reports : List Pages
deriving DecidableEq, Repr

/-! ### Sign unit (R111 to R126) -/

/-- A view (R117). -/
structure View where
  source : PanelSource
  imageBase : Nat
  animation : Animation
  timer : TimerId
  tariffIndexed : Bool
  lamps : Vector LampProgram 4
deriving DecidableEq, Repr

/-- A stripe (R120). -/
structure Stripe where
  width : Nat
  column : Byte
deriving DecidableEq, Repr

/-- A sign output: 80 column bytes, column 0 first, and four lamp states (R122). -/
structure SignOutput where
  panel : List Byte
  lamps : Lamps
deriving DecidableEq, Repr

/-- 80 columns of 0 and every lamp off (R123). -/
def SignOutput.dark : SignOutput where
  panel := List.replicate 80 0
  lamps := Vector.replicate 4 false

/-- The sign unit. `riding`, `share`, `seatLimit` and `shift` are the inputs as last delivered (R111, R112, R125). `imageInUse` is the
effective image of the composition that gave the last output, none where its view's source was not IMAGE (R118, R125,
notes/assumptions/24.md). -/
structure SignUnit where
  mode : SignMode
  latch : Bool
  alarmSeen : Bool
  offDuty : Bool
  riding : Nat
  share : Bool
  seatLimit : Nat
  shift : ShiftState
  views : Vector View 5
  images : Vector (List Byte) 8
  stripes : Vector Stripe 8
  block : List Byte
  output : SignOutput
  imageInUse : Option Nat
  refresh : Nat
  lampFaults : Lamps
  panelFault : Bool
deriving DecidableEq, Repr

/-! ### Cadence unit (R127 to R141) -/

/-- A cadence timer (R127). -/
structure CadenceTimer where
  programmed : Nat
  current : Nat
  mode : TimerMode
  state : TimerState
  count : Nat
  terminal : Bool
deriving DecidableEq, Repr

/-- A lamp comparator (R134). -/
structure Comparator where
  timer : TimerId
  value : Nat
  mode : ComparatorMode
  lamp : Fin 4
  armed : Bool
deriving DecidableEq, Repr

/-- The cadence unit. -/
structure CadenceUnit where
  ct0 : CadenceTimer
  ct1 : CadenceTimer
  comparators : Vector Comparator 8
  latches : Lamps
deriving DecidableEq, Repr

/-! ### Intercom unit (R142 to R162) -/

/-- The four gains (R153). -/
structure Gains where
  gL : Nat
  gR : Nat
  hL : Nat
  hR : Nat
deriving DecidableEq, Repr

/-- A chime table entry (R157). -/
structure Chime where
  halfPeriod : Nat
  amplitude : Nat
  duration : Nat
  gate : Gate
deriving DecidableEq, Repr

/-- The chime table. -/
structure ChimeTable where
  call : Chime
  band : Chime
  paid : Chime
deriving DecidableEq, Repr

/-- What an ACTIVE player holds (R158). -/
structure Playing where
  chime : ChimeId
  entry : Chime
  index : Nat
  produced : Nat
deriving DecidableEq, Repr

/-- The intercom unit. A player is `none` while IDLE. `callCounts` is the model's own: the cadence counts taken since the call
timer was last started (notes/assumptions/4.md). `muted` is what PIN muting silenced in the last frame from P (R162). -/
structure IntercomUnit where
  state : IntercomState
  calling : StationSet
  opened : StationSet
  callTimer : Timer
  callCounts : Nat
  seenLeft : Bool
  seenRight : Bool
  seenTalk : Bool
  gains : Gains
  chimes : ChimeTable
  driverPlayer : Option Playing
  partitionPlayer : Option Playing
  listen : Bool
  emergency : Bool
  seqC : Nat
  seqP : Nat
  seqD : Nat
  muted : StationSet
deriving DecidableEq, Repr

/-! ### Power unit (R184 to R188) -/

/-- The power unit. `shutPending` is set while S waits to be shut after a park (R185). -/
structure PowerUnit where
  state : PowerState
  parkTimer : Timer
  ignition : Bool
  allIdle : Bool
  latch : Bool
  shutPending : Bool
deriving DecidableEq, Repr

/-! ### The whole hub -/

/-- The state of the hub and, in `pending`, the queue of commands that wait, first in, first out. -/
structure State where
  link : LinkSwitch
  request : RequestUnit
  tariff : TariffStore
  fare : FareEngine
  milestone : MilestoneUnit
  payment : PaymentUnit
  shift : ShiftUnit
  sign : SignUnit
  cadence : CadenceUnit
  intercom : IntercomUnit
  power : PowerUnit
  pending : List Instr
deriving DecidableEq, Repr

/-! ### Values after power-on reset -/

/-- A port after power-on reset: DOWN, not shut, its quiet timer running (R166, R168, R175). -/
def PortState.reset : PortState where
  up := false
  shut := false
  bringUp := false
  silence := none
  quiet := some Config.quietPeriod
  voice := []
  general := []
  sending := none
  checkErrors := 0
  discards := 0

/-- An empty route table entry (R172). -/
def Route.reset : Route where
  targets := 0
  policy := .none
  report := false

/-- The link switch after power-on reset; PASS from C goes to D and PASS from D to C (R172). -/
def LinkSwitch.reset : LinkSwitch where
  ports := ⟨.reset, .reset, .reset, .reset, .reset, .reset⟩
  passRoutes :=
    ⟨⟨0b0000010, .maskOnly, false⟩, ⟨0b0000001, .maskOnly, false⟩, .reset, .reset, .reset, .reset⟩
  telemetryRoutes := ⟨.reset, .reset, .reset, .reset, .reset, .reset⟩

/-- The tariff store after power-on reset (R4, R5, R10, R13, R15, R17). -/
def TariffStore.reset : TariffStore where
  inForce := .empty
  setId := 0
  changes := 0
  staging := none
  cabNumber := 0
  clock := ⟨0, 0, false⟩
  band := none

/-- The fare engine after power-on reset (R18, R19, R33). -/
def FareEngine.reset : FareEngine where
  parties := Vector.replicate 4 .vacant
  lastCount := 0
  countKnown := false
  share := false

/-- A milestone entry after power-on reset (R50). -/
def Milestone.reset : Milestone where
  enabled := false
  quantity := .distance
  threshold := 1
  repetition := .once
  filter := none
  action := .notify
  argument := 0

/-- The milestone unit after power-on reset (R50, R53). -/
def MilestoneUnit.reset : MilestoneUnit where
  table := Vector.replicate 12 .reset
  matrix := Vector.replicate 12 (Vector.replicate 4 ⟨1, false⟩)

/-- The payment policy after power-on reset (R84, R160). -/
def Policy.reset : Policy where
  floorLimit := 0
  shiftCap := 0
  answerTimeout := 30
  tipPercent := 0
  forceOffline := false
  listen := false

/-- The payment unit after power-on reset (R62, R69, R73, R78, R80, R84, R86). -/
def PaymentUnit.reset : PaymentUnit where
  queue := []
  policy := .reset
  refusalList := []
  store := []
  refCounter := 0
  unmatched := 0
  upload := .idle
  offerTimer := none
  answerTimer := none
  uploadTimer := none

/-- The shift unit after power-on reset (R91, R106, R108). -/
def ShiftUnit.reset : ShiftUnit where
  state := .closed
  number := 0
  driverId := 0
  openTime := ⟨0, 0, false⟩
  setId := 0
  changes := 0
  totals := .zero
  snapshot := none
  reports := []

/-- A view after power-on reset (R117). -/
def View.reset : View where
  source := .dark
  imageBase := 0
  animation := .steady
  timer := .ct0
  tariffIndexed := false
  lamps := Vector.replicate 4 .off

/-- The sign unit after power-on reset (R112, R113, R116, R117, R119 to R121, R123, R124). -/
def SignUnit.reset : SignUnit where
  mode := .offDuty
  latch := false
  alarmSeen := false
  offDuty := false
  riding := 0
  share := false
  seatLimit := 1
  shift := .closed
  views := Vector.replicate 5 .reset
  images := Vector.replicate 8 (List.replicate 80 0)
  stripes := Vector.replicate 8 ⟨0, 0⟩
  block := [0]
  output := .dark
  imageInUse := none
  refresh := 0
  lampFaults := Vector.replicate 4 false
  panelFault := false

/-- A cadence timer after power-on reset (R127). -/
def CadenceTimer.reset : CadenceTimer where
  programmed := 2
  current := 2
  mode := .repeating
  state := .stopped
  count := 0
  terminal := false

/-- The cadence unit after power-on reset (R127, R134, R140). -/
def CadenceUnit.reset : CadenceUnit where
  ct0 := .reset
  ct1 := .reset
  comparators := Vector.replicate 8 ⟨.ct0, 0, .off, 0, true⟩
  latches := Vector.replicate 4 false

/-- The intercom unit after power-on reset (R142 to R144, R153, R157, R158, R160). -/
def IntercomUnit.reset : IntercomUnit where
  state := .quiet
  calling := ⟨false, false⟩
  opened := ⟨false, false⟩
  callTimer := none
  callCounts := 0
  seenLeft := false
  seenRight := false
  seenTalk := false
  gains := ⟨64, 64, 64, 64⟩
  chimes := ⟨⟨10, 4000, 40, .none⟩, ⟨8, 3000, 20, .none⟩, ⟨5, 3000, 30, .none⟩⟩
  driverPlayer := none
  partitionPlayer := none
  listen := false
  emergency := false
  seqC := 0
  seqP := 0
  seqD := 0
  muted := ⟨false, false⟩

/-- The power unit after power-on reset: RUN, ignition on, all slots IDLE, latch clear (R184, R188). -/
def PowerUnit.reset : PowerUnit where
  state := .run
  parkTimer := none
  ignition := true
  allIdle := true
  latch := false
  shutPending := false

/-- The hub right after power-on reset (R188), with no command waiting. -/
def State.reset : State where
  link := .reset
  request := ⟨0, 0⟩
  tariff := .reset
  fare := .reset
  milestone := .reset
  payment := .reset
  shift := .reset
  sign := .reset
  cadence := .reset
  intercom := .reset
  power := .reset
  pending := []

end Sys2Proof.Machine
end

