-- ==== Sys2Proof/Machine/Ops.lean ====
section
/-! DEFINITION. The operations every block shares: saturating counters, port state, the two egress lanes and the transmitter
(R169, R170), discards (R174), notices (R181), replies (R178), and the timers' and the clock's stamps. -/

namespace Sys2Proof.Machine

/-! ### Counters -/

/-- `n` grown by `k`, stopping at `bound`. -/
def saturate (bound n k : Nat) : Nat :=
  min bound (n + k)

/-- A one-byte sequence number after one more frame: 255 is followed by 0 (R143, R181). -/
def nextSeq (n : Nat) : Nat :=
  (n + 1) % 256

/-- The six bytes of a clock stamp (R190). -/
def stampBytes (t : Stamp) : List Byte :=
  be 2 t.day ++ be 3 t.ds ++ [flag t.valid]

/-- The clock stamp of this event: the cab clock as it stands (R13). -/
def State.stamp (s : State) : Stamp :=
  s.tariff.clock

/-! ### Ports -/

/-- What the link switch holds for port `q`. -/
def State.port (s : State) (q : Port) : PortState :=
  s.link.ports.get q

/-- The state with port `q` replaced. -/
def State.setPort (s : State) (q : Port) (x : PortState) : State :=
  { s with link := { s.link with ports := s.link.ports.set q x } }

/-- Whether port `q` is UP. -/
def State.isUp (s : State) (q : Port) : Bool :=
  (s.port q).up

/-! ### Lanes and transmitter -/

/-- The transmitter's choice: an idle transmitter takes the head of the voice lane if there is one, and otherwise the head of the
general lane (R170). -/
def PortState.arbitrate (x : PortState) : PortState :=
  match x.sending, x.voice, x.general with
  | none, f :: rest, _ => { x with sending := some f, voice := rest }
  | none, [], f :: rest => { x with sending := some f, general := rest }
  | _, _, _ => x

/-- One more discard counted on a port (R174). -/
def PortState.countDiscard (x : PortState) : PortState :=
  { x with discards := saturate Config.counterMax x.discards 1 }

/-- A frame placed toward a port's general lane, and why it was discarded if it was (R169). -/
def PortState.placeGeneral (x : PortState) (f : Frame) : PortState × Option DiscardReason :=
  if !x.up then (x.countDiscard, some .linkDown)
  else if Config.generalCapacity ≤ x.general.length then (x.countDiscard, some .queueFull)
  else ({ x with general := x.general ++ [f] }.arbitrate, none)

/-- A frame placed toward a port's voice lane. A full lane drops its oldest frame and counts it; a DOWN port discards (R169). -/
def PortState.placeVoice (x : PortState) (f : Frame) : PortState :=
  if !x.up then x.countDiscard
  else if Config.voiceCapacity ≤ x.voice.length then
    { x.countDiscard with voice := x.voice.drop 1 ++ [f] }.arbitrate
  else { x with voice := x.voice ++ [f] }.arbitrate

/-- A frame of the hub's own placed in a general lane; a discard is counted and not reported (R169, R174). -/
def emit (q : Port) (f : Frame) (s : State) : State :=
  s.setPort q ((s.port q).placeGeneral f).1

/-- An AUDIO frame placed in a voice lane (R169). -/
def emitVoice (q : Port) (f : Frame) (s : State) : State :=
  s.setPort q ((s.port q).placeVoice f)

/-- A voice lane emptied without count or notice (R171). -/
def purgeVoice (q : Port) (s : State) : State :=
  s.setPort q { s.port q with voice := [] }

/-! ### Frames the hub forms (R190: route word 0, tag 0 unless a rule sets it) -/

/-- A frame of the hub's own with tag 0. -/
def plainFrame (kind : Kind) (payload : List Byte) : Frame :=
  frameOf kind 0 0 payload

/-- A PAY frame of the hub's own (R193). -/
def payFrame (x : PaySub) (fields : List Byte) : Frame :=
  plainFrame .pay (paySubCode x :: fields)

/-! ### Notices (R181) -/

/-- The code of a notice, 1 upward (R190). -/
def noticeCode (n : Notice) : Byte :=
  byte (Notice.all.idxOf n + 1)

/-- The NOTE frame of a notice (R194). -/
def noticeFrame (seq : Nat) (n : Notice) (fields : List Byte) : Frame :=
  frameOf .note 0 (byte seq) (noticeCode n :: fields)

/-- A notice placed toward C: it takes C's sequence number, which grows whether the lane takes the frame or not. -/
def notifyC (n : Notice) (fields : List Byte) (s : State) : State :=
  let s' := emit .c (noticeFrame s.request.seqC n fields) s
  { s' with request := { s'.request with seqC := nextSeq s.request.seqC } }

/-- A notice placed toward D. -/
def notifyD (n : Notice) (fields : List Byte) (s : State) : State :=
  let s' := emit .d (noticeFrame s.request.seqD n fields) s
  { s' with request := { s'.request with seqD := nextSeq s.request.seqD } }

/-- A notice placed toward C and toward D. -/
def notifyBoth (n : Notice) (fields : List Byte) (s : State) : State :=
  notifyD n fields (notifyC n fields s)

/-! ### Discards (R174) -/

/-- A discard counted on port `q`. -/
def countDiscard (q : Port) (s : State) : State :=
  s.setPort q (s.port q).countDiscard

/-- The DISCARD notice of a frame that came from port `ingress`, placed when its entry's report is yes. Frames taken in
PARKED place none (R174, R186), which `parked` says. -/
def reportDiscard (ingress : Port) (reason : DiscardReason) (named : Option Port) (kind : Byte) (report parked : Bool)
    (s : State) : State :=
  if report && !parked then
    notifyC .discard
      [byte ingress.number, enc DiscardReason.all reason, match named with | some q => byte q.number | none => 255, kind] s
  else s

/-- A good frame discarded at its ingress: counted on the ingress port, reported by that port's PASS entry (R174). -/
def discardAtIngress (q : Port) (reason : DiscardReason) (f : Frame) (parked : Bool) (s : State) : State :=
  reportDiscard q reason none f.kind (s.link.passRoutes.get q).report parked (countDiscard q s)

/-- A copy of a frame from `ingress` placed toward `q`, its discard counted there and reported by `report` (R173, R174). -/
def placeCopy (ingress q : Port) (f : Frame) (report parked : Bool) (s : State) : State :=
  let r := (s.port q).placeGeneral f
  let s' := s.setPort q r.1
  match r.2 with
  | none => s'
  | some reason => reportDiscard ingress reason (some q) f.kind report parked s'

/-! ### Replies (R178, R194) -/

/-- What an owner makes of a request: DONE with result fields and the clamp mark, or REFUSED with a reason and the two
bytes that name an offending item, 255 where none is named (R178, R194). -/
inductive Result where
  | done (fields : List Byte) (clamped : Bool)
  | refused (reason : Reason) (item : Byte × Byte)
deriving DecidableEq, Repr

/-- DONE without a clamp. -/
def Result.ok (fields : List Byte) : Result :=
  .done fields false

/-- REFUSED naming no item. -/
def Result.refuse (reason : Reason) : Result :=
  .refused reason (255, 255)

/-- The code of a reason, 1 upward (R190). -/
def reasonCode (r : Reason) : Byte :=
  byte (Reason.all.idxOf r + 1)

/-- The payload of a REPLY: request code, status, clamp mark, reason, item, result fields (R194). -/
def replyPayload (code : Byte) (status : Status) (clamped : Bool) (reason : Byte) (item : Byte × Byte)
    (fields : List Byte) : List Byte :=
  code :: enc Status.all status :: flag clamped :: reason :: item.1 :: item.2 :: fields

/-- The REPLY frame of an owner's result (R178). -/
def replyFrame (tag code : Byte) : Result → Frame
  | .done fields clamped => frameOf .reply 0 tag (replyPayload code .done clamped 0 (255, 255) fields)
  | .refused reason item => frameOf .reply 0 tag (replyPayload code .refused false (reasonCode reason) item [])

/-- The REPLY frame of a request that never reached its owner (R176). -/
def statusFrame (tag code : Byte) (status : Status) : Frame :=
  frameOf .reply 0 tag (replyPayload code status false 0 (255, 255) [])

/-! ### Tables -/

/-- An index argument as an index of a table of `n` entries, when it lies inside it (R190). -/
def index (n : Nat) (b : Byte) : Option (Fin n) :=
  if h : b.toNat < n then some ⟨b.toNat, h⟩ else none

/-- The four slots in slot order (R35, R36). -/
def slots : List (Fin 4) :=
  [0, 1, 2, 3]

/-- A party of the table. -/
def State.party (s : State) (i : Fin 4) : Party :=
  s.fare.parties[i]

/-- The state with one party replaced. -/
def State.setParty (s : State) (i : Fin 4) (p : Party) : State :=
  { s with fare := { s.fare with parties := s.fare.parties.set i p } }

end Sys2Proof.Machine
end

