-- ==== Sys2Proof/Machine/Flags.lean ====
section
/-! DEFINITION. Values the blocks compute from state and do not store: amounts due, the seat limit, thresholds, metres, timer
phases, the sign mode's derivation, the park conditions, the muted stations. -/

namespace Sys2Proof.Machine

/-! ### Tariff set -/

/-- Whether a set is in force: it has a parameters entry from the first accepted commit onward (R1, R4). -/
def State.setInForce (s : State) : Bool :=
  s.tariff.inForce.params.isSome

/-- The tariff entry an index names in the set in force. -/
def State.tariffAt (s : State) (i : Nat) : Option Tariff :=
  (s.tariff.inForce.tariffs[i]?).join

/-- The extras entry an index names in the set in force. -/
def State.extraAt (s : State) (i : Nat) : Option Extra :=
  (s.tariff.inForce.extras[i]?).join

/-- The calibration constant k of the set in force, `none` while it is unset (R1). -/
def State.calibration (s : State) : Option Nat :=
  s.tariff.inForce.params.map Params.k

/-- Pulses as metres: times 1,000 divided by k, rounded down; 0 while no set is in force (R43, R99). -/
def metres (k : Option Nat) (pulses : Nat) : Nat :=
  match k with
  | none => 0
  | some k => pulses * 1000 / k

/-! ### Parties -/

/-- The amount due: fare plus extras, less cash paid and card bases (R20). -/
def Party.due (p : Party) : Nat :=
  p.fare + p.extras - (p.cash + p.cardOnline + p.cardOffline)

/-- Whether a party record is other than IDLE. -/
def Party.riding (p : Party) : Bool :=
  p.state != .idle

/-- Trip distance in metres, with the k in force (R43). -/
def State.tripMetres (s : State) (p : Party) : Nat :=
  metres s.calibration p.pulses

/-- The count of slots that are not IDLE. -/
def State.ridingCount (s : State) : Nat :=
  slots.countP fun i => (s.party i).riding

/-- Whether every slot is IDLE. -/
def State.everyIdle (s : State) : Bool :=
  slots.all fun i => !(s.party i).riding

/-- Whether at least one slot is METERING. -/
def State.anyMetering (s : State) : Bool :=
  slots.any fun i => (s.party i).state == .metering

/-- The seat limit: 1 while the share flag is clear, else the share seat limit of the set in force (R19). -/
def State.seatLimit (s : State) : Nat :=
  if s.fare.share then
    match s.tariff.inForce.params with
    | some p => p.seatLimit
    | none => 1
  else 1

/-- The lowest-numbered IDLE slot (R22). -/
def State.lowestIdle (s : State) : Option (Fin 4) :=
  slots.find? fun i => !(s.party i).riding

/-- The lowest-numbered slot that is not IDLE (R118). -/
def State.lowestRiding (s : State) : Option (Fin 4) :=
  slots.find? fun i => (s.party i).riding

/-- Whether a slot other than `i` that is not IDLE holds the station (R22, R31). -/
def State.stationTaken (s : State) (st : Station) (other : Fin 4 → Bool) : Bool :=
  st != .none && slots.any fun i => other i && (s.party i).riding && (s.party i).station == st

/-- The slot that holds a station: the one that is not IDLE and sits there (R48). -/
def State.slotAt (s : State) (st : Station) : Option (Fin 4) :=
  slots.find? fun i => (s.party i).riding && (s.party i).station == st

/-! ### Cadence timers -/

/-- A cadence timer. -/
def CadenceUnit.timer (x : CadenceUnit) : TimerId → CadenceTimer
  | .ct0 => x.ct0
  | .ct1 => x.ct1

/-- The cadence unit with a timer replaced. -/
def CadenceUnit.setTimer (x : CadenceUnit) (t : TimerId) (y : CadenceTimer) : CadenceUnit :=
  match t with
  | .ct0 => { x with ct0 := y }
  | .ct1 => { x with ct1 := y }

/-- Whether a timer counts: RUNNING or DRAINING. -/
def CadenceTimer.active (t : CadenceTimer) : Bool :=
  t.state != .stopped

/-- A timer's phase, `true` for HIGH: while it counts and its count is above half the current period (R128). -/
def CadenceTimer.high (t : CadenceTimer) : Bool :=
  t.active && decide (t.current / 2 < t.count)

/-- The code of a phase: HIGH 0, LOW 1 (R128, R190). -/
def phaseCode (high : Bool) : Byte :=
  if high then 0 else 1

/-! ### Sign -/

/-- The sign mode derived from its six inputs, the first line of R111's table that holds. -/
def deriveMode (latch : Bool) (riding : Nat) (share : Bool) (limit : Nat) (shift : ShiftState) (offDuty : Bool) : SignMode :=
  if latch then .emergency
  else if 0 < riding ∧ (!share ∨ riding = limit) then .hired
  else if 0 < riding ∧ share ∧ riding < limit then .shareOpen
  else if shift ≠ .opened ∨ offDuty then .offDuty
  else .forHire

/-- The mode the sign unit's inputs give, as last delivered. -/
def SignUnit.derived (x : SignUnit) : SignMode :=
  deriveMode x.latch x.riding x.share x.seatLimit x.shift x.offDuty

/-- The mode with the latch taken as clear, as the console is told it (R115, R116, R125). -/
def SignUnit.publicMode (x : SignUnit) : SignMode :=
  deriveMode false x.riding x.share x.seatLimit x.shift x.offDuty

/-- A mode's place in the view table (R126). -/
def SignMode.index : SignMode → Fin 5
  | .emergency => 0
  | .hired => 1
  | .shareOpen => 2
  | .offDuty => 3
  | .forHire => 4

/-- The byte of four lamp states, lamp n in bit n (R190). -/
def lampByte (l : Lamps) : Byte :=
  byte ((if l[0] then 1 else 0) + (if l[1] then 2 else 0) + (if l[2] then 4 else 0) + (if l[3] then 8 else 0))

/-- The four lamp states of a byte; its other bits are reserved (R190, R191). -/
def lampsOf (b : Byte) : Lamps :=
  #v[b.getLsbD 0, b.getLsbD 1, b.getLsbD 2, b.getLsbD 3]

/-! ### Power -/

/-- The three park conditions (R184). -/
def PowerUnit.mayPark (x : PowerUnit) : Bool :=
  !x.ignition && x.allIdle && !x.latch

/-- Whether the hub is PARKED. -/
def State.parked (s : State) : Bool :=
  s.power.state == .parked

/-- Whether the hub is in RUN. -/
def State.running (s : State) : Bool :=
  s.power.state == .run

/-! ### Payment -/

/-- The head of the payment queue when it is in PIN (R66). -/
def State.pinHead (s : State) : Option Record :=
  match s.payment.queue with
  | r :: _ => if r.state = .pin then some r else none
  | [] => none

/-- The stations PIN muting silences: the paying party's, or both when it has none (R156). -/
def State.mutedStations (s : State) : StationSet :=
  match s.pinHead with
  | none => ⟨false, false⟩
  | some r =>
    match (s.party r.slot).station with
    | .left => ⟨true, false⟩
    | .right => ⟨false, true⟩
    | .none => ⟨true, true⟩

/-! ### Station sets -/

/-- No station. -/
def StationSet.none : StationSet := ⟨false, false⟩

/-- Both stations. -/
def StationSet.both : StationSet := ⟨true, true⟩

/-- Whether a set has no station. -/
def StationSet.isEmpty (x : StationSet) : Bool :=
  !x.left && !x.right

/-- The stations of either set. -/
def StationSet.union (x y : StationSet) : StationSet :=
  ⟨x.left || y.left, x.right || y.right⟩

/-- A set of stations as a byte, LEFT bit 0 and RIGHT bit 1, as the button byte has them (R192). -/
def StationSet.byte (x : StationSet) : Byte :=
  Sys2Proof.byte ((if x.left then 1 else 0) + (if x.right then 2 else 0))

end Sys2Proof.Machine
end

