-- ==== Sys2Proof/Machine/Intercom.lean ====
section
/-! DEFINITION. The intercom unit: the call protocol (R144 to R151), routes (R152), mixing (R153 to R156), chimes (R157 to R159),
emergency listen (R160, R161), and its requests (R148, R149, R153, R157, R162). -/

namespace Sys2Proof.Machine

/-- The state with the intercom unit replaced. -/
def State.setIntercom (s : State) (x : IntercomUnit) : State :=
  { s with intercom := x }

/-! ### Chime players (R158) -/

/-- The player a chime plays on (R158). -/
def ChimeId.player : ChimeId → PlayerId
  | .call => .driver
  | .band => .partition
  | .paid => .partition

/-- The port a player's blocks go to (R158). -/
def playerPort : PlayerId → Port
  | .driver => .c
  | .partition => .p

/-- A chime's table entry. -/
def ChimeTable.entry (x : ChimeTable) : ChimeId → Chime
  | .call => x.call
  | .band => x.band
  | .paid => x.paid

/-- The chime table with one entry replaced. -/
def ChimeTable.write (x : ChimeTable) (c : ChimeId) (y : Chime) : ChimeTable :=
  match c with
  | .call => { x with call := y }
  | .band => { x with band := y }
  | .paid => { x with paid := y }

/-- A player. -/
def IntercomUnit.player (x : IntercomUnit) : PlayerId → Option Playing
  | .driver => x.driverPlayer
  | .partition => x.partitionPlayer

/-- The intercom unit with a player replaced. -/
def IntercomUnit.setPlayer (x : IntercomUnit) (q : PlayerId) (y : Option Playing) : IntercomUnit :=
  match q with
  | .driver => { x with driverPlayer := y }
  | .partition => { x with partitionPlayer := y }

/-- A chime triggered on its player: ignored while the player's port is DOWN, and otherwise started from its beginning with the
entry as it stands (R158). -/
def triggerChime (c : ChimeId) (s : State) : State :=
  if s.isUp (playerPort c.player) then
    s.setIntercom (s.intercom.setPlayer c.player (some ⟨c, s.intercom.chimes.entry c, 0, 0⟩))
  else s

/-! ### The call protocol -/

/-- The call timer started at 30 s (R144). -/
def IntercomUnit.startCallTimer (x : IntercomUnit) : IntercomUnit :=
  { x with callTimer := some Config.callPeriod, callCounts := 0 }

/-- The intercom QUIET: both sets emptied, the call timer stopped (R144, R149, R151). -/
def IntercomUnit.hush (x : IntercomUnit) : IntercomUnit :=
  { x with state := .quiet, calling := .none, opened := .none, callTimer := none }

/-- A conversation opened with the waiting calls and further stations: the calling set emptied, the call timer stopped (R146, R148). -/
def IntercomUnit.openWith (x : IntercomUnit) (more : StationSet) : IntercomUnit :=
  { x with state := .opened, opened := x.calling.union more, calling := .none, callTimer := none }

/-- A station as a set of one. -/
def stationSet : Station → StationSet
  | .none => ⟨false, false⟩
  | .left => ⟨true, false⟩
  | .right => ⟨false, true⟩

/-- Whether a station is in a set. -/
def StationSet.has (x : StationSet) : Station → Bool
  | .none => false
  | .left => x.left
  | .right => x.right

/-- A CALL notice (R145). -/
def notifyCall (st : Station) (s : State) : State :=
  notifyC .call [enc Station.all st] s

/-- A call rise at a station (R145). -/
def callRise (st : Station) (s : State) : State :=
  let x := s.intercom
  match x.state with
  | .quiet =>
    let s' := triggerChime .call (s.setIntercom { x with state := .calling, calling := stationSet st })
    let s'' := notifyCall st s'
    s''.setIntercom s''.intercom.startCallTimer
  | .calling =>
    if x.calling.has st then s
    else
      let s' := triggerChime .call (s.setIntercom { x with calling := x.calling.union (stationSet st) })
      let s'' := notifyCall st s'
      s''.setIntercom s''.intercom.startCallTimer
  | .opened =>
    if x.opened.has st then s
    else notifyCall st (triggerChime .call (s.setIntercom { x with opened := x.opened.union (stationSet st) }))
  | .announce =>
    if x.calling.has st then s
    else notifyCall st (s.setIntercom { x with calling := x.calling.union (stationSet st) })

/-- A talk-key rise (R146). -/
def talkRise (s : State) : State :=
  let x := s.intercom
  match x.state with
  | .quiet => s.setIntercom { x with state := .announce }
  | .calling => s.setIntercom { x.openWith .none with driverPlayer := none }
  | .opened => s
  | .announce => s

/-- A talk-key fall (R146). -/
def talkFall (s : State) : State :=
  let x := s.intercom
  match x.state with
  | .announce =>
    if x.calling.isEmpty then s.setIntercom { x with state := .quiet }
    else triggerChime .call (s.setIntercom { x.startCallTimer with state := .calling })
  | _ => s

/-- A MISSED notice for each station of a set, LEFT before RIGHT (R147, R151). -/
def notifyMissed (set : StationSet) (s : State) : State :=
  let s' := if set.left then notifyC .missed [enc Station.all .left] s else s
  if set.right then notifyC .missed [enc Station.all .right] s' else s'

/-- The expiry of the call timer, taken in CALLING (R147). -/
def callExpiry (s : State) : State :=
  if s.intercom.state = .calling then
    let missed := s.intercom.calling
    notifyMissed missed (s.setIntercom { s.intercom.hush with driverPlayer := none })
  else s

/-- A closed trip's station leaves the open set, and the last one ends the conversation (R150). -/
def tripClosedAt (st : Station) (s : State) : State :=
  let x := s.intercom
  if x.state = .opened ∧ x.opened.has st then
    let left : StationSet := ⟨x.opened.left && st != .left, x.opened.right && st != .right⟩
    if left.isEmpty then s.setIntercom { x with opened := left, state := .quiet } else s.setIntercom { x with opened := left }
  else s

/-- P going DOWN at the intercom (R151). -/
def intercomPartitionDown (s : State) : State :=
  let s' := notifyMissed s.intercom.calling s
  s'.setIntercom
    { s'.intercom.hush with driverPlayer := none, partitionPlayer := none, seenLeft := false, seenRight := false }

/-- C going DOWN at the intercom: the talk key falls, both players stop (R151). -/
def intercomConsoleDown (s : State) : State :=
  let s' := talkFall s
  s'.setIntercom { s'.intercom with seenTalk := false, driverPlayer := none, partitionPlayer := none }

/-- What the park does to the intercom unit (R144). -/
def IntercomUnit.park (x : IntercomUnit) : IntercomUnit :=
  { x.hush with driverPlayer := none, partitionPlayer := none, seenLeft := false, seenRight := false, seenTalk := false }

/-! ### Routes (R152) -/

/-- The stations routed to the driver. -/
def IntercomUnit.toDriver (x : IntercomUnit) : StationSet :=
  match x.state with
  | .opened => x.opened
  | _ => .none

/-- The stations routed from the driver. -/
def IntercomUnit.fromDriver (x : IntercomUnit) : StationSet :=
  match x.state with
  | .opened => x.opened
  | .announce => .both
  | _ => .none

/-! ### Mixing (R153 to R155) -/

/-- Division by 64 rounded to the nearest integer, a half away from zero (R154). -/
def roundedDiv64 (x : Int) : Int :=
  if 0 ≤ x then (x + 32) / 64 else -((-x + 32) / 64)

/-- The clamp to the 16-bit range (R154). -/
def clamp16 (x : Int) : Int :=
  max (-32768) (min 32767 x)

/-- Whether a gate is open: NONE always, a timer while its phase is HIGH (R159). -/
def gateOpen (x : CadenceUnit) : Gate → Bool
  | .none => true
  | .ct0 => x.ct0.high
  | .ct1 => x.ct1.high

/-- A player's contribution to sample `i` of the block being formed (R159). -/
def contribution (cadence : CadenceUnit) (p : Option Playing) (i : Nat) : Int :=
  match p with
  | none => 0
  | some y =>
    if gateOpen cadence y.entry.gate then
      if (y.index + i) / y.entry.halfPeriod % 2 = 0 then y.entry.amplitude else -y.entry.amplitude
    else 0

/-- A player after one more block formed toward its port; at its duration it becomes IDLE (R159). -/
def advancePlayer (p : Option Playing) : Option Playing :=
  match p with
  | none => none
  | some y =>
    if y.entry.duration ≤ y.produced + 1 then none
    else some { y with index := y.index + Config.blockSamples, produced := y.produced + 1 }

/-- A sample counted only when its station is routed. -/
def gated (route : Bool) (x : Int) : Int :=
  if route then x else 0

/-- One sample of the block toward C (R154). -/
def driverSample (x : IntercomUnit) (cadence : CadenceUnit) (l r : List Int) (i : Nat) : Int :=
  let sum := gated x.toDriver.left (x.gains.gL * l.getD i 0) + gated x.toDriver.right (x.gains.gR * r.getD i 0)
  clamp16 (roundedDiv64 sum + contribution cadence x.driverPlayer i)

/-- One sample of a channel of the block toward P (R155). -/
def partitionSample (x : IntercomUnit) (cadence : CadenceUnit) (route : Bool) (gain : Nat) (d : List Int) (i : Nat) : Int :=
  clamp16 (gated route (roundedDiv64 (gain * d.getD i 0)) + contribution cadence x.partitionPlayer i)

/-- One sample of the listen block (R160). -/
def listenSample (l r : List Int) (i : Nat) : Int :=
  clamp16 (l.getD i 0 + r.getD i 0)

/-- The bytes of 40 samples computed by `f`. -/
def blockBytes (f : Nat → Int) : List Byte :=
  samplesBytes ((List.range Config.blockSamples).map f)

/-- The block toward C, formed when C is UP and a station is routed to the driver or the driver player is active (R143, R154). -/
def formDriverBlock (l r : List Int) (s : State) : State :=
  let x := s.intercom
  if s.isUp .c ∧ (!x.toDriver.isEmpty ∨ x.driverPlayer.isSome) then
    let f := frameOf .audio 0 (byte x.seqC) (0 :: blockBytes (driverSample x s.cadence l r))
    let s' := emitVoice .c f s
    s'.setIntercom { x with seqC := nextSeq x.seqC, driverPlayer := advancePlayer x.driverPlayer }
  else s

/-- The block toward P, formed when P is UP and a station is routed from the driver or the partition player is active (R143, R155). -/
def formPartitionBlock (d : List Int) (s : State) : State :=
  let x := s.intercom
  if s.isUp .p ∧ (!x.fromDriver.isEmpty ∨ x.partitionPlayer.isSome) then
    let left := blockBytes (partitionSample x s.cadence x.fromDriver.left x.gains.hL d)
    let right := blockBytes (partitionSample x s.cadence x.fromDriver.right x.gains.hR d)
    let s' := emitVoice .p (frameOf .audio 0 (byte x.seqP) (0 :: left ++ right)) s
    s'.setIntercom { x with seqP := nextSeq x.seqP, partitionPlayer := advancePlayer x.partitionPlayer }
  else s

/-- Whether emergency listen is active (R160). -/
def IntercomUnit.listening (x : IntercomUnit) : Bool :=
  x.emergency && x.listen

/-- The listen block toward D, formed while listen is active and D is UP (R143, R160). -/
def formListenBlock (l r : List Int) (s : State) : State :=
  let x := s.intercom
  if x.listening ∧ s.isUp .d then
    let s' := emitVoice .d (frameOf .audio 0 (byte x.seqD) (0 :: blockBytes (listenSample l r))) s
    s'.setIntercom { x with seqD := nextSeq x.seqD }
  else s

/-- The samples of a station after PIN muting (R156). -/
def muteSamples (mute : Bool) (xs : List Int) : List Int :=
  if mute then xs.map fun _ => 0 else xs

/-! ### Audio frames -/

/-- The buttons of a frame from P: their rises, LEFT before RIGHT, then the stations muted while this frame is used (R142, R145,
R156). -/
def takeButtons (left right : Bool) (s : State) : State :=
  let s1 := if left && !s.intercom.seenLeft then callRise .left s else s
  let s2 := if right && !s1.intercom.seenRight then callRise .right s1 else s1
  s2.setIntercom { s2.intercom with seenLeft := left, seenRight := right, muted := s2.mutedStations }

/-- The talk key of a frame from C: its rise or its fall (R142, R146). -/
def takeTalkKey (talk : Bool) (s : State) : State :=
  let s1 :=
    if talk && !s.intercom.seenTalk then talkRise s
    else if !talk && s.intercom.seenTalk then talkFall s
    else s
  s1.setIntercom { s1.intercom with seenTalk := talk }

/-- An AUDIO frame from P: its buttons, then PIN muting, the driver block and the listen block (R142, R154, R156, R160). -/
def takeAudioP (payload : List Byte) (s : State) : State :=
  match payload with
  | [] => s
  | buttons :: bytes =>
    let s' := takeButtons (buttons.getLsbD 0) (buttons.getLsbD 1) s
    let mute := s'.intercom.muted
    let xs := samples bytes
    let l := muteSamples mute.left (xs.take Config.blockSamples)
    let r := muteSamples mute.right (xs.drop Config.blockSamples)
    formListenBlock l r (formDriverBlock l r s')

/-- An AUDIO frame from C: its talk key, then the partition block (R142, R146, R155). -/
def takeAudioC (payload : List Byte) (s : State) : State :=
  match payload with
  | [] => s
  | key :: bytes => formPartitionBlock (samples bytes) (takeTalkKey (key.getLsbD 0) s)

/-! ### Deliveries of other blocks -/

/-- The payment unit delivers that the head has entered PIN: the voice lanes of C and D are emptied (R156, R171). -/
def pinStarted (s : State) : State :=
  purgeVoice .d (purgeVoice .c s)

/-- The sign unit delivers a change of the latch; a clearing empties D's voice lane (R160, R171). -/
def deliverEmergency (set : Bool) (s : State) : State :=
  let s' := s.setIntercom { s.intercom with emergency := set }
  if set then s' else purgeVoice .d s'

/-! ### Requests -/

/-- ANSWER (R148). -/
def actAnswer (stations : AnswerStations) (s : State) : State × Result :=
  if !s.isUp .p then (s, .refuse .linkDown)
  else
    let named : StationSet := match stations with | .left => ⟨true, false⟩ | .right => ⟨false, true⟩ | .both => ⟨true, true⟩
    let x := s.intercom
    let y :=
      match x.state with
      | .quiet => { x with state := .opened, opened := named }
      | .calling => { x.openWith named with driverPlayer := none }
      | .opened => { x with opened := x.opened.union named }
      | .announce => x.openWith named
    (s.setIntercom y, .ok [enc IntercomState.all y.state, y.opened.byte])

/-- HANGUP (R149). -/
def actHangup (s : State) : State × Result :=
  let x := s.intercom
  let y := if x.state = .quiet then x else { x.hush with driverPlayer := none }
  (s.setIntercom y, .ok [enc IntercomState.all .quiet])

/-- GAINS_SET: four gains, each clamped to 127 (R153). -/
def actGainsSet (gL gR hL hR : Nat) (s : State) : State × Result :=
  let g : Gains := ⟨min 127 gL, min 127 gR, min 127 hL, min 127 hR⟩
  (s.setIntercom { s.intercom with gains := g },
   .done [byte g.gL, byte g.gR, byte g.hL, byte g.hR] (g != ⟨gL, gR, hL, hR⟩))

/-- A chime entry's fields (R157). -/
def chimeBytes (x : Chime) : List Byte :=
  byte x.halfPeriod :: be 2 x.amplitude ++ [byte x.duration, enc Gate.all x.gate]

/-- CHIME_SET: one entry, its amplitude clamped; half-period and duration refused outside their ranges (R157, R180). -/
def actChimeSet (c : ChimeId) (half amplitude duration : Nat) (gate : Gate) (s : State) : State × Result :=
  if half < 2 ∨ 80 < half ∨ duration = 0 then (s, .refuse .range)
  else
    let y : Chime := ⟨half, min 16383 amplitude, duration, gate⟩
    (s.setIntercom { s.intercom with chimes := s.intercom.chimes.write c y }, .done (chimeBytes y) (y.amplitude != amplitude))

/-- CHIME_READ (R162). -/
def actChimeRead (c : ChimeId) (s : State) : State × Result :=
  (s, .ok (chimeBytes (s.intercom.chimes.entry c)))

/-- The call timer's remaining time in whole seconds, rounded up, while it runs; 0 while it is stopped. Time is told by the cadence
counts since its start, and a running timer has some time left (R162, notes/assumptions/4.md). -/
def IntercomUnit.callSeconds (x : IntercomUnit) : Nat :=
  match x.callTimer with
  | none => 0
  | some period => max 1 ((period - x.callCounts * Config.cadencePeriod + 999) / 1000)

/-- A player as INTERCOM_STATUS returns it: IDLE 0 or ACTIVE 1, its chime, the blocks remaining (R162). -/
def playerBytes (p : Option Playing) : List Byte :=
  match p with
  | none => [0, 0, 0]
  | some y => [1, enc ChimeId.all y.chime, byte (y.entry.duration - y.produced)]

/-- INTERCOM_STATUS: the intercom as it stands, without the listen path toward C (R161, R162). -/
def actIntercomStatus (port : Port) (s : State) : State × Result :=
  let x := s.intercom
  let common :=
    [enc IntercomState.all x.state, x.calling.byte, x.opened.byte, byte x.callSeconds, flag x.seenLeft, flag x.seenRight,
      flag x.seenTalk, byte x.gains.gL, byte x.gains.gR, byte x.gains.hL, byte x.gains.hR]
    ++ playerBytes x.driverPlayer ++ playerBytes x.partitionPlayer
    ++ [byte x.seqC, byte x.seqP, flag !x.muted.isEmpty, x.muted.byte]
  let fleet := if port = .d then [flag x.listen, flag x.listening, byte x.seqD] else []
  (s, .ok (common ++ fleet))

end Sys2Proof.Machine
end

