-- ==== Sys2Proof/Machine/Cadence.lean ====
section
/-! DEFINITION. The cadence unit: timers (R127 to R133), comparators and lamp latches (R134 to R141), and its requests. -/

namespace Sys2Proof.Machine

/-! ### Events of the timers -/

/-- What one event did to one timer, as the comparators see it: the count it set, if it set one; whether it loaded the
timer (a start or a reload); whether it was the timer's terminal count. -/
structure TimerEvent where
  offered : Option Nat
  loaded : Bool
  terminal : Bool
deriving DecidableEq, Repr

/-- An event that left a timer as it was. -/
def TimerEvent.nothing : TimerEvent := ⟨none, false, false⟩

/-- A timer loaded with its programmed period: the current period and the count take it (R129, R131). -/
def CadenceTimer.load (t : CadenceTimer) : CadenceTimer :=
  { t with current := t.programmed, count := t.programmed }

/-- A timer stopped: STOPPED with count 0 (R129, R132, R141). -/
def CadenceTimer.stop (t : CadenceTimer) : CadenceTimer :=
  { t with state := .stopped, count := 0 }

/-- One cadence count at one timer (R129). -/
def CadenceTimer.tick (t : CadenceTimer) : CadenceTimer × TimerEvent :=
  if t.state = .stopped then (t, .nothing)
  else if 1 < t.count then
    ({ t with count := t.count - 1 }, ⟨some (t.count - 1), false, false⟩)
  else
    let t' := { t with terminal := true }
    if t.state = .running ∧ t.mode = .repeating then (t'.load, ⟨some t.programmed, true, true⟩)
    else (t'.stop, ⟨none, false, true⟩)

/-! ### Comparators -/

/-- What a cadence event did to the two timers. -/
structure CadenceEvent where
  ct0 : TimerEvent
  ct1 : TimerEvent
deriving DecidableEq, Repr

/-- What the event did to timer `t`. -/
def CadenceEvent.at (e : CadenceEvent) : TimerId → TimerEvent
  | .ct0 => e.ct0
  | .ct1 => e.ct1

/-- A ONCE_TOGGLE comparator is rearmed when its timer is loaded, before the matches (R136). -/
def Comparator.rearm (x : Comparator) (e : CadenceEvent) : Comparator :=
  if x.mode = .onceToggle ∧ (e.at x.timer).loaded then { x with armed := true } else x

/-- Whether a comparator matches: its timer's count was set to its value. Value 0 and mode OFF never act (R135). -/
def Comparator.matches (x : Comparator) (e : CadenceEvent) : Bool :=
  x.value != 0 && x.mode != .off && (e.at x.timer).offered == some x.value

/-- Whether a comparator requests a toggle of its own lamp (R136). -/
def Comparator.toggles (x : Comparator) (e : CadenceEvent) : Bool :=
  x.matches e && (x.mode == .toggle || (x.mode == .onceToggle && x.armed))

/-- Whether a comparator requests that its lamp be set (R137). -/
def Comparator.sets (x : Comparator) (e : CadenceEvent) : Bool :=
  x.matches e && x.mode == .setClear

/-- Whether a comparator requests that its lamp be cleared: a SET_CLEAR at its timer's terminal count (R137). -/
def Comparator.clears (x : Comparator) (e : CadenceEvent) : Bool :=
  x.mode == .setClear && x.value != 0 && (e.at x.timer).terminal

/-- An armed ONCE_TOGGLE comparator that matched is spent (R136). -/
def Comparator.spend (x : Comparator) (e : CadenceEvent) : Comparator :=
  if x.mode = .onceToggle ∧ x.matches e then { x with armed := false } else x

/-- Whether PAIR comparator `y` toggles the lamp of its partner `x`: it matches while the partner's mode is TOGGLE (R138). -/
def Comparator.pairs (y x : Comparator) (e : CadenceEvent) : Bool :=
  y.mode == .pair && y.matches e && x.mode == .toggle

/-- The toggles of lamp `l` that comparators LC(i) and LC(i+4) request between them: a pair's toggles count once (R138). -/
def pairToggles (x y : Comparator) (e : CadenceEvent) (l : Fin 4) : Nat :=
  (if x.lamp = l ∧ (x.toggles e ∨ y.pairs x e) then 1 else 0) + (if y.lamp = l ∧ y.toggles e then 1 else 0)

/-- The new value of latch `l`: toggles first, then sets and clears, which cancel each other (R139). -/
def combineLatch (cs : Vector Comparator 8) (e : CadenceEvent) (l : Fin 4) (old : Bool) : Bool :=
  let toggles := pairToggles cs[0] cs[4] e l + pairToggles cs[1] cs[5] e l + pairToggles cs[2] cs[6] e l + pairToggles cs[3] cs[7] e l
  let toggled := if toggles % 2 = 1 then !old else old
  let set := cs.any fun x => x.lamp == l && x.sets e
  let clear := cs.any fun x => x.lamp == l && x.clears e
  if set && !clear then true else if clear && !set then false else toggled

/-- The comparator stage of a cadence event: rearm, match, combine the requests on each latch (R135 to R139). -/
def CadenceUnit.compare (x : CadenceUnit) (e : CadenceEvent) : CadenceUnit :=
  let cs := x.comparators.map fun y => y.rearm e
  { x with
    comparators := cs.map fun y => y.spend e
    latches :=
      #v[combineLatch cs e 0 x.latches[0], combineLatch cs e 1 x.latches[1], combineLatch cs e 2 x.latches[2],
         combineLatch cs e 3 x.latches[3]] }

/-- A cadence count at the cadence unit: both timers together, then the comparators (R129). -/
def CadenceUnit.count (x : CadenceUnit) : CadenceUnit :=
  let a := x.ct0.tick
  let b := x.ct1.tick
  { x with ct0 := a.1, ct1 := b.1 }.compare ⟨a.2, b.2⟩

/-- A start of timer `t`: it is loaded and runs, and its count is offered to the comparators (R131). -/
def CadenceUnit.start (x : CadenceUnit) (t : TimerId) : CadenceUnit :=
  let y := { (x.timer t).load with state := .running }
  let e : TimerEvent := ⟨some y.count, true, false⟩
  (x.setTimer t y).compare (match t with | .ct0 => ⟨e, .nothing⟩ | .ct1 => ⟨.nothing, e⟩)

/-- What the park does to the cadence unit: timers stopped, latches 0, comparators armed (R141). -/
def CadenceUnit.park (x : CadenceUnit) : CadenceUnit where
  ct0 := x.ct0.stop
  ct1 := x.ct1.stop
  comparators := x.comparators.map fun y => { y with armed := true }
  latches := Vector.replicate 4 false

/-! ### Requests -/

/-- TIMER_SET: the clamped programmed period and the mode are written; the run in progress goes on (R130). -/
def actTimerSet (t : TimerId) (period : Nat) (mode : TimerMode) (s : State) : State × Result :=
  let clamped := max 2 (min 16383 period)
  let y := { s.cadence.timer t with programmed := clamped, mode := mode }
  ({ s with cadence := s.cadence.setTimer t y },
   .done (be 2 clamped ++ [enc TimerMode.all mode, enc TimerState.all y.state] ++ be 2 y.current) (clamped != period))

/-- COMPARATOR_SET: one comparator's four fields are written whole, its arm mark kept (R134). -/
def actComparatorSet (n : Byte) (timer : TimerId) (value : Nat) (mode : ComparatorMode) (lamp : Byte) (s : State) :
    State × Result :=
  match index 8 n, index 4 lamp with
  | some i, some l =>
    if 16383 < value then (s, .refuse .range)
    else if mode = .pair ∧ i.val < 4 then (s, .refuse .range)
    else
      let y := { s.cadence.comparators[i] with timer := timer, value := value, mode := mode, lamp := l }
      ({ s with cadence := { s.cadence with comparators := s.cadence.comparators.set i y } }, .ok [])
  | _, _ => (s, .refuse .range)

/-- TIMER_START (R131). -/
def actTimerStart (t : TimerId) (s : State) : State × Result :=
  let x := s.cadence.start t
  ({ s with cadence := x }, .ok (be 2 (x.timer t).count ++ be 2 (x.timer t).current))

/-- TIMER_STOP (R132). -/
def actTimerStop (t : TimerId) (s : State) : State × Result :=
  let y := s.cadence.timer t
  let y' := if y.active then y.stop else y
  ({ s with cadence := s.cadence.setTimer t y' }, .ok [enc TimerState.all y'.state])

/-- TIMER_STOP_AT_END: a RUNNING timer becomes DRAINING (R132). -/
def actTimerStopAtEnd (t : TimerId) (s : State) : State × Result :=
  let y := s.cadence.timer t
  let y' := if y.state = .running then { y with state := .draining } else y
  ({ s with cadence := s.cadence.setTimer t y' }, .ok [enc TimerState.all y'.state])

/-- A timer's fields as TIMER_STATUS returns them (R133). -/
def timerBytes (t : CadenceTimer) : List Byte :=
  [enc TimerState.all t.state, enc TimerMode.all t.mode] ++ be 2 t.programmed ++ be 2 t.current ++ be 2 t.count
    ++ [phaseCode t.high, flag t.terminal]

/-- A comparator's fields and arm mark as TIMER_STATUS returns them; armed 0, spent 1 (R133, R134). -/
def comparatorBytes (x : Comparator) : List Byte :=
  enc TimerId.all x.timer :: be 2 x.value ++ [enc ComparatorMode.all x.mode, byte x.lamp.val, flag !x.armed]

/-- TIMER_STATUS: the values are returned and then both terminal-count flags cleared (R133). -/
def actTimerStatus (s : State) : State × Result :=
  let x := s.cadence
  ({ s with cadence := { x with ct0 := { x.ct0 with terminal := false }, ct1 := { x.ct1 with terminal := false } } },
   .ok (timerBytes x.ct0 ++ timerBytes x.ct1 ++ x.comparators.toList.flatMap comparatorBytes ++ [lampByte x.latches]))

/-- LAMP_WRITE: one latch is set to the value written (R140). -/
def actLampWrite (lamp : Byte) (value : Bool) (s : State) : State × Result :=
  match index 4 lamp with
  | none => (s, .refuse .range)
  | some l =>
    let latches := s.cadence.latches.set l value
    ({ s with cadence := { s.cadence with latches := latches } }, .ok [lampByte latches])

end Sys2Proof.Machine
end

