-- ==== Sys2Proof/Machine/Sign.lean ====
section
/-! DEFINITION. The sign unit: mode derivation (R112), panel sources and composition (R117 to R122), SIGN frames (R123), sign health
(R124), and its table writes and reads (R117, R119 to R121, R125, R126). What the emergency latch hands to other blocks
stands in Machine/Emergency.lean. -/

namespace Sys2Proof.Machine

/-! ### Panels -/

/-- The byte of the last stripe, in stripe order, whose width is not 0; 0 when there is none (R120). -/
def lastStripe (ss : List Stripe) : Byte :=
  ss.foldl (fun b x => if x.width = 0 then b else x.column) 0

/-- A STRIPES panel: stripe by stripe from column 0, cut at column 79, the columns left over taking the last stripe's byte (R120). -/
def stripesPanel (ss : List Stripe) : List Byte :=
  (ss.flatMap (fun x => List.replicate x.width x.column) ++ List.replicate Config.panelColumns (lastStripe ss)).take
    Config.panelColumns

/-- A BLOCK panel: column c takes byte c modulo the length (R121). -/
def blockPanel (bs : List Byte) : List Byte :=
  (List.range Config.panelColumns).map fun c => bs.getD (c % bs.length) 0

/-- A dark panel (R122). -/
def darkPanel : List Byte :=
  List.replicate Config.panelColumns 0

/-- The inverse of a panel: every column byte complemented (R122). -/
def inversePanel (p : List Byte) : List Byte :=
  p.map fun b => ~~~b

/-- An image of the store; the indices used never pass 7 (R118). -/
def SignUnit.image (x : SignUnit) (i : Nat) : List Byte :=
  (x.images[i]?).getD darkPanel

/-- The view of the mode held (R112). -/
def SignUnit.view (x : SignUnit) : View :=
  x.views[x.mode.index]

/-- The effective image: base plus the tariff of the lowest riding slot where R118 says so, and else the base. -/
def State.effectiveImage (s : State) : Nat :=
  let v := s.sign.view
  match s.lowestRiding with
  | none => v.imageBase
  | some i =>
    if v.tariffIndexed ∧ (s.sign.mode = .hired ∨ s.sign.mode = .shareOpen) ∧ v.imageBase + (s.party i).tariff ≤ 7 then
      v.imageBase + (s.party i).tariff
    else v.imageBase

/-- The effective image a composition chooses: there is one with the source IMAGE (R118). -/
def State.imageChosen (s : State) : Option Nat :=
  if s.sign.view.source = .image then some s.effectiveImage else none

/-- The content of the view's source in the HIGH phase (R122, stage 1). -/
def State.panelContent (s : State) : List Byte :=
  match s.sign.view.source with
  | .dark => darkPanel
  | .image => s.sign.image s.effectiveImage
  | .stripes => stripesPanel s.sign.stripes.toList
  | .block => blockPanel s.sign.block

/-- The panel ALTERNATE shows in LOW: the next image, or image e again when e is 7, or a dark panel for the other sources
(R118, R122). -/
def State.alternatePanel (s : State) : List Byte :=
  if s.sign.view.source = .image then
    s.sign.image (if s.effectiveImage + 1 ≤ 7 then s.effectiveImage + 1 else s.effectiveImage)
  else darkPanel

/-- The panel shown: the content under the view's animation in the timer's present phase (R122, stage 2). -/
def State.panelShown (s : State) : List Byte :=
  let high := (s.cadence.timer s.sign.view.timer).high
  match s.sign.view.animation with
  | .steady => s.panelContent
  | .blinkInvert => if high then s.panelContent else inversePanel s.panelContent
  | .alternate => if high then s.panelContent else s.alternatePanel

/-- One lamp under its program (R122, stage 3). -/
def lampShown (p : LampProgram) (latch : Bool) : Bool :=
  match p with
  | .off => false
  | .on => true
  | .latch => latch

/-- The result of a composition (R122). -/
def State.composed (s : State) : SignOutput where
  panel := s.panelShown
  lamps :=
    let v := s.sign.view.lamps
    let l := s.cadence.latches
    #v[lampShown v[0] l[0], lampShown v[1] l[1], lampShown v[2] l[2], lampShown v[3] l[3]]

/-! ### SIGN frames (R123) -/

/-- The SIGN frame of an output (R192). -/
def signFrame (o : SignOutput) : Frame :=
  plainFrame .sign (lampByte o.lamps :: o.panel)

/-- A SIGN frame carrying the last output is placed and the refresh count returns to 0 (R123). -/
def repaintSign (s : State) : State :=
  let s' := emit .s (signFrame s.sign.output) s
  { s' with sign := { s'.sign with refresh := 0 } }

/-- A composition. A result that differs becomes the last output, and is sent if S is UP; the effective image chosen is in use from
then on (R118, R123, R125). The sign unit composes nothing while PARKED (R123, R185, R187). -/
def compose (s : State) : State :=
  if s.parked then s
  else
    let s' := { s with sign := { s.sign with output := s.composed, imageInUse := s.imageChosen } }
    if s.composed ≠ s.sign.output ∧ s.isUp .s then repaintSign s' else s'

/-- A cadence count at the sign unit: a composition, then the refresh count (R122, R123). -/
def signCount (s : State) : State :=
  if s.parked then s
  else
    let s' := compose s
    if s'.isUp .s then
      if s'.sign.refresh + 1 < Config.refreshLimit then
        { s' with sign := { s'.sign with refresh := s'.sign.refresh + 1 } }
      else repaintSign s'
    else s'

/-- What the park does to the sign unit: one dark SIGN frame if S is UP, the last output dark and so with no image in use, the refresh
count 0 (R123, notes/assumptions/24.md). -/
def parkSign (s : State) : State :=
  let s' := if s.isUp .s then emit .s (signFrame .dark) s else s
  { s' with sign := { s'.sign with output := .dark, imageInUse := none, refresh := 0 } }

/-- The event at which S goes UP (R123). While PARKED the sign unit places no SIGN frame (R185). -/
def signLinkUp (s : State) : State :=
  if s.parked then s else repaintSign s

/-! ### Mode (R112) -/

/-- The mode is derived afresh from the inputs held, and the sign composed (R112, R122). -/
def deriveSign (s : State) : State :=
  compose { s with sign := { s.sign with mode := s.sign.derived } }

/-- The fare engine delivers the count, the share flag and the seat limit as they stand (R112). -/
def deliverParties (s : State) : State :=
  deriveSign
    { s with sign := { s.sign with riding := s.ridingCount, share := s.fare.share, seatLimit := s.seatLimit } }

/-- The shift unit delivers its state (R92, R112). -/
def deliverShift (s : State) : State :=
  deriveSign { s with sign := { s.sign with shift := s.shift.state } }

/-! ### Requests -/

/-- OFF_DUTY_OVERRIDE (R116). -/
def actOffDutyOverride (on : Bool) (s : State) : State × Result :=
  let s' := deriveSign { s with sign := { s.sign with offDuty := on } }
  (s', .ok [flag on, enc SignMode.all s'.sign.publicMode])

/-- VIEW_SET: one view is written whole (R117). -/
def actViewSet (mode : SignMode) (source : PanelSource) (base : Nat) (animation : Animation) (timer : TimerId)
    (tariffIndexed : Bool) (lamps : Vector LampProgram 4) (s : State) : State × Result :=
  if 7 < base then (s, .refuse .range)
  else
    ({ s with sign := { s.sign with views := s.sign.views.set mode.index ⟨source, base, animation, timer, tariffIndexed, lamps⟩ } },
     .ok [])

/-- IMAGE_SET: one image is replaced whole (R119). -/
def actImageSet (n : Byte) (columns : List Byte) (s : State) : State × Result :=
  match index 8 n with
  | none => (s, .refuse .range)
  | some i => ({ s with sign := { s.sign with images := s.sign.images.set i columns } }, .ok [])

/-- A stripe of a STRIPES_SET list; stripes from count upward are width 0, byte 0 (R120). -/
def stripeAt (pairs : List Stripe) (i : Nat) : Stripe :=
  pairs.getD i ⟨0, 0⟩

/-- STRIPES_SET: the whole set is replaced (R120). -/
def actStripesSet (pairs : List Stripe) (s : State) : State × Result :=
  if 8 < pairs.length then (s, .refuse .range)
  else
    match pairs.findIdx? fun x => decide (Config.panelColumns < x.width) with
    | some i => (s, .refused .range (0, byte i))
    | none =>
      let f := stripeAt pairs
      ({ s with sign := { s.sign with stripes := #v[f 0, f 1, f 2, f 3, f 4, f 5, f 6, f 7] } }, .ok [])

/-- BLOCK_SET: the pattern is replaced (R121). -/
def actBlockSet (bytes : List Byte) (s : State) : State × Result :=
  if bytes.length = 0 ∨ 16 < bytes.length then (s, .refuse .range)
  else ({ s with sign := { s.sign with block := bytes } }, .ok [])

/-- The sign health as two bytes (R124). -/
def healthBytes (x : SignUnit) : List Byte :=
  [lampByte x.lampFaults, flag x.panelFault]

/-- The effective image as SIGN_STATUS carries it: the one in use while the current view's source is IMAGE, and 0 where there is none
(R125, notes/assumptions/24.md). -/
def SignUnit.imageReported (x : SignUnit) : Nat :=
  if x.view.source = .image then x.imageInUse.getD 0 else 0

/-- SIGN_STATUS: the state of the sign, without the latch, the alarm flag or the last output toward C (R125). -/
def actSignStatus (port : Port) (s : State) : State × Result :=
  let x := s.sign
  let inputs := [flag x.offDuty, byte x.riding, flag x.share, byte x.seatLimit]
  let fields :=
    if port = .d then
      [enc SignMode.all x.mode, flag x.latch, flag x.alarmSeen] ++ inputs
        ++ [lampByte x.output.lamps, byte x.imageReported] ++ healthBytes x
    else enc SignMode.all x.publicMode :: inputs ++ healthBytes x
  (s, .ok fields)

/-- A view's fields (R117). -/
def viewBytes (v : View) : List Byte :=
  [enc PanelSource.all v.source, byte v.imageBase, enc Animation.all v.animation, enc TimerId.all v.timer, flag v.tariffIndexed]
    ++ v.lamps.toList.map (enc LampProgram.all)

/-- SIGN_READ: one entry of the sign's tables (R126). -/
def actSignRead (table : SignTable) (n : Byte) (s : State) : State × Result :=
  match table with
  | .view =>
    match index 5 n with
    | some i => (s, .ok (viewBytes s.sign.views[i]))
    | none => (s, .refuse .range)
  | .image =>
    match index 8 n with
    | some i => (s, .ok s.sign.images[i])
    | none => (s, .refuse .range)
  | .stripes =>
    if n = 0 then (s, .ok (s.sign.stripes.toList.flatMap fun x => [byte x.width, x.column])) else (s, .refuse .range)
  | .block => if n = 0 then (s, .ok (byte s.sign.block.length :: s.sign.block)) else (s, .refuse .range)

end Sys2Proof.Machine
end

