-- ==== Sys2Proof/Machine/Emergency.lean ====
section
/-! DEFINITION. What the power unit takes from other blocks (R184), and the emergency latch with the hand-offs of its changes
(R113 to R115). -/

namespace Sys2Proof.Machine

/-! ### Deliveries to the power unit (R184) -/

/-- The park delay timer after a delivery that turned the park conditions from `before` into what they now are. It runs in
RUN only. -/
def PowerUnit.judge (x : PowerUnit) (before : Bool) : PowerUnit :=
  if x.state ≠ .run then x
  else if !x.mayPark then { x with parkTimer := none }
  else if before then x
  else { x with parkTimer := some Config.parkPeriod }

/-- The ignition flag of a MOTION frame, delivered by the fare engine. -/
def PowerUnit.takeIgnition (x : PowerUnit) (on : Bool) : PowerUnit :=
  { x with ignition := on }.judge x.mayPark

/-- Whether every slot is IDLE, delivered by the fare engine. -/
def PowerUnit.takeAllIdle (x : PowerUnit) (all : Bool) : PowerUnit :=
  { x with allIdle := all }.judge x.mayPark

/-- The emergency latch, delivered by the sign unit. -/
def PowerUnit.takeLatch (x : PowerUnit) (set : Bool) : PowerUnit :=
  { x with latch := set }.judge x.mayPark

/-! ### The emergency latch -/

/-- The EMERGENCY notice: toward D only, and only while D is UP; SET 0, CLEARED 1 (R115). -/
def notifyEmergency (set : Bool) (s : State) : State :=
  if s.isUp .d then notifyD .emergency [if set then 0 else 1] s else s

/-- A change of the latch and its hand-offs, in the order of R113. -/
def changeLatch (set : Bool) (s : State) : State :=
  let s1 := deriveSign { s with sign := { s.sign with latch := set } }
  let s2 := deliverEmergency set s1
  let s3 := { s2 with power := s2.power.takeLatch set }
  notifyEmergency set s3

/-- The alarm-switch flag of a MOTION frame: a rising edge sets the latch (R113). -/
def takeAlarm (on : Bool) (s : State) : State :=
  let rises := on && !s.sign.alarmSeen
  let s' := { s with sign := { s.sign with alarmSeen := on } }
  if rises && !s.sign.latch then changeLatch true s' else s'

/-- D going UP at the sign unit: an EMERGENCY notice while the latch is set (R115). -/
def emergencyLinkUp (s : State) : State :=
  if s.sign.latch then notifyEmergency true s else s

/-- EMERGENCY_CLEAR (R114). -/
def actEmergencyClear (s : State) : State × Result :=
  if s.sign.latch then (changeLatch false s, .ok [flag true]) else (s, .ok [flag false])

end Sys2Proof.Machine
end

