-- ==== Sys2Proof/Machine/Shift.lean ====
section
/-! DEFINITION. The shift unit: opening, breaking and closing (R93 to R97), the totals and what changes them (R98 to R104), live,
frozen and report reads (R105 to R110). -/

namespace Sys2Proof.Machine

/-- The state with the shift unit replaced. -/
def State.setShift (s : State) (x : ShiftUnit) : State :=
  { s with shift := x }

/-- The state with the shift's totals replaced. -/
def State.setTotals (s : State) (t : Totals) : State :=
  s.setShift { s.shift with totals := t }

/-! ### Saturating additions (R100) -/

/-- A total after an addition, computed exactly and stopped at 4,294,967,295. -/
def addTotal (n k : Nat) : Nat :=
  saturate Config.totalMax n k

/-- Whether an addition sets the saturation flag: its exact sum passes the largest total, or the total was already there, in which case
every addition sets it again, that of 0 included (R100, notes/assumptions/27.md). -/
def saturates (n k : Nat) : Bool :=
  decide (Config.totalMax ≤ n) || decide (Config.totalMax < n + k)

/-! ### Counts and postings handed by other blocks -/

/-- Hire counted (R101). -/
def Totals.countStarted (t : Totals) : Totals :=
  { t with started := addTotal t.started 1, saturated := t.saturated || saturates t.started 1 }

/-- Void counted (R101). -/
def Totals.countVoided (t : Totals) : Totals :=
  { t with voided := addTotal t.voided 1, saturated := t.saturated || saturates t.voided 1 }

/-- Implausible counted (R101). -/
def Totals.countImplausible (t : Totals) : Totals :=
  { t with implausible := addTotal t.implausible 1, saturated := t.saturated || saturates t.implausible 1 }

/-- Fault onset (R101, R124). -/
def Totals.countSignFault (t : Totals) : Totals :=
  { t with signFaults := addTotal t.signFaults 1, saturated := t.saturated || saturates t.signFaults 1 }

/-- Sale appended (R79, R101). -/
def Totals.countSale (t : Totals) : Totals :=
  { t with offlineSales := addTotal t.offlineSales 1, saturated := t.saturated || saturates t.offlineSales 1 }

/-- Reversal appended (R79, R101). -/
def Totals.countReversal (t : Totals) : Totals :=
  { t with reversals := addTotal t.reversals 1, saturated := t.saturated || saturates t.reversals 1 }

/-- Offline committed grown by an approval's amount and tip (R76, R101). -/
def Totals.commit (t : Totals) (n : Nat) : Totals :=
  { t with committed := addTotal t.committed n, saturated := t.saturated || saturates t.committed n }

/-- A hired delta (R103). -/
def Totals.addHired (t : Totals) (n : Nat) : Totals :=
  { t with hiredPulses := addTotal t.hiredPulses n, saturated := t.saturated || saturates t.hiredPulses n }

/-- An empty delta (R103). -/
def Totals.addEmpty (t : Totals) (n : Nat) : Totals :=
  { t with emptyPulses := addTotal t.emptyPulses n, saturated := t.saturated || saturates t.emptyPulses n }

/-- The posting of a closed trip: each field in full, whatever another does; a capped or a shared trip is counted only where its flag is
set (R100, R102). -/
def Totals.post (t : Totals) (p : Party) : Totals :=
  let tips := p.tipsOnline + p.tipsOffline
  let online := p.cardOnline + p.tipsOnline
  let offline := p.cardOffline + p.tipsOffline
  { t with
    closed := addTotal t.closed 1
    capped := if p.capped then addTotal t.capped 1 else t.capped
    shared := if p.shared then addTotal t.shared 1 else t.shared
    fares := addTotal t.fares p.fare
    extras := addTotal t.extras p.extras
    tips := addTotal t.tips tips
    cash := addTotal t.cash p.cash
    cardOnline := addTotal t.cardOnline online
    cardOffline := addTotal t.cardOffline offline
    saturated :=
      t.saturated || saturates t.closed 1 || (p.capped && saturates t.capped 1) || (p.shared && saturates t.shared 1)
        || saturates t.fares p.fare || saturates t.extras p.extras || saturates t.tips tips || saturates t.cash p.cash || saturates t.cardOnline online
        || saturates t.cardOffline offline }

/-- The decisecond tick at the shift unit: a tick that a total does not count is no addition to it (R100, R104). -/
def Totals.tick (t : Totals) (state : ShiftState) (metering : Bool) : Totals :=
  { t with
    shiftTicks := if state = .closed then t.shiftTicks else addTotal t.shiftTicks 1
    breakTicks := if state = .onBreak then addTotal t.breakTicks 1 else t.breakTicks
    hiredTicks := if metering then addTotal t.hiredTicks 1 else t.hiredTicks
    saturated :=
      t.saturated || (state != .closed && saturates t.shiftTicks 1) || (state == .onBreak && saturates t.breakTicks 1)
        || (metering && saturates t.hiredTicks 1) }

/-- Whether the shift is OPEN or on BREAK. -/
def ShiftUnit.live (x : ShiftUnit) : Bool :=
  x.state != .closed

/-- The totals changed by a hand-off that counts only while the shift is OPEN or on BREAK (R101, R103). -/
def whileLive (f : Totals → Totals) (s : State) : State :=
  if s.shift.live then s.setTotals (f s.shift.totals) else s

/-! ### Pages -/

/-- The three pages as they stand at this event: metres with the k in force, the occupancy, the clock's stamp (R98, R99). -/
def State.livePages (s : State) : Pages where
  number := s.shift.number
  driverId := s.shift.driverId
  state := s.shift.state
  openTime := s.shift.openTime
  stamp := s.stamp
  setId := s.shift.setId
  changes := s.shift.changes
  totals := s.shift.totals
  occupancy := s.payment.store.length
  hiredMetres := metres s.calibration s.shift.totals.hiredPulses
  emptyMetres := metres s.calibration s.shift.totals.emptyPulses

/-- The body of a page (R196). -/
def pageBody (p : Pages) (page : Fin 3) : List Byte :=
  let t := p.totals
  match page with
  | 0 =>
    be 2 p.number ++ be 3 p.driverId ++ [enc ShiftState.all p.state] ++ stampBytes p.openTime ++ stampBytes p.stamp
      ++ be 2 p.setId ++ be 2 p.changes ++ be 4 t.started ++ be 4 t.closed ++ be 4 t.voided ++ be 4 t.capped ++ be 4 t.shared
      ++ be 4 t.signFaults ++ be 4 t.implausible ++ be 4 t.offlineSales ++ be 4 t.reversals ++ [byte p.occupancy]
  | 1 =>
    be 4 t.fares ++ be 4 t.extras ++ be 4 t.tips ++ be 4 t.cash ++ be 4 t.cardOnline ++ be 4 t.cardOffline ++ be 4 t.committed
      ++ [flag t.saturated]
  | 2 =>
    be 4 t.hiredPulses ++ be 4 t.emptyPulses ++ be 5 p.hiredMetres ++ be 5 p.emptyMetres ++ be 4 t.hiredTicks
      ++ be 4 t.breakTicks ++ be 4 t.shiftTicks

/-- A page as a DONE reply carries it: the 9-byte page header and the body (R196). -/
def pageBytes (source : PageSource) (held : Nat) (p : Pages) (page : Fin 3) : List Byte :=
  [byte page.val, enc PageSource.all source, byte held] ++ stampBytes p.stamp ++ pageBody p page

/-- A snapshot with one more page read; `none` when that completes the set and releases it (R106). -/
def Snapshot.mark (x : Snapshot) (page : Fin 3) : Option Snapshot :=
  let y : Snapshot :=
    match page with
    | 0 => { x with read0 := true }
    | 1 => { x with read1 := true }
    | 2 => { x with read2 := true }
  if y.read0 && y.read1 && y.read2 then none else some y

/-! ### Requests -/

/-- The number after a shift number: 65,535 is followed by 1 (R94). -/
def nextShiftNumber (n : Nat) : Nat :=
  if n = 65535 then 1 else n + 1

/-- The SHIFT notice: OPENED 0 or CLOSED 1, and the shift number (R92). -/
def notifyShift (closed : Bool) (s : State) : State :=
  notifyBoth .shift (flag closed :: be 2 s.shift.number) s

/-- SHIFT_OPEN (R93, R94). -/
def actShiftOpen (driver : Nat) (s : State) : State × Result :=
  if s.shift.state ≠ .closed then (s, .refuse .shiftState)
  else if !s.setInForce then (s, .refuse .noTariff)
  else if 999999 < driver then (s, .refuse .range)
  else if Config.reportCapacity ≤ s.shift.reports.length then (s, .refuse .full)
  else
    let x : ShiftUnit :=
      { s.shift with
        state := .opened
        number := nextShiftNumber s.shift.number
        driverId := driver
        openTime := s.stamp
        setId := s.tariff.setId
        changes := s.tariff.changes
        totals := .zero }
    (notifyShift false (deliverShift (s.setShift x)), .ok (be 2 x.number))

/-- SHIFT_BREAK (R95). -/
def actShiftBreak (s : State) : State × Result :=
  if s.shift.state ≠ .opened then (s, .refuse .shiftState)
  else if !s.everyIdle then (s, .refuse .partyState)
  else (deliverShift (s.setShift { s.shift with state := .onBreak }), .ok [enc ShiftState.all .onBreak])

/-- SHIFT_RESUME (R95). -/
def actShiftResume (s : State) : State × Result :=
  if s.shift.state ≠ .onBreak then (s, .refuse .shiftState)
  else (deliverShift (s.setShift { s.shift with state := .opened }), .ok [enc ShiftState.all .opened])

/-- SHIFT_CLOSE: the report, the snapshot's release, the clearing of the share flag and the override, and the state, whose change
the sign unit is told with them in one derivation (R96, R97). -/
def actShiftClose (s : State) : State × Result :=
  if s.shift.state = .closed then (s, .refuse .shiftState)
  else if !s.everyIdle then (s, .refuse .partyState)
  else
    let report := { s.livePages with state := .closed }
    let x := { s.shift with state := .closed, snapshot := none, reports := s.shift.reports ++ [report] }
    let s1 := { s with shift := x, fare := { s.fare with share := false } }
    let s2 :=
      { s1 with
        sign := { s1.sign with offDuty := false, riding := s1.ridingCount, share := false, seatLimit := s1.seatLimit, shift := .closed } }
    (notifyShift true (deriveSign s2), .ok (be 2 x.number ++ [byte x.reports.length]))

/-- TOTALS_READ (R105, R106). -/
def actTotalsRead (page : Byte) (freeze : Bool) (s : State) : State × Result :=
  match index 3 page with
  | none => (s, .refuse .range)
  | some i =>
    match s.shift.snapshot with
    | some x => (s.setShift { s.shift with snapshot := x.mark i }, .ok (pageBytes .snapshot 0 x.pages i))
    | none =>
      if freeze ∧ s.shift.live then
        let x : Snapshot := ⟨s.livePages, false, false, false⟩
        (s.setShift { s.shift with snapshot := x.mark i }, .ok (pageBytes .snapshot 0 x.pages i))
      else (s, .ok (pageBytes .live 0 s.livePages i))

/-- TOTALS_THAW (R107). -/
def actTotalsThaw (s : State) : State × Result :=
  (s.setShift { s.shift with snapshot := none }, .ok [flag s.shift.snapshot.isSome])

/-- REPORT_READ (R109). -/
def actReportRead (n page : Byte) (s : State) : State × Result :=
  match index 3 page with
  | none => (s, .refuse .range)
  | some i =>
    if 7 < n.toNat then (s, .refuse .range)
    else
      match s.shift.reports[n.toNat]? with
      | none => (s, .refuse .notFound)
      | some p => (s, .ok (pageBytes .report s.shift.reports.length p i))

/-- REPORT_DROP (R110). -/
def actReportDrop (number : Nat) (s : State) : State × Result :=
  match s.shift.reports with
  | [] => (s, .refuse .notFound)
  | p :: rest =>
    if p.number ≠ number then (s, .refuse .mismatch)
    else (s.setShift { s.shift with reports := rest }, .ok [byte rest.length])

end Sys2Proof.Machine
end

