-- ==== Sys2Proof/Machine/Fare.lean ====
section
/-! DEFINITION. The fare engine's arithmetic and records: thresholds and step processing (R38 to R42), the display frames (R47, R48),
the hand-offs of a change of state (R21), extras (R29), tariff changes (R44 to R46) and the payment unit's events (R32). -/

namespace Sys2Proof.Machine

/-! ### Step arithmetic (R38 to R42) -/

/-- One accumulator's part of a tariff: its allowance threshold and its stepping threshold (R38). -/
structure Thresholds where
  allowance : Nat
  step : Nat
deriving DecidableEq, Repr

/-- The distance thresholds of a tariff under calibration k (R38). -/
def Tariff.distance (t : Tariff) (k : Nat) : Thresholds :=
  ⟨t.allowDistance * k, t.stepDistance * k⟩

/-- The time thresholds of a tariff (R38). -/
def Tariff.time (t : Tariff) : Thresholds :=
  ⟨t.allowTime, t.stepTime⟩

/-- The current threshold in a phase (R38). -/
def Thresholds.current (t : Thresholds) : Phase → Nat
  | .allowance => t.allowance
  | .stepping => t.step

/-- An accumulator and its phase. -/
structure Accumulator where
  phase : Phase
  value : Nat
deriving DecidableEq, Repr

/-- Stages 1 and 2 of R39: the allowance ends at once when its threshold is 0, or when the accumulator reaches it. -/
def Accumulator.endAllowance (x : Accumulator) (t : Thresholds) : Accumulator :=
  if x.phase = .allowance ∧ t.allowance ≤ x.value then ⟨.stepping, x.value - t.allowance⟩ else x

/-- The steps stage 3 of R39 counts. -/
def Accumulator.steps (x : Accumulator) (t : Thresholds) : Nat :=
  if x.phase = .stepping ∧ t.step ≠ 0 then x.value / t.step else 0

/-- Stages 3 and 4 of R39: the steps are taken off, and an accumulator whose threshold is 0 is held at 0. -/
def Accumulator.takeSteps (x : Accumulator) (t : Thresholds) : Accumulator :=
  let value := x.value - x.steps t * t.step
  ⟨x.phase, if t.current x.phase = 0 then 0 else value⟩

/-- Step processing of one accumulator (R39): the accumulator after it, the steps to charge, and whether it ended its
allowance or charged, which under DOUBLE clears the other (R40). -/
def Accumulator.process (x : Accumulator) (t : Thresholds) : Accumulator × Nat × Bool :=
  let y := x.endAllowance t
  let q := y.steps t
  (y.takeSteps t, q, y.phase != x.phase || q != 0)

/-- A fare grown by steps, computed exactly and capped (R42). -/
def Party.charge (p : Party) (amount : Nat) : Party :=
  { p with fare := min Config.fareCap (p.fare + amount), capped := p.capped || decide (Config.fareCap < p.fare + amount) }

/-- Step processing for a party at a tariff: distance first and then time, each clearing the other under DOUBLE (R39 to R42). -/
def Party.step (p : Party) (t : Tariff) (k : Nat) : Party :=
  let d := (⟨p.phaseD, p.accD⟩ : Accumulator).process (t.distance k)
  let time : Accumulator := if t.method = .double ∧ d.2.2 then ⟨.stepping, 0⟩ else ⟨p.phaseT, p.accT⟩
  let m := time.process t.time
  let dist : Accumulator := if t.method = .double ∧ m.2.2 then ⟨.stepping, 0⟩ else d.1
  let p' := { p with phaseD := dist.phase, accD := dist.value, phaseT := m.1.phase, accT := m.1.value }
  (p'.charge (d.2.1 * t.stepAmount)).charge (m.2.1 * t.stepAmount)

/-- Step processing at the party's tariff and the k in force. A party's tariff is present in the set in force; were it not,
nothing would be charged (notes/assumptions/23.md). -/
def State.stepped (s : State) (p : Party) : Party :=
  match s.tariffAt p.tariff, s.calibration with
  | some t, some k => p.step t k
  | _, _ => p

/-! ### Displays (R47, R48, R192) -/

/-- A FARE_VIEW record of a slot. -/
def viewRecord (i : Fin 4) (p : Party) : List Byte :=
  [byte i.val, enc Station.all p.station, enc PartyState.all p.state, byte p.tariff, enc Lock.all p.lock,
    byte ((if p.capped then 1 else 0) + (if p.shared then 2 else 0) + (if p.motionLost then 4 else 0))]
  ++ be 4 p.fare ++ be 4 p.extras ++ be 4 p.due

/-- A slot's record in the console's view; an IDLE slot carries 0 in every field after the slot (R192). -/
def consoleRecord (i : Fin 4) (p : Party) : List Byte :=
  if p.riding then viewRecord i p else byte i.val :: List.replicate 17 0

/-- A station's record in the passenger's view; a vacant one is slot 255 and keeps its station (R48, R192). -/
def passengerRecord (s : State) (st : Station) : List Byte :=
  match s.slotAt st with
  | some i => viewRecord i (s.party i)
  | none => 255 :: enc Station.all st :: List.replicate 16 0

/-- The console's four records (R47). -/
def consoleRecords (s : State) : List Byte :=
  slots.flatMap fun i => consoleRecord i (s.party i)

/-- The passenger's two records, LEFT then RIGHT (R48). -/
def passengerRecords (s : State) : List Byte :=
  passengerRecord s .left ++ passengerRecord s .right

/-- A FARE_VIEW toward C, produced while C is UP (R47). -/
def showConsole (s : State) : State :=
  if s.isUp .c then emit .c (plainFrame .fareView (4 :: consoleRecords s)) s else s

/-- A FARE_VIEW toward P, produced while P is UP (R48). -/
def showPassenger (s : State) : State :=
  if s.isUp .p then emit .p (plainFrame .fareView (2 :: passengerRecords s)) s else s

/-- What a slot's display content is: all that a FARE_VIEW record shows but the slot's number and station (R47). -/
def Party.display (p : Party) : PartyState × Nat × Lock × Nat × Nat × Nat × Bool × Bool × Bool :=
  (p.state, p.tariff, p.lock, p.fare, p.extras, p.due, p.capped, p.shared, p.motionLost)

/-- Whether the display content of at least one slot differs between two states (R47). -/
def displaysDiffer (s t : State) : Bool :=
  slots.any fun i => (s.party i).display != (t.party i).display

/-- The FARE_VIEW frames at the end of a fare engine event, by which of the two displays it changed (R47, R48). -/
def showViews (console passenger : Bool) (s : State) : State :=
  let s' := if console then showConsole s else s
  if passenger then showPassenger s' else s'

/-- The FARE_VIEW frames at the end of an event that began in state `before` (R47, R48). -/
def showChanges (before s : State) : State :=
  showViews (displaysDiffer before s) (passengerRecords before != passengerRecords s) s

/-! ### Change of a slot's state (R21) -/

/-- The hand-offs of a change of a slot's state: TRIP notice, sign unit, power unit. The FARE_VIEW frames follow at the
event's end. `trip` is the number of the trip concerned. -/
def handOff (i : Fin 4) (trip : Nat) (s : State) : State :=
  let s1 := notifyC .trip ([byte i.val, enc PartyState.all (s.party i).state] ++ be 4 trip) s
  let s2 := deliverParties s1
  if s2.power.allIdle = s2.everyIdle then s2 else { s2 with power := s2.power.takeAllIdle s2.everyIdle }

/-- A party put in a state, with the hand-offs of R21. -/
def moveParty (i : Fin 4) (p : Party) (s : State) : State :=
  handOff i p.trip (s.setParty i p)

/-! ### Extras (R29) -/

/-- A party with an extra added: extras up to the cap, the use count up to 255 (R29). -/
def Party.withExtra (p : Party) (e : Fin 8) (amount : Nat) : Party :=
  { p with
    extras := min Config.extrasCap (p.extras + amount)
    capped := p.capped || decide (Config.extrasCap < p.extras + amount)
    uses := p.uses.set e (min 255 (p.uses[e] + 1)) }

/-- Whether a party has used an extra as often as its per-trip limit allows (R29). -/
def Party.atLimit (p : Party) (e : Fin 8) (x : Extra) : Bool :=
  x.limit != 0 && decide (x.limit ≤ p.uses[e])

/-! ### Events of the payment unit (R32) -/

/-- Offer taken: HOLD to PAYING. -/
def offerTaken (i : Fin 4) (s : State) : State :=
  showChanges s (moveParty i { s.party i with state := .paying } s)

/-- Payment released: PAYING to HOLD, payments as they were. -/
def paymentReleased (i : Fin 4) (s : State) : State :=
  showChanges s (moveParty i { s.party i with state := .hold } s)

/-- SETTLED when nothing is due, HOLD otherwise (R24, R27, R32). -/
def Party.standing (p : Party) : PartyState :=
  if p.due = 0 then .settled else .hold

/-- Payment posted online: base and tip added, then SETTLED or HOLD. -/
def postedOnline (i : Fin 4) (base tip : Nat) (s : State) : State :=
  let p := s.party i
  let p' := { p with cardOnline := p.cardOnline + base, tipsOnline := p.tipsOnline + tip }
  showChanges s (moveParty i { p' with state := p'.standing } s)

/-- Payment posted offline: base and tip added, then SETTLED or HOLD. -/
def postedOffline (i : Fin 4) (base tip : Nat) (s : State) : State :=
  let p := s.party i
  let p' := { p with cardOffline := p.cardOffline + base, tipsOffline := p.tipsOffline + tip }
  showChanges s (moveParty i { p' with state := p'.standing } s)

end Sys2Proof.Machine
end

