-- ==== Sys2Proof/Machine/Milestones.lean ====
section
/-! DEFINITION. The milestone unit: the table and its rearming (R50 to R53), passes and their actions (R54 to R60), its write and read
(R51, R61); and the mid-trip tariff change, which starts passes (R44 to R46). -/

namespace Sys2Proof.Machine

/-! ### Table and matrix -/

/-- The cell of the armed matrix of an entry and a slot. -/
def State.armed (s : State) (e : Fin 12) (i : Fin 4) : Armed :=
  s.milestone.matrix[e][i]

/-- The state with a cell of the armed matrix replaced. -/
def State.setArmed (s : State) (e : Fin 12) (i : Fin 4) (a : Armed) : State :=
  { s with milestone := { s.milestone with matrix := s.milestone.matrix.set e (s.milestone.matrix[e].set i a) } }

/-- A party's quantity of a kind: trip metres, trip ticks or fare (R50, R52). -/
def State.quantityOf (s : State) (q : Quantity) (p : Party) : Nat :=
  match q with
  | .distance => s.tripMetres p
  | .time => p.ticks
  | .fare => p.fare

/-- The entries in index order (R55). -/
def entries : List (Fin 12) :=
  [0, 1, 2, 3, 4, 5, 6, 7, 8, 9, 10, 11]

/-- A slot armed at its hire: level 1 and a clear mark for all twelve entries (R53). -/
def armSlot (i : Fin 4) (s : State) : State :=
  { s with milestone := { s.milestone with matrix := s.milestone.matrix.map fun row => row.set i ⟨1, false⟩ } }

/-- A written entry rearmed for every slot that is not IDLE, from the slot's current quantity (R52). -/
def rearmEntry (e : Fin 12) (m : Milestone) (s : State) : State :=
  slots.foldl
    (fun s i =>
      if (s.party i).riding then s.setArmed e i ⟨s.quantityOf m.quantity (s.party i) / m.threshold + 1, false⟩ else s)
    s

/-! ### Actions at the fare engine (R44, R58, R59) -/

/-- A mid-trip tariff change at one party: a METERING party is charged at once at the new thresholds, any other takes the
index and lock alone (R45, R46). -/
def State.retariffed (s : State) (p : Party) (tariff : Nat) (lock : Lock) : Party :=
  let p' := { p with tariff := tariff, lock := lock }
  if p.state = .metering then s.stepped p' else p'

/-- A milestone's SWITCH_TARIFF, an event of the fare engine: skipped when the tariff is absent (R44, R58). -/
def switchTariff (i : Fin 4) (tariff : Nat) (s : State) : State × FiringOutcome :=
  match s.tariffAt tariff with
  | none => (s, .skipped)
  | some _ => (showChanges s (s.setParty i (s.retariffed (s.party i) tariff .fixed)), .switched)

/-- A milestone's ADD_EXTRA, an event of the fare engine: the stored amount, or LIMIT (R44, R59). -/
def milestoneExtra (i : Fin 4) (extra : Nat) (s : State) : State × FiringOutcome :=
  match index 8 (byte extra), s.extraAt extra with
  | some e, some x =>
    if (s.party i).atLimit e x then (s, .limit)
    else (showChanges s (s.setParty i ((s.party i).withExtra e x.amount)), .added)
  | _, _ => (s, .limit)

/-- The action of a firing and its outcome (R57 to R59). -/
def fireAction (i : Fin 4) (m : Milestone) (s : State) : State × FiringOutcome :=
  match m.action with
  | .notify => (s, .notified)
  | .switchTariff => switchTariff i m.argument s
  | .addExtra => milestoneExtra i m.argument s

/-! ### Passes (R55, R56) -/

/-- A pass under way: the state, and its working value and tariff. -/
structure PassState where
  state : State
  value : Nat
  tariff : Nat

/-- Whether an entry takes part in a pass: enabled, of the pass's quantity, its mark clear, its filter met (R55). -/
def takesPart (m : Milestone) (a : Armed) (q : Quantity) (tariff : Nat) : Bool :=
  m.enabled && m.quantity == q && !a.fired && (m.filter.isNone || m.filter == some tariff)

/-- A firing's mark on the armed matrix: past every level reached for EVERY, fired for ONCE (R55). -/
def Armed.afterFiring (a : Armed) (m : Milestone) (value : Nat) : Armed :=
  match m.repetition with
  | .every => { a with level := value / m.threshold + 1 }
  | .once => { a with fired := true }

/-- One entry of a pass (R55, R56). -/
def passEntry (i : Fin 4) (q : Quantity) (w : PassState) (e : Fin 12) : PassState :=
  let s := w.state
  let m := s.milestone.table[e]
  let a := s.armed e i
  if takesPart m a q w.tariff && decide (a.level * m.threshold ≤ w.value) then
    let r := fireAction i m (s.setArmed e i (a.afterFiring m w.value))
    let s' := notifyC .milestone [byte i.val, byte e.val, enc FiringOutcome.all r.2] r.1
    if m.action = .notify then { w with state := s' }
    else ⟨s', if q = .fare then (s'.party i).fare else w.value, (s'.party i).tariff⟩
  else w

/-- A pass for one party and one quantity, entries 0 to 11 (R55). -/
def runPass (i : Fin 4) (q : Quantity) (s : State) : State :=
  (entries.foldl (passEntry i q) ⟨s, s.quantityOf q (s.party i), (s.party i).tariff⟩).state

/-- A FARE quantity change handed when the fare differs from what it was (R54). -/
def fareChange (i : Fin 4) (before : Nat) (s : State) : State :=
  if (s.party i).fare = before then s else runPass i .fare s

/-! ### Tariff changes of the band (R44) -/

/-- The tariff change event at one party: an AUTO party that is not IDLE takes the tariff, and a METERING one hands its
change of fare (R44, R45). -/
def retariffAuto (tariff : Nat) (s : State) (i : Fin 4) : State :=
  let p := s.party i
  if p.riding ∧ p.lock = .auto then
    let s' := s.setParty i (s.retariffed p tariff .auto)
    if p.state = .metering then fareChange i p.fare s' else s'
  else s

/-- The tariff change event of the tariff store, taken whole at the fare engine in slot order (R44). -/
def tariffChange (tariff : Nat) (s : State) : State :=
  showChanges s (slots.foldl (retariffAuto tariff) s)

/-! ### Requests -/

/-- MILESTONE_SET (R51, R52). -/
def actMilestoneSet (n : Byte) (m : Milestone) (s : State) : State × Result :=
  match index 12 n with
  | none => (s, .refuse .range)
  | some e =>
    if m.threshold = 0 then (s, .refuse .range)
    else if (match m.filter with | some t => decide (7 < t) | none => false) then (s, .refuse .range)
    else if m.action ≠ .notify ∧ 7 < m.argument then (s, .refuse .range)
    else
      let m' := if m.action = .notify then { m with argument := 0 } else m
      let s' := { s with milestone := { s.milestone with table := s.milestone.table.set e m' } }
      (rearmEntry e m' s', .ok [n])

/-- A milestone entry's fields (R50, R190). -/
def milestoneBytes (m : Milestone) : List Byte :=
  [flag m.enabled, enc Quantity.all m.quantity] ++ be 3 m.threshold ++ [enc Repetition.all m.repetition]
    ++ (match m.filter with | none => [0, 0] | some t => [1, byte t])
    ++ [enc MilestoneAction.all m.action, byte m.argument]

/-- MILESTONE_READ: the entry's fields, and each slot's next level and fired mark (R61). -/
def actMilestoneRead (n : Byte) (s : State) : State × Result :=
  match index 12 n with
  | none => (s, .refuse .range)
  | some e =>
    (s, .ok (milestoneBytes s.milestone.table[e] ++ slots.flatMap fun i => be 5 (s.armed e i).level ++ [flag (s.armed e i).fired]))

end Sys2Proof.Machine
end

