-- ==== Sys2Proof/Machine/TariffStore.lean ====
section
/-! DEFINITION. The tariff store: the staged load and its commit (R5 to R10), reads (R11, R12), the cab clock (R13, R14), the active
band (R15, R16) and the cab number (R17). -/

namespace Sys2Proof.Machine

/-- The state with the tariff store replaced. -/
def State.setTariff (s : State) (x : TariffStore) : State :=
  { s with tariff := x }

/-! ### The active band (R15, R16) -/

/-- Today's weekday: 0 Monday to 6 Sunday (R13). -/
def weekday (t : Stamp) : Nat :=
  t.day % 7

/-- The present minute (R15). -/
def minuteOf (t : Stamp) : Nat :=
  t.ds / 600

/-- Whether a schedule entry applies at a moment: its day set holds the weekday and its start minute is not after the present
minute (R15). -/
def Schedule.qualifies (x : Schedule) (t : Stamp) : Bool :=
  x.days.getLsbD (weekday t) && decide (x.start ≤ minuteOf t)

/-- The qualifying entry with the latest start minute (R15). -/
def latestEntry (entries : List (Option Schedule)) (t : Stamp) : Option Schedule :=
  entries.foldl
    (fun best x =>
      match x with
      | none => best
      | some x =>
        if !x.qualifies t then best
        else
          match best with
          | none => some x
          | some y => if y.start < x.start then some x else best)
    none

/-- The band an evaluation gives (R15). -/
def bandAt (set : TariffSet) (t : Stamp) : Option Nat :=
  match set.params with
  | none => none
  | some p =>
    if !t.valid then some p.defaultTariff
    else
      match latestEntry set.schedule.toList t with
      | some x => some x.tariff
      | none => some p.defaultTariff

/-- A band's code: a tariff index, or 255 for NONE (R190). -/
def bandByte (b : Option Nat) : Byte :=
  match b with
  | some t => byte t
  | none => 255

/-- Whether a party that follows the band sits at a station (R16). -/
def State.bandHeard (s : State) : Bool :=
  slots.any fun i => (s.party i).riding && (s.party i).lock == .auto && (s.party i).station != .none

/-- A change of the band and what is handed on: BAND notice, tariff change event, BAND chime (R16). -/
def changeBand (b : Option Nat) (s : State) : State :=
  let s1 := notifyC .band [bandByte b] (s.setTariff { s.tariff with band := b })
  let s2 := match b with | some t => tariffChange t s1 | none => s1
  if s.bandHeard then triggerChime .band s2 else s2

/-- The active band evaluated; an evaluation that gives the band held raises nothing (R15, R16). -/
def evaluateBand (s : State) : State :=
  let b := bandAt s.tariff.inForce s.tariff.clock
  if b = s.tariff.band then s else changeBand b s

/-! ### The cab clock (R13) -/

/-- The clock one decisecond on: midnight starts the next day, and after day 65,535 comes day 0, invalid (R13). -/
def Stamp.advance (t : Stamp) : Stamp :=
  if t.ds + 1 < Config.dayLength then { t with ds := t.ds + 1 }
  else if t.day < 65535 then { t with ds := 0, day := t.day + 1 }
  else ⟨0, 0, false⟩

/-- Whether a clock stands at a minute boundary (R15). -/
def Stamp.atMinute (t : Stamp) : Bool :=
  t.ds % 600 == 0

/-- The decisecond tick at the tariff store's minute boundary (R15). -/
def minuteBoundary (s : State) : State :=
  if s.tariff.clock.atMinute then evaluateBand s else s

/-- SET_CLOCK (R14). -/
def actSetClock (day ds : Nat) (s : State) : State × Result :=
  if Config.dayLength ≤ ds then (s, .refuse .range)
  else (evaluateBand (s.setTariff { s.tariff with clock := ⟨day, ds, true⟩ }), .ok [])

/-! ### The staged load (R5 to R9) -/

/-- One entry as LOAD_PART writes it: a table, an index and the entry, `none` for absent (R6). -/
inductive StagedPart where
  | parameters (index : Byte) (entry : Option Params)
  | tariff (index : Byte) (entry : Option Tariff)
  | schedule (index : Byte) (entry : Option Schedule)
  | extras (index : Byte) (entry : Option Extra)
deriving DecidableEq, Repr

/-- A set with one entry written; `none` when the index lies outside its table (R6). -/
def TariffSet.write (x : TariffSet) : StagedPart → Option TariffSet
  | .parameters n e => if n = 0 then some { x with params := e } else none
  | .tariff n e => (index 8 n).map fun (i : Fin 8) => { x with tariffs := x.tariffs.set i e }
  | .schedule n e => (index 16 n).map fun (i : Fin 16) => { x with schedule := x.schedule.set i e }
  | .extras n e => (index 8 n).map fun (i : Fin 8) => { x with extras := x.extras.set i e }

/-- LOAD_BEGIN: staging is OPEN with every entry absent, whatever was staged (R5). -/
def actLoadBegin (s : State) : State × Result :=
  (s.setTariff { s.tariff with staging := some .empty }, .ok [])

/-- LOAD_PART (R6). -/
def actLoadPart (part : StagedPart) (s : State) : State × Result :=
  match s.tariff.staging with
  | none => (s, .refuse .notFound)
  | some x =>
    match x.write part with
    | none => (s, .refuse .range)
    | some y => (s.setTariff { s.tariff with staging := some y }, .ok [])

/-! ### The serialization (R195) -/

/-- The present byte and body of a parameters entry. -/
def paramsBytes : Option Params → List Byte
  | none => List.replicate 9 0
  | some p => 1 :: byte p.defaultTariff :: be 2 p.k ++ be 2 p.plausibility ++ byte p.seatLimit :: be 2 p.setId

/-- The present byte and body of a tariff entry. -/
def tariffBytes : Option Tariff → List Byte
  | none => List.replicate 16 0
  | some t =>
    1 :: enc Method.all t.method :: be 4 t.flagFall ++ be 2 t.allowDistance ++ be 2 t.allowTime ++ be 2 t.stepAmount
      ++ be 2 t.stepDistance ++ be 2 t.stepTime

/-- The present byte and body of a schedule entry. -/
def scheduleBytes : Option Schedule → List Byte
  | none => List.replicate 5 0
  | some x => 1 :: x.days.setWidth 8 :: be 2 x.start ++ [byte x.tariff]

/-- The present byte and body of an extras entry. -/
def extraBytes : Option Extra → List Byte
  | none => List.replicate 7 0
  | some x => 1 :: enc ExtraKind.all x.kind :: be 4 x.amount ++ [byte x.limit]

/-- The 273 bytes of a set: parameters, tariffs, schedule, extras, each table from index 0 (R195). -/
def TariffSet.serialize (x : TariffSet) : List Byte :=
  paramsBytes x.params ++ x.tariffs.toList.flatMap tariffBytes ++ x.schedule.toList.flatMap scheduleBytes
    ++ x.extras.toList.flatMap extraBytes

/-! ### The refusal classes of a commit (R7) -/

/-- Whether a parameters entry lies in its ranges (R1). -/
def Params.inRange (p : Params) : Bool :=
  decide (p.defaultTariff ≤ 7) && decide (500 ≤ p.k) && decide (p.k ≤ 65535) && decide (1 ≤ p.plausibility)
    && decide (p.plausibility ≤ 65535) && decide (2 ≤ p.seatLimit) && decide (p.seatLimit ≤ 4) && decide (p.setId ≤ 65535)

/-- Whether a tariff entry lies in its ranges (R2). -/
def Tariff.inRange (t : Tariff) : Bool :=
  decide (t.flagFall ≤ 99999) && decide (t.allowDistance ≤ 9999) && decide (t.allowTime ≤ 36000) && decide (t.stepAmount ≤ 9999)
    && decide (t.stepDistance ≤ 9999) && decide (t.stepTime ≤ 36000)

/-- Whether a schedule entry lies in its ranges (R3). -/
def Schedule.inRange (x : Schedule) : Bool :=
  decide (x.start ≤ 1439) && decide (x.tariff ≤ 7)

/-- Whether an extras entry lies in its ranges (R3). -/
def Extra.inRange (x : Extra) : Bool :=
  decide (x.amount ≤ 99999) && decide (x.limit ≤ 255)

/-- The position of the first present entry of a table that fails a test. -/
def firstFailing {α : Type} (ok : α → Bool) (table : List (Option α)) : Option Nat :=
  table.findIdx? fun e => match e with | some x => !ok x | none => false

/-- Whether a tariff index names a present tariff. -/
def TariffSet.names (x : TariffSet) (t : Nat) : Bool :=
  (x.tariffs[t]?).join.isSome

/-- The item bytes of a refused commit: the table and the index, 255 for no index (R194). -/
def commitItem (t : TariffTable) (n : Nat) : Byte × Byte :=
  (enc TariffTable.all t, byte n)

/-- Class 4: the first present entry, in serialization order, with a field outside its range (R7). -/
def TariffSet.rangeFault (x : TariffSet) : Option (Byte × Byte) :=
  if (match x.params with | some p => !p.inRange | none => false) then some (commitItem .parameters 0)
  else
    match firstFailing Tariff.inRange x.tariffs.toList with
    | some n => some (commitItem .tariff n)
    | none =>
      match firstFailing Schedule.inRange x.schedule.toList with
      | some n => some (commitItem .schedule n)
      | none => (firstFailing Extra.inRange x.extras.toList).map (commitItem .extras)

/-- Class 5, references: the default tariff or a schedule entry's tariff names an absent tariff (R7). -/
def TariffSet.referenceFault (x : TariffSet) : Option (Byte × Byte) :=
  if (match x.params with | some p => !x.names p.defaultTariff | none => false) then some (commitItem .parameters 0)
  else (firstFailing (fun e => x.names e.tariff) x.schedule.toList).map (commitItem .schedule)

/-- Whether two schedule entries conflict: they share a weekday and a start minute (R3). -/
def Schedule.conflicts (x y : Schedule) : Bool :=
  (x.days &&& y.days) != 0 && x.start == y.start

/-- Whether entry `n` of the schedule conflicts with an entry below it. -/
def conflictsBelow (table : List (Option Schedule)) (n : Nat) : Bool :=
  match (table[n]?).join with
  | none => false
  | some y => (table.take n).any fun e => match e with | some x => x.conflicts y | none => false

/-- Class 5, conflicts: scanning schedule entries upward, the first that conflicts with one below it, which is the higher-indexed
of the pair (R7, notes/assumptions/14.md). -/
def TariffSet.conflictFault (x : TariffSet) : Option (Byte × Byte) :=
  ((List.range 16).find? (conflictsBelow x.schedule.toList)).map (commitItem .schedule)

/-- Why a commit is refused: the first class of R7 that applies, with its item. -/
def commitFault (shift : ShiftState) (x : TariffSet) (check : BitVec 16) : Option (Reason × (Byte × Byte)) :=
  if shift ≠ .closed then some (.shiftState, (255, 255))
  else if crc16 x.serialize ≠ check then some (.check, (255, 255))
  else if x.params.isNone then some (.incomplete, commitItem .parameters 0)
  else if x.tariffs.toList.all Option.isNone then some (.incomplete, commitItem .tariff 255)
  else
    match x.rangeFault with
    | some item => some (.range, item)
    | none =>
      match x.referenceFault with
      | some item => some (.mismatch, item)
      | none => x.conflictFault.map fun item => (.mismatch, item)

/-- An accepted commit: the staged tables become the set in force, and the id, counter, staging and band follow (R8, R10). -/
def installSet (x : TariffSet) (s : State) : State :=
  let id := match x.params with | some p => p.setId | none => s.tariff.setId
  evaluateBand
    (s.setTariff
      { s.tariff with inForce := x, setId := id, changes := saturate Config.counterMax s.tariff.changes 1, staging := none })

/-- LOAD_COMMIT; a refused attempt discards staging (R7 to R9). -/
def actLoadCommit (check : BitVec 16) (s : State) : State × Result :=
  match s.tariff.staging with
  | none => (s, .refuse .notFound)
  | some x =>
    match commitFault s.shift.state x check with
    | some (reason, item) => (s.setTariff { s.tariff with staging := none }, .refused reason item)
    | none =>
      let s' := installSet x s
      (s', .ok (be 2 s'.tariff.setId ++ be 2 s'.tariff.changes))

/-! ### Reads and the cab number -/

/-- The bytes of one entry of a set; `none` when the index lies outside its table (R11, R194). -/
def TariffSet.read (x : TariffSet) (t : TariffTable) (n : Byte) : Option (List Byte) :=
  match t with
  | .parameters => if n = 0 then some (paramsBytes x.params) else none
  | .tariff => (index 8 n).map fun (i : Fin 8) => tariffBytes x.tariffs[i]
  | .schedule => (index 16 n).map fun (i : Fin 16) => scheduleBytes x.schedule[i]
  | .extras => (index 8 n).map fun (i : Fin 8) => extraBytes x.extras[i]

/-- TARIFF_READ: the index is judged first, then whether staging is there to read (R11). -/
def actTariffRead (source : TariffSource) (t : TariffTable) (n : Byte) (s : State) : State × Result :=
  match TariffSet.empty.read t n with
  | none => (s, .refuse .range)
  | some _ =>
    match source, s.tariff.staging with
    | .inForce, _ => (s, .ok ((s.tariff.inForce.read t n).getD []))
    | .staging, some x => (s, .ok ((x.read t n).getD []))
    | .staging, none => (s, .refuse .notFound)

/-- TARIFF_STATUS (R12). -/
def actTariffStatus (s : State) : State × Result :=
  let x := s.tariff
  (s, .ok (flag s.setInForce :: be 2 x.setId ++ be 2 x.changes ++ [bandByte x.band] ++ be 2 x.clock.day ++ be 3 x.clock.ds
    ++ [flag x.clock.valid] ++ be 4 x.cabNumber.toNat ++ [flag x.staging.isSome]))

/-- SET_CAB_ID (R17). -/
def actSetCabId (n : BitVec 32) (s : State) : State × Result :=
  if s.shift.state ≠ .closed then (s, .refuse .shiftState)
  else (s.setTariff { s.tariff with cabNumber := n }, .ok [])

end Sys2Proof.Machine
end

