-- ==== Sys2Proof/Machine/Trips.lean ====
section
/-! DEFINITION. The fare engine's events: the trip requests (R19 to R31), PARTY_READ (R49), MOTION frames (R33 to R35) and the
decisecond tick (R36). -/

namespace Sys2Proof.Machine

/-! ### Naming a slot (R21) -/

/-- A request that names a slot: RANGE for a slot outside 0 to 3, PARTY_STATE for a slot whose state does not take the request, and
otherwise what the request does with it (R21). -/
def onSlot (n : Byte) (takes : PartyState → Bool) (act : Fin 4 → State → State × Result) (s : State) : State × Result :=
  match index 4 n with
  | none => (s, .refuse .range)
  | some i => if takes (s.party i).state then act i s else (s, .refuse .partyState)

/-! ### HIRE (R22, R23) -/

/-- A tariff argument that allows AUTO: AUTO is 255 (R190). -/
inductive TariffArg where
  | auto
  | named (n : Nat)
deriving DecidableEq, Repr

/-- The tariff argument a byte carries. -/
def tariffArg (b : Byte) : TariffArg :=
  if b = 255 then .auto else .named b.toNat

/-- Why a tariff argument is refused: RANGE above 7, NOT_FOUND for an absent tariff (R22, R30). -/
def State.tariffFault (s : State) : TariffArg → Option Reason
  | .auto => none
  | .named n => if 7 < n then some .range else if (s.tariffAt n).isNone then some .notFound else none

/-- The tariff and lock an argument gives, AUTO by the active band as it is held (R23, R30). -/
def State.tariffChosen (s : State) : TariffArg → Nat × Lock
  | .auto => (s.tariff.band.getD 0, .auto)
  | .named n => (n, .fixed)

/-- The first refusal class of a HIRE that applies (R22). -/
def hireFault (t : TariffArg) (st : Station) (s : State) : Option Reason :=
  if !s.setInForce then some .noTariff
  else if s.shift.state ≠ .opened then some .shiftState
  else
    match s.tariffFault t with
    | some r => some r
    | none =>
      if s.seatLimit ≤ s.ridingCount then some .seatLimit
      else if s.stationTaken st fun _ => true then some .stationTaken
      else none

/-- The record of a party newly hired, before its step processing (R23). -/
def newParty (s : State) (t : TariffArg) (st : Station) : Party :=
  let chosen := s.tariffChosen t
  { Party.vacant with
    state := .metering
    trip := addTotal s.shift.totals.started 1
    station := st
    tariff := chosen.1
    lock := chosen.2
    fare := match s.tariffAt chosen.1 with | some x => x.flagFall | none => 0
    shared := decide (0 < s.ridingCount)
    hireTime := s.stamp }

/-- Every party that is not IDLE marked shared (R23). -/
def markShared (s : State) : State :=
  { s with fare := { s.fare with parties := s.fare.parties.map fun p => if p.riding then { p with shared := true } else p } }

/-- A hire made in slot `i`, the active band being already evaluated: record, count, shared marks, arming and FARE pass (R23). -/
def openTrip (i : Fin 4) (t : TariffArg) (st : Station) (s : State) : State :=
  let p := s.stepped (newParty s t st)
  let s1 := if p.shared then markShared s else s
  let s2 := (s1.setParty i p).setTotals s.shift.totals.countStarted
  runPass i .fare (armSlot i s2)

/-- The result fields of a HIRE (R23). -/
def hireFields (i : Fin 4) (p : Party) : List Byte :=
  byte i.val :: be 4 p.trip ++ [byte p.tariff, enc Lock.all p.lock] ++ be 4 p.fare

/-- HIRE (R22, R23). A slot is always free where the seat limit is not reached; were none free, SEAT_LIMIT would be the
reason (notes/assumptions/23.md). DESIGN CHOICE: the reply's tariff, lock and fare are those left by the actions of the hire's own FARE pass
(notes/assumptions/37.md). -/
def actHire (t : TariffArg) (st : Station) (s : State) : State × Result :=
  match hireFault t st s with
  | some r => (s, .refuse r)
  | none =>
    match s.lowestIdle with
    | none => (s, .refuse .seatLimit)
    | some i =>
      let s1 := evaluateBand s
      let s2 := openTrip i t st s1
      let s3 := handOff i (s2.party i).trip s2
      (showChanges s1 s3, .ok (hireFields i (s3.party i)))

/-! ### Ending and resuming -/

/-- TOTAL (R24). -/
def actTotal (n : Byte) : State → State × Result :=
  onSlot n (fun x => x == .metering) fun i s =>
    let p := s.party i
    let p' := { p with state := p.standing }
    (showChanges s (moveParty i p' s), .ok (enc PartyState.all p'.state :: be 4 p'.fare ++ be 4 p'.extras ++ be 4 p'.due))

/-- RESUME: the deferred step processing, METERING, the FARE pass if the fare changed, the hand-offs (R25). DESIGN CHOICE: the reply's fare is the
one left by the actions of that pass (notes/assumptions/37.md). -/
def actResume (n : Byte) : State → State × Result :=
  onSlot n (fun x => x == .hold) fun i s =>
    let p := s.party i
    if p.cash ≠ 0 ∨ p.cardOnline ≠ 0 ∨ p.cardOffline ≠ 0 then (s, .refuse .paymentState)
    else
      let p' := { s.stepped p with state := .metering }
      let s1 := fareChange i p.fare (s.setParty i p')
      let s2 := handOff i (s1.party i).trip s1
      (showChanges s s2, .ok (be 4 (s2.party i).fare))

/-- A slot returned to IDLE, with the hand-offs under the number of the trip that ended (R18, R21). -/
def vacate (i : Fin 4) (s : State) : State :=
  handOff i (s.party i).trip (s.setParty i .vacant)

/-- VOID (R26). -/
def actVoid (n : Byte) : State → State × Result :=
  onSlot n (fun x => x == .metering) fun i s =>
    let p := s.party i
    if p.phaseD = .allowance ∧ p.phaseT = .allowance ∧ p.extras = 0 then
      (showChanges s (vacate i (s.setTotals s.shift.totals.countVoided)), .ok [])
    else (s, .refuse .partyState)

/-- PAY_CASH: the amount is clamped to the due (R27, R180). -/
def actPayCash (n : Byte) (amount : Nat) : State → State × Result :=
  onSlot n (fun x => x == .hold) fun i s =>
    if amount = 0 then (s, .refuse .range)
    else
      let p := s.party i
      let recorded := min amount p.due
      let p' := { p with cash := p.cash + recorded }
      let p'' := { p' with state := p'.standing }
      let s1 := if p''.state = .settled then moveParty i p'' s else s.setParty i p''
      (showChanges s s1, .done (be 4 recorded ++ be 4 p''.due ++ [enc PartyState.all p''.state]) (recorded != amount))

/-- CLOSE_TRIP: the posting, the station told closed, the slot IDLE (R28). -/
def actCloseTrip (n : Byte) : State → State × Result :=
  onSlot n (fun x => x == .settled) fun i s =>
    let p := s.party i
    let s1 := tripClosedAt p.station (s.setTotals (s.shift.totals.post p))
    (showChanges s (vacate i s1), .ok (be 4 p.trip))

/-! ### Extras, tariff, station, share -/

/-- ADD_EXTRA: a FIXED entry charges its stored amount, a VARIABLE one the amount given (R29). -/
def actAddExtra (n extra : Byte) (amount : Nat) : State → State × Result :=
  onSlot n (fun x => x == .metering || x == .hold) fun i s =>
    match index 8 extra with
    | none => (s, .refuse .range)
    | some e =>
      match s.extraAt e.val with
      | none => (s, .refuse .notFound)
      | some x =>
        let p := s.party i
        if p.atLimit e x then (s, .refuse .limit)
        else if x.kind = .variable ∧ (amount = 0 ∨ x.amount < amount) then (s, .refuse .range)
        else
          let p' := p.withExtra e (match x.kind with | .fixed => x.amount | .variable => amount)
          (showChanges s (s.setParty i p'), .ok (be 4 (p'.extras - p.extras) ++ be 4 p'.extras ++ be 4 p'.due))

/-- SET_TARIFF, made as a mid-trip tariff change (R30, R45, R46). DESIGN CHOICE: the reply's tariff, lock and fare are those left by the actions of
the FARE pass the change starts (notes/assumptions/37.md). -/
def actSetTariff (n : Byte) (t : TariffArg) : State → State × Result :=
  onSlot n (fun x => x == .metering || x == .hold) fun i s =>
    match s.tariffFault t with
    | some r => (s, .refuse r)
    | none =>
      let p := s.party i
      let chosen := s.tariffChosen t
      let s1 := s.setParty i (s.retariffed p chosen.1 chosen.2)
      let s2 := if p.state = .metering then fareChange i p.fare s1 else s1
      let q := s2.party i
      (showChanges s s2, .ok ([byte q.tariff, enc Lock.all q.lock] ++ be 4 q.fare))

/-- Whether a slot's payment record is the head in PIN (R31). -/
def State.pinEntryAt (s : State) (i : Fin 4) : Bool :=
  match s.pinHead with
  | some r => r.slot == i
  | none => false

/-- SET_STATION (R31). -/
def actSetStation (n : Byte) (st : Station) : State → State × Result :=
  onSlot n (fun x => x != .idle) fun i s =>
    if s.pinEntryAt i then (s, .refuse .paymentState)
    else if s.stationTaken st fun j => j != i then (s, .refuse .stationTaken)
    else (showChanges s (s.setParty i { s.party i with station := st }), .ok [])

/-- SHARE (R19). -/
def actShare (on : Bool) (s : State) : State × Result :=
  if on ∧ s.shift.state ≠ .opened then (s, .refuse .shiftState)
  else
    let s1 := { s with fare := { s.fare with share := on } }
    let s2 := if s.fare.share = on then s else deliverParties s1
    (s2, .ok [flag on, byte s1.seatLimit])

/-! ### PARTY_READ (R49) -/

/-- A party's record in the order of R18, with its amount due and trip distance. -/
def partyBytes (s : State) (p : Party) : List Byte :=
  [enc PartyState.all p.state] ++ be 4 p.trip
    ++ [enc Station.all p.station, byte p.tariff, enc Lock.all p.lock, enc Phase.all p.phaseD, enc Phase.all p.phaseT]
    ++ be 4 p.accD ++ be 4 p.accT ++ be 4 p.pulses ++ be 4 p.ticks ++ be 4 p.fare ++ be 4 p.extras ++ p.uses.toList.map byte
    ++ be 4 p.cash ++ be 4 p.cardOnline ++ be 4 p.cardOffline ++ be 4 p.tipsOnline ++ be 4 p.tipsOffline
    ++ [flag p.capped, flag p.shared, flag p.motionLost] ++ stampBytes p.hireTime ++ be 4 p.due ++ be 5 (s.tripMetres p)

/-- PARTY_READ: taken for a slot in any state (R49). -/
def actPartyRead (n : Byte) : State → State × Result :=
  onSlot n (fun _ => true) fun i s => (s, .ok (partyBytes s (s.party i)))

/-! ### Quantity changes of motion and time (R35, R36, R54) -/

/-- The fare engine's event on a METERING party: its arithmetic is applied and step processing run, then the quantity's pass is made,
and a FARE pass if the step processing changed the fare (R35, R36, R54). -/
def meterParty (q : Quantity) (grow : Party → Party) (s : State) (i : Fin 4) : State :=
  let p := s.party i
  if p.state = .metering then
    let p' := s.stepped (grow p)
    let s1 := runPass i q (s.setParty i p')
    if p'.fare = p.fare then s1 else runPass i .fare s1
  else s

/-- What the event's own arithmetic does to the display content, over all parties: the displays toward C and toward P it changes.
A milestone action's own displays are made at the action (notes/assumptions/13.md). -/
def meteringChanges (grow : Party → Party) (s : State) (i : Fin 4) : Bool × Bool :=
  let p := s.party i
  let changed := p.state == .metering && (s.stepped (grow p)).display != p.display
  (changed, changed && p.station != .none)

/-- One party after another, the displays changed noted as they come. -/
def meterEach (q : Quantity) (grow : State → Party → Party) : List (Fin 4) → State × Bool × Bool → State × Bool × Bool
  | [], r => r
  | i :: rest, (s, c, p) =>
    let changes := meteringChanges (grow s) s i
    meterEach q grow rest (meterParty q (grow s) s i, c || changes.1, p || changes.2)

/-- The event over the four slots in slot order, and its FARE_VIEW frames (R35, R36, R47, R48). -/
def meterAll (q : Quantity) (grow : State → Party → Party) (s : State) : State :=
  let r := meterEach q grow slots (s, false, false)
  showViews r.2.1 r.2.2 r.1

/-- A party's current distance threshold (R38); 0 where no tariff or k is found. -/
def State.distanceThreshold (s : State) (p : Party) : Nat :=
  match s.tariffAt p.tariff, s.calibration with
  | some t, some k => (t.distance k).current p.phaseD
  | _, _ => 0

/-- A party's current time threshold (R38). -/
def State.timeThreshold (s : State) (p : Party) : Nat :=
  match s.tariffAt p.tariff with
  | some t => t.time.current p.phaseT
  | none => 0

/-- A delta at a METERING party, before step processing (R35). -/
def Party.grownBy (delta : Nat) (s : State) (p : Party) : Party :=
  { p with
    pulses := saturate Config.totalMax p.pulses delta
    accD := if s.distanceThreshold p = 0 then p.accD else p.accD + 1000 * delta }

/-- A tick at a METERING party, before step processing (R36). -/
def Party.grownByTick (s : State) (p : Party) : Party :=
  { p with
    ticks := saturate Config.totalMax p.ticks 1
    accT := if s.timeThreshold p = 0 then p.accT else p.accT + 1 }

/-! ### MOTION (R33 to R35) -/

/-- Every METERING party marked motion-lost (R33, R34). -/
def markMotionLost (s : State) : State :=
  { s with
    fare := { s.fare with parties := s.fare.parties.map fun p => if p.state = .metering then { p with motionLost := true } else p } }

/-- The last odometer count taken from a frame (R33, R34). -/
def setLastCount (count : Nat) (s : State) : State :=
  { s with fare := { s.fare with lastCount := count, countKnown := true } }

/-- The last odometer count made unknown (R33). -/
def forgetCount (s : State) : State :=
  { s with fare := { s.fare with countKnown := false } }

/-- A MOTION notice: IMPLAUSIBLE 0, RESYNC 1 (R33, R34, R181). -/
def notifyMotion (resync : Bool) (s : State) : State :=
  notifyBoth .motion [flag resync] s

/-- The resync of an unknown last count (R33). -/
def resync (count : Nat) (s : State) : State :=
  showChanges s (markMotionLost (notifyMotion true (setLastCount count s)))

/-- An implausible delta: dropped, notified, counted (R34). -/
def dropDelta (count : Nat) (s : State) : State :=
  let s1 := whileLive Totals.countImplausible (notifyMotion false (setLastCount count s))
  showChanges s (markMotionLost s1)

/-- The pulses of an accepted delta handed to the shift: hired when a slot was METERING at this event (R35, R103). -/
def handPulses (hired : Bool) (delta : Nat) (s : State) : State :=
  whileLive (fun t => if hired then t.addHired delta else t.addEmpty delta) s

/-- An accepted delta (R35). -/
def applyDelta (count delta : Nat) (s : State) : State :=
  let s1 := setLastCount count s
  if delta = 0 then s1 else handPulses s.anyMetering delta (meterAll .distance (Party.grownBy delta) s1)

/-- The delta of a frame's count, modulo 65,536 (R34). -/
def State.delta (s : State) (count : Nat) : Nat :=
  (count + 65536 - s.fare.lastCount) % 65536

/-- Whether a delta is above the plausibility limit; there is none while no set is in force (R34). -/
def State.implausible (s : State) (delta : Nat) : Bool :=
  match s.tariff.inForce.params with
  | none => false
  | some p => decide (p.plausibility < delta)

/-- The count of a MOTION frame (R33 to R35). -/
def takeCount (count : Nat) (s : State) : State :=
  if !s.fare.countKnown then resync count s
  else if s.implausible (s.delta count) then dropDelta count s
  else applyDelta count (s.delta count) s

/-! ### The decisecond tick (R36) -/

/-- The tick at the fare engine (R36). -/
def fareTick (s : State) : State :=
  meterAll .time Party.grownByTick s

end Sys2Proof.Machine
end

