-- ==== Sys2Proof/Machine/Payment.lean ====
section
/-! DEFINITION. The payment unit: the payment queue (R62, R63), offers and cancellations (R64 to R67), the authorization ask and its two
paths (R68 to R77), the store-and-forward queue and its upload (R78 to R83), policy and refusal list (R84 to R86), link loss (R87,
R88) and status (R90). -/

namespace Sys2Proof.Machine

/-- The state with the payment unit replaced. -/
def State.setPayment (s : State) (x : PaymentUnit) : State :=
  { s with payment := x }

/-! ### PAY notices (R89) -/

/-- A cancellation's cause, code 1 upward (R190). -/
def causeCode (c : CancelCause) : Byte :=
  byte (CancelCause.all.idxOf c + 1)

/-- An offline refusal's reason, code 1 upward (R190). -/
def offlineCode (r : OfflineReason) : Byte :=
  byte (OfflineReason.all.idxOf r + 1)

/-- A PAY notice: slot, result, cause or reason, delivery marker (R89, R181). -/
def notifyPay (slot : Fin 4) (result : PayResult) (cause : Byte) (undelivered : Bool) (s : State) : State :=
  notifyC .pay [byte slot.val, enc PayResult.all result, cause, flag undelivered] s

/-! ### The queue (R62, R63) -/

/-- The head promoted: OFFERED, a CHARGE_OFFER toward K, the offer timer started (R63). -/
def promote (s : State) : State :=
  match s.payment.queue with
  | [] => s
  | r :: rest =>
    let s1 := s.setPayment { s.payment with queue := { r with state := .offered } :: rest }
    let s2 := emit .k (payFrame .chargeOffer (byte r.slot.val :: be 4 r.offered ++ [byte s.payment.policy.tipPercent])) s1
    s2.setPayment { s2.payment with offerTimer := some Config.offerPeriod }

/-- The head removed, and the next record promoted if one remains (R62, R63). -/
def removeHead (s : State) : State :=
  promote (s.setPayment { s.payment with queue := s.payment.queue.drop 1 })

/-- Whether the head's slot is `i`. -/
def State.headAt (s : State) (i : Fin 4) : Bool :=
  match s.payment.queue with
  | r :: _ => r.slot == i
  | [] => false

/-- The payment record of a slot. -/
def State.recordOf (s : State) (i : Fin 4) : Option Record :=
  s.payment.queue.find? fun r => r.slot == i

/-- A cancellation of the record of a slot (R65). -/
def cancelRecord (i : Fin 4) (cause : CancelCause) (s : State) : State :=
  let head := s.headAt i
  let s1 := paymentReleased i s
  let s2 := if head ∧ cause ≠ .link then emit .k (payFrame .chargeWithdraw [byte i.val]) s1 else s1
  let s3 := notifyPay i .cancelled (causeCode cause) false s2
  if head then removeHead (s3.setPayment { s3.payment with offerTimer := none })
  else s3.setPayment { s3.payment with queue := s3.payment.queue.filter fun r => r.slot != i }

/-- OFFER_CARD: an amount of 0 means the whole due (R64). -/
def actOfferCard (n : Byte) (amount : Nat) : State → State × Result :=
  onSlot n (fun x => x == .hold) fun i s =>
    let due := (s.party i).due
    if !s.isUp .k then (s, .refuse .linkDown)
    else if due < amount then (s, .refuse .range)
    else
      let offered := if amount = 0 then due else amount
      let first := s.payment.queue.isEmpty
      let s1 := offerTaken i s
      let s2 := s1.setPayment { s1.payment with queue := s1.payment.queue ++ [⟨i, offered, .queued, none, none, none, none⟩] }
      (if first then promote s2 else s2,
       .ok (be 4 offered ++ [enc RecordState.all (if first then .offered else .queued)]))

/-- CANCEL_CARD. A PAYING slot has a record; had it none, nothing would be there to cancel (R65, notes/assumptions/23.md). -/
def actCancelCard (n : Byte) : State → State × Result :=
  onSlot n (fun x => x == .paying) fun i s =>
    match s.recordOf i with
    | none => (s, .refuse .partyState)
    | some r => if r.state = .authorizing then (s, .refuse .paymentState) else (cancelRecord i .console s, .ok [])

/-! ### Terminal stages (R66) and the offer timer (R67) -/

/-- The head record replaced. -/
def State.setHead (s : State) (r : Record) : State :=
  s.setPayment { s.payment with queue := r :: s.payment.queue.drop 1 }

/-- A CARD_STAGE of the head (R66). -/
def takeStage (stage : CardStage) (r : Record) (s : State) : State :=
  match r.state, stage with
  | .offered, .pinStart =>
    let s1 := s.setHead { r with state := .pin }
    pinStarted (s1.setPayment { s1.payment with offerTimer := none })
  | .pin, .pinEnd =>
    let s1 := s.setHead { r with state := .offered }
    s1.setPayment { s1.payment with offerTimer := some Config.offerPeriod }
  | .offered, .cancelled => cancelRecord r.slot .terminal s
  | .pin, .cancelled => cancelRecord r.slot .terminal s
  | _, _ => s

/-- CARD_STAGE (slot, stage): taken when the head exists and its slot is the slot carried (R66). -/
def takeCardStage (fields : List Byte) (s : State) : State :=
  match fields, s.payment.queue with
  | [slot, stage], r :: _ =>
    match dec CardStage.all stage with
    | some x => if r.slot.val = slot.toNat then takeStage x r s else s
    | none => s
  | _, _ => s

/-- The expiry of the offer timer (R67). -/
def offerExpiry (s : State) : State :=
  match s.payment.offerTimer, s.payment.queue with
  | some _, r :: _ => if r.state = .offered then cancelRecord r.slot .timeout s else s
  | _, _ => s

/-! ### The store-and-forward queue (R78 to R83) -/

/-- The fields an UPLOAD carries of an entry; a REVERSAL has amount, tip and token absent (R78, R193). -/
def uploadFields (cab : BitVec 32) (e : StoreEntry) : List Byte :=
  let own : Byte × Nat × Nat × BitVec 128 := match e.kind with | .sale amount tip token => (0, amount, tip, token) | .reversal => (1, 0, 0, 0)
  own.1 :: be 2 e.hubRef ++ be 4 cab.toNat ++ be 2 e.shift ++ [byte e.slot.val] ++ be 4 e.trip ++ be 4 own.2.1 ++ be 4 own.2.2.1
    ++ be 16 own.2.2.2.toNat ++ stampBytes e.stamp

/-- The head entry sent: an UPLOAD toward D, AWAITING, the upload timer started (R80). -/
def uploadHead (s : State) : State :=
  match s.payment.store with
  | [] => s
  | e :: _ =>
    let s1 := emit .d (payFrame .upload (uploadFields s.tariff.cabNumber e)) s
    s1.setPayment { s1.payment with upload := .awaiting, uploadTimer := some Config.uploadPeriod }

/-- The head entry sent if the conditions for it hold together: RUN, D UP, entries held, upload IDLE (R80). -/
def sendUpload (s : State) : State :=
  if s.running ∧ s.isUp .d ∧ s.payment.upload = .idle then uploadHead s else s

/-- The upload idled: at D going DOWN and at the park (R82). -/
def idleUpload (s : State) : State :=
  s.setPayment { s.payment with upload := .idle, uploadTimer := none }

/-- The STORE notice of a crossing between 27 and 28 (R79). -/
def notifyStore (s : State) : State :=
  notifyD .store [byte s.payment.store.length] s

/-- The shift's count of an appended entry's kind (R79). -/
def Totals.countEntry (t : Totals) : StoreKind → Totals
  | .sale _ _ _ => t.countSale
  | .reversal => t.countReversal

/-- An entry appended: counted in the shift, notified at the crossing to 28, and sent if nothing else is being sent (R78 to R80). -/
def appendEntry (e : StoreEntry) (s : State) : State :=
  let s1 := s.setPayment { s.payment with store := s.payment.store ++ [e] }
  let s2 := s1.setTotals (s1.shift.totals.countEntry e.kind)
  let s3 := if s2.payment.store.length = Config.offlineLimit then notifyStore s2 else s2
  sendUpload s3

/-- One more answer or acknowledgement that matched nothing (R73, R81). -/
def countUnmatched (s : State) : State :=
  s.setPayment { s.payment with unmatched := saturate Config.counterMax s.payment.unmatched 1 }

/-- UPLOAD_ACK (hub reference): a match removes the head entry, and the next is sent (R79, R81). -/
def takeUploadAck (fields : List Byte) (s : State) : State :=
  match s.payment.store with
  | [] => countUnmatched s
  | e :: rest =>
    if e.hubRef = num fields then
      let s1 := s.setPayment { s.payment with store := rest, upload := .idle, uploadTimer := none }
      let s2 := if rest.length + 1 = Config.offlineLimit then notifyStore s1 else s1
      sendUpload s2
    else countUnmatched s

/-- The expiry of the upload timer in AWAITING: the head entry is sent again (R80). -/
def uploadExpiry (s : State) : State :=
  match s.payment.uploadTimer, s.payment.upload with
  | some _, .awaiting => uploadHead s
  | _, _ => s

/-! ### Hub references (R69) -/

/-- The value after a counter value: after 65,535 comes 1, and 0 is skipped. -/
def nextRef (n : Nat) : Nat :=
  if n < 65535 then n + 1 else 1

/-- The next free reference after `n`: one held by an entry of the store is passed over. One more trial than there are
entries always finds one. -/
def freeRef (store : List StoreEntry) : Nat → Nat → Nat
  | 0, n => nextRef n
  | tries + 1, n => if store.any fun e => e.hubRef == nextRef n then freeRef store tries (nextRef n) else nextRef n

/-- The reference an allocation gives (R69). -/
def PaymentUnit.allocate (x : PaymentUnit) : Nat :=
  freeRef x.store x.store.length x.refCounter

/-! ### The authorization ask (R68 to R77) -/

/-- An AUTH_ASK's fields after the slot: amount, tip, token, terminal reference (R193). -/
structure Ask where
  amount : Nat
  tip : Nat
  token : BitVec 128
  terminalRef : BitVec 32
deriving DecidableEq, Repr

/-- The fields of an AUTH_ASK after its slot byte. -/
def askOf (bs : List Byte) : Ask where
  amount := num (bs.take 4)
  tip := num ((bs.drop 4).take 4)
  token := BitVec.ofNat 128 (num ((bs.drop 8).take 16))
  terminalRef := BitVec.ofNat 32 (num (bs.drop 24))

/-- An AUTH_RESULT toward K (R193). -/
def authResult (slot : Byte) (result : AuthResult) (reason : Byte) (ref : BitVec 32) (amount tip : Nat) (s : State) : State :=
  emit .k (payFrame .authResult ([slot, enc AuthResult.all result, reason] ++ be 4 ref.toNat ++ be 4 amount ++ be 4 tip)) s

/-- The two checks of an accepted ask: the amount within the offer, the tip within the tip percent (R68). -/
def Ask.passes (x : Ask) (offered percent : Nat) : Bool :=
  decide (1 ≤ x.amount) && decide (x.amount ≤ offered) && decide (x.tip ≤ x.amount * percent / 100)

/-- Whether an ask goes online (R68). -/
def State.online (s : State) : Bool :=
  s.isUp .d && !s.payment.policy.forceOffline && decide (s.payment.store.length < Config.storeCapacity)

/-- The online path: reference, AUTH_FORWARD, AUTHORIZING, answer timer (R70). -/
def forwardAsk (r : Record) (x : Ask) (s : State) : State :=
  let ref := s.payment.allocate
  let s1 := s.setPayment { s.payment with refCounter := ref }
  let fields :=
    be 2 ref ++ be 4 s.tariff.cabNumber.toNat ++ be 2 s.shift.number ++ be 4 (s.party r.slot).trip ++ be 4 x.amount ++ be 4 x.tip
      ++ be 16 x.token.toNat ++ stampBytes s.stamp
  let s2 := emit .d (payFrame .authForward fields) s1
  let s3 :=
    s2.setHead
      { r with
        state := .authorizing, terminalRef := some x.terminalRef, amountAsked := some x.amount, tipAsked := some x.tip,
        hubRef := some ref }
  s3.setPayment { s3.payment with offerTimer := none, answerTimer := some (s.payment.policy.answerTimeout * 1000) }

/-- The first 8 bytes of a token (R75). -/
def tokenPrefix (token : BitVec 128) : BitVec 64 :=
  token.extractLsb' 64 64

/-- Why an offline ask is refused: the first condition of R75 that fails. -/
def offlineFault (x : Ask) (s : State) : Option OfflineReason :=
  if s.payment.policy.floorLimit < x.amount + x.tip then some .floor
  else if s.payment.policy.shiftCap < s.shift.totals.committed + x.amount + x.tip then some .cap
  else if Config.offlineLimit ≤ s.payment.store.length then some .queue
  else if tokenPrefix x.token ∈ s.payment.refusalList then some .listed
  else none

/-- An approved offline ask (R76). -/
def approveOffline (r : Record) (x : Ask) (s : State) : State :=
  let ref := s.payment.allocate
  let s1 := s.setPayment { s.payment with refCounter := ref, offerTimer := none }
  let e : StoreEntry := ⟨.sale x.amount x.tip x.token, ref, r.slot, (s.party r.slot).trip, s.shift.number, s.stamp⟩
  let s2 := appendEntry e s1
  let s3 := s2.setTotals (s2.shift.totals.commit (x.amount + x.tip))
  let s4 := postedOffline r.slot x.amount x.tip s3
  let undelivered := !s4.isUp .k
  let s5 := authResult (byte r.slot.val) .offlineApproved 0 x.terminalRef x.amount x.tip s4
  let s6 := triggerChime .paid s5
  removeHead (notifyPay r.slot .offlineApproved 0 undelivered s6)

/-- A refused offline ask (R77). -/
def refuseOffline (r : Record) (x : Ask) (reason : OfflineReason) (s : State) : State :=
  let s1 := s.setPayment { s.payment with offerTimer := none }
  let undelivered := !s1.isUp .k
  let s2 := authResult (byte r.slot.val) .offlineRefused (offlineCode reason) x.terminalRef 0 0 s1
  let s3 := paymentReleased r.slot s2
  removeHead (notifyPay r.slot .offlineRefused (offlineCode reason) undelivered s3)

/-- The offline path (R75). -/
def decideOffline (r : Record) (x : Ask) (s : State) : State :=
  match offlineFault x s with
  | some reason => refuseOffline r x reason s
  | none => approveOffline r x s

/-- Whether a record takes an ask: OFFERED or PIN (R68). -/
def Record.asks (r : Record) : Bool :=
  r.state == .offered || r.state == .pin

/-- AUTH_ASK (R68). -/
def takeAuthAsk (fields : List Byte) (s : State) : State :=
  match fields with
  | [] => s
  | slot :: rest =>
    let x := askOf rest
    match s.payment.queue with
    | [] => authResult slot .refusedState 0 x.terminalRef 0 0 s
    | r :: _ =>
      if r.slot.val ≠ slot.toNat ∨ !r.asks then authResult slot .refusedState 0 x.terminalRef 0 0 s
      else if !x.passes r.offered s.payment.policy.tipPercent then authResult slot .refusedAmount 0 x.terminalRef 0 0 s
      else if s.online then forwardAsk r x s
      else decideOffline r x s

/-! ### The answer (R71 to R74) -/

/-- The AUTHORIZING head that holds a reference. -/
def State.authorizing (s : State) (ref : Nat) : Option Record :=
  match s.payment.queue with
  | r :: _ => if r.state = .authorizing ∧ r.hubRef = some ref then some r else none
  | [] => none

/-- A matching approval (R71). -/
def answerApproved (r : Record) (s : State) : State :=
  let amount := r.amountAsked.getD 0
  let tip := r.tipAsked.getD 0
  let s1 := postedOnline r.slot amount tip (s.setPayment { s.payment with answerTimer := none })
  let undelivered := !s1.isUp .k
  let s2 := authResult (byte r.slot.val) .approved 0 (r.terminalRef.getD 0) amount tip s1
  removeHead (notifyPay r.slot .approved 0 undelivered (triggerChime .paid s2))

/-- A matching decline (R72). -/
def answerDeclined (r : Record) (s : State) : State :=
  let s1 := paymentReleased r.slot (s.setPayment { s.payment with answerTimer := none })
  let undelivered := !s1.isUp .k
  let s2 := authResult (byte r.slot.val) .declined 0 (r.terminalRef.getD 0) 0 0 s1
  removeHead (notifyPay r.slot .declined 0 undelivered s2)

/-- AUTH_ANSWER (hub reference, result) (R71 to R73). -/
def takeAuthAnswer (fields : List Byte) (s : State) : State :=
  match fields with
  | [hi, lo, result] =>
    match dec AnswerResult.all result, s.authorizing (num [hi, lo]) with
    | some .approved, some r => answerApproved r s
    | some .declined, some r => answerDeclined r s
    | _, _ => countUnmatched s
  | _ => s

/-- The end of an AUTHORIZING head without an answer (R74). -/
def answerTimedOut (r : Record) (s : State) : State :=
  let undelivered := !s.isUp .k
  let s1 := authResult (byte r.slot.val) .timeout 0 (r.terminalRef.getD 0) 0 0 (s.setPayment { s.payment with answerTimer := none })
  let e : StoreEntry := ⟨.reversal, r.hubRef.getD 0, r.slot, (s.party r.slot).trip, s.shift.number, s.stamp⟩
  let s2 := paymentReleased r.slot (appendEntry e s1)
  removeHead (notifyPay r.slot .timeout 0 undelivered s2)

/-- The expiry of the answer timer (R74). -/
def answerExpiry (s : State) : State :=
  match s.payment.answerTimer, s.payment.queue with
  | some _, r :: _ => if r.state = .authorizing then answerTimedOut r s else s
  | _, _ => s

/-! ### Link loss (R87) -/

/-- K going DOWN: every record not AUTHORIZING is cancelled in queue order (R87, notes/assumptions/15.md). -/
def cardLinkDown (s : State) : State :=
  (s.payment.queue.filter fun r => r.state != .authorizing).foldl (fun s r => cancelRecord r.slot .link s) s

/-! ### Policy, refusal list, status (R84 to R86, R90) -/

/-- The position of a policy's first field outside its range; the two flags have none (R84, R85). -/
def Policy.fault (p : Policy) : Option Nat :=
  if 999999 < p.floorLimit then some 0
  else if 9999999 < p.shiftCap then some 1
  else if p.answerTimeout < 10 ∨ 90 < p.answerTimeout then some 2
  else if 100 < p.tipPercent then some 3
  else none

/-- POLICY_SET; the listen policy is handed to the intercom unit (R85, R160). -/
def actPolicySet (p : Policy) (s : State) : State × Result :=
  if s.shift.state ≠ .closed then (s, .refuse .shiftState)
  else
    match p.fault with
    | some n => (s, .refused .range (0, byte n))
    | none =>
      let s1 := s.setPayment { s.payment with policy := p }
      (s1.setIntercom { s1.intercom with listen := p.listen }, .ok [])

/-- A change of the refusal list, answered with the number of prefixes held (R86). -/
def withList (list : List (BitVec 64)) (s : State) : State × Result :=
  (s.setPayment { s.payment with refusalList := list }, .ok [byte list.length])

/-- REFUSAL_LIST_ADD (R86). DESIGN CHOICE: a FULL reply carries no number of prefixes (notes/assumptions/38.md). -/
def actRefusalAdd (pre : BitVec 64) (s : State) : State × Result :=
  let list := s.payment.refusalList
  if pre ∈ list then withList list s
  else if Config.refusalCapacity ≤ list.length then (s, .refuse .full)
  else withList (list ++ [pre]) s

/-- REFUSAL_LIST_REMOVE (R86). DESIGN CHOICE: a NOT_FOUND reply carries no number of prefixes (notes/assumptions/38.md). -/
def actRefusalRemove (pre : BitVec 64) (s : State) : State × Result :=
  let list := s.payment.refusalList
  if pre ∈ list then withList (list.filter fun x => x != pre) s else (s, .refuse .notFound)

/-- REFUSAL_LIST_CLEAR (R86). -/
def actRefusalClear (s : State) : State × Result :=
  withList [] s

/-- A payment record as PAY_STATUS returns it; absent values as 0 (R90, R190). -/
def recordBytes (r : Record) : List Byte :=
  [byte r.slot.val, enc RecordState.all r.state] ++ be 4 r.offered ++ be 4 (r.amountAsked.getD 0) ++ be 4 (r.tipAsked.getD 0)
    ++ be 2 (r.hubRef.getD 0)

/-- The kind and hub reference of the head entry; 0 when there is none (R90, R190). -/
def headEntryBytes : List StoreEntry → List Byte
  | [] => [0, 0, 0]
  | e :: _ => (match e.kind with | .sale _ _ _ => 0 | .reversal => 1) :: be 2 e.hubRef

/-- PAY_STATUS (R90). DESIGN CHOICE: the layout of its reply, the unmatched-answer counter as 2 bytes in it, for which R190 gives no width
(notes/assumptions/16.md). -/
def actPayStatus (clear : Bool) (s : State) : State × Result :=
  let x := s.payment
  let p := x.policy
  let fields :=
    be 4 p.floorLimit ++ be 4 p.shiftCap ++ [byte p.answerTimeout, byte p.tipPercent, flag p.forceOffline, flag p.listen]
      ++ byte x.queue.length :: x.queue.flatMap recordBytes ++ byte x.store.length :: headEntryBytes x.store
      ++ [enc UploadState.all x.upload] ++ be 2 x.refCounter ++ [byte x.refusalList.length] ++ be 2 x.unmatched
  (if clear then s.setPayment { x with unmatched := 0 } else s, .ok fields)

end Sys2Proof.Machine
end

