-- ==== Sys2Proof/Machine/Link.lean ====
section
/-! DEFINITION. The link switch: link state and its deliveries (R166, R167), the silence and quiet timers (R166, R168), the
transmitter (R170), copies and routes (R172, R173), and its requests (R172, R175). -/

namespace Sys2Proof.Machine

/-! ### Changes of link state (R166, R167) -/

/-- A LINK notice: the port and its new state, DOWN 0 or UP 1 (R167). -/
def notifyLink (q : Port) (up : Bool) (s : State) : State :=
  notifyBoth .link [byte q.number, flag up] s

/-- What the blocks do at a port going UP; at D the payment unit and the sign unit act in the order the event leaves open (R167). -/
def deliverUp (q : Port) (o : Order) (s : State) : State :=
  match q with
  | .d => if o.emergencyFirst then sendUpload (emergencyLinkUp s) else emergencyLinkUp (sendUpload s)
  | .c => showConsole s
  | .p => showPassenger s
  | .s => signLinkUp s
  | .k => s
  | .v => s

/-- What the blocks do at a port going DOWN (R167). -/
def deliverDown (q : Port) (s : State) : State :=
  match q with
  | .d => idleUpload s
  | .c => intercomConsoleDown s
  | .p => intercomPartitionDown s
  | .k => cardLinkDown s
  | .s => s
  | .v => s

/-- A port going UP (R166, R167). -/
def goUp (q : Port) (o : Order) (s : State) : State :=
  deliverUp q o (notifyLink q true (s.setPort q { s.port q with up := true, bringUp := false }))

/-- A port's transmitter abandoning the frame in progress; it is idle then, and its quiet timer starts
(R167, R170, notes/assumptions/18.md). -/
def PortState.abandon (x : PortState) : PortState :=
  match x.sending with
  | none => x
  | some _ => { x with sending := none, quiet := some Config.quietPeriod }

/-- A port DOWN, its lanes emptied, its silence timer stopped (R166, R167). -/
def PortState.down (x : PortState) : PortState :=
  { x.abandon with up := false, bringUp := false, silence := none, voice := [], general := [] }

/-- A port going DOWN: lanes, notices, deliveries (R167). -/
def goDown (q : Port) (s : State) : State :=
  deliverDown q (notifyLink q false (s.setPort q (s.port q).down))

/-- A port with the shut mark set: it sends nothing and no timer of it runs (R163, R166, R168). -/
def PortState.closed (x : PortState) : PortState :=
  { x with shut := true, bringUp := false, silence := none, quiet := none, sending := none }

/-- A port shut by the power unit; one that was UP goes DOWN at this event (R166). -/
def shutPort (q : Port) (s : State) : State :=
  let up := s.isUp q
  let s1 := s.setPort q (s.port q).closed
  if up then goDown q s1 else s1

/-- A shut port opened: DOWN with count 0, its quiet timer started (R166, R168). -/
def PortState.opened (x : PortState) : PortState :=
  { x with shut := false, up := false, bringUp := false, silence := none, quiet := some Config.quietPeriod }

/-- A port opened by the power unit (R166). -/
def openPort (q : Port) (s : State) : State :=
  if (s.port q).shut then s.setPort q (s.port q).opened else s

/-! ### Timers of the link (R166, R168) -/

/-- The expiry of a port's silence timer (R166). -/
def silenceExpiry (q : Port) (s : State) : State :=
  match (s.port q).silence with
  | none => s
  | some _ =>
    if s.isUp q then goDown q s else s.setPort q { s.port q with silence := none, bringUp := false }

/-- The expiry of a port's quiet timer: with nothing to send and the transmitter idle, an IDLE frame is sent (R168). -/
def PortState.quietExpiry (x : PortState) : PortState :=
  match x.quiet, x.sending, x.voice, x.general with
  | none, _, _, _ => x
  | some _, none, [], [] => { x with sending := some (plainFrame .idle []), quiet := some Config.quietPeriod }
  | some _, _, _, _ => { x with quiet := none }

/-- The end of the frame being sent: the quiet timer starts and the transmitter turns to the lanes (R168, R170). -/
def PortState.complete (x : PortState) : PortState :=
  match x.sending with
  | none => x
  | some _ => { x with sending := none, quiet := some Config.quietPeriod }.arbitrate

/-! ### Routes (R172, R173) -/

/-- A target set less the ingress port and H (R173). -/
def PortSet.without (t : PortSet) (q : Port) : PortSet :=
  t &&& ~~~((1 : PortSet) <<< q.number) &&& (0b0111111 : PortSet)

/-- The destinations of a PASS frame, or why it is discarded (R173). -/
def passDestinations (e : Route) (q : Port) (r : RouteWord) : Except DiscardReason PortSet :=
  let set : Option PortSet :=
    if !directFlag r then some e.targets
    else
      match e.policy with
      | .none => none
      | .maskOnly => if replaceFlag r then none else some (routeTargets r &&& e.targets)
      | .any => if replaceFlag r then some (routeTargets r) else some (routeTargets r &&& e.targets)
  match set with
  | none => .error .directRefused
  | some t => if t.without q = 0 then .error .emptyRoute else .ok (t.without q)

/-- Copies of a frame toward each destination, in the order of the ports' numbers (R173, notes/assumptions/32.md). The frame may
differ from one destination to another. -/
def placeCopies (ingress : Port) (t : PortSet) (f : Port → Frame) (report parked : Bool) (s : State) : State :=
  Port.all.foldl (fun s q => if t.has q then placeCopy ingress q (f q) report parked s else s) s

/-- A MOTION frame as copied toward C: the alarm bit reads 0 (R173). -/
def hideAlarm (f : Frame) : Frame :=
  match f.payload with
  | [hi, lo, flags] => { f with payload := [hi, lo, flags &&& 0b11111101] }
  | _ => f

/-- The telemetry copies of a MOTION or SIGN_STAT frame (R173). -/
def copyTelemetry (q : Port) (f : Frame) (parked : Bool) (s : State) : State :=
  let e := s.link.telemetryRoutes.get q
  placeCopies q (e.targets.without q) (fun x => if q = .v ∧ x = .c then hideAlarm f else f) e.report parked s

/-- A PASS frame copied to its destinations or discarded (R173, R174). -/
def routePass (q : Port) (f : Frame) (parked : Bool) (s : State) : State :=
  let e := s.link.passRoutes.get q
  match passDestinations e q f.route with
  | .error reason => discardAtIngress q reason f parked s
  | .ok t => placeCopies q t (fun _ => f) e.report parked s

/-! ### Requests (R172, R175) -/

/-- The port a number names (00_scope). -/
def portOf (b : Byte) : Option Port :=
  Port.all[b.toNat]?

/-- A route table entry's fields (R172). -/
def routeBytes (e : Route) : List Byte :=
  [e.targets.setWidth 8, enc DirectPolicy.all e.policy, flag e.report]

/-- A route table entry (R172). -/
def LinkSwitch.route (x : LinkSwitch) (c : RouteClass) (q : Port) : Route :=
  match c with
  | .pass => x.passRoutes.get q
  | .telemetry => x.telemetryRoutes.get q

/-- The link switch with a route table entry replaced. -/
def LinkSwitch.setRoute (x : LinkSwitch) (c : RouteClass) (q : Port) (e : Route) : LinkSwitch :=
  match c with
  | .pass => { x with passRoutes := x.passRoutes.set q e }
  | .telemetry => { x with telemetryRoutes := x.telemetryRoutes.set q e }

/-- ROUTE_SET: one entry is written whole (R172). -/
def actRouteSet (port : Byte) (c : RouteClass) (e : Route) (s : State) : State × Result :=
  match portOf port with
  | none => (s, .refuse .range)
  | some q => ({ s with link := s.link.setRoute c q e }, .ok (routeBytes e))

/-- ROUTE_READ (R172). -/
def actRouteRead (port : Byte) (c : RouteClass) (s : State) : State × Result :=
  match portOf port with
  | none => (s, .refuse .range)
  | some q => (s, .ok (routeBytes (s.link.route c q)))

/-- One port as PORT_STATUS returns it; the reply toward C leaves out the occupancy of D's voice lane (R161, R175). -/
def portBytes (asker q : Port) (x : PortState) : List Byte :=
  [flag x.up, flag x.shut, flag x.bringUp] ++ (if asker = .c ∧ q = .d then [] else [byte x.voice.length])
    ++ [byte x.general.length, flag x.sending.isSome] ++ be 2 x.checkErrors ++ be 2 x.discards

/-- A port with both counters 0 (R175). -/
def PortState.clearCounters (x : PortState) : PortState :=
  { x with checkErrors := 0, discards := 0 }

/-- A function applied to every port's value. -/
def PerPort.mapAll {α : Type} (x : PerPort α) (f : α → α) : PerPort α :=
  ⟨f x.d, f x.c, f x.p, f x.k, f x.s, f x.v⟩

/-- PORT_STATUS (R175). -/
def actPortStatus (asker : Port) (clear : Bool) (s : State) : State × Result :=
  let fields := Port.all.flatMap fun q => portBytes asker q (s.port q)
  (if clear then { s with link := { s.link with ports := s.link.ports.mapAll .clearCounters } } else s, .ok fields)

end Sys2Proof.Machine
end

