-- ==== Sys2Proof/Machine/Power.lean ====
section
/-! DEFINITION. The power unit's park (R185), the wake call (R186), the wake (R187), and the pending shut of S (R185). What it takes
from other blocks stands in Machine/Emergency.lean. -/

namespace Sys2Proof.Machine

/-- What the park does to the power unit: PARKED, the park delay timer stopped (R184, R185). -/
def PowerUnit.park (x : PowerUnit) : PowerUnit :=
  { x with state := .parked, parkTimer := none }

/-- The park's hand-offs to the shift unit, tariff store, payment unit and fare engine (R185, step 5). -/
def parkBlocks (s : State) : State :=
  let s1 := s.setShift { s.shift with snapshot := none }
  let s2 := s1.setTariff { s1.tariff with staging := none }
  forgetCount (idleUpload s2)

/-- S at the park: shut at once if it is DOWN, and otherwise shut later (R185). -/
def parkSignPort (s : State) : State :=
  if s.isUp .s then { s with power := { s.power with shutPending := true } } else shutPort .s s

/-- The park and its hand-offs, in the order of R185. DESIGN CHOICE: within its step 3 C is shut before P and P before K
(notes/assumptions/39.md). -/
def parkHub (s : State) : State :=
  let s1 := notifyD .parking [] { s with power := s.power.park }
  let s2 := parkSign s1
  let s3 := s2.setIntercom s2.intercom.park
  let s4 := shutPort .k (shutPort .p (shutPort .c s3))
  let s5 := { s4 with cadence := s4.cadence.park }
  parkSignPort (parkBlocks s5)

/-- The expiry of the park delay timer, which runs in RUN only (R184, R185). -/
def parkExpiry (s : State) : State :=
  if s.running ∧ s.power.parkTimer.isSome then parkHub s else s

/-- The pending shut of S, made once its general lane is empty and its transmitter idle (R185). -/
def settleSign (s : State) : State :=
  if s.parked ∧ s.power.shutPending ∧ (s.port .s).general.isEmpty ∧ (s.port .s).sending.isNone then
    let s1 := shutPort .s s
    { s1 with power := { s1.power with shutPending := false } }
  else s

/-! ### The wake (R187) -/

/-- What the wake does to the power unit: RUN, a pending shut cancelled, the park conditions judged afresh (R185, R187). -/
def PowerUnit.wake (x : PowerUnit) : PowerUnit :=
  { x with state := .run, shutPending := false, parkTimer := if x.mayPark then some Config.parkPeriod else none }

/-- A wake and its hand-offs (R187). -/
def wakeHub (s : State) : State :=
  let s1 := { s with power := s.power.wake }
  let s2 := openPort .s (openPort .k (openPort .p (openPort .c s1)))
  let s3 := { forgetCount s2 with request := ⟨0, 0⟩ }
  sendUpload s3

/-- The wake call's 20 bytes for a cab number (R186). -/
def wakeCallBytes (cab : BitVec 32) : List Byte :=
  let n := be 4 cab.toNat
  [0xC3, 0x3C, 0xC3, 0x3C] ++ n ++ n ++ n ++ n

/-- Whether a run of bytes holds another at some offset. -/
def holdsBytes (pattern : List Byte) : List Byte → Bool
  | [] => pattern.isEmpty
  | b :: bs => pattern.isPrefixOf (b :: bs) || holdsBytes pattern bs

/-- A frame from D taken in PARKED: a wake call wakes the part, and any other frame is dropped (R186). -/
def examineForWake (f : Frame) (s : State) : State :=
  if holdsBytes (wakeCallBytes s.tariff.cabNumber) f.payload then wakeHub s else s

/-! ### Ignition (R184, R187) -/

/-- The ignition flag of a MOTION frame at the power unit; on in PARKED, it is a wake event (R184, R186). -/
def takeIgnitionFlag (on : Bool) (s : State) : State :=
  let s1 := { s with power := s.power.takeIgnition on }
  if on ∧ s1.parked then wakeHub s1 else s1

end Sys2Proof.Machine
end

