-- ==== Sys2Proof/Machine/Operands.lean ====
section
/-! DEFINITION. The operand forms: how the argument bytes of each request are read (R190, R191, R194), and what the request does with
them. A reading answers `none` where an argument lies outside its representable set or the length is not the layout's, which R176
answers MALFORMED. A slot an argument names comes first (notes/assumptions/16.md). -/

namespace Sys2Proof.Machine

/-- What a request does once its arguments are read. -/
abbrev Action := State → State × Result

/-- A request without arguments. -/
def readNothing (act : Action) : List Byte → Option Action
  | [] => some act
  | _ => none

/-- One byte. -/
def readByte (act : Byte → Action) : List Byte → Option Action
  | [n] => some (act n)
  | _ => none

/-- One flag. -/
def readFlag (act : Bool → Action) : List Byte → Option Action
  | [b] => (flagOf b).map act
  | _ => none

/-- One code of a list. -/
def readCode {α : Type} (all : List α) (act : α → Action) : List Byte → Option Action
  | [b] => (dec all b).map act
  | _ => none

/-! ### Tariff store -/

/-- The body of a parameters entry (R195). -/
def readParams : List Byte → Option Params
  | [t, k1, k0, p1, p0, seats, i1, i0] => some ⟨t.toNat, num [k1, k0], num [p1, p0], seats.toNat, num [i1, i0]⟩
  | _ => none

/-- The body of a tariff entry (R195). -/
def readTariff : List Byte → Option Tariff
  | [m, f3, f2, f1, f0, d1, d0, t1, t0, a1, a0, sd1, sd0, st1, st0] =>
    (dec Method.all m).map fun method =>
      ⟨method, num [f3, f2, f1, f0], num [d1, d0], num [t1, t0], num [a1, a0], num [sd1, sd0], num [st1, st0]⟩
  | _ => none

/-- The body of a schedule entry; bit 7 of the day set is reserved and stored as 0 (R191, R195). -/
def readSchedule : List Byte → Option Schedule
  | [days, m1, m0, t] => some ⟨days.extractLsb' 0 7, num [m1, m0], t.toNat⟩
  | _ => none

/-- The body of an extras entry (R195). -/
def readExtra : List Byte → Option Extra
  | [k, a3, a2, a1, a0, limit] => (dec ExtraKind.all k).map fun kind => ⟨kind, num [a3, a2, a1, a0], limit.toNat⟩
  | _ => none

/-- The body of an entry under its present flag: an absent entry's field bytes are carried at full width and ignored (R191). -/
def readEntry {α : Type} (present : Bool) (width : Nat) (read : List Byte → Option α) (body : List Byte) : Option (Option α) :=
  if present then (read body).map some else if body.length = width then some none else none

/-- LOAD_PART (table, index, present flag, body) (R6, R195). -/
def readLoadPart : List Byte → Option Action
  | table :: n :: present :: body =>
    match dec TariffTable.all table, flagOf present with
    | some .parameters, some p => (readEntry p 8 readParams body).map fun e => actLoadPart (.parameters n e)
    | some .tariff, some p => (readEntry p 15 readTariff body).map fun e => actLoadPart (.tariff n e)
    | some .schedule, some p => (readEntry p 4 readSchedule body).map fun e => actLoadPart (.schedule n e)
    | some .extras, some p => (readEntry p 6 readExtra body).map fun e => actLoadPart (.extras n e)
    | _, _ => none
  | _ => none

/-- LOAD_COMMIT (check) (R7, R195). -/
def readLoadCommit : List Byte → Option Action
  | [hi, lo] => some (actLoadCommit (hi ++ lo))
  | _ => none

/-- TARIFF_READ (source, table, index) (R11). -/
def readTariffRead : List Byte → Option Action
  | [source, table, n] =>
    match dec TariffSource.all source, dec TariffTable.all table with
    | some x, some t => some (actTariffRead x t n)
    | _, _ => none
  | _ => none

/-- SET_CLOCK (day number, decisecond of the day) (R14). -/
def readSetClock : List Byte → Option Action
  | [d1, d0, s2, s1, s0] => some (actSetClock (num [d1, d0]) (num [s2, s1, s0]))
  | _ => none

/-- SET_CAB_ID (cab number) (R17). -/
def readSetCabId : List Byte → Option Action
  | [n3, n2, n1, n0] => some (actSetCabId (n3 ++ n2 ++ n1 ++ n0))
  | _ => none

/-! ### Fare engine -/

/-- HIRE (tariff, station) (R22). -/
def readHire : List Byte → Option Action
  | [t, st] => (dec Station.all st).map fun x => actHire (tariffArg t) x
  | _ => none

/-- A slot and an amount: PAY_CASH and OFFER_CARD (R27, R64). -/
def readSlotAmount (act : Byte → Nat → Action) : List Byte → Option Action
  | [n, a3, a2, a1, a0] => some (act n (num [a3, a2, a1, a0]))
  | _ => none

/-- ADD_EXTRA (slot, extra, amount) (R29). -/
def readAddExtra : List Byte → Option Action
  | [n, e, a3, a2, a1, a0] => some (actAddExtra n e (num [a3, a2, a1, a0]))
  | _ => none

/-- SET_TARIFF (slot, tariff) (R30). -/
def readSetTariff : List Byte → Option Action
  | [n, t] => some (actSetTariff n (tariffArg t))
  | _ => none

/-- SET_STATION (slot, station) (R31). -/
def readSetStation : List Byte → Option Action
  | [n, st] => (dec Station.all st).map fun x => actSetStation n x
  | _ => none

/-! ### Milestone unit -/

/-- A milestone filter: its kind, then a tariff index, which ANY does not use (R190, notes/assumptions/17.md). -/
def readFilter (kind index : Byte) : Option (Option Nat) :=
  match dec FilterKind.all kind with
  | some .any => some none
  | some .tariff => some (some index.toNat)
  | none => none

/-- MILESTONE_SET (index, enabled, quantity, threshold, repeat, filter, action, argument) (R51). -/
def readMilestoneSet : List Byte → Option Action
  | [n, en, q, t2, t1, t0, rep, fk, fi, action, arg] =>
    match flagOf en, dec Quantity.all q, dec Repetition.all rep, readFilter fk fi, dec MilestoneAction.all action with
    | some e, some q, some r, some f, some a => some (actMilestoneSet n ⟨e, q, num [t2, t1, t0], r, f, a, arg.toNat⟩)
    | _, _, _, _, _ => none
  | _ => none

/-! ### Payment unit -/

/-- POLICY_SET (floor limit, shift cap, answer timeout, tip percent, force-offline, listen policy) (R85). -/
def readPolicySet : List Byte → Option Action
  | [f3, f2, f1, f0, c3, c2, c1, c0, timeout, tip, force, listen] =>
    match flagOf force, flagOf listen with
    | some x, some y =>
      some (actPolicySet ⟨num [f3, f2, f1, f0], num [c3, c2, c1, c0], timeout.toNat, tip.toNat, x, y⟩)
    | _, _ => none
  | _ => none

/-- A token prefix of 8 bytes: REFUSAL_LIST_ADD and REFUSAL_LIST_REMOVE (R86). -/
def readPrefix (act : BitVec 64 → Action) (bs : List Byte) : Option Action :=
  if bs.length = 8 then some (act (BitVec.ofNat 64 (num bs))) else none

/-! ### Shift unit -/

/-- SHIFT_OPEN (driver id) (R93). -/
def readShiftOpen : List Byte → Option Action
  | [d2, d1, d0] => some (actShiftOpen (num [d2, d1, d0]))
  | _ => none

/-- TOTALS_READ (page, freeze) (R105). -/
def readTotalsRead : List Byte → Option Action
  | [page, freeze] => (flagOf freeze).map fun f => actTotalsRead page f
  | _ => none

/-- REPORT_READ (index, page) (R109). -/
def readReportRead : List Byte → Option Action
  | [n, page] => some (actReportRead n page)
  | _ => none

/-- REPORT_DROP (shift number) (R110). -/
def readReportDrop : List Byte → Option Action
  | [n1, n0] => some (actReportDrop (num [n1, n0]))
  | _ => none

/-! ### Sign unit -/

/-- VIEW_SET (mode, source, image base, animation, timer, tariff-indexed, four lamp programs) (R117). -/
def readViewSet : List Byte → Option Action
  | [m, src, base, an, t, ti, l0, l1, l2, l3] =>
    match dec SignMode.all m, dec PanelSource.all src, dec Animation.all an, dec TimerId.all t, flagOf ti with
    | some mode, some source, some animation, some timer, some indexed =>
      match dec LampProgram.all l0, dec LampProgram.all l1, dec LampProgram.all l2, dec LampProgram.all l3 with
      | some a, some b, some c, some d => some (actViewSet mode source base.toNat animation timer indexed #v[a, b, c, d])
      | _, _, _, _ => none
    | _, _, _, _, _ => none
  | _ => none

/-- IMAGE_SET (index, 80 column bytes) (R119). -/
def readImageSet : List Byte → Option Action
  | n :: columns => if columns.length = Config.panelColumns then some (actImageSet n columns) else none
  | _ => none

/-- Pairs of a width and a column byte (R120, R190). -/
def readStripes : List Byte → Option (List Stripe)
  | [] => some []
  | w :: c :: rest => (readStripes rest).map fun xs => ⟨w.toNat, c⟩ :: xs
  | _ => none

/-- STRIPES_SET (count, then count pairs of width and byte) (R120). -/
def readStripesSet : List Byte → Option Action
  | count :: bytes =>
    match readStripes bytes with
    | some pairs => if pairs.length = count.toNat then some (actStripesSet pairs) else none
    | none => none
  | _ => none

/-- BLOCK_SET (length, bytes) (R121). -/
def readBlockSet : List Byte → Option Action
  | length :: bytes => if bytes.length = length.toNat then some (actBlockSet bytes) else none
  | _ => none

/-- SIGN_READ (table, index) (R126). -/
def readSignRead : List Byte → Option Action
  | [table, n] => (dec SignTable.all table).map fun t => actSignRead t n
  | _ => none

/-! ### Cadence unit -/

/-- TIMER_SET (timer, period, mode) (R130). -/
def readTimerSet : List Byte → Option Action
  | [t, p1, p0, m] =>
    match dec TimerId.all t, dec TimerMode.all m with
    | some timer, some mode => some (actTimerSet timer (num [p1, p0]) mode)
    | _, _ => none
  | _ => none

/-- COMPARATOR_SET (comparator, timer, value, mode, lamp) (R134). -/
def readComparatorSet : List Byte → Option Action
  | [n, t, v1, v0, m, lamp] =>
    match dec TimerId.all t, dec ComparatorMode.all m with
    | some timer, some mode => some (actComparatorSet n timer (num [v1, v0]) mode lamp)
    | _, _ => none
  | _ => none

/-- LAMP_WRITE (lamp, value) (R140). -/
def readLampWrite : List Byte → Option Action
  | [lamp, value] => (flagOf value).map fun b => actLampWrite lamp b
  | _ => none

/-! ### Intercom unit -/

/-- GAINS_SET (g_L, g_R, h_L, h_R) (R153). -/
def readGainsSet : List Byte → Option Action
  | [a, b, c, d] => some (actGainsSet a.toNat b.toNat c.toNat d.toNat)
  | _ => none

/-- CHIME_SET (chime, half-period, amplitude, duration, gate) (R157). -/
def readChimeSet : List Byte → Option Action
  | [c, h, a1, a0, d, g] =>
    match dec ChimeId.all c, dec Gate.all g with
    | some chime, some gate => some (actChimeSet chime h.toNat (num [a1, a0]) d.toNat gate)
    | _, _ => none
  | _ => none

/-! ### Link switch -/

/-- ROUTE_SET (ingress port, class, target set, policy, report); bit 7 of the target set is reserved (R172, R191). -/
def readRouteSet : List Byte → Option Action
  | [q, c, t, p, r] =>
    match dec RouteClass.all c, dec DirectPolicy.all p, flagOf r with
    | some cls, some policy, some report => some (actRouteSet q cls ⟨t.extractLsb' 0 7, policy, report⟩)
    | _, _, _ => none
  | _ => none

/-- ROUTE_READ (ingress port, class) (R172). -/
def readRouteRead : List Byte → Option Action
  | [q, c] => (dec RouteClass.all c).map fun cls => actRouteRead q cls
  | _ => none

end Sys2Proof.Machine
end

