-- ==== Sys2Proof/Machine/Requests.lean ====
section
/-! DEFINITION. The request unit: the catalogue of requests with their codes, authorities and readings (R177, R190, section 10.5), and
the taking of a request and its reply (R176, R178). -/

namespace Sys2Proof.Machine

/-- The requests, in the order of the catalogue (section 10.5). -/
inductive RequestName where
  | loadBegin | loadPart | loadCommit | tariffRead | tariffStatus | setClock | setCabId | hire | total | resume | void
  | payCash | closeTrip | addExtra | setTariff | setStation | share | partyRead | milestoneSet | milestoneRead | offerCard
  | cancelCard | policySet | refusalListAdd | refusalListRemove | refusalListClear | payStatus | shiftOpen | shiftBreak
  | shiftResume | shiftClose | totalsRead | totalsThaw | reportRead | reportDrop | offDutyOverride | emergencyClear
  | viewSet | imageSet | stripesSet | blockSet | signStatus | signRead | timerSet | comparatorSet | timerStart | timerStop
  | timerStopAtEnd | timerStatus | lampWrite | answer | hangup | gainsSet | intercomStatus | chimeRead | chimeSet | routeSet
  | routeRead | portStatus
deriving DecidableEq, Repr

/-- The requests in the order of their codes, which run from 1 (R190). -/
def RequestName.all : List RequestName :=
  [.loadBegin, .loadPart, .loadCommit, .tariffRead, .tariffStatus, .setClock, .setCabId, .hire, .total, .resume, .void,
   .payCash, .closeTrip, .addExtra, .setTariff, .setStation, .share, .partyRead, .milestoneSet, .milestoneRead, .offerCard,
   .cancelCard, .policySet, .refusalListAdd, .refusalListRemove, .refusalListClear, .payStatus, .shiftOpen, .shiftBreak,
   .shiftResume, .shiftClose, .totalsRead, .totalsThaw, .reportRead, .reportDrop, .offDutyOverride, .emergencyClear,
   .viewSet, .imageSet, .stripesSet, .blockSet, .signStatus, .signRead, .timerSet, .comparatorSet, .timerStart, .timerStop,
   .timerStopAtEnd, .timerStatus, .lampWrite, .answer, .hangup, .gainsSet, .intercomStatus, .chimeRead, .chimeSet,
   .routeSet, .routeRead, .portStatus]

/-- A request's code (R190). -/
def RequestName.code (r : RequestName) : Byte :=
  byte (RequestName.all.idxOf r + 1)

/-- The request a code names (R176, test 2). -/
def requestOf (code : Byte) : Option RequestName :=
  if code = 0 then none else RequestName.all[code.toNat - 1]?

/-- A request's authority (R177, section 10.5). -/
def RequestName.authority : RequestName → Authority
  | .hire | .total | .resume | .void | .payCash | .closeTrip | .addExtra | .setTariff | .setStation | .share
  | .offerCard | .cancelCard | .shiftOpen | .shiftBreak | .shiftResume | .offDutyOverride | .answer | .hangup => .driver
  | .loadBegin | .loadPart | .loadCommit | .setClock | .setCabId | .milestoneSet | .policySet | .refusalListAdd
  | .refusalListRemove | .refusalListClear | .reportRead | .reportDrop | .emergencyClear | .viewSet | .imageSet
  | .stripesSet | .blockSet | .timerSet | .comparatorSet | .chimeSet | .routeSet => .fleet
  | .tariffRead | .tariffStatus | .partyRead | .milestoneRead | .payStatus | .shiftClose | .totalsRead | .totalsThaw
  | .signStatus | .signRead | .timerStart | .timerStop | .timerStopAtEnd | .timerStatus | .lampWrite | .gainsSet
  | .intercomStatus | .chimeRead | .routeRead | .portStatus => .either

/-- Whether a request may come from a port (R177). Only C and D accept REQ (R176). -/
def Authority.permits (a : Authority) (q : Port) : Bool :=
  match a with
  | .driver => q == .c
  | .fleet => q == .d
  | .either => q == .c || q == .d

/-- A request's arguments as read, with what the request does; `none` is MALFORMED (R176, test 4). -/
def RequestName.read (r : RequestName) (port : Port) (args : List Byte) : Option Action :=
  match r with
  | .loadBegin => readNothing actLoadBegin args
  | .loadPart => readLoadPart args
  | .loadCommit => readLoadCommit args
  | .tariffRead => readTariffRead args
  | .tariffStatus => readNothing actTariffStatus args
  | .setClock => readSetClock args
  | .setCabId => readSetCabId args
  | .hire => readHire args
  | .total => readByte actTotal args
  | .resume => readByte actResume args
  | .void => readByte actVoid args
  | .payCash => readSlotAmount actPayCash args
  | .closeTrip => readByte actCloseTrip args
  | .addExtra => readAddExtra args
  | .setTariff => readSetTariff args
  | .setStation => readSetStation args
  | .share => readFlag actShare args
  | .partyRead => readByte actPartyRead args
  | .milestoneSet => readMilestoneSet args
  | .milestoneRead => readByte actMilestoneRead args
  | .offerCard => readSlotAmount actOfferCard args
  | .cancelCard => readByte actCancelCard args
  | .policySet => readPolicySet args
  | .refusalListAdd => readPrefix actRefusalAdd args
  | .refusalListRemove => readPrefix actRefusalRemove args
  | .refusalListClear => readNothing actRefusalClear args
  | .payStatus => readFlag actPayStatus args
  | .shiftOpen => readShiftOpen args
  | .shiftBreak => readNothing actShiftBreak args
  | .shiftResume => readNothing actShiftResume args
  | .shiftClose => readNothing actShiftClose args
  | .totalsRead => readTotalsRead args
  | .totalsThaw => readNothing actTotalsThaw args
  | .reportRead => readReportRead args
  | .reportDrop => readReportDrop args
  | .offDutyOverride => readFlag actOffDutyOverride args
  | .emergencyClear => readNothing actEmergencyClear args
  | .viewSet => readViewSet args
  | .imageSet => readImageSet args
  | .stripesSet => readStripesSet args
  | .blockSet => readBlockSet args
  | .signStatus => readNothing (actSignStatus port) args
  | .signRead => readSignRead args
  | .timerSet => readTimerSet args
  | .comparatorSet => readComparatorSet args
  | .timerStart => readCode TimerId.all actTimerStart args
  | .timerStop => readCode TimerId.all actTimerStop args
  | .timerStopAtEnd => readCode TimerId.all actTimerStopAtEnd args
  | .timerStatus => readNothing actTimerStatus args
  | .lampWrite => readLampWrite args
  | .answer => readCode AnswerStations.all actAnswer args
  | .hangup => readNothing actHangup args
  | .gainsSet => readGainsSet args
  | .intercomStatus => readNothing (actIntercomStatus port) args
  | .chimeRead => readCode ChimeId.all actChimeRead args
  | .chimeSet => readChimeSet args
  | .routeSet => readRouteSet args
  | .routeRead => readRouteRead args
  | .portStatus => readFlag (actPortStatus port) args

/-- A request's action taken and its reply placed last (R178). -/
def answerRequest (port : Port) (tag code : Byte) (act : Action) (s : State) : State :=
  let r := act s
  emit port (replyFrame tag code r.2) r.1

/-- A REQ frame at the request unit: the tests of R176 in order, the owner, the reply (R176, R178). -/
def takeRequest (port : Port) (tag : Byte) (payload : List Byte) (s : State) : State :=
  match payload with
  | [] => emit port (statusFrame tag 0 .malformed) s
  | code :: args =>
    match requestOf code with
    | none => emit port (statusFrame tag code .unknown) s
    | some r =>
      if !r.authority.permits port then emit port (statusFrame tag code .notPermitted) s
      else
        match r.read port args with
        | none => emit port (statusFrame tag code .malformed) s
        | some act => answerRequest port tag code act s

end Sys2Proof.Machine
end

