-- ==== Sys2Proof/Machine/Ingress.lean ====
section
/-! DEFINITION. The arrival of a frame: the check (R163), bring-up (R166), the four tests (R164), the handing on by kind (R165), MOTION's
flags (R33) and the sign health (R124). -/

namespace Sys2Proof.Machine

/-! ### MOTION and SIGN_STAT -/

/-- A MOTION frame's flags handed on: ignition to the power unit, then alarm switch to the sign unit (R33). -/
def takeFlags (flags : Byte) (s : State) : State :=
  takeAlarm (flags.getLsbD 1) (takeIgnitionFlag (flags.getLsbD 0) s)

/-- A MOTION frame at the fare engine: its flags and its count, in the order the event leaves open (R33, R35). -/
def takeMotion (o : Order) (payload : List Byte) (s : State) : State :=
  match payload with
  | [hi, lo, flags] =>
    if o.flagsFirst then takeCount (num [hi, lo]) (takeFlags flags s) else takeFlags flags (takeCount (num [hi, lo]) s)
  | _ => s

/-- Whether the sign health has a fault (R124). -/
def SignUnit.faulty (x : SignUnit) : Bool :=
  lampByte x.lampFaults != 0 || x.panelFault

/-- A reported sign health: a change is taken and notified, and one from healthy to faulty is handed to the shift (R124). -/
def takeHealth (lamps : Lamps) (panel : Bool) (s : State) : State :=
  if lamps = s.sign.lampFaults ∧ panel = s.sign.panelFault then s
  else
    let s1 := { s with sign := { s.sign with lampFaults := lamps, panelFault := panel } }
    let s2 := notifyBoth .signHealth (healthBytes s1.sign) s1
    if !s.sign.faulty && s1.sign.faulty then whileLive Totals.countSignFault s2 else s2

/-- A SIGN_STAT frame at the sign unit (R124). -/
def takeSignStat (payload : List Byte) (s : State) : State :=
  match payload with
  | [lamps, panel] =>
    match flagOf panel with
    | some p => takeHealth (lampsOf lamps) p s
    | none => s
  | _ => s

/-- A PAY frame at the payment unit, by sub-kind (R193). -/
def takePay (payload : List Byte) (s : State) : State :=
  match payload with
  | [] => s
  | sub :: fields =>
    match paySubOf sub with
    | some .cardStage => takeCardStage fields s
    | some .authAsk => takeAuthAsk fields s
    | some .authAnswer => takeAuthAnswer fields s
    | some .uploadAck => takeUploadAck fields s
    | _ => s

/-! ### Handing on (R165) -/

/-- A consumed frame with copies: its block and the copies, in the order the event leaves open (R165). -/
def handAndCopy (q : Port) (f : Frame) (o : Order) (parked : Bool) (block : State → State) (s : State) : State :=
  if o.copyFirst then block (copyTelemetry q f parked s) else copyTelemetry q f parked (block s)

/-- A frame that passed the four tests, handed on by its kind (R165). -/
def handOn (q : Port) (f : Frame) (o : Order) (parked : Bool) (s : State) : State :=
  match kindOf f with
  | some .motion => handAndCopy q f o parked (takeMotion o f.payload) s
  | some .signStat => handAndCopy q f o parked (takeSignStat f.payload) s
  | some .audio => if q = .p then takeAudioP f.payload s else takeAudioC f.payload s
  | some .pay => takePay f.payload s
  | some .req => takeRequest q f.tag f.payload s
  | some .pass => routePass q f parked s
  | _ => s

/-- A good frame on an UP port: in PARKED a frame from D is examined for the wake call, any other is tested and handed on
(R164, R165, R186). -/
def takeGood (q : Port) (f : Frame) (o : Order) (s : State) : State :=
  if s.parked ∧ q = .d then if lengthTest f then examineForWake f s else discardAtIngress q .length f true s
  else
    match ingressFailure q f with
    | some reason => discardAtIngress q reason f s.parked s
    | none => handOn q f o s.parked s

/-- A good frame's effect on its port, whatever becomes of it: the silence timer restarts (R163). -/
def restartSilence (q : Port) (s : State) : State :=
  s.setPort q { s.port q with silence := some Config.silencePeriod }

/-- A good frame received on a port (R163, R166). -/
def receive (q : Port) (f : Frame) (o : Order) (s : State) : State :=
  if (s.port q).shut then s
  else
    let s1 := restartSilence q s
    if s.isUp q then takeGood q f o s1
    else if (s.port q).bringUp then takeGood q f o (goUp q o s1)
    else s1.setPort q { s1.port q with bringUp := true }

/-- A frame that fails the check: dropped and counted, the bring-up count 0 (R163, R166). -/
def failCheck (q : Port) (s : State) : State :=
  if (s.port q).shut then s
  else
    s.setPort q
      { s.port q with checkErrors := saturate Config.counterMax (s.port q).checkErrors 1, bringUp := false }

/-- Bytes received as one frame: judged by their check (R163). -/
def receiveBytes (q : Port) (bytes : List Byte) (stopBitLow : Bool) (o : Order) (s : State) : State :=
  if checkPasses bytes stopBitLow then
    match frameOfBytes bytes with
    | some f => receive q f o s
    | none => failCheck q s
  else failCheck q s

/-- The arrival of a frame of a kind that carries a payload. -/
def arrive (a : Arrival) (kind : Kind) (payload : List Byte) (s : State) : State :=
  receive a.port (frameOf kind a.route a.tag payload) a.order s

end Sys2Proof.Machine
end

