-- ==== Sys2Proof/Machine/RequestCommands.lean ====
section
/-! DEFINITION. The commands whose event is the arrival of a request frame: one meaning for each request of the catalogue (section
10.5), and one for a REQ that names none. Each arrives as a REQ frame whose payload is its code and its argument bytes, is taken by
the link switch (R163 to R165) and the request unit (R176 to R178), and completed by its owner. -/

namespace Sys2Proof.Machine

/-- An event taken whole. In OFF the part takes no event (R184); otherwise, at the event's end, a pending shut of S is made if S has
drained (R185, notes/assumptions/9.md). -/
def event (f : State → State) (s : State) : Host.Outcome State Fault Refusal :=
  .next (if s.power.state = .off then s else settleSign (f s))

/-- The arrival of a request: its code and its argument bytes in a REQ frame (R194). -/
def request (r : RequestName) (a : Arrival) (args : List Byte) (s : State) : Host.Outcome State Fault Refusal :=
  event (arrive a .req (r.code :: args)) s

/-- LOAD_BEGIN (R5): the request's arrival; what it does is `loadBegin` of `RequestName.read`. -/
def execLoadBegin (a : Arrival) (args : List Byte) (s : State) : Host.Outcome State Fault Refusal :=
  request .loadBegin a args s

/-- LOAD_PART (R6): the request's arrival; what it does is `loadPart` of `RequestName.read`. -/
def execLoadPart (a : Arrival) (args : List Byte) (s : State) : Host.Outcome State Fault Refusal :=
  request .loadPart a args s

/-- LOAD_COMMIT (R7): the request's arrival; what it does is `loadCommit` of `RequestName.read`. -/
def execLoadCommit (a : Arrival) (args : List Byte) (s : State) : Host.Outcome State Fault Refusal :=
  request .loadCommit a args s

/-- TARIFF_READ (R11): the request's arrival; what it does is `tariffRead` of `RequestName.read`. -/
def execTariffRead (a : Arrival) (args : List Byte) (s : State) : Host.Outcome State Fault Refusal :=
  request .tariffRead a args s

/-- TARIFF_STATUS (R12): the request's arrival; what it does is `tariffStatus` of `RequestName.read`. -/
def execTariffStatus (a : Arrival) (args : List Byte) (s : State) : Host.Outcome State Fault Refusal :=
  request .tariffStatus a args s

/-- SET_CLOCK (R14): the request's arrival; what it does is `setClock` of `RequestName.read`. -/
def execSetClock (a : Arrival) (args : List Byte) (s : State) : Host.Outcome State Fault Refusal :=
  request .setClock a args s

/-- SET_CAB_ID (R17): the request's arrival; what it does is `setCabId` of `RequestName.read`. -/
def execSetCabId (a : Arrival) (args : List Byte) (s : State) : Host.Outcome State Fault Refusal :=
  request .setCabId a args s

/-- HIRE (R22): the request's arrival; what it does is `hire` of `RequestName.read`. -/
def execHire (a : Arrival) (args : List Byte) (s : State) : Host.Outcome State Fault Refusal :=
  request .hire a args s

/-- TOTAL (R24): the request's arrival; what it does is `total` of `RequestName.read`. -/
def execTotal (a : Arrival) (args : List Byte) (s : State) : Host.Outcome State Fault Refusal :=
  request .total a args s

/-- RESUME (R25): the request's arrival; what it does is `resume` of `RequestName.read`. -/
def execResume (a : Arrival) (args : List Byte) (s : State) : Host.Outcome State Fault Refusal :=
  request .resume a args s

/-- VOID (R26): the request's arrival; what it does is `void` of `RequestName.read`. -/
def execVoid (a : Arrival) (args : List Byte) (s : State) : Host.Outcome State Fault Refusal :=
  request .void a args s

/-- PAY_CASH (R27): the request's arrival; what it does is `payCash` of `RequestName.read`. -/
def execPayCash (a : Arrival) (args : List Byte) (s : State) : Host.Outcome State Fault Refusal :=
  request .payCash a args s

/-- CLOSE_TRIP (R28): the request's arrival; what it does is `closeTrip` of `RequestName.read`. -/
def execCloseTrip (a : Arrival) (args : List Byte) (s : State) : Host.Outcome State Fault Refusal :=
  request .closeTrip a args s

/-- ADD_EXTRA (R29): the request's arrival; what it does is `addExtra` of `RequestName.read`. -/
def execAddExtra (a : Arrival) (args : List Byte) (s : State) : Host.Outcome State Fault Refusal :=
  request .addExtra a args s

/-- SET_TARIFF (R30): the request's arrival; what it does is `setTariff` of `RequestName.read`. -/
def execSetTariff (a : Arrival) (args : List Byte) (s : State) : Host.Outcome State Fault Refusal :=
  request .setTariff a args s

/-- SET_STATION (R31): the request's arrival; what it does is `setStation` of `RequestName.read`. -/
def execSetStation (a : Arrival) (args : List Byte) (s : State) : Host.Outcome State Fault Refusal :=
  request .setStation a args s

/-- SHARE (R19): the request's arrival; what it does is `share` of `RequestName.read`. -/
def execShare (a : Arrival) (args : List Byte) (s : State) : Host.Outcome State Fault Refusal :=
  request .share a args s

/-- PARTY_READ (R49): the request's arrival; what it does is `partyRead` of `RequestName.read`. -/
def execPartyRead (a : Arrival) (args : List Byte) (s : State) : Host.Outcome State Fault Refusal :=
  request .partyRead a args s

/-- MILESTONE_SET (R51): the request's arrival; what it does is `milestoneSet` of `RequestName.read`. -/
def execMilestoneSet (a : Arrival) (args : List Byte) (s : State) : Host.Outcome State Fault Refusal :=
  request .milestoneSet a args s

/-- MILESTONE_READ (R61): the request's arrival; what it does is `milestoneRead` of `RequestName.read`. -/
def execMilestoneRead (a : Arrival) (args : List Byte) (s : State) : Host.Outcome State Fault Refusal :=
  request .milestoneRead a args s

/-- OFFER_CARD (R64): the request's arrival; what it does is `offerCard` of `RequestName.read`. -/
def execOfferCard (a : Arrival) (args : List Byte) (s : State) : Host.Outcome State Fault Refusal :=
  request .offerCard a args s

/-- CANCEL_CARD (R65): the request's arrival; what it does is `cancelCard` of `RequestName.read`. -/
def execCancelCard (a : Arrival) (args : List Byte) (s : State) : Host.Outcome State Fault Refusal :=
  request .cancelCard a args s

/-- POLICY_SET (R85): the request's arrival; what it does is `policySet` of `RequestName.read`. -/
def execPolicySet (a : Arrival) (args : List Byte) (s : State) : Host.Outcome State Fault Refusal :=
  request .policySet a args s

/-- REFUSAL_LIST_ADD (R86): the request's arrival; what it does is `refusalListAdd` of `RequestName.read`. -/
def execRefusalListAdd (a : Arrival) (args : List Byte) (s : State) : Host.Outcome State Fault Refusal :=
  request .refusalListAdd a args s

/-- REFUSAL_LIST_REMOVE (R86): the request's arrival; what it does is `refusalListRemove` of `RequestName.read`. -/
def execRefusalListRemove (a : Arrival) (args : List Byte) (s : State) : Host.Outcome State Fault Refusal :=
  request .refusalListRemove a args s

/-- REFUSAL_LIST_CLEAR (R86): the request's arrival; what it does is `refusalListClear` of `RequestName.read`. -/
def execRefusalListClear (a : Arrival) (args : List Byte) (s : State) : Host.Outcome State Fault Refusal :=
  request .refusalListClear a args s

/-- PAY_STATUS (R90): the request's arrival; what it does is `payStatus` of `RequestName.read`. -/
def execPayStatus (a : Arrival) (args : List Byte) (s : State) : Host.Outcome State Fault Refusal :=
  request .payStatus a args s

/-- SHIFT_OPEN (R93): the request's arrival; what it does is `shiftOpen` of `RequestName.read`. -/
def execShiftOpen (a : Arrival) (args : List Byte) (s : State) : Host.Outcome State Fault Refusal :=
  request .shiftOpen a args s

/-- SHIFT_BREAK (R95): the request's arrival; what it does is `shiftBreak` of `RequestName.read`. -/
def execShiftBreak (a : Arrival) (args : List Byte) (s : State) : Host.Outcome State Fault Refusal :=
  request .shiftBreak a args s

/-- SHIFT_RESUME (R95): the request's arrival; what it does is `shiftResume` of `RequestName.read`. -/
def execShiftResume (a : Arrival) (args : List Byte) (s : State) : Host.Outcome State Fault Refusal :=
  request .shiftResume a args s

/-- SHIFT_CLOSE (R96): the request's arrival; what it does is `shiftClose` of `RequestName.read`. -/
def execShiftClose (a : Arrival) (args : List Byte) (s : State) : Host.Outcome State Fault Refusal :=
  request .shiftClose a args s

/-- TOTALS_READ (R105): the request's arrival; what it does is `totalsRead` of `RequestName.read`. -/
def execTotalsRead (a : Arrival) (args : List Byte) (s : State) : Host.Outcome State Fault Refusal :=
  request .totalsRead a args s

/-- TOTALS_THAW (R107): the request's arrival; what it does is `totalsThaw` of `RequestName.read`. -/
def execTotalsThaw (a : Arrival) (args : List Byte) (s : State) : Host.Outcome State Fault Refusal :=
  request .totalsThaw a args s

/-- REPORT_READ (R109): the request's arrival; what it does is `reportRead` of `RequestName.read`. -/
def execReportRead (a : Arrival) (args : List Byte) (s : State) : Host.Outcome State Fault Refusal :=
  request .reportRead a args s

/-- REPORT_DROP (R110): the request's arrival; what it does is `reportDrop` of `RequestName.read`. -/
def execReportDrop (a : Arrival) (args : List Byte) (s : State) : Host.Outcome State Fault Refusal :=
  request .reportDrop a args s

/-- OFF_DUTY_OVERRIDE (R116): the request's arrival; what it does is `offDutyOverride` of `RequestName.read`. -/
def execOffDutyOverride (a : Arrival) (args : List Byte) (s : State) : Host.Outcome State Fault Refusal :=
  request .offDutyOverride a args s

/-- EMERGENCY_CLEAR (R114): the request's arrival; what it does is `emergencyClear` of `RequestName.read`. -/
def execEmergencyClear (a : Arrival) (args : List Byte) (s : State) : Host.Outcome State Fault Refusal :=
  request .emergencyClear a args s

/-- VIEW_SET (R117): the request's arrival; what it does is `viewSet` of `RequestName.read`. -/
def execViewSet (a : Arrival) (args : List Byte) (s : State) : Host.Outcome State Fault Refusal :=
  request .viewSet a args s

/-- IMAGE_SET (R119): the request's arrival; what it does is `imageSet` of `RequestName.read`. -/
def execImageSet (a : Arrival) (args : List Byte) (s : State) : Host.Outcome State Fault Refusal :=
  request .imageSet a args s

/-- STRIPES_SET (R120): the request's arrival; what it does is `stripesSet` of `RequestName.read`. -/
def execStripesSet (a : Arrival) (args : List Byte) (s : State) : Host.Outcome State Fault Refusal :=
  request .stripesSet a args s

/-- BLOCK_SET (R121): the request's arrival; what it does is `blockSet` of `RequestName.read`. -/
def execBlockSet (a : Arrival) (args : List Byte) (s : State) : Host.Outcome State Fault Refusal :=
  request .blockSet a args s

/-- SIGN_STATUS (R125): the request's arrival; what it does is `signStatus` of `RequestName.read`. -/
def execSignStatus (a : Arrival) (args : List Byte) (s : State) : Host.Outcome State Fault Refusal :=
  request .signStatus a args s

/-- SIGN_READ (R126): the request's arrival; what it does is `signRead` of `RequestName.read`. -/
def execSignRead (a : Arrival) (args : List Byte) (s : State) : Host.Outcome State Fault Refusal :=
  request .signRead a args s

/-- TIMER_SET (R130): the request's arrival; what it does is `timerSet` of `RequestName.read`. -/
def execTimerSet (a : Arrival) (args : List Byte) (s : State) : Host.Outcome State Fault Refusal :=
  request .timerSet a args s

/-- COMPARATOR_SET (R134): the request's arrival; what it does is `comparatorSet` of `RequestName.read`. -/
def execComparatorSet (a : Arrival) (args : List Byte) (s : State) : Host.Outcome State Fault Refusal :=
  request .comparatorSet a args s

/-- TIMER_START (R131): the request's arrival; what it does is `timerStart` of `RequestName.read`. -/
def execTimerStart (a : Arrival) (args : List Byte) (s : State) : Host.Outcome State Fault Refusal :=
  request .timerStart a args s

/-- TIMER_STOP (R132): the request's arrival; what it does is `timerStop` of `RequestName.read`. -/
def execTimerStop (a : Arrival) (args : List Byte) (s : State) : Host.Outcome State Fault Refusal :=
  request .timerStop a args s

/-- TIMER_STOP_AT_END (R132): the request's arrival; what it does is `timerStopAtEnd` of `RequestName.read`. -/
def execTimerStopAtEnd (a : Arrival) (args : List Byte) (s : State) : Host.Outcome State Fault Refusal :=
  request .timerStopAtEnd a args s

/-- TIMER_STATUS (R133): the request's arrival; what it does is `timerStatus` of `RequestName.read`. -/
def execTimerStatus (a : Arrival) (args : List Byte) (s : State) : Host.Outcome State Fault Refusal :=
  request .timerStatus a args s

/-- LAMP_WRITE (R140): the request's arrival; what it does is `lampWrite` of `RequestName.read`. -/
def execLampWrite (a : Arrival) (args : List Byte) (s : State) : Host.Outcome State Fault Refusal :=
  request .lampWrite a args s

/-- ANSWER (R148): the request's arrival; what it does is `answer` of `RequestName.read`. -/
def execAnswer (a : Arrival) (args : List Byte) (s : State) : Host.Outcome State Fault Refusal :=
  request .answer a args s

/-- HANGUP (R149): the request's arrival; what it does is `hangup` of `RequestName.read`. -/
def execHangup (a : Arrival) (args : List Byte) (s : State) : Host.Outcome State Fault Refusal :=
  request .hangup a args s

/-- GAINS_SET (R153): the request's arrival; what it does is `gainsSet` of `RequestName.read`. -/
def execGainsSet (a : Arrival) (args : List Byte) (s : State) : Host.Outcome State Fault Refusal :=
  request .gainsSet a args s

/-- INTERCOM_STATUS (R162): the request's arrival; what it does is `intercomStatus` of `RequestName.read`. -/
def execIntercomStatus (a : Arrival) (args : List Byte) (s : State) : Host.Outcome State Fault Refusal :=
  request .intercomStatus a args s

/-- CHIME_READ (R162): the request's arrival; what it does is `chimeRead` of `RequestName.read`. -/
def execChimeRead (a : Arrival) (args : List Byte) (s : State) : Host.Outcome State Fault Refusal :=
  request .chimeRead a args s

/-- CHIME_SET (R157): the request's arrival; what it does is `chimeSet` of `RequestName.read`. -/
def execChimeSet (a : Arrival) (args : List Byte) (s : State) : Host.Outcome State Fault Refusal :=
  request .chimeSet a args s

/-- ROUTE_SET (R172): the request's arrival; what it does is `routeSet` of `RequestName.read`. -/
def execRouteSet (a : Arrival) (args : List Byte) (s : State) : Host.Outcome State Fault Refusal :=
  request .routeSet a args s

/-- ROUTE_READ (R172): the request's arrival; what it does is `routeRead` of `RequestName.read`. -/
def execRouteRead (a : Arrival) (args : List Byte) (s : State) : Host.Outcome State Fault Refusal :=
  request .routeRead a args s

/-- PORT_STATUS (R175): the request's arrival; what it does is `portStatus` of `RequestName.read`. -/
def execPortStatus (a : Arrival) (args : List Byte) (s : State) : Host.Outcome State Fault Refusal :=
  request .portStatus a args s

/-- UNKNOWN_REQUEST (R176): a REQ with any payload arrives; one without a code is answered MALFORMED, one whose code names no
request UNKNOWN. -/
def execUnknownRequest (a : Arrival) (payload : List Byte) (s : State) : Host.Outcome State Fault Refusal :=
  event (arrive a .req payload) s

end Sys2Proof.Machine
end

