-- ==== Sys2Proof/Machine/EventCommands.lean ====
section
/-! DEFINITION. The commands whose event is the arrival of another frame, a tick, a timer's expiry, the end of a transmission or a change
of supply. -/

namespace Sys2Proof.Machine

/-! ### Frames -/

/-- CHECK_ERROR (R163): bytes arrive and are judged by their check. -/
def execCheckError (q : Port) (bytes : List Byte) (stopBitLow : Bool) (o : Order) (s : State) :
    Host.Outcome State Fault Refusal :=
  event (receiveBytes q bytes stopBitLow o) s

/-- GOOD_FRAME_ON_DOWN_PORT (R166): a good frame arrives; on a DOWN port it counts toward bring-up. -/
def execGoodFrameOnDownPort (q : Port) (f : Frame) (o : Order) (s : State) : Host.Outcome State Fault Refusal :=
  event (receive q f o) s

/-- FRAME_DISCARDED_AT_INGRESS (R164): a good frame arrives; on an UP port the tests judge it. -/
def execFrameDiscardedAtIngress (q : Port) (f : Frame) (o : Order) (s : State) : Host.Outcome State Fault Refusal :=
  event (receive q f o) s

/-- IDLE (R164): an IDLE frame with an empty payload arrives. -/
def execIdle (a : Arrival) (s : State) : Host.Outcome State Fault Refusal :=
  event (arrive a .idle []) s

/-- MOTION (R33): a MOTION frame arrives. -/
def execMotion (a : Arrival) (payload : List Byte) (s : State) : Host.Outcome State Fault Refusal :=
  event (arrive a .motion payload) s

/-- SIGN_STAT (R124): a SIGN_STAT frame arrives. -/
def execSignStat (a : Arrival) (payload : List Byte) (s : State) : Host.Outcome State Fault Refusal :=
  event (arrive a .signStat payload) s

/-- AUDIO_FROM_P (R142): an AUDIO frame arrives from the partition. -/
def execAudioFromP (a : Arrival) (payload : List Byte) (s : State) : Host.Outcome State Fault Refusal :=
  event (arrive a .audio payload) s

/-- AUDIO_FROM_C (R155): an AUDIO frame arrives from the console. -/
def execAudioFromC (a : Arrival) (payload : List Byte) (s : State) : Host.Outcome State Fault Refusal :=
  event (arrive a .audio payload) s

/-- The arrival of a PAY frame: a sub-kind and its fields (R193). -/
def arrivePay (x : PaySub) (a : Arrival) (fields : List Byte) (s : State) : State :=
  arrive a .pay (paySubCode x :: fields) s

/-- CARD_STAGE (R66): a terminal stage arrives. -/
def execCardStage (a : Arrival) (fields : List Byte) (s : State) : Host.Outcome State Fault Refusal :=
  event (arrivePay .cardStage a fields) s

/-- AUTH_ASK (R68): an authorization ask arrives. -/
def execAuthAsk (a : Arrival) (fields : List Byte) (s : State) : Host.Outcome State Fault Refusal :=
  event (arrivePay .authAsk a fields) s

/-- AUTH_ANSWER (R71): an acquirer's answer arrives. -/
def execAuthAnswer (a : Arrival) (fields : List Byte) (s : State) : Host.Outcome State Fault Refusal :=
  event (arrivePay .authAnswer a fields) s

/-- UPLOAD_ACK (R81): an acknowledgement arrives. -/
def execUploadAck (a : Arrival) (fields : List Byte) (s : State) : Host.Outcome State Fault Refusal :=
  event (arrivePay .uploadAck a fields) s

/-- PASS (R173): a pass-through frame arrives. -/
def execPass (a : Arrival) (payload : List Byte) (s : State) : Host.Outcome State Fault Refusal :=
  event (arrive a .pass payload) s

/-- WAKE_CALL (R186): a frame arrives on D; in PARKED it is searched for the wake call. -/
def execWakeCall (f : Frame) (o : Order) (s : State) : Host.Outcome State Fault Refusal :=
  event (receive .d f o) s

/-! ### Ticks and counts -/

/-- The decisecond tick: the clock, the minute boundary and the fare engine in the order the event leaves open, and the shift unit
(R13, R15, R36, R104). -/
def takeTick (bandFirst : Bool) (s : State) : State :=
  let s1 := s.setTariff { s.tariff with clock := s.tariff.clock.advance }
  let s2 := if bandFirst then fareTick (minuteBoundary s1) else minuteBoundary (fareTick s1)
  s2.setTotals (s2.shift.totals.tick s2.shift.state s2.anyMetering)

/-- DECISECOND_TICK (R13). -/
def execDecisecondTick (bandFirst : Bool) (s : State) : Host.Outcome State Fault Refusal :=
  event (takeTick bandFirst) s

/-- The cadence count at the cadence unit (R129). -/
def countCadence (s : State) : State :=
  { s with cadence := s.cadence.count }

/-- The time a running call timer is told of by a cadence count (notes/assumptions/4.md). -/
def countCall (s : State) : State :=
  if s.intercom.callTimer.isSome then s.setIntercom { s.intercom with callCounts := s.intercom.callCounts + 1 } else s

/-- The cadence count at the cadence unit and the sign unit, in the order the event leaves open (R122, R129). -/
def takeCadence (signFirst : Bool) (s : State) : State :=
  countCall (if signFirst then countCadence (signCount s) else signCount (countCadence s))

/-- CADENCE_COUNT (R129). -/
def execCadenceCount (signFirst : Bool) (s : State) : Host.Outcome State Fault Refusal :=
  event (takeCadence signFirst) s

/-- TERMINAL_COUNT (R129): the cadence count that finds an active timer at 1; no event where the timer stands elsewhere
(notes/assumptions/5.md). -/
def execTerminalCount (t : TimerId) (signFirst : Bool) (s : State) : Host.Outcome State Fault Refusal :=
  event (fun s => if (s.cadence.timer t).active ∧ (s.cadence.timer t).count = 1 then takeCadence signFirst s else s) s

/-- Whether a cadence count takes the refresh count to 100 (R123). -/
def refreshDue (signFirst : Bool) (s : State) : Bool :=
  let s1 := compose (if signFirst then s else countCadence s)
  !s.parked && s.isUp .s && decide (Config.refreshLimit ≤ s1.sign.refresh + 1)

/-- SIGN_REFRESH (R123): the cadence count that takes the refresh count to 100; no event at another (notes/assumptions/5.md). -/
def execSignRefresh (signFirst : Bool) (s : State) : Host.Outcome State Fault Refusal :=
  event (fun s => if refreshDue signFirst s then takeCadence signFirst s else s) s

/-- A player's port's sequence number, which grows with each block formed toward it (R143). -/
def IntercomUnit.seqToward (x : IntercomUnit) : PlayerId → Nat
  | .driver => x.seqC
  | .partition => x.seqP

/-- The intercom once the buttons or the talk key of the frame that clocks a player's blocks have been taken (R154, R155). -/
def afterKeys (player : PlayerId) (payload : List Byte) (s : State) : State :=
  match payload with
  | [] => s
  | key :: _ =>
    match player with
    | .driver => takeButtons (key.getLsbD 0) (key.getLsbD 1) s
    | .partition => takeTalkKey (key.getLsbD 0) s

/-- Whether a frame that turned `s` into `t` formed the last block of a player's chime: a block was formed toward its port, and the player,
ACTIVE once the frame's keys were taken, is IDLE after it. A chime the frame's own call rise triggered counts (R158, R159). -/
def chimeEnds (player : PlayerId) (payload : List Byte) (s t : State) : Bool :=
  t.intercom.seqToward player != s.intercom.seqToward player && ((afterKeys player payload s).intercom.player player).isSome
    && (t.intercom.player player).isNone

/-- CHIME_END (R159): the arrival of the AUDIO frame that clocks the last block of a player's chime; no event where no chime ends
(notes/assumptions/5.md). -/
def execChimeEnd (player : PlayerId) (a : Arrival) (payload : List Byte) (s : State) : Host.Outcome State Fault Refusal :=
  event
    (fun s =>
      let t := arrive a .audio payload s
      if chimeEnds player payload s t then t else s)
    s

/-! ### Expiries -/

/-- OFFER_TIMER_EXPIRY (R67). -/
def execOfferTimerExpiry (s : State) : Host.Outcome State Fault Refusal :=
  event offerExpiry s

/-- ANSWER_TIMER_EXPIRY (R74). -/
def execAnswerTimerExpiry (s : State) : Host.Outcome State Fault Refusal :=
  event answerExpiry s

/-- UPLOAD_TIMER_EXPIRY (R80). -/
def execUploadTimerExpiry (s : State) : Host.Outcome State Fault Refusal :=
  event uploadExpiry s

/-- CALL_TIMER_EXPIRY (R147): the expiry of a running call timer. -/
def execCallTimerExpiry (s : State) : Host.Outcome State Fault Refusal :=
  event (fun s => if s.intercom.callTimer.isSome then callExpiry s else s) s

/-- PARK (R185): the expiry of a running park delay timer. -/
def execPark (s : State) : Host.Outcome State Fault Refusal :=
  event parkExpiry s

/-- SILENCE_TIMER_EXPIRY (R166). -/
def execSilenceTimerExpiry (q : Port) (s : State) : Host.Outcome State Fault Refusal :=
  event (silenceExpiry q) s

/-- QUIET_TIMER_EXPIRY (R168). -/
def execQuietTimerExpiry (q : Port) (s : State) : Host.Outcome State Fault Refusal :=
  event (fun s => s.setPort q (s.port q).quietExpiry) s

/-- TRANSMIT_COMPLETE (R170). -/
def execTransmitComplete (q : Port) (s : State) : Host.Outcome State Fault Refusal :=
  event (fun s => s.setPort q (s.port q).complete) s

/-! ### Power -/

/-- S_SHUT (R185): the pending shut of S, where S has drained. -/
def execSShut (s : State) : Host.Outcome State Fault Refusal :=
  event settleSign s

/-- POWER_ON_RESET (R188): supply comes to a part in OFF; in RUN or PARKED there is no such event. -/
def execPowerOnReset (s : State) : Host.Outcome State Fault Refusal :=
  .next (if s.power.state = .off then { State.reset with pending := s.pending } else s)

/-- The part in OFF, which holds no state: its blocks read as they will after power-on reset (R184, notes/assumptions/6.md). -/
def State.off : State :=
  { State.reset with power := { PowerUnit.reset with state := .off } }

/-- BACKUP_SUPPLY_LOST (R184). -/
def execBackupSupplyLost (s : State) : Host.Outcome State Fault Refusal :=
  .next { State.off with pending := s.pending }

end Sys2Proof.Machine
end

