-- ==== Sys2Proof/Machine/Dispatch.lean ====
section
/-! DEFINITION. The dispatch: one arm for each command of the table, each a direct call of its meaning. -/

namespace Sys2Proof.Machine

def exec (i : Instr) (s : State) : Host.Outcome State Fault Refusal :=
  match i with
  | .loadBegin a args => Sys2Proof.Machine.execLoadBegin a args s
  | .loadPart a args => Sys2Proof.Machine.execLoadPart a args s
  | .loadCommit a args => Sys2Proof.Machine.execLoadCommit a args s
  | .tariffRead a args => Sys2Proof.Machine.execTariffRead a args s
  | .tariffStatus a args => Sys2Proof.Machine.execTariffStatus a args s
  | .setClock a args => Sys2Proof.Machine.execSetClock a args s
  | .setCabId a args => Sys2Proof.Machine.execSetCabId a args s
  | .hire a args => Sys2Proof.Machine.execHire a args s
  | .total a args => Sys2Proof.Machine.execTotal a args s
  | .resume a args => Sys2Proof.Machine.execResume a args s
  | .void a args => Sys2Proof.Machine.execVoid a args s
  | .payCash a args => Sys2Proof.Machine.execPayCash a args s
  | .closeTrip a args => Sys2Proof.Machine.execCloseTrip a args s
  | .addExtra a args => Sys2Proof.Machine.execAddExtra a args s
  | .setTariff a args => Sys2Proof.Machine.execSetTariff a args s
  | .setStation a args => Sys2Proof.Machine.execSetStation a args s
  | .share a args => Sys2Proof.Machine.execShare a args s
  | .partyRead a args => Sys2Proof.Machine.execPartyRead a args s
  | .milestoneSet a args => Sys2Proof.Machine.execMilestoneSet a args s
  | .milestoneRead a args => Sys2Proof.Machine.execMilestoneRead a args s
  | .offerCard a args => Sys2Proof.Machine.execOfferCard a args s
  | .cancelCard a args => Sys2Proof.Machine.execCancelCard a args s
  | .policySet a args => Sys2Proof.Machine.execPolicySet a args s
  | .refusalListAdd a args => Sys2Proof.Machine.execRefusalListAdd a args s
  | .refusalListRemove a args => Sys2Proof.Machine.execRefusalListRemove a args s
  | .refusalListClear a args => Sys2Proof.Machine.execRefusalListClear a args s
  | .payStatus a args => Sys2Proof.Machine.execPayStatus a args s
  | .shiftOpen a args => Sys2Proof.Machine.execShiftOpen a args s
  | .shiftBreak a args => Sys2Proof.Machine.execShiftBreak a args s
  | .shiftResume a args => Sys2Proof.Machine.execShiftResume a args s
  | .shiftClose a args => Sys2Proof.Machine.execShiftClose a args s
  | .totalsRead a args => Sys2Proof.Machine.execTotalsRead a args s
  | .totalsThaw a args => Sys2Proof.Machine.execTotalsThaw a args s
  | .reportRead a args => Sys2Proof.Machine.execReportRead a args s
  | .reportDrop a args => Sys2Proof.Machine.execReportDrop a args s
  | .offDutyOverride a args => Sys2Proof.Machine.execOffDutyOverride a args s
  | .emergencyClear a args => Sys2Proof.Machine.execEmergencyClear a args s
  | .viewSet a args => Sys2Proof.Machine.execViewSet a args s
  | .imageSet a args => Sys2Proof.Machine.execImageSet a args s
  | .stripesSet a args => Sys2Proof.Machine.execStripesSet a args s
  | .blockSet a args => Sys2Proof.Machine.execBlockSet a args s
  | .signStatus a args => Sys2Proof.Machine.execSignStatus a args s
  | .signRead a args => Sys2Proof.Machine.execSignRead a args s
  | .timerSet a args => Sys2Proof.Machine.execTimerSet a args s
  | .comparatorSet a args => Sys2Proof.Machine.execComparatorSet a args s
  | .timerStart a args => Sys2Proof.Machine.execTimerStart a args s
  | .timerStop a args => Sys2Proof.Machine.execTimerStop a args s
  | .timerStopAtEnd a args => Sys2Proof.Machine.execTimerStopAtEnd a args s
  | .timerStatus a args => Sys2Proof.Machine.execTimerStatus a args s
  | .lampWrite a args => Sys2Proof.Machine.execLampWrite a args s
  | .answer a args => Sys2Proof.Machine.execAnswer a args s
  | .hangup a args => Sys2Proof.Machine.execHangup a args s
  | .gainsSet a args => Sys2Proof.Machine.execGainsSet a args s
  | .intercomStatus a args => Sys2Proof.Machine.execIntercomStatus a args s
  | .chimeRead a args => Sys2Proof.Machine.execChimeRead a args s
  | .chimeSet a args => Sys2Proof.Machine.execChimeSet a args s
  | .routeSet a args => Sys2Proof.Machine.execRouteSet a args s
  | .routeRead a args => Sys2Proof.Machine.execRouteRead a args s
  | .portStatus a args => Sys2Proof.Machine.execPortStatus a args s
  | .unknownRequest a payload => Sys2Proof.Machine.execUnknownRequest a payload s
  | .checkError port bytes stopBitLow o => Sys2Proof.Machine.execCheckError port bytes stopBitLow o s
  | .goodFrameOnDownPort port f o => Sys2Proof.Machine.execGoodFrameOnDownPort port f o s
  | .frameDiscardedAtIngress port f o => Sys2Proof.Machine.execFrameDiscardedAtIngress port f o s
  | .idle a => Sys2Proof.Machine.execIdle a s
  | .motion a payload => Sys2Proof.Machine.execMotion a payload s
  | .signStat a payload => Sys2Proof.Machine.execSignStat a payload s
  | .audioFromP a payload => Sys2Proof.Machine.execAudioFromP a payload s
  | .audioFromC a payload => Sys2Proof.Machine.execAudioFromC a payload s
  | .cardStage a fields => Sys2Proof.Machine.execCardStage a fields s
  | .authAsk a fields => Sys2Proof.Machine.execAuthAsk a fields s
  | .authAnswer a fields => Sys2Proof.Machine.execAuthAnswer a fields s
  | .uploadAck a fields => Sys2Proof.Machine.execUploadAck a fields s
  | .pass a payload => Sys2Proof.Machine.execPass a payload s
  | .wakeCall f o => Sys2Proof.Machine.execWakeCall f o s
  | .decisecondTick bandFirst => Sys2Proof.Machine.execDecisecondTick bandFirst s
  | .cadenceCount signFirst => Sys2Proof.Machine.execCadenceCount signFirst s
  | .terminalCount t signFirst => Sys2Proof.Machine.execTerminalCount t signFirst s
  | .signRefresh signFirst => Sys2Proof.Machine.execSignRefresh signFirst s
  | .chimeEnd player a payload => Sys2Proof.Machine.execChimeEnd player a payload s
  | .offerTimerExpiry => Sys2Proof.Machine.execOfferTimerExpiry s
  | .answerTimerExpiry => Sys2Proof.Machine.execAnswerTimerExpiry s
  | .uploadTimerExpiry => Sys2Proof.Machine.execUploadTimerExpiry s
  | .callTimerExpiry => Sys2Proof.Machine.execCallTimerExpiry s
  | .park => Sys2Proof.Machine.execPark s
  | .silenceTimerExpiry port => Sys2Proof.Machine.execSilenceTimerExpiry port s
  | .quietTimerExpiry port => Sys2Proof.Machine.execQuietTimerExpiry port s
  | .transmitComplete port => Sys2Proof.Machine.execTransmitComplete port s
  | .sShut => Sys2Proof.Machine.execSShut s
  | .powerOnReset => Sys2Proof.Machine.execPowerOnReset s
  | .backupSupplyLost => Sys2Proof.Machine.execBackupSupplyLost s

end Sys2Proof.Machine
end

