-- ==== Sys2Proof/Safety.lean ====
section
/-! DEFINITION. What a safe hub is, in the terms the statements use: when a port takes a frame, what an answered request leaves, and the
invariants of the link switch, of the money of the parties, of the payment queue and of the shift's trips. -/

namespace Sys2Proof.Machine

/-! ### Taking and answering -/

/-- Port `q` takes a good frame at once: the hub is in RUN and the port is UP and not shut (R163, R164). -/
abbrev State.hears (s : State) (q : Port) : Prop :=
  s.power.state = .run ∧ (s.port q).up = true ∧ (s.port q).shut = false

/-- The hub in which a request from `a` is answered: the state with the silence timer of its port restarted by the frame (R163). -/
abbrev State.heard (s : State) (a : Arrival) : State :=
  restartSilence a.port s

/-- What answering a request with `f` leaves of a state: the port's silence timer restarted by the request's frame (R163) and the
reply placed (R178). -/
def State.answered (s : State) (a : Arrival) (f : Frame) : State :=
  emit a.port f (s.heard a)

/-- The reply of a request that is DONE without a clamp. -/
def doneReply (a : Arrival) (r : RequestName) (fields : List Byte) : Frame :=
  replyFrame a.tag r.code (.ok fields)

/-- The reply of a request REFUSED for a reason that names no item. -/
def refusedReply (a : Arrival) (r : RequestName) (reason : Reason) : Frame :=
  replyFrame a.tag r.code (.refuse reason)

/-- The reply NOT_PERMITTED (R176, R177). -/
def notPermittedReply (a : Arrival) (r : RequestName) : Frame :=
  statusFrame a.tag r.code .notPermitted

/-- The reply MALFORMED (R176). -/
def malformedReply (a : Arrival) (r : RequestName) : Frame :=
  statusFrame a.tag r.code .malformed

/-- The command that is the arrival of a request. -/
def RequestName.command (r : RequestName) (a : Arrival) (args : List Byte) : Instr :=
  match r with
  | .loadBegin => .loadBegin a args
  | .loadPart => .loadPart a args
  | .loadCommit => .loadCommit a args
  | .tariffRead => .tariffRead a args
  | .tariffStatus => .tariffStatus a args
  | .setClock => .setClock a args
  | .setCabId => .setCabId a args
  | .hire => .hire a args
  | .total => .total a args
  | .resume => .resume a args
  | .void => .void a args
  | .payCash => .payCash a args
  | .closeTrip => .closeTrip a args
  | .addExtra => .addExtra a args
  | .setTariff => .setTariff a args
  | .setStation => .setStation a args
  | .share => .share a args
  | .partyRead => .partyRead a args
  | .milestoneSet => .milestoneSet a args
  | .milestoneRead => .milestoneRead a args
  | .offerCard => .offerCard a args
  | .cancelCard => .cancelCard a args
  | .policySet => .policySet a args
  | .refusalListAdd => .refusalListAdd a args
  | .refusalListRemove => .refusalListRemove a args
  | .refusalListClear => .refusalListClear a args
  | .payStatus => .payStatus a args
  | .shiftOpen => .shiftOpen a args
  | .shiftBreak => .shiftBreak a args
  | .shiftResume => .shiftResume a args
  | .shiftClose => .shiftClose a args
  | .totalsRead => .totalsRead a args
  | .totalsThaw => .totalsThaw a args
  | .reportRead => .reportRead a args
  | .reportDrop => .reportDrop a args
  | .offDutyOverride => .offDutyOverride a args
  | .emergencyClear => .emergencyClear a args
  | .viewSet => .viewSet a args
  | .imageSet => .imageSet a args
  | .stripesSet => .stripesSet a args
  | .blockSet => .blockSet a args
  | .signStatus => .signStatus a args
  | .signRead => .signRead a args
  | .timerSet => .timerSet a args
  | .comparatorSet => .comparatorSet a args
  | .timerStart => .timerStart a args
  | .timerStop => .timerStop a args
  | .timerStopAtEnd => .timerStopAtEnd a args
  | .timerStatus => .timerStatus a args
  | .lampWrite => .lampWrite a args
  | .answer => .answer a args
  | .hangup => .hangup a args
  | .gainsSet => .gainsSet a args
  | .intercomStatus => .intercomStatus a args
  | .chimeRead => .chimeRead a args
  | .chimeSet => .chimeSet a args
  | .routeSet => .routeSet a args
  | .routeRead => .routeRead a args
  | .portStatus => .portStatus a args

/-! ### What an event leaves as it was -/

/-- The blocks of the hub (00_scope). -/
inductive Block where
  | link | request | tariff | fare | milestone | payment | shift | sign | cadence | intercom | power
deriving DecidableEq, Repr

/-- What the link switch holds of a port that placing and sending frames leaves as it is: all but the lanes, the transmitter and the
discard counter. -/
structure PortFace where
  up : Bool
  shut : Bool
  bringUp : Bool
  silence : Timer
  quiet : Timer
  checkErrors : Nat
deriving DecidableEq, Repr

/-- What sending leaves as it is of a port. -/
def PortState.face (x : PortState) : PortFace :=
  ⟨x.up, x.shut, x.bringUp, x.silence, x.quiet, x.checkErrors⟩

/-- What sending leaves as it is of the link switch: the route table, and each port's share of `PortFace`. -/
structure LinkFace where
  passRoutes : PerPort Route
  telemetryRoutes : PerPort Route
  ports : PerPort PortFace
deriving DecidableEq, Repr

/-- What sending leaves as it is of the link switch. -/
def LinkSwitch.face (x : LinkSwitch) : LinkFace :=
  ⟨x.passRoutes, x.telemetryRoutes,
    ⟨x.ports.d.face, x.ports.c.face, x.ports.p.face, x.ports.k.face, x.ports.s.face, x.ports.v.face⟩⟩

/-- From `s` to `t` no block outside the list has changed, and the link switch, unless listed, has done no more than place and send
frames. -/
def State.changesOnly (s t : State) (bs : List Block) : Prop :=
  t.pending = s.pending ∧ (.link ∈ bs ∨ t.link.face = s.link.face) ∧ (.request ∈ bs ∨ t.request = s.request)
    ∧ (.tariff ∈ bs ∨ t.tariff = s.tariff) ∧ (.fare ∈ bs ∨ t.fare = s.fare) ∧ (.milestone ∈ bs ∨ t.milestone = s.milestone)
    ∧ (.payment ∈ bs ∨ t.payment = s.payment) ∧ (.shift ∈ bs ∨ t.shift = s.shift) ∧ (.sign ∈ bs ∨ t.sign = s.sign)
    ∧ (.cadence ∈ bs ∨ t.cadence = s.cadence) ∧ (.intercom ∈ bs ∨ t.intercom = s.intercom) ∧ (.power ∈ bs ∨ t.power = s.power)

/-- Port `a.port` takes the request `r` at once and has the authority for it (R163, R164, R177). -/
abbrev State.takes (s : State) (a : Arrival) (r : RequestName) : Prop :=
  s.hears a.port ∧ r.authority.permits a.port = true

/-- The fare engine with one party replaced. -/
def FareEngine.withParty (x : FareEngine) (i : Fin 4) (p : Party) : FareEngine :=
  { x with parties := x.parties.set i p }

/-- A port after a frame was placed toward its general lane, admitted or discarded (R169, R170). -/
def PortState.placed (x : PortState) (f : Frame) : PortState :=
  (x.placeGeneral f).1

/-- The state with the staging buffer replaced. -/
def State.withStaging (s : State) (x : Option TariffSet) : State :=
  { s with tariff := { s.tariff with staging := x } }

/-- No milestone entry is enabled. -/
def State.milestonesOff (s : State) : Bool :=
  s.milestone.table.all fun m => !m.enabled

/-- The part carries out waiting commands: `n` steps, one after another. -/
def stepN : Nat → State → Option State
  | 0, s => some s
  | n + 1, s =>
    match step s with
    | .next t => stepN n t
    | _ => none

/-! ### What the displays and the notices tell -/

/-- Port C at the end of an event of the fare engine that took the parties from those of `s` to those of `t`: where C is UP and the display
content of a slot has changed, one FARE_VIEW of the four slots follows (R47). -/
def PortState.shownConsole (x : PortState) (s t : State) : PortState :=
  if x.up && slots.any (fun i => (s.party i).display != (t.party i).display) then
    x.placed (plainFrame .fareView (4 :: consoleRecords t))
  else x

/-- Port P at the end of such an event: where P is UP and a passenger record has changed, one FARE_VIEW of LEFT and RIGHT follows (R48). -/
def PortState.shownPassenger (x : PortState) (s t : State) : PortState :=
  if x.up && passengerRecords s != passengerRecords t then x.placed (plainFrame .fareView (2 :: passengerRecords t)) else x

/-- From `s` to `t` nothing is told toward C and P but what the displays show (R47, R48). -/
def State.displayed (s t : State) : Prop :=
  t.request = s.request ∧ t.port .c = (s.port .c).shownConsole s t ∧ t.port .p = (s.port .p).shownPassenger s t

/-- Port C after what tells of slot `i`'s change of state in trip `trip` from `s` to `t`: one TRIP notice with the slot, its new state and the
trip, then the display (R21, R47). -/
def PortState.tripShown (x : PortState) (s t : State) (i : Fin 4) (trip : Nat) : PortState :=
  (x.placed (noticeFrame s.request.seqC .trip (byte i.val :: enc PartyState.all (t.party i).state :: be 4 trip))).shownConsole s t

/-- From `s` to `t` slot `i` has changed its state in trip `trip`: one TRIP notice toward C, then the displays (R21, R47, R48). -/
def State.tripTold (s t : State) (i : Fin 4) (trip : Nat) : Prop :=
  t.request = { s.request with seqC := nextSeq s.request.seqC }
    ∧ t.port .c = (s.port .c).tripShown s t i trip ∧ t.port .p = (s.port .p).shownPassenger s t

/-- From `s` to `t` the payment record of slot `i` has ended in trip `trip`: what `tripTold` tells of the party, and behind it one PAY notice toward
C with the slot, the result, the cause or reason and the delivery marker (R32, R89, R181, notes/assumptions/13.md). -/
def State.payTold (s t : State) (i : Fin 4) (trip : Nat) (result cause marker : Byte) : Prop :=
  t.request.seqC = nextSeq (nextSeq s.request.seqC)
    ∧ t.port .c = ((s.port .c).tripShown s t i trip).placed
        (noticeFrame (nextSeq s.request.seqC) .pay [byte i.val, result, cause, marker])
    ∧ t.port .p = (s.port .p).shownPassenger s t

/-- The intercom after the PAID chime was triggered on the partition player: it plays from its beginning where P is UP (R158). -/
def State.paidChimed (s : State) : IntercomUnit :=
  if s.isUp .p then { s.intercom with partitionPlayer := some ⟨.paid, s.intercom.chimes.paid, 0, 0⟩ } else s.intercom

/-- From `s` to `t` one notice has been placed toward C and one toward D, each under its port's number, and nothing else toward them (R181). -/
def State.bothTold (s t : State) (n : Notice) (fields : List Byte) : Prop :=
  t.request = ⟨nextSeq s.request.seqC, nextSeq s.request.seqD⟩
    ∧ t.port .c = (s.port .c).placed (noticeFrame s.request.seqC n fields)
    ∧ t.port .d = (s.port .d).placed (noticeFrame s.request.seqD n fields)

/-- Port C after the MISSED notices of the calls that waited, LEFT before RIGHT, from number `seq` on (R147, R151). -/
def PortState.missedTold (x : PortState) (seq : Nat) (calls : StationSet) : PortState :=
  let first := if calls.left then x.placed (noticeFrame seq .missed [1]) else x
  if calls.right then first.placed (noticeFrame (if calls.left then nextSeq seq else seq) .missed [2]) else first

/-- Port D and its notice number after the LINK notices of the ports of a list that were UP in `s` and go DOWN in turn (R167). -/
def State.linksLost (s : State) (x : PortState × Nat) (qs : List Port) : PortState × Nat :=
  qs.foldl (fun y q => if s.isUp q then (y.1.placed (noticeFrame y.2 .link [byte q.number, 0]), nextSeq y.2) else y) x

/-! ### The start of an upload -/

/-- The payment unit in RUN at an event that may start the upload: with D UP, the upload IDLE and an entry held it is AWAITING with 20 s on its
timer (R80). -/
def PaymentUnit.uploading (x : PaymentUnit) (dUp : Bool) : PaymentUnit :=
  if dUp && x.upload == .idle && !x.store.isEmpty then { x with upload := .awaiting, uploadTimer := some 20000 } else x

/-- Port D at such an event: the head entry that `x` holds leaves for it as an UPLOAD under the cab number (R80). -/
def PortState.uploaded (d : PortState) (x : PaymentUnit) (cab : BitVec 32) : PortState :=
  match x.store with
  | [] => d
  | e :: _ => if d.up && x.upload == .idle then d.placed (payFrame .upload (uploadFields cab e)) else d

/-- Port D after an append that makes the store `n` entries long: a STORE notice at 28 (R79). -/
def PortState.storeTold (d : PortState) (seqD n : Nat) : PortState :=
  if n = 28 then d.placed (noticeFrame seqD .store [28]) else d

/-- D's notice number after such an append (R79, R181). -/
def storeSeq (seqD n : Nat) : Nat :=
  if n = 28 then nextSeq seqD else seqD

/-- The state with every party replaced by `f` of it. -/
def State.withParties (s : State) (f : Party → Party) : State :=
  { s with fare := { s.fare with parties := s.fare.parties.map f } }

/-! ### A change of the band -/

/-- Whether a party follows the band: it is not IDLE and its lock is AUTO (R44). -/
def Party.follows (p : Party) : Bool :=
  p.state != .idle && p.lock == .auto

/-- A party after a change of the band to `b`: one that follows it takes the new tariff, and in METERING is stepped by it at once
(R44 to R46). -/
def State.following (s : State) (b : Option Nat) (p : Party) : Party :=
  match b with
  | none => p
  | some n =>
    if p.follows then
      let q := { p with tariff := n }
      if p.state = .metering then s.stepped q else q
    else p

/-- Port C after the BAND notice of a change to `b` (R16). -/
def State.bandNoticed (s : State) (b : Option Nat) (x : PortState) : PortState :=
  x.placed (noticeFrame s.request.seqC .band [match b with | some n => byte n | none => 255])

/-- The intercom after a change of the band: the BAND chime on the partition player where P is UP and a party that follows the band has a
station (R16, R158). -/
def State.bandChimed (s : State) : IntercomUnit :=
  if s.isUp .p && slots.any (fun i => (s.party i).follows && (s.party i).station != .none) then
    { s.intercom with partitionPlayer := some ⟨.band, s.intercom.chimes.band, 0, 0⟩ }
  else s.intercom

/-- From `s` to `t` the band has been evaluated to `b` and handed on (R16, R44 to R46). The band held raises nothing. A change rings the BAND
chime and leaves every party that does not follow it as it was; with no milestone entry enabled the parties that do are those of
`State.following`, and what is told is one BAND notice and the displays. -/
def State.tookBand (s t : State) (b : Option Nat) : Prop :=
  (b = s.tariff.band →
    t.fare = s.fare ∧ t.milestone = s.milestone ∧ t.intercom = s.intercom ∧ t.request = s.request ∧ t.link = s.link)
  ∧ (b ≠ s.tariff.band →
    t.intercom = s.bandChimed
    ∧ (∀ i, (s.party i).state ≠ .metering ∨ (s.party i).follows = false → t.party i = s.following b (s.party i))
    ∧ (s.milestonesOff = true →
      (∀ i, t.party i = s.following b (s.party i)) ∧ t.request = { s.request with seqC := nextSeq s.request.seqC }
        ∧ t.port .c = (s.bandNoticed b (s.port .c)).shownConsole s t ∧ t.port .p = (s.port .p).shownPassenger s t))

/-! ### The comparator stage -/

/-- Whether a comparator matches at an event that set the timers' counts to those `offered`: value 0 and mode OFF never do (R135). -/
def Comparator.hit (y : Comparator) (offered : TimerId → Option Nat) : Bool :=
  y.value != 0 && y.mode != .off && offered y.timer == some y.value

/-- Whether a comparator is armed for the matches of an event: a ONCE_TOGGLE one is rearmed first where its timer was loaded (R136). -/
def Comparator.armedFor (y : Comparator) (loaded : TimerId → Bool) : Bool :=
  y.armed || (y.mode == .onceToggle && loaded y.timer)

/-- Whether a comparator requests a toggle of its own lamp (R136). -/
def Comparator.asksToggle (y : Comparator) (offered : TimerId → Option Nat) (loaded : TimerId → Bool) : Bool :=
  y.hit offered && (y.mode == .toggle || (y.mode == .onceToggle && y.armedFor loaded))

/-- Latch `l` after the comparator stage of an event that offered counts, loaded timers and ended periods as told: the toggles asked are
counted, those of a pair once, and an odd number inverts the latch; then a set without a clear lights it, a clear without a set darkens it
(R137 to R139). -/
def CadenceUnit.latchAfter (x : CadenceUnit) (offered : TimerId → Option Nat) (loaded terminal : TimerId → Bool) (l : Fin 4) : Bool :=
  let toggles := ((List.finRange 4).map fun i =>
    let y := x.comparators[i.val]
    let z := x.comparators[i.val + 4]
    let paired := z.mode == .pair && z.hit offered && y.mode == .toggle
    (if y.lamp = l && (y.asksToggle offered loaded || paired) then 1 else 0)
      + (if z.lamp = l && z.asksToggle offered loaded then 1 else 0)).sum
  let setClears := x.comparators.toList.filter fun y => y.mode == .setClear && y.lamp == l
  let set := setClears.any fun y => y.hit offered
  let clear := setClears.any fun y => y.value != 0 && terminal y.timer
  if set && !clear then true else if clear && !set then false else xor x.latches[l] (toggles % 2 == 1)

/-- Comparator `i` after that stage: a ONCE_TOGGLE one is armed until it matches, and nothing else of any changes (R136). -/
def CadenceUnit.comparatorAfter (x : CadenceUnit) (offered : TimerId → Option Nat) (loaded : TimerId → Bool) (i : Fin 8) : Comparator :=
  let y := x.comparators[i]
  { y with armed := y.armedFor loaded && !(y.mode == .onceToggle && y.hit offered) }

/-! ### Decidable checks of every port and every slot -/

/-- Every port has a property. -/
def allPorts (f : Port → Bool) : Bool :=
  Port.all.all f

/-- Every slot has a property. -/
def allSlots (f : Fin 4 → Bool) : Bool :=
  slots.all f

/-! ### The link switch -/

/-- A port is sound: its lanes are within their capacities and its counters within their bounds (R163, R169, R174); a DOWN port's
lanes are empty (R167); an idle transmitter leaves no frame waiting (R170); a shut port is DOWN, sends nothing and runs no timer
(R163, R166, R168). -/
def PortState.sound (x : PortState) : Bool :=
  decide (x.voice.length ≤ Config.voiceCapacity) && decide (x.general.length ≤ Config.generalCapacity)
    && decide (x.checkErrors ≤ Config.counterMax) && decide (x.discards ≤ Config.counterMax)
    && (x.up || (x.voice.isEmpty && x.general.isEmpty))
    && (x.sending.isSome || (x.voice.isEmpty && x.general.isEmpty))
    && (!x.shut || (!x.up && !x.bringUp && x.sending.isNone && x.silence.isNone && x.quiet.isNone))

/-- Every port is sound. -/
def State.linkSound (s : State) : Bool :=
  allPorts fun q => (s.port q).sound

/-! ### The money of a party -/

/-- A party is sound: its fare and extras are within their caps (R42), what it paid never exceeds fare plus extras, a party in HOLD owes
at least a cent, one in SETTLED owes nothing (R20), and an IDLE slot holds the values of R18. -/
def Party.sound (p : Party) : Bool :=
  decide (p.fare ≤ Config.fareCap) && decide (p.extras ≤ Config.extrasCap)
    && decide (p.cash + p.cardOnline + p.cardOffline ≤ p.fare + p.extras)
    && (p.state != .hold || decide (1 ≤ p.due)) && (p.state != .settled || p.due == 0)
    && (p.state != .idle || p == .vacant)

/-- A payment record is sound: its party is PAYING and owes at least what is offered, at least a cent is offered, and what was asked
is within the offer (R62, R64, R68). -/
def Record.sound (s : State) (r : Record) : Bool :=
  (s.party r.slot).state == .paying && decide (1 ≤ r.offered) && decide (r.offered ≤ (s.party r.slot).due)
    && (match r.amountAsked with | some n => decide (n ≤ r.offered) | none => true)

/-- The accounts are sound: every party and every payment record is, and no slot has two records (R20, R42, R62). -/
def State.accountsSound (s : State) : Bool :=
  (allSlots fun i => (s.party i).sound) && s.payment.queue.all (Record.sound s)
    && decide ((s.payment.queue.map Record.slot).Nodup)

/-! ### The payment queue -/

/-- The head of the payment queue and its timers agree: the offer timer runs exactly while the head is OFFERED, the answer timer
exactly while it is AUTHORIZING, which is also when it holds a hub reference; every later record is QUEUED and holds none, and the head is
not QUEUED (R62, R63, R69). -/
def PaymentUnit.queueSound (x : PaymentUnit) : Bool :=
  match x.queue with
  | [] => x.offerTimer.isNone && x.answerTimer.isNone
  | r :: rest =>
    r.state != .queued && (rest.all fun y => y.state == .queued && y.hubRef.isNone)
      && (x.offerTimer.isSome == (r.state == .offered)) && (x.answerTimer.isSome == (r.state == .authorizing))
      && (r.hubRef.isSome == (r.state == .authorizing))

/-- The references in use: those of the store's entries, and that of an AUTHORIZING head. -/
def PaymentUnit.references (x : PaymentUnit) : List Nat :=
  x.store.map StoreEntry.hubRef
    ++ (match x.queue with | r :: _ => (if r.state = .authorizing then r.hubRef.toList else []) | [] => [])

/-- The queue behind a removed head: its first record is promoted to OFFERED (R63). -/
def promotedQueue : List Record → List Record
  | [] => []
  | r :: rest => { r with state := .offered } :: rest

/-- The offer timer behind a removed head: 120 s if a record was promoted, and else stopped (R63). -/
def promotedTimer : List Record → Timer
  | [] => none
  | _ :: _ => some 120000

/-- A port K after the CHARGE_OFFER of the record promoted behind a removed head, if there is one (R63). -/
def PortState.offeredNext (x : PortState) (tipPercent : Nat) : List Record → PortState
  | [] => x
  | r :: _ => x.placed (payFrame .chargeOffer (byte r.slot.val :: be 4 r.offered ++ [byte tipPercent]))

/-- The store is sound: the references in use are distinct and from 1 to 65,535, they are at most 32, and the upload timer runs
exactly in AWAITING, with an entry to send (R69, R78, R80). -/
def PaymentUnit.storeSound (x : PaymentUnit) : Bool :=
  decide x.references.Nodup && x.references.all (fun n => decide (1 ≤ n) && decide (n ≤ 65535))
    && decide (x.references.length ≤ Config.storeCapacity) && decide (x.refCounter ≤ 65535)
    && (x.uploadTimer.isSome == (x.upload == .awaiting)) && (x.upload == .idle || !x.store.isEmpty)

/-! ### The tariff set in force -/

/-- Two schedule indexes do not conflict: one is absent, or the entries do not (R7). -/
def agreeable (e f : Option Schedule) : Bool :=
  match e, f with
  | some y, some z => !(y.conflicts z)
  | _, _ => true

/-- A tariff set that may be in force: its parameters entry is present, at least one tariff is, every present entry lies in its ranges
(R1 to R3), the tariffs it refers to are present, and no two schedule entries conflict (R7). -/
def TariffSet.valid (x : TariffSet) : Bool :=
  (match x.params with | some p => p.inRange && (x.tariffs[p.defaultTariff]?).join.isSome | none => false)
    && x.tariffs.all (fun e => match e with | some t => t.inRange | none => true)
    && x.schedule.all (fun e => match e with | some y => y.inRange && (x.tariffs[y.tariff]?).join.isSome | none => true)
    && x.extras.all (fun e => match e with | some y => y.inRange | none => true)
    && decide (x.schedule.toList.Pairwise fun e f => agreeable e f = true)

/-- The set in force is the empty one of power-on reset, or a valid one with its id held (R4, R8, R10). -/
def State.tariffSound (s : State) : Bool :=
  (s.tariff.inForce == .empty || (s.tariff.inForce.valid && s.tariff.inForce.params.map Params.setId == some s.tariff.setId))
    && decide (s.tariff.changes ≤ Config.counterMax)

/-! ### The trips of a shift -/

/-- The shift's trips balance: a slot is other than IDLE only while the shift is OPEN (R22), and until the count saturates, trips started
equal trips closed, trips voided and slots riding together (R98). -/
def State.tripsBalance (s : State) : Bool :=
  (s.everyIdle || s.shift.state == .opened)
    && (decide (Config.totalMax ≤ s.shift.totals.started)
      || s.shift.totals.started == s.shift.totals.closed + s.shift.totals.voided + s.ridingCount)

/-- The seats hold: every slot is IDLE, or the slots that are not are at most the share seat limit of the set in force, which is 2 to 4 (R1, R19,
R22). SHARE off may leave them above the seat limit, which is 1 then, but not above this. -/
def State.seatsHold (s : State) : Bool :=
  s.everyIdle || (match s.tariff.inForce.params with | some p => decide (s.ridingCount ≤ p.seatLimit) | none => false)

/-! ### The books of a shift -/

/-- Cash plus card online plus card offline equals fares plus extras plus tips, unless the saturation flag is set (R102). -/
def Totals.balanced (t : Totals) : Bool :=
  t.saturated || t.cash + t.cardOnline + t.cardOffline == t.fares + t.extras + t.tips

/-- The books balance in the live totals, in a held snapshot and in every report held (R102). -/
def State.booksBalance (s : State) : Bool :=
  s.shift.totals.balanced && (match s.shift.snapshot with | some x => x.pages.totals.balanced | none => true)
    && s.shift.reports.all fun p => p.totals.balanced

/-! ### The sign -/

/-- The sign unit's inputs are those of the blocks that deliver them, its mode is the one they give (R111, R112), the latch it delivers is
the one the intercom and power units hold (R113), the all-IDLE flag tells whether every slot is IDLE (R184), and the share flag is clear while
the shift is CLOSED (R19, R97). -/
def State.signTrue (s : State) : Bool :=
  s.sign.riding == s.ridingCount && s.sign.share == s.fare.share && s.sign.seatLimit == s.seatLimit
    && s.sign.shift == s.shift.state && s.sign.mode == s.sign.derived && s.intercom.emergency == s.sign.latch
    && s.power.latch == s.sign.latch && s.power.allIdle == s.everyIdle && (s.shift.state != .closed || !s.fare.share)

/-! ### Power -/

/-- Power is sound: the park delay timer runs exactly in RUN while the three park conditions hold (R184); a shut of S is pending in PARKED
alone; no port is shut outside PARKED, D and V never are, C, P and K are throughout PARKED, and so is S but while its shut is pending
(R166, R185, R187). -/
def State.powerSound (s : State) : Bool :=
  (s.power.parkTimer.isSome == (s.running && s.power.mayPark)) && (!s.power.shutPending || s.parked)
    && !(s.port .d).shut && !(s.port .v).shut && (s.port .c).shut == s.parked && (s.port .p).shut == s.parked
    && (s.port .k).shut == s.parked && (s.port .s).shut == (s.parked && !s.power.shutPending)

/-! ### Cadence and intercom -/

/-- A cadence timer is sound: its periods are from 2 to 16,383, its count is 0 while STOPPED and from 1 to the current period otherwise
(R127). -/
def CadenceTimer.sound (t : CadenceTimer) : Bool :=
  decide (2 ≤ t.programmed) && decide (t.programmed ≤ 16383) && decide (2 ≤ t.current) && decide (t.current ≤ 16383)
    && (if t.state = .stopped then t.count == 0 else decide (1 ≤ t.count) && decide (t.count ≤ t.current))

/-- The cadence unit is sound: both timers are, every comparator's value is at most 16,383, and PAIR is a mode of LC4 to LC7 alone
(R127, R134). -/
def CadenceUnit.sound (x : CadenceUnit) : Bool :=
  x.ct0.sound && x.ct1.sound && (x.comparators.all fun y => decide (y.value ≤ 16383))
    && (List.finRange 4).all fun i => (x.comparators[i.castLE (by decide : 4 ≤ 8)]).mode != .pair

/-- The intercom's sets and its call timer agree with its state: calls wait in CALLING and may in ANNOUNCE, stations are open exactly in
OPEN, and the call timer runs exactly in CALLING (R144). -/
def IntercomUnit.sound (x : IntercomUnit) : Bool :=
  (match x.state with
    | .quiet => x.calling.isEmpty && x.opened.isEmpty
    | .calling => !x.calling.isEmpty && x.opened.isEmpty
    | .opened => x.calling.isEmpty && !x.opened.isEmpty
    | .announce => x.opened.isEmpty)
    && x.callTimer.isSome == (x.state == .calling)

/-- The intercom is sound: its state is (R144), a player is ACTIVE only while its port is UP (R151, R158), and D's voice lane holds
frames only while the emergency state is set (R160). -/
def State.intercomSound (s : State) : Bool :=
  s.intercom.sound && (s.intercom.driverPlayer.isNone || s.isUp .c) && (s.intercom.partitionPlayer.isNone || s.isUp .p)
    && (s.intercom.emergency || (s.port .d).voice.isEmpty)

end Sys2Proof.Machine
end

