-- ==== Sys2Proof/Certificates/Slice0/Obligations.lean ====
section
/-! DEFINITION. The statements about the hub that the provers are asked to prove: the machine and its invariants, the link switch, the request
unit, the tariff store, trips, milestones, payments, the shift, the sign, the cadence unit, the intercom, and parking. -/

open Sys2Proof Sys2Proof.Machine

/-! ### The machine -/

/-- A step carries out the command at the front of the queue on the state with the queue's rest; with no command waiting the part idles,
which is the model's choice (notes/assumptions/7.md). -/
def Obligations.StepTakesFrontCommand : Prop :=
  ∀ s : State,
    (∀ c rest, s.pending = c :: rest → step s = exec c { s with pending := rest })
      ∧ (s.pending = [] → step s = .next s)

/-- Every command answers a next state, in every state, and leaves the queue of waiting commands alone. -/
def Obligations.EveryCommandAnswers : Prop :=
  ∀ (c : Instr) (s : State), ∃ t, exec c s = .next t ∧ t.pending = s.pending

/-- The part in OFF takes no event; supply brings it to its reset values in RUN; the loss of both supplies takes it to OFF from any state
(R184, R188). What a part in OFF is said to hold is the model's choice (notes/assumptions/6.md). -/
def Obligations.SupplyEvents : Prop :=
  ∀ s : State,
    (s.power.state = .off → ∀ c, c ≠ .powerOnReset → c ≠ .backupSupplyLost → exec c s = .next s)
      ∧ (s.power.state = .off → exec .powerOnReset s = .next { State.reset with pending := s.pending })
      ∧ (s.power.state ≠ .off → exec .powerOnReset s = .next s)
      ∧ ∃ t, exec .backupSupplyLost s = .next t ∧ t.power.state = .off ∧ t.pending = s.pending
        ∧ exec .powerOnReset t = .next { State.reset with pending := s.pending }

/-- What power-on reset leaves, as R188 lists it: no tariff set, the clock invalid, every queue and list empty, every counter 0, the shift
CLOSED with number 0, every port DOWN with its shut mark clear, the power state RUN, the sign OFF_DUTY (R4, R13, R91, R112, R166, R184).
And the invariants below hold there. -/
def Obligations.ResetValues : Prop :=
  let s := State.reset
  (s.tariff.inForce = .empty ∧ s.tariff.band = none ∧ s.tariff.clock = ⟨0, 0, false⟩ ∧ s.tariff.changes = 0
    ∧ s.tariff.staging = none ∧ s.everyIdle = true ∧ s.fare.countKnown = false ∧ s.payment.queue = [] ∧ s.payment.store = []
    ∧ s.payment.refusalList = [] ∧ s.payment.refCounter = 0 ∧ s.payment.unmatched = 0 ∧ s.shift.reports = []
    ∧ s.shift.state = .closed ∧ s.shift.number = 0 ∧ s.shift.totals = .zero ∧ s.sign.mode = .offDuty ∧ s.sign.latch = false
    ∧ s.intercom.state = .quiet ∧ s.power.state = .run ∧ s.power.ignition = true
    ∧ ∀ q, (s.port q).up = false ∧ (s.port q).shut = false ∧ (s.port q).checkErrors = 0 ∧ (s.port q).discards = 0)
  ∧ (s.linkSound = true ∧ s.tariffSound = true ∧ s.accountsSound = true ∧ s.payment.queueSound = true
    ∧ s.payment.storeSound = true ∧ s.tripsBalance = true ∧ s.seatsHold = true ∧ s.booksBalance = true ∧ s.signTrue = true ∧ s.powerSound = true
    ∧ s.cadence.sound = true ∧ s.intercomSound = true)

/-! ### Invariants -/

/-- Every step keeps every port sound: lanes within 4 and 16 frames, counters within 65,535, lanes of a DOWN port empty, nothing waiting
behind an idle transmitter, a shut port DOWN and silent (R163, R166 to R170, R174). -/
def Obligations.LinkSoundKept : Prop :=
  ∀ s t : State, s.linkSound = true → step s = .next t → t.linkSound = true

/-- Every step keeps the set in force empty or a set that R7 lets be committed, with its id held and the change counter within 65,535
(R4, R7, R8, R10). -/
def Obligations.TariffSoundKept : Prop :=
  ∀ s t : State, s.tariffSound = true → step s = .next t → t.tariffSound = true

/-- Every step keeps the parties' money: what a party paid never exceeds its fare plus extras, HOLD owes at least a cent, SETTLED owes
nothing, fares and extras stay within their caps, IDLE slots hold nothing, and each payment record is of a PAYING party, no two of one slot
(R18, R20, R42, R62). -/
def Obligations.AccountsSoundKept : Prop :=
  ∀ s t : State, s.tariffSound = true → s.accountsSound = true → step s = .next t → t.accountsSound = true

/-- Every step keeps the payment queue and the store-and-forward queue: only the head is with the terminal or the acquirer, with its timer
running; the references in use are distinct, at most 32, from 1 to 65,535; the upload timer runs exactly in AWAITING (R62, R63, R69, R78, R80). -/
def Obligations.PaymentSoundKept : Prop :=
  ∀ s t : State,
    s.accountsSound = true → s.payment.queueSound = true → s.payment.storeSound = true → step s = .next t →
      t.payment.queueSound = true ∧ t.payment.storeSound = true

/-- Every step keeps the count of trips: a slot is other than IDLE only while the shift is OPEN, and trips started equals trips closed plus
trips voided plus the slots not IDLE until the count saturates (R22, R98). -/
def Obligations.TripsBalanceKept : Prop :=
  ∀ s t : State, s.accountsSound = true → s.tripsBalance = true → step s = .next t → t.tripsBalance = true

/-- Every step keeps the books: in the live totals, in a held snapshot and in every report held, cash plus card online plus card offline
equals fares plus extras plus tips, unless that record's saturation flag is set (R102). -/
def Obligations.BooksBalanceKept : Prop :=
  ∀ s t : State, s.accountsSound = true → s.booksBalance = true → step s = .next t → t.booksBalance = true

/-- Every step keeps the sign true: its mode is the one R111 derives from the slots, the share flag, the seat limit, the shift, the override and
the latch as the blocks hold them. Every step keeps the slots that ride within the share seat limit of the set in force. Where both hold, the mode is FOR_HIRE
only when the shift is OPEN, every slot is IDLE, the latch and the override are clear (R19, R22, R111, R112, R113). -/
def Obligations.SignTrueKept : Prop :=
  (∀ s t : State, s.signTrue = true → step s = .next t → t.signTrue = true)
    ∧ (∀ s t : State, s.accountsSound = true → s.tariffSound = true → s.tripsBalance = true → s.seatsHold = true →
        step s = .next t → t.seatsHold = true)
    ∧ ∀ s : State, s.signTrue = true → s.seatsHold = true → s.sign.mode = .forHire →
      s.shift.state = .opened ∧ s.everyIdle = true ∧ s.sign.latch = false ∧ s.sign.offDuty = false

/-- Every step keeps the power unit and the shut marks: the park delay timer runs exactly in RUN while the ignition is off, every slot is IDLE and the
latch is clear; C, P and K are shut throughout PARKED and at no other time, S so too but while its shut is pending, D and V never (R166, R184, R185,
R187). -/
def Obligations.PowerSoundKept : Prop :=
  ∀ s t : State, s.powerSound = true → step s = .next t → t.powerSound = true

/-- Every step keeps the cadence unit: periods from 2 to 16,383, a stopped timer at 0, a counting one from 1 to its current period, comparator values at
most 16,383, no PAIR among LC0 to LC3 (R127, R134). And it keeps the intercom: its calling and open sets and its call timer are those its state
allows, a chime plays only on a port that is UP, and D's voice lane holds frames only while the emergency state is set (R144, R151, R158, R160). -/
def Obligations.CadenceAndIntercomSoundKept : Prop :=
  (∀ s t : State, s.cadence.sound = true → step s = .next t → t.cadence.sound = true)
    ∧ ∀ s t : State, s.linkSound = true → s.intercomSound = true → step s = .next t → t.intercomSound = true

/-- While the shift is OPEN or on BREAK no command but a loss of supply changes the tariff set in force, its id, the change counter or the
payment policy (R8, R85). -/
def Obligations.SetAndPolicyStandWhileOpen : Prop :=
  ∀ (c : Instr) (s t : State),
    s.shift.state ≠ .closed → c ≠ .powerOnReset → c ≠ .backupSupplyLost → exec c s = .next t →
      t.tariff.inForce = s.tariff.inForce ∧ t.tariff.setId = s.tariff.setId ∧ t.tariff.changes = s.tariff.changes
        ∧ t.payment.policy = s.payment.policy

/-! ### The link switch -/

/-- Bytes that fail the check are dropped: the port's check-error counter grows by 1, stopping at 65,535, its bring-up count becomes 0, and
nothing else changes; on a shut port nothing changes at all (R163, R166). At the event's end a pending shut of S is made if S has drained
(R185, notes/assumptions/9.md). An IDLE frame on an UP port restarts the silence timer and does nothing else (R163, R164). -/
def Obligations.CheckErrorsAndIdleFrames : Prop :=
  (∀ (q : Port) (bytes : List Byte) (low : Bool) (o : Order) (s : State),
    s.power.state ≠ .off → checkPasses bytes low = false →
      ((s.port q).shut = false →
        exec (.checkError q bytes low o) s =
          .next (settleSign (s.setPort q
            { s.port q with checkErrors := min 65535 ((s.port q).checkErrors + 1), bringUp := false })))
      ∧ ((s.port q).shut = true → exec (.checkError q bytes low o) s = .next (settleSign s)))
  ∧ ∀ (a : Arrival) (s : State),
    s.hears a.port → exec (.idle a) s = .next (s.setPort a.port { s.port a.port with silence := some 500 })

/-- The bytes of every frame pass the check and are read back as that frame, so that the CHECK_ERROR row carrying them is their receipt as a good frame,
which is the model's reading of that row (notes/assumptions/1.md, DEDUCED). And one wrong byte anywhere in the bytes of a good frame makes them fail the
check, whatever the byte, so the frame is dropped and counted (R163, R189). -/
def Obligations.FrameCheckCatchesOneWrongByte : Prop :=
  (∀ (f : Frame) (q : Port) (o : Order) (s : State),
    checkPasses (frameBytes f) false = true ∧ frameOfBytes (frameBytes f) = some f
      ∧ exec (.checkError q (frameBytes f) false o) s = exec (.goodFrameOnDownPort q f o) s)
  ∧ ∀ (before after : List Byte) (b b' : Byte),
    b ≠ b' → checkPasses (before ++ b :: after) false = true →
      checkPasses (before ++ b' :: after) false = false
        ∧ ∀ (q : Port) (o : Order) (s : State), s.power.state = .run → (s.port q).shut = false →
          exec (.checkError q (before ++ b' :: after) false o) s =
            .next (s.setPort q { s.port q with checkErrors := min 65535 ((s.port q).checkErrors + 1), bringUp := false })

/-- Two good frames bring a DOWN port up: the first sets the bring-up count and restarts the silence timer and is dropped, the second makes
the port UP; no other port's link state changes (R163, R166). Where that frame is an IDLE frame, a LINK notice toward C and toward D tells it (R167); C's first
frames are its own LINK notice and a FARE_VIEW, and P's is a FARE_VIEW (R47, R48, R167). D's first frame is its own LINK notice; then, in the order the event leaves open, the EMERGENCY notice while the latch
is set and the UPLOAD of the store's head entry, if one is held and the upload is IDLE, with 20 s on the upload timer (R80, R82, R115, R167). -/
def Obligations.TwoGoodFramesBringUp : Prop :=
  ∀ (q : Port) (f : Frame) (o : Order) (s : State),
    s.power.state = .run → (s.port q).shut = false → (s.port q).up = false →
      ((s.port q).bringUp = false →
        exec (.goodFrameOnDownPort q f o) s = .next (s.setPort q { s.port q with silence := some 500, bringUp := true }))
      ∧ ((s.port q).bringUp = true →
        ∃ t, exec (.goodFrameOnDownPort q f o) s = .next t
          ∧ (t.port q).up = true ∧ (t.port q).bringUp = false ∧ (t.port q).silence = some 500
          ∧ (∀ r, r ≠ q → (t.port r).up = (s.port r).up ∧ (t.port r).shut = (s.port r).shut)
          ∧ (f.kind = 0 → f.len = 0 → f.payload = [] →
            let fresh (x : PortState) : PortState := { x with silence := some 500, up := true, bringUp := false }
            (q ≠ .c → t.port .c = (s.port .c).placed (noticeFrame s.request.seqC .link [byte q.number, 1]))
            ∧ (q ≠ .d → t.port .d = (s.port .d).placed (noticeFrame s.request.seqD .link [byte q.number, 1]))
            ∧ (q = .c → t.port .c =
              ((fresh (s.port .c)).placed (noticeFrame s.request.seqC .link [1, 1])).placed (plainFrame .fareView (4 :: consoleRecords s)))
            ∧ (q = .p → t.port .p = (fresh (s.port .p)).placed (plainFrame .fareView (2 :: passengerRecords s)))
            ∧ (q = .d →
              let linked := (fresh (s.port .d)).placed (noticeFrame s.request.seqD .link [0, 1])
              let alarm (x : PortState) : PortState :=
                if s.sign.latch then x.placed (noticeFrame (nextSeq s.request.seqD) .emergency [0]) else x
              t.payment = s.payment.uploading true
                ∧ t.port .d = (if o.emergencyFirst then (alarm linked).uploaded s.payment s.tariff.cabNumber
                    else alarm (linked.uploaded s.payment s.tariff.cabNumber)))))

/-- A good frame that fails a test of R164 on an UP port restarts the silence timer, is counted once on that port, and, where the port's PASS
entry has report yes, raises one DISCARD notice toward C with the port, the reason, no port named and the kind (R164, R174). Among the frames
so discarded as KIND_NOT_ALLOWED are, on every port, SIGN, REPLY, NOTE, FARE_VIEW and codes that name no kind; REQ but on D and C, AUDIO but on
C and P, PAY but on D and K, MOTION but on V, SIGN_STAT but on S; a wrong length field is LENGTH before that. -/
def Obligations.DiscardedAtIngress : Prop :=
  (∀ (q : Port) (f : Frame) (o : Order) (s : State) (reason : DiscardReason),
    s.hears q → ingressFailure q f = some reason →
      let t := s.setPort q
        { s.port q with silence := some 500, discards := min 65535 ((s.port q).discards + 1) }
      ((s.link.passRoutes.get q).report = false → exec (.frameDiscardedAtIngress q f o) s = .next t)
      ∧ ((s.link.passRoutes.get q).report = true →
        exec (.frameDiscardedAtIngress q f o) s =
          .next (notifyC .discard [byte q.number, enc DiscardReason.all reason, 255, f.kind] t)))
  ∧ ∀ (q : Port) (f : Frame),
    (200 < f.len.toNat ∨ f.len.toNat ≠ f.payload.length → ingressFailure q f = some .length)
    ∧ (f.len.toNat ≤ 200 → f.len.toNat = f.payload.length →
      (kindOf f ∈ [none, some .sign, some .reply, some .note, some .fareView] ∨ (kindOf f = some .req ∧ q ≠ .c ∧ q ≠ .d)
        ∨ (kindOf f = some .audio ∧ q ≠ .c ∧ q ≠ .p) ∨ (kindOf f = some .pay ∧ q ≠ .d ∧ q ≠ .k)
        ∨ (kindOf f = some .motion ∧ q ≠ .v) ∨ (kindOf f = some .signStat ∧ q ≠ .s)) →
      ingressFailure q f = some .kindNotAllowed)

/-- A PASS frame is copied as received into the general lane of each of its destinations, which are never the port it came from, and reaches no
block; with no destination, or a refused direct word, it is discarded and counted on its port. While the entry has report yes, C may also receive the
DISCARD notices of copies toward other ports (R165, R173, R174). -/
def Obligations.PassCopied : Prop :=
  ∀ (a : Arrival) (payload : List Byte) (s : State),
    s.hears a.port → payload.length ≤ 200 →
      let e := s.link.passRoutes.get a.port
      (∀ t, passDestinations e a.port a.route = .ok t →
        t.has a.port = false ∧ ∃ u, exec (.pass a payload) s = .next u ∧ (s.heard a).changesOnly u [.request]
          ∧ ∀ q, (q = .c → e.report = false) →
            u.port q = if t.has q then ((s.heard a).port q).placed (frameOf .pass a.route a.tag payload) else (s.heard a).port q)
      ∧ ∀ reason, passDestinations e a.port a.route = .error reason → e.report = false →
        exec (.pass a payload) s =
          .next (s.setPort a.port
            { s.port a.port with silence := some 500, discards := min 65535 ((s.port a.port).discards + 1) })

/-- The destinations of a PASS frame: with the direct flag clear the entry's target set; with it set, nothing under NONE, the frame's set within
the entry's under MASK_ONLY and ANY with replace clear, the frame's own under ANY with replace set, nothing under MASK_ONLY with replace set;
always less the ingress port and H, and EMPTY_ROUTE when nothing is left (R173). -/
def Obligations.PassDestinationsByPolicy : Prop :=
  ∀ (e : Route) (q : Port) (r : RouteWord),
    let within (t : PortSet) (result : Except DiscardReason PortSet) : Prop :=
      (result = .error .emptyRoute ∧ ∀ r' : Port, t.has r' = true → r' = q)
        ∨ ∃ d : PortSet, result = .ok d ∧ (∃ r' : Port, d.has r' = true) ∧ d.getLsbD 6 = false
          ∧ ∀ r' : Port, d.has r' = (t.has r' && r' != q)
    (directFlag r = false → within e.targets (passDestinations e q r))
      ∧ (directFlag r = true → e.policy = .none → passDestinations e q r = .error .directRefused)
      ∧ (directFlag r = true → e.policy = .maskOnly → replaceFlag r = true → passDestinations e q r = .error .directRefused)
      ∧ (directFlag r = true → e.policy ≠ .none → replaceFlag r = false →
        within (routeTargets r &&& e.targets) (passDestinations e q r))
      ∧ (directFlag r = true → e.policy = .any → replaceFlag r = true → within (routeTargets r) (passDestinations e q r))

/-- The console never sees the alarm switch: two MOTION frames that differ in the alarm bit alone leave the same lanes, transmitter and counters at
C and the same notice number, whatever the latch then does, while V's TELEMETRY entry has report no (R115, R173). With report yes a copy
toward D may be discarded for an EMERGENCY notice before it, and the discard reported to C. -/
def Obligations.ConsoleNeverSeesTheAlarm : Prop :=
  ∀ (a : Arrival) (s : State) (hi lo flags : Byte),
    a.port = .v → s.hears .v → s.link.telemetryRoutes.v.report = false →
      ∃ u v, exec (.motion a [hi, lo, flags]) s = .next u ∧ exec (.motion a [hi, lo, flags ^^^ 2]) s = .next v
        ∧ u.port .c = v.port .c ∧ u.request.seqC = v.request.seqC

/-- The silence timer's expiry on a DOWN port makes the bring-up count 0. On an UP port it takes the port DOWN: both lanes are emptied, the frame
in progress is abandoned, and the blocks are told: the intercom goes QUIET and both players stop at P, both players stop at C, the upload idles at D, every
record not AUTHORIZING is cancelled at K. No other port's link state changes (R87, R88, R151, R166, R167). A LINK notice tells C and D; at P the calls that
waited are told missed behind it, and at K a record that stood alone is told CANCELLED with LINK, delivered (R89, R151, R167, notes/assumptions/13.md). -/
def Obligations.SilenceTakesDown : Prop :=
  ∀ (q : Port) (s : State),
    s.power.state = .run → (s.port q).silence.isSome = true →
      (s.isUp q = false →
        exec (.silenceTimerExpiry q) s = .next (s.setPort q { s.port q with silence := none, bringUp := false }))
      ∧ (s.isUp q = true →
        ∃ t, exec (.silenceTimerExpiry q) s = .next t
          ∧ t.isUp q = false ∧ (t.port q).silence = none ∧ (t.port q).voice = [] ∧ (t.port q).general = []
          ∧ (t.port q).sending = none ∧ (∀ r, r ≠ q → t.isUp r = s.isUp r)
          ∧ (q = .p → t.intercom.state = .quiet ∧ t.intercom.calling = .none ∧ t.intercom.opened = .none
              ∧ t.intercom.driverPlayer = none ∧ t.intercom.partitionPlayer = none)
          ∧ (q = .c → t.intercom.driverPlayer = none ∧ t.intercom.partitionPlayer = none ∧ t.intercom.seenTalk = false)
          ∧ (q = .d → t.payment.upload = .idle ∧ t.payment.uploadTimer = none ∧ t.payment.queue = s.payment.queue
              ∧ t.payment.store = s.payment.store)
          ∧ (q = .k → s.payment.queueSound = true → (s.payment.queue.map Record.slot).Nodup →
              t.payment.queue = s.payment.queue.filter fun r => r.state == .authorizing)
          ∧ (let linked := (s.port .c).placed (noticeFrame s.request.seqC .link [byte q.number, 0])
            (q = .d ∨ q = .s ∨ q = .v ∨ (q = .k ∧ s.payment.queue = []) → t.port .c = linked)
            ∧ (q = .p → t.port .c = linked.missedTold (nextSeq s.request.seqC) s.intercom.calling)
            ∧ (q = .k → ∀ r, s.payment.queue = [r] → r.state ≠ .authorizing →
                (notifyC .link [3, 0] s).payTold t r.slot (s.party r.slot).trip 5 4 0)
            ∧ (q ≠ .d → t.port .d = (s.port .d).placed (noticeFrame s.request.seqD .link [byte q.number, 0])
                ∧ t.request.seqD = nextSeq s.request.seqD)))

/-- At the end of a frame the transmitter takes the head of the voice lane if there is one, else the head of the general lane, else it is idle; the quiet
timer starts at 100 ms. At the quiet timer's expiry an idle transmitter with empty lanes sends an IDLE frame of tag 0 (R168, R170); at any other the timer
stops, which is the model's reading (notes/assumptions/18.md). -/
def Obligations.TransmitterTakesVoiceFirst : Prop :=
  ∀ (q : Port) (s : State),
    s.power.state = .run →
      let x := s.port q
      (x.sending.isSome = true →
        (∀ f rest, x.voice = f :: rest →
          exec (.transmitComplete q) s = .next (s.setPort q { x with sending := some f, voice := rest, quiet := some 100 }))
        ∧ (∀ f rest, x.voice = [] → x.general = f :: rest →
          exec (.transmitComplete q) s = .next (s.setPort q { x with sending := some f, general := rest, quiet := some 100 }))
        ∧ (x.voice = [] → x.general = [] →
          exec (.transmitComplete q) s = .next (s.setPort q { x with sending := none, quiet := some 100 })))
      ∧ (x.quiet.isSome = true →
        (x.sending = none → x.voice = [] → x.general = [] →
          exec (.quietTimerExpiry q) s = .next (s.setPort q { x with sending := some ⟨0, 0, 0, 0, []⟩, quiet := some 100 }))
        ∧ (x.sending.isSome = true ∨ x.voice ≠ [] ∨ x.general ≠ [] →
          exec (.quietTimerExpiry q) s = .next (s.setPort q { x with quiet := none })))

/-- ROUTE_SET writes one entry whole, its reserved bit as 0, and answers it; ROUTE_READ answers an entry as held and changes nothing; a port above 5
is REFUSED with RANGE (R172, R191). PORT_STATUS answers the six ports as they stand and then, with clear set, makes the twelve counters 0; toward
C it tells nothing of D's voice lane (R161, R175). The layout of PORT_STATUS's reply is the model's reading (notes/assumptions/16.md). -/
def Obligations.LinkRequests : Prop :=
  (∀ (a : Arrival) (s : State) (n c t p r : Byte) (q : Port) (cls : RouteClass) (policy : DirectPolicy) (report : Bool),
    dec RouteClass.all c = some cls → dec DirectPolicy.all p = some policy → flagOf r = some report →
      (s.takes a .routeSet → portOf n = some q →
        exec (.routeSet a [n, c, t, p, r]) s =
          .next (State.answered { s with link := s.link.setRoute cls q ⟨t.extractLsb' 0 7, policy, report⟩ } a
            (doneReply a .routeSet [t &&& 0x7F, p, r])))
      ∧ (s.takes a .routeRead → portOf n = some q →
        exec (.routeRead a [n, c]) s =
          .next (s.answered a (doneReply a .routeRead
            [(s.link.route cls q).targets.setWidth 8, enc DirectPolicy.all (s.link.route cls q).policy, flag (s.link.route cls q).report])))
      ∧ (5 < n.toNat →
        (s.takes a .routeSet → exec (.routeSet a [n, c, t, p, r]) s = .next (s.answered a (refusedReply a .routeSet .range)))
        ∧ (s.takes a .routeRead → exec (.routeRead a [n, c]) s = .next (s.answered a (refusedReply a .routeRead .range)))))
  ∧ (∀ (a : Arrival) (s : State),
    s.takes a .portStatus →
      let fields := Port.all.flatMap fun q => portBytes a.port q (s.port q)
      exec (.portStatus a [0]) s = .next (s.answered a (doneReply a .portStatus fields))
      ∧ ∃ t, exec (.portStatus a [1]) s = .next (emit a.port (doneReply a .portStatus fields) t)
        ∧ (∀ q, t.port q = { (s.heard a).port q with checkErrors := 0, discards := 0 })
        ∧ t.link.passRoutes = s.link.passRoutes ∧ t.link.telemetryRoutes = s.link.telemetryRoutes ∧ (s.heard a).changesOnly t [.link])
  ∧ ∀ (x : PortState) (lane : List Frame), portBytes .c .d { x with voice := lane } = portBytes .c .d x

/-! ### The request unit -/

/-- A request from a port without its authority is answered NOT_PERMITTED, one whose arguments do not have their layout or lie outside their
representable sets MALFORMED; a REQ without a code is answered MALFORMED with code 0, one whose code is 0 or above 59 UNKNOWN with its code. Each
answer echoes the tag, and none of them changes anything (R176, R177, R178, R190). -/
def Obligations.RequestsTurnedAway : Prop :=
  ∀ (a : Arrival) (args : List Byte) (s : State),
    s.hears a.port → a.port = .c ∨ a.port = .d → args.length < 200 →
      (∀ r : RequestName,
        (r.authority.permits a.port = false → exec (r.command a args) s = .next (s.answered a (notPermittedReply a r)))
        ∧ (r.authority.permits a.port = true → r.read a.port args = none →
          exec (r.command a args) s = .next (s.answered a (malformedReply a r))))
      ∧ exec (.unknownRequest a []) s = .next (s.answered a ⟨7, 0, a.tag, 6, [0, 3, 0, 0, 255, 255]⟩)
      ∧ ∀ code : Byte, code = 0 ∨ 59 < code.toNat →
        exec (.unknownRequest a (code :: args)) s = .next (s.answered a ⟨7, 0, a.tag, 6, [code, 4, 0, 0, 255, 255]⟩)

/-- A refused request changes nothing but for LOAD_COMMIT: its one effect is the REFUSED reply, with the request's tag and code, the reason and
the item (R178, R179). Of the ten requests that name a slot, one outside 0 to 3 is refused with RANGE, and one in a state that does not take the request
with PARTY_STATE, whatever the other arguments (R21, R64, R65); that the slot's byte comes first is the model's choice (notes/assumptions/16.md). -/
def Obligations.RefusedRequestsChangeNothing : Prop :=
  (∀ (r : RequestName) (a : Arrival) (args : List Byte) (s : State) (act : Action) (reason : Reason) (item : Byte × Byte),
    s.takes a r → args.length < 200 → r ≠ .loadCommit → r.read a.port args = some act →
      (act (s.heard a)).2 = .refused reason item →
        exec (r.command a args) s =
          .next (s.answered a (frameOf .reply 0 a.tag [r.code, 1, 0, reasonCode reason, item.1, item.2])))
  ∧ ∀ (r : RequestName) (a : Arrival) (s : State) (n : Byte) (args : List Byte) (states : List PartyState),
    (r, states) ∈ [(RequestName.total, [PartyState.metering]), (.resume, [.hold]), (.void, [.metering]), (.payCash, [.hold]),
        (.closeTrip, [.settled]), (.addExtra, [.metering, .hold]), (.setTariff, [.metering, .hold]),
        (.setStation, [.metering, .hold, .paying, .settled]), (.offerCard, [.hold]), (.cancelCard, [.paying])] →
      s.takes a r → (r.read a.port (n :: args)).isSome = true →
        (4 ≤ n.toNat → exec (r.command a (n :: args)) s = .next (s.answered a (refusedReply a r .range)))
        ∧ ∀ i : Fin 4, n.toNat = i.val → (s.party i).state ∉ states →
          exec (r.command a (n :: args)) s = .next (s.answered a (refusedReply a r .partyState))

/-! ### The tariff store -/

/-- LOAD_BEGIN opens staging with every entry absent. With staging OPEN, LOAD_PART writes exactly the entry it names, present with the fields carried
or absent; an index outside the table is REFUSED with RANGE; with staging ABSENT every LOAD_PART is REFUSED with NOT_FOUND (R5, R6, R195). -/
def Obligations.StagedLoad : Prop :=
  ∀ (a : Arrival) (s : State),
    (s.takes a .loadBegin →
      exec (.loadBegin a []) s = .next ((s.withStaging (some .empty)).answered a (doneReply a .loadBegin [])))
    ∧ (s.takes a .loadPart →
      (∀ x, s.tariff.staging = some x →
        let stored (y : TariffSet) := (s.withStaging (some y)).answered a (doneReply a .loadPart [])
        (∀ body e, readParams body = some e →
          exec (.loadPart a (0 :: 0 :: 1 :: body)) s = .next (stored { x with params := some e }))
        ∧ (∀ (i : Fin 8) body e, readTariff body = some e →
          exec (.loadPart a (1 :: byte i.val :: 1 :: body)) s = .next (stored { x with tariffs := x.tariffs.set i (some e) }))
        ∧ (∀ (i : Fin 16) body e, readSchedule body = some e →
          exec (.loadPart a (2 :: byte i.val :: 1 :: body)) s = .next (stored { x with schedule := x.schedule.set i (some e) }))
        ∧ (∀ (i : Fin 8) body e, readExtra body = some e →
          exec (.loadPart a (3 :: byte i.val :: 1 :: body)) s = .next (stored { x with extras := x.extras.set i (some e) }))
        ∧ (∀ body, body.length = 8 →
          exec (.loadPart a (0 :: 0 :: 0 :: body)) s = .next (stored { x with params := none }))
        ∧ (∀ (i : Fin 8) body, body.length = 15 →
          exec (.loadPart a (1 :: byte i.val :: 0 :: body)) s = .next (stored { x with tariffs := x.tariffs.set i none }))
        ∧ (∀ (i : Fin 16) body, body.length = 4 →
          exec (.loadPart a (2 :: byte i.val :: 0 :: body)) s = .next (stored { x with schedule := x.schedule.set i none }))
        ∧ (∀ (i : Fin 8) body, body.length = 6 →
          exec (.loadPart a (3 :: byte i.val :: 0 :: body)) s = .next (stored { x with extras := x.extras.set i none }))
        ∧ ∀ (t n : Byte) args, readLoadPart (t :: n :: args) ≠ none →
          (t = 0 ∧ n ≠ 0) ∨ (t = 1 ∧ 8 ≤ n.toNat) ∨ (t = 2 ∧ 16 ≤ n.toNat) ∨ (t = 3 ∧ 8 ≤ n.toNat) →
            exec (.loadPart a (t :: n :: args)) s = .next (s.answered a (refusedReply a .loadPart .range)))
      ∧ (s.tariff.staging = none → ∀ args, readLoadPart args ≠ none →
          exec (.loadPart a args) s = .next (s.answered a (refusedReply a .loadPart .notFound))))

/-- An entry written by LOAD_PART reads back as written: TARIFF_READ of that entry of STAGING answers its present byte and the very bytes of its body,
from C and from D alike, for every body its layout can carry (a schedule entry's reserved bit apart, which is stored as 0) (R6, R11, R191, R195). -/
def Obligations.StagedEntryReadsBack : Prop :=
  ∀ (a b : Arrival) (s : State) (x : TariffSet) (t : TariffTable) (n : Byte) (body : List Byte),
    s.takes a .loadPart → s.hears b.port → b.port = .c ∨ b.port = .d → s.tariff.staging = some x → (x.read t n).isSome = true →
      readLoadPart (enc TariffTable.all t :: n :: 1 :: body) ≠ none → (t = .schedule → ∀ d rest, body = d :: rest → d.msb = false) →
        ∃ u, exec (.loadPart a (enc TariffTable.all t :: n :: 1 :: body)) s = .next u
          ∧ exec (.tariffRead b [1, enc TariffTable.all t, n]) u = .next (u.answered b (doneReply b .tariffRead (1 :: body)))

/-- A commit is refused for exactly the reasons of R7: with the shift CLOSED it is accepted if and only if the check carried is that of staging and the
staged set is complete, in range, refers to present tariffs alone and has no conflict. An accepted commit makes the staged tables the set in force, with
its id, one more change counted, staging discarded and the band evaluated, and touches nothing else. A refused one discards staging alone; with staging
ABSENT it is REFUSED with NOT_FOUND (R7, R8, R9, R10). -/
def Obligations.CommitInstallsValidSets : Prop :=
  (∀ (x : TariffSet) (check : BitVec 16), commitFault .closed x check = none ↔ crc16 x.serialize = check ∧ x.valid = true)
  ∧ (∀ (shift : ShiftState) (x : TariffSet) (check : BitVec 16),
      shift ≠ .closed → commitFault shift x check = some (.shiftState, (255, 255)))
  ∧ ∀ (a : Arrival) (s : State) (hi lo : Byte),
    s.takes a .loadCommit →
      (s.tariff.staging = none → exec (.loadCommit a [hi, lo]) s = .next (s.answered a (refusedReply a .loadCommit .notFound)))
      ∧ ∀ x, s.tariff.staging = some x →
        (∀ reason item, commitFault s.shift.state x (hi ++ lo) = some (reason, item) →
          exec (.loadCommit a [hi, lo]) s =
            .next ((s.withStaging none).answered a (replyFrame a.tag RequestName.loadCommit.code (.refused reason item))))
        ∧ (commitFault s.shift.state x (hi ++ lo) = none → s.everyIdle = true →
          ∃ p u, x.params = some p
            ∧ exec (.loadCommit a [hi, lo]) s =
              .next (emit a.port (doneReply a .loadCommit (be 2 p.setId ++ be 2 (min 65535 (s.tariff.changes + 1)))) u)
            ∧ u.tariff = { s.tariff with
                inForce := x, setId := p.setId, changes := min 65535 (s.tariff.changes + 1), staging := none,
                band := bandAt x s.tariff.clock }
            ∧ (s.heard a).changesOnly u [.request, .tariff])

/-- The serialization the check covers is 273 bytes long for every set, and two sets that may be in force with the same serialization are the same set:
no field of any entry is left out of the check (R7, R195). -/
def Obligations.SerializationDeterminesSet : Prop :=
  (∀ x : TariffSet, x.serialize.length = 273)
    ∧ ∀ x y : TariffSet, x.valid = true → y.valid = true → x.serialize = y.serialize → x = y

/-- TARIFF_READ answers an entry as held, or RANGE, or NOT_FOUND for staging that is ABSENT; TARIFF_STATUS answers the store and the clock as they stand;
both change nothing (R11, R12). SET_CLOCK writes a time of day below 864,000 deciseconds, makes the clock valid and evaluates the band, and refuses
others with RANGE (R14). A band it changes raises the BAND notice, rings the BAND chime and reaches the AUTO parties, a METERING one charged at once
(R16, R44 to R46). SET_CAB_ID writes the cab number while the shift is CLOSED and is REFUSED with SHIFT_STATE otherwise (R17). -/
def Obligations.StoreRequests : Prop :=
  ∀ (a : Arrival) (s : State),
    (s.takes a .tariffRead → ∀ (t : TariffTable) (n : Byte),
      (∀ bytes, s.tariff.inForce.read t n = some bytes →
        exec (.tariffRead a [0, enc TariffTable.all t, n]) s = .next (s.answered a (doneReply a .tariffRead bytes)))
      ∧ (∀ x bytes, s.tariff.staging = some x → x.read t n = some bytes →
        exec (.tariffRead a [1, enc TariffTable.all t, n]) s = .next (s.answered a (doneReply a .tariffRead bytes)))
      ∧ (s.tariff.staging = none → (s.tariff.inForce.read t n).isSome = true →
        exec (.tariffRead a [1, enc TariffTable.all t, n]) s = .next (s.answered a (refusedReply a .tariffRead .notFound)))
      ∧ (s.tariff.inForce.read t n = none → ∀ source : Byte, source = 0 ∨ source = 1 →
        exec (.tariffRead a [source, enc TariffTable.all t, n]) s = .next (s.answered a (refusedReply a .tariffRead .range))))
    ∧ (s.takes a .tariffStatus →
      let x := s.tariff
      exec (.tariffStatus a []) s =
        .next (s.answered a (doneReply a .tariffStatus
          (flag x.inForce.params.isSome :: be 2 x.setId ++ be 2 x.changes ++ [bandByte x.band] ++ be 2 x.clock.day ++ be 3 x.clock.ds
            ++ [flag x.clock.valid] ++ be 4 x.cabNumber.toNat ++ [flag x.staging.isSome]))))
    ∧ (s.takes a .setClock → ∀ d1 d0 t2 t1 t0 : Byte,
      (num [t2, t1, t0] < 864000 →
        ∃ u, exec (.setClock a [d1, d0, t2, t1, t0]) s = .next (emit a.port (doneReply a .setClock []) u)
          ∧ (let clock : Stamp := ⟨num [d1, d0], num [t2, t1, t0], true⟩
             let band := bandAt s.tariff.inForce clock
             u.tariff = { s.tariff with clock := clock, band := band } ∧ (s.heard a).tookBand u band)
          ∧ (s.heard a).changesOnly u [.request, .tariff, .fare, .milestone, .intercom])
      ∧ (864000 ≤ num [t2, t1, t0] →
        exec (.setClock a [d1, d0, t2, t1, t0]) s = .next (s.answered a (refusedReply a .setClock .range))))
    ∧ (s.takes a .setCabId → ∀ n3 n2 n1 n0 : Byte,
      (s.shift.state = .closed →
        exec (.setCabId a [n3, n2, n1, n0]) s =
          .next (State.answered { s with tariff := { s.tariff with cabNumber := n3 ++ n2 ++ n1 ++ n0 } } a (doneReply a .setCabId [])))
      ∧ (s.shift.state ≠ .closed →
        exec (.setCabId a [n3, n2, n1, n0]) s = .next (s.answered a (refusedReply a .setCabId .shiftState))))

/-- The band an evaluation gives: NONE without a set; the default tariff while the clock is invalid, or when no present entry of today's weekday has
started; else the tariff of the one that started last (R15). -/
def Obligations.BandIsLatestEntry : Prop :=
  ∀ (x : TariffSet) (t : Stamp),
    let applies (e : Schedule) : Prop := some e ∈ x.schedule.toList ∧ e.days.getLsbD (t.day % 7) = true ∧ e.start ≤ t.ds / 600
    (x.params = none → bandAt x t = none)
    ∧ ∀ p, x.params = some p →
      (t.valid = false → bandAt x t = some p.defaultTariff)
      ∧ (t.valid = true → (∀ e, ¬ applies e) → bandAt x t = some p.defaultTariff)
      ∧ (t.valid = true → ∀ e, applies e → (∀ f, applies f → f = e ∨ f.start < e.start) → bandAt x t = some e.tariff)

/-! ### Trips -/

/-- HIRE is refused by the first class of R22 that applies. Otherwise it opens a trip in the lowest IDLE slot: METERING, at the station named, numbered
one above trips started, its fare the flag fall of its tariff, nothing driven, ticked or paid, hired at the clock's stamp; trips started grows by 1; shared
marks go to it and to all that ride if any other slot does. With no milestone entry enabled its tariff and lock are those of the argument, AUTO by
the band then evaluated, and where that is the band held what is told is one TRIP notice and the displays (R21, R22, R23). The reply carries tariff, lock and
fare as they stand once the hire's FARE pass has ended, which is the model's choice (notes/assumptions/37.md). -/
def Obligations.HireOpensTrip : Prop :=
  ∀ (a : Arrival) (s : State) (t stationByte : Byte) (st : Station),
    s.takes a .hire → dec Station.all stationByte = some st →
      let absent := t ≠ 255 ∧ (s.tariffAt t.toNat).isNone = true
      let refused (reason : Reason) : Prop := exec (.hire a [t, stationByte]) s = .next (s.answered a (refusedReply a .hire reason))
      (s.setInForce = false → refused .noTariff)
      ∧ (s.setInForce = true → s.shift.state ≠ .opened → refused .shiftState)
      ∧ (s.setInForce = true → s.shift.state = .opened → t ≠ 255 → 7 < t.toNat → refused .range)
      ∧ (s.setInForce = true → s.shift.state = .opened → t.toNat ≤ 7 → absent → refused .notFound)
      ∧ (s.setInForce = true → s.shift.state = .opened → t = 255 ∨ t.toNat ≤ 7 → ¬ absent → s.seatLimit ≤ s.ridingCount →
        refused .seatLimit)
      ∧ (s.setInForce = true → s.shift.state = .opened → t = 255 ∨ t.toNat ≤ 7 → ¬ absent → s.ridingCount < s.seatLimit →
        ((st ≠ .none ∧ ∃ j, (s.party j).state ≠ .idle ∧ (s.party j).station = st) → refused .stationTaken)
        ∧ (st = .none ∨ (∀ j, (s.party j).state ≠ .idle → (s.party j).station ≠ st) →
          ∀ i, s.lowestIdle = some i →
            let band := (bandAt s.tariff.inForce s.tariff.clock).getD 0
            let chosen := if t = 255 then band else t.toNat
            ∃ u, exec (.hire a [t, stationByte]) s = .next (emit a.port (doneReply a .hire (hireFields i (u.party i))) u)
              ∧ (u.party i).state = .metering ∧ (u.party i).station = st
              ∧ (u.party i).trip = min 4294967295 (s.shift.totals.started + 1)
              ∧ (∀ y, s.tariffAt chosen = some y → y.flagFall ≤ 99999 → (u.party i).fare = y.flagFall)
              ∧ (u.party i).pulses = 0 ∧ (u.party i).ticks = 0 ∧ (u.party i).cash = 0 ∧ (u.party i).cardOnline = 0
              ∧ (u.party i).cardOffline = 0 ∧ (u.party i).motionLost = false ∧ (u.party i).hireTime = s.tariff.clock
              ∧ (u.party i).shared = decide (0 < s.ridingCount)
              ∧ (∀ j, j ≠ i → (s.party j).state ≠ .idle → (u.party j).shared = true)
              ∧ (s.milestonesOff = true →
                  (u.party i).tariff = chosen ∧ (u.party i).lock = (if t = 255 then .auto else .fixed)
                    ∧ (bandAt s.tariff.inForce s.tariff.clock = s.tariff.band → (s.heard a).tripTold u i (u.party i).trip))
              ∧ u.shift = { s.shift with totals := s.shift.totals.countStarted } ∧ u.tariff.band = bandAt s.tariff.inForce s.tariff.clock
              ∧ (s.heard a).changesOnly u [.request, .tariff, .fare, .milestone, .shift, .sign, .intercom, .power]))

/-- TOTAL ends the metering of a METERING party: to HOLD with a due above 0, to SETTLED with a due of 0, everything else of it kept, and from then on
nothing that meters reaches it; the reply carries state, fare, extras and due (R24). -/
def Obligations.TotalEndsMetering : Prop :=
  ∀ (a : Arrival) (s : State) (i : Fin 4),
    s.takes a .total → (s.party i).state = .metering →
      let p := s.party i
      let st : PartyState := if 0 < p.due then .hold else .settled
      ∃ u, exec (.total a [byte i.val]) s =
          .next (emit a.port (doneReply a .total (enc PartyState.all st :: be 4 p.fare ++ be 4 p.extras ++ be 4 p.due)) u)
        ∧ u.fare = s.fare.withParty i { p with state := st }
        ∧ (s.heard a).changesOnly u [.request, .fare, .sign, .power]
        ∧ ∀ (q : Quantity) (grow : Party → Party), meterParty q grow u i = u

/-- PAY_CASH of 0 is REFUSED with RANGE. Otherwise the smaller of the amount and the due is recorded for the HOLD party, which goes to SETTLED when
nothing is due any more and stays in HOLD otherwise; the reply carries what was recorded, the new due and the state (R27). A party that goes to SETTLED
raises a TRIP notice before the displays, one that stays in HOLD the displays alone (R21, R47, R48). That the slot's byte stands before the amount is the
model's choice (notes/assumptions/16.md). -/
def Obligations.PayCashRecordsUpToDue : Prop :=
  ∀ (a : Arrival) (s : State) (i : Fin 4) (a3 a2 a1 a0 : Byte),
    s.takes a .payCash → (s.party i).state = .hold →
      let amount := num [a3, a2, a1, a0]
      let p := s.party i
      let recorded := min amount p.due
      let st : PartyState := if p.due - recorded = 0 then .settled else .hold
      (amount = 0 → exec (.payCash a [byte i.val, a3, a2, a1, a0]) s = .next (s.answered a (refusedReply a .payCash .range)))
      ∧ (amount ≠ 0 →
        ∃ u, exec (.payCash a [byte i.val, a3, a2, a1, a0]) s =
            .next (emit a.port
              (replyFrame a.tag RequestName.payCash.code
                (.done (be 4 recorded ++ be 4 (p.due - recorded) ++ [enc PartyState.all st]) (decide (p.due < amount)))) u)
          ∧ u.fare = s.fare.withParty i { p with cash := p.cash + recorded, state := st }
          ∧ (st = .settled → (s.heard a).tripTold u i p.trip) ∧ (st = .hold → (s.heard a).displayed u)
          ∧ (s.heard a).changesOnly u [.request, .fare, .sign, .power])

/-- RESUME takes a HOLD party that has paid nothing back to METERING after its deferred step processing, and is REFUSED with PAYMENT_STATE once
anything is paid (R25); the fare in its reply is the one left by the FARE pass it starts (the model's choice, notes/assumptions/37.md). VOID empties the slot of a METERING party still in both allowances without extras, counts a voided trip and posts no money, and
is REFUSED with PARTY_STATE otherwise (R26). CLOSE_TRIP posts a SETTLED party to the shift, tells the intercom its station has closed and empties the
slot (R28, R102, R150). Each is told by one TRIP notice, under the number of the trip that ends, and the displays (R21, R47, R48). -/
def Obligations.TripsResumeAndEnd : Prop :=
  ∀ (a : Arrival) (s : State) (i : Fin 4),
    let p := s.party i
    (s.takes a .resume → p.state = .hold →
      (p.cash ≠ 0 ∨ p.cardOnline ≠ 0 ∨ p.cardOffline ≠ 0 →
        exec (.resume a [byte i.val]) s = .next (s.answered a (refusedReply a .resume .paymentState)))
      ∧ (p.cash = 0 → p.cardOnline = 0 → p.cardOffline = 0 →
        ∃ u, exec (.resume a [byte i.val]) s = .next (emit a.port (doneReply a .resume (be 4 (u.party i).fare)) u)
          ∧ (u.party i).state = .metering
          ∧ ((s.stepped p).fare = p.fare ∨ s.milestonesOff = true →
              u.fare = s.fare.withParty i { s.stepped p with state := .metering } ∧ (s.heard a).tripTold u i p.trip)
          ∧ (s.heard a).changesOnly u [.request, .fare, .milestone, .sign, .power]))
    ∧ (s.takes a .void → p.state = .metering →
      (p.phaseD = .stepping ∨ p.phaseT = .stepping ∨ p.extras ≠ 0 →
        exec (.void a [byte i.val]) s = .next (s.answered a (refusedReply a .void .partyState)))
      ∧ (p.phaseD = .allowance → p.phaseT = .allowance → p.extras = 0 →
        ∃ u, exec (.void a [byte i.val]) s = .next (emit a.port (doneReply a .void []) u)
          ∧ (s.heard a).tripTold u i p.trip ∧ u.fare = s.fare.withParty i .vacant ∧ u.shift = { s.shift with totals := s.shift.totals.countVoided }
          ∧ (s.heard a).changesOnly u [.request, .fare, .shift, .sign, .power]))
    ∧ (s.takes a .closeTrip → p.state = .settled →
      ∃ u, exec (.closeTrip a [byte i.val]) s = .next (emit a.port (doneReply a .closeTrip (be 4 p.trip)) u)
        ∧ (s.heard a).tripTold u i p.trip
        ∧ u.fare = s.fare.withParty i .vacant ∧ u.shift = { s.shift with totals := s.shift.totals.post p }
        ∧ u.intercom = (tripClosedAt p.station s).intercom
        ∧ (s.heard a).changesOnly u [.request, .fare, .shift, .sign, .intercom, .power])

/-- ADD_EXTRA charges a FIXED entry's amount, or the amount given up to a VARIABLE entry's, to a METERING or HOLD party, extras stopping at 999,999 and
the use count at 255 (R29). SET_TARIFF gives the party the tariff and lock named; in HOLD nothing else changes, in METERING step processing runs at once
at the new tariff, and with no milestone entry enabled that is all (R30, R45, R46). SET_STATION moves a party, and is REFUSED with PAYMENT_STATE for the
slot whose record is the head in PIN (R31). What each shows is displayed (R47, R48). SHARE sets or clears the share flag and answers the seat limit that
follows (R19). The slot's byte standing first, the fare of a reply after a pass, and AUTO taking tariff 0 while the band is NONE are the model's choices
(notes/assumptions/16.md, 37.md and 23.md). -/
def Obligations.TripSettings : Prop :=
  ∀ (a : Arrival) (s : State) (i : Fin 4),
    let p := s.party i
    (s.takes a .addExtra → p.state = .metering ∨ p.state = .hold → ∀ (e : Fin 8) (x : Extra) (a3 a2 a1 a0 : Byte),
      s.extraAt e.val = some x → (x.limit = 0 ∨ p.uses[e] < x.limit) →
        let amount := num [a3, a2, a1, a0]
        (x.kind = .variable → 1 ≤ amount ∧ amount ≤ x.amount) →
          let charge := match x.kind with | .fixed => x.amount | .variable => amount
          let q := { p with
            extras := min 999999 (p.extras + charge), capped := p.capped || decide (999999 < p.extras + charge),
            uses := p.uses.set e (min 255 (p.uses[e] + 1)) }
          ∃ u, exec (.addExtra a [byte i.val, byte e.val, a3, a2, a1, a0]) s =
              .next (emit a.port (doneReply a .addExtra (be 4 (q.extras - p.extras) ++ be 4 q.extras ++ be 4 q.due)) u)
            ∧ u.fare = s.fare.withParty i q ∧ (s.heard a).displayed u ∧ (s.heard a).changesOnly u [.fare])
    ∧ (s.takes a .setTariff → p.state = .metering ∨ p.state = .hold → ∀ t : Byte,
      t = 255 ∨ (t.toNat ≤ 7 ∧ (s.tariffAt t.toNat).isSome = true) →
        let q := { p with
          tariff := if t = 255 then s.tariff.band.getD 0 else t.toNat, lock := if t = 255 then .auto else .fixed }
        ∃ u, exec (.setTariff a [byte i.val, t]) s =
            .next (emit a.port
              (doneReply a .setTariff ([byte (u.party i).tariff, enc Lock.all (u.party i).lock] ++ be 4 (u.party i).fare)) u)
          ∧ (p.state = .hold → u.fare = s.fare.withParty i q ∧ (s.heard a).displayed u)
          ∧ (p.state = .metering → (s.stepped q).fare = p.fare ∨ s.milestonesOff = true →
              u.fare = s.fare.withParty i (s.stepped q) ∧ (s.heard a).displayed u)
          ∧ (p.state = .metering → (u.party i).state = .metering)
          ∧ (s.heard a).changesOnly u [.request, .fare, .milestone])
    ∧ (s.takes a .setStation → p.state ≠ .idle → s.pinEntryAt i = false → ∀ (b : Byte) (st : Station),
      dec Station.all b = some st →
        (st ≠ .none ∧ (∃ j, j ≠ i ∧ (s.party j).state ≠ .idle ∧ (s.party j).station = st) →
          exec (.setStation a [byte i.val, b]) s = .next (s.answered a (refusedReply a .setStation .stationTaken)))
        ∧ (st = .none ∨ (∀ j, j ≠ i → (s.party j).state ≠ .idle → (s.party j).station ≠ st) →
          ∃ u, exec (.setStation a [byte i.val, b]) s = .next (emit a.port (doneReply a .setStation []) u)
            ∧ u.fare = s.fare.withParty i { p with station := st } ∧ (s.heard a).displayed u ∧ (s.heard a).changesOnly u [.fare]))
    ∧ (s.takes a .setStation → p.state ≠ .idle → ∀ r rest, s.payment.queue = r :: rest → r.state = .pin → r.slot = i →
      ∀ (b : Byte) (st : Station), dec Station.all b = some st →
        exec (.setStation a [byte i.val, b]) s = .next (s.answered a (refusedReply a .setStation .paymentState)))
    ∧ (s.takes a .share → ∀ on : Bool,
      (on = true → s.shift.state ≠ .opened → exec (.share a [1]) s = .next (s.answered a (refusedReply a .share .shiftState)))
      ∧ (on = false ∨ s.shift.state = .opened →
        let limit := if on then (match s.tariff.inForce.params with | some x => x.seatLimit | none => 1) else 1
        ∃ u, exec (.share a [flag on]) s = .next (emit a.port (doneReply a .share [flag on, byte limit]) u)
          ∧ u.fare = { s.fare with share := on } ∧ u.seatLimit = limit ∧ (s.heard a).changesOnly u [.fare, .sign]))

/-- Step processing of one accumulator: a zero allowance ends at once, an allowance reached is taken off, then the whole steps are counted and taken off, and
an accumulator whose threshold is 0 is held at 0 (R39). Step processing of a party takes distance and then time: under SINGLE each by itself, under DOUBLE one
that ends its allowance or charges leaves the other at 0 in STEPPING, and neither doing so leaves each as its own processing does (R40, R41). The fare grows
by the steps at the step amount up to its cap, and capped is set where the cap clamps. After it each accumulator stands below its threshold or at 0, no phase
has gone back to ALLOWANCE and the fare has not fallen (R38, R39, R42). -/
def Obligations.StepArithmetic : Prop :=
  (∀ (x : Accumulator) (t : Thresholds),
    let begun : Accumulator :=
      if x.phase = .allowance ∧ t.allowance = 0 then ⟨.stepping, x.value⟩
      else if x.phase = .allowance ∧ t.allowance ≤ x.value then ⟨.stepping, x.value - t.allowance⟩ else x
    let steps := if begun.phase = .stepping ∧ t.step ≠ 0 ∧ t.step ≤ begun.value then begun.value / t.step else 0
    let threshold := if begun.phase = .allowance then t.allowance else t.step
    x.process t =
      (⟨begun.phase, if threshold = 0 then 0 else begun.value - steps * t.step⟩, steps, decide (begun.phase ≠ x.phase ∨ 1 ≤ steps)))
  ∧ ∀ (p : Party) (t : Tariff) (k : Nat),
    let q := p.step t k
    let d := (⟨p.phaseD, p.accD⟩ : Accumulator).process (t.distance k)
    let m := (⟨p.phaseT, p.accT⟩ : Accumulator).process t.time
    let charged (steps : Nat) : Prop :=
      q.fare = min 9999999 (p.fare + steps * t.stepAmount)
        ∧ q.capped = (p.capped || decide (9999999 < p.fare + steps * t.stepAmount))
    let distance := q.phaseD = d.1.phase ∧ q.accD = d.1.value
    let time := q.phaseT = m.1.phase ∧ q.accT = m.1.value
    (q.accD < (t.distance k).current q.phaseD ∨ q.accD = 0)
    ∧ (q.accT < t.time.current q.phaseT ∨ q.accT = 0)
    ∧ (p.phaseD = .stepping → q.phaseD = .stepping) ∧ (p.phaseT = .stepping → q.phaseT = .stepping)
    ∧ (p.fare ≤ 9999999 → p.fare ≤ q.fare ∧ q.fare ≤ 9999999)
    ∧ (t.method = .single → distance ∧ time ∧ charged (d.2.1 + m.2.1))
    ∧ (t.method = .double → d.2.2 = true → distance ∧ q.phaseT = .stepping ∧ q.accT = 0 ∧ charged d.2.1)
    ∧ (t.method = .double → d.2.2 = false → m.2.2 = true → time ∧ q.phaseD = .stepping ∧ q.accD = 0 ∧ charged m.2.1)
    ∧ (t.method = .double → d.2.2 = false → m.2.2 = false → distance ∧ time ∧ charged 0)
    ∧ q = { p with phaseD := q.phaseD, accD := q.accD, phaseT := q.phaseT, accT := q.accT, fare := q.fare, capped := q.capped }
    ∧ (p.phaseD = .stepping → p.phaseT = .stepping → 0 < (t.distance k).step →
        q.accD = p.accD % (t.distance k).step ∨ t.method = .double)

/-- A MOTION frame, in RUN and in PARKED: its count becomes the last count, its flags are taken. With the last count unknown, or a delta above the
plausibility limit, no party is charged and every METERING party is marked motion-lost. An accepted delta leaves every party that is not METERING as it was
and is handed to an open shift as hired pulses if any slot is METERING and as empty ones otherwise; with no milestone entry enabled each METERING party
grows by the delta and is stepped, and one FARE_VIEW shows them all (R33, R34, R35, R47, R101, R103, R113, R184, R186). C and D are told a dropped count by a MOTION
notice, and D alone a latch that the flags set, while D is UP (R33, R34, R115). In PARKED a frame with the ignition on
wakes the part: the wake taken first, the count is unknown and the frame resyncs; the frame taken first, its count is unknown after it (R35, R186, R187). -/
def Obligations.MotionTaken : Prop :=
  ∀ (a : Arrival) (s : State) (hi lo flags : Byte),
    a.port = .v → s.power.state ≠ .off → s.isUp .v = true → (s.port .v).shut = false →
      let count := num [hi, lo]
      let delta := (count + 65536 - s.fare.lastCount) % 65536
      let wakes := s.power.state = .parked ∧ flags.getLsbD 0 = true
      let unknown := s.fare.countKnown = false ∨ (wakes ∧ a.order.flagsFirst = true)
      let dropped := unknown ∨ s.implausible delta = true
      ∃ u, exec (.motion a [hi, lo, flags]) s = .next u
        ∧ u.fare.lastCount = count ∧ (u.fare.countKnown = true ↔ ¬ (wakes ∧ a.order.flagsFirst = false))
        ∧ u.power.state = (if wakes then .run else s.power.state) ∧ u.power.ignition = flags.getLsbD 0
        ∧ u.sign.alarmSeen = flags.getLsbD 1 ∧ u.sign.latch = (s.sign.latch || (flags.getLsbD 1 && !s.sign.alarmSeen))
        ∧ (dropped → ∀ i, u.party i =
            if (s.party i).state = .metering then { s.party i with motionLost := true } else s.party i)
        ∧ (unknown → u.shift = s.shift)
        ∧ (¬ unknown → s.implausible delta = true → u.shift =
            if s.shift.live then { s.shift with totals := s.shift.totals.countImplausible } else s.shift)
        ∧ (¬ dropped →
            (∀ i, (s.party i).state ≠ .metering → u.party i = s.party i)
            ∧ u.shift = (if delta ≠ 0 ∧ s.shift.live then
                { s.shift with
                  totals := if s.anyMetering then s.shift.totals.addHired delta else s.shift.totals.addEmpty delta }
              else s.shift)
            ∧ (s.milestonesOff = true → ∀ i, (s.party i).state = .metering →
                u.party i = if delta = 0 then s.party i else s.stepped ((s.party i).grownBy delta s)))
        ∧ (s.power.state = .run → s.link.telemetryRoutes.v.targets = 0 →
            (dropped → u.port .c =
              ((s.port .c).placed (noticeFrame s.request.seqC .motion [flag (!s.fare.countKnown)])).shownConsole s u)
            ∧ (¬ dropped → s.milestonesOff = true → u.port .c = (s.port .c).shownConsole s u)
            ∧ (let rises := flags.getLsbD 1 && !s.sign.alarmSeen && !s.sign.latch && s.isUp .d
              let alarm (y : PortState × Nat) : PortState × Nat :=
                if rises then (y.1.placed (noticeFrame y.2 .emergency [0]), nextSeq y.2) else y
              let motion (y : PortState × Nat) : PortState × Nat :=
                if dropped then (y.1.placed (noticeFrame y.2 .motion [flag (!s.fare.countKnown)]), nextSeq y.2) else y
              let began := (s.port .d, s.request.seqD)
              (u.port .d, u.request.seqD) = if a.order.flagsFirst then motion (alarm began) else alarm (motion began)))
        ∧ (s.heard a).changesOnly u
            ((if wakes then [.link, .payment] else if s.power.shutPending then [.link] else [])
              ++ [.request, .fare, .milestone, .shift, .sign, .intercom, .power])

/-- A decisecond tick, in RUN and in PARKED: the clock goes one decisecond on, midnight to the next day and the last midnight to an invalid day 0; at a
minute boundary the band is evaluated; shift ticks, break ticks and hired ticks grow by the shift's and the slots' states (R13, R15, R36, R104, R186). With no
milestone entry enabled each METERING party grows by a tick and is stepped, a changed band reaches the AUTO parties before or after that, as the event leaves
open, with its BAND notice and its BAND chime, and C is shown what changed (R14, R16, R36, R44 to R47). Where the band stays, a party that is not METERING is
left as it was. -/
def Obligations.TickTaken : Prop :=
  ∀ (s : State) (bandFirst : Bool),
    s.power.state ≠ .off →
      let clock := s.tariff.clock.advance
      let band := if clock.ds % 600 = 0 then bandAt s.tariff.inForce clock else s.tariff.band
      let moves := band ≠ s.tariff.band
      let meter (p : Party) : Party := if p.state = .metering then s.stepped (p.grownByTick s) else p
      let follow (p : Party) : Party := if moves then s.following band p else p
      let between := s.withParties (if bandFirst then follow else meter)
      let noticed (x : PortState) : PortState := if moves then s.bandNoticed band x else x
      ∃ u, exec (.decisecondTick bandFirst) s = .next u
        ∧ u.tariff = { s.tariff with clock := clock, band := band }
        ∧ (s.tariff.clock.day ≤ 65535 → s.tariff.clock.ds < 864000 →
            clock.ds < 864000 ∧ clock.day ≤ 65535
              ∧ clock.day * 864000 + clock.ds = (s.tariff.clock.day * 864000 + s.tariff.clock.ds + 1) % (65536 * 864000)
              ∧ clock.valid = (s.tariff.clock.valid && decide (0 < clock.day * 864000 + clock.ds)))
        ∧ u.shift = { s.shift with totals := s.shift.totals.tick s.shift.state s.anyMetering }
        ∧ (∀ i, (s.party i).state ≠ .metering → u.party i = follow (s.party i))
        ∧ (¬ moves → u.intercom = s.intercom)
        ∧ (s.milestonesOff = true →
            (∀ i, u.party i = if bandFirst then meter (follow (s.party i)) else follow (meter (s.party i)))
            ∧ u.intercom = (if moves then s.bandChimed else s.intercom)
            ∧ (s.power.shutPending = false →
              u.request = (if moves then { s.request with seqC := nextSeq s.request.seqC } else s.request)
                ∧ u.port .c = (if bandFirst then ((noticed (s.port .c)).shownConsole s between).shownConsole between u
                    else (noticed ((s.port .c).shownConsole s between)).shownConsole between u)))
        ∧ s.changesOnly u ((if s.power.shutPending then [.link, .power] else []) ++ [.request, .tariff, .fare, .milestone, .shift, .intercom])

/-! ### Milestones -/

/-- MILESTONE_SET is refused with RANGE by any class of R51 and changes nothing then. Otherwise it writes the entry whole, a NOTIFY entry's argument as 0,
and rearms it for every slot not IDLE one level above the quantity already reached, its mark clear; the other entries, the IDLE slots' cells and the parties
are left alone (R51, R52). That enabled is coded 1 for yes, and that the index byte of an ANY filter is ignored, are the model's choices
(notes/assumptions/17.md). -/
def Obligations.MilestoneSetRearms : Prop :=
  ∀ (a : Arrival) (s : State) (n en q t2 t1 t0 rep fk fi act arg : Byte) (m : Milestone) (e : Fin 12),
    s.takes a .milestoneSet → flagOf en = some m.enabled → dec Quantity.all q = some m.quantity → m.threshold = num [t2, t1, t0] →
      dec Repetition.all rep = some m.repetition → readFilter fk fi = some m.filter → dec MilestoneAction.all act = some m.action →
        m.argument = (if m.action = .notify then 0 else arg.toNat) →
          let args := [n, en, q, t2, t1, t0, rep, fk, fi, act, arg]
          let bad := 12 ≤ n.toNat ∨ m.threshold = 0 ∨ (∃ f, m.filter = some f ∧ 7 < f) ∨ (m.action ≠ .notify ∧ 7 < arg.toNat)
          (bad → exec (.milestoneSet a args) s = .next (s.answered a (refusedReply a .milestoneSet .range)))
          ∧ (¬ bad → n.toNat = e.val →
            ∃ u, exec (.milestoneSet a args) s = .next (emit a.port (doneReply a .milestoneSet [n]) u)
              ∧ u.milestone.table = s.milestone.table.set e m
              ∧ (∀ i, u.armed e i =
                  if (s.party i).state = .idle then s.armed e i
                  else ⟨s.quantityOf m.quantity (s.party i) / m.threshold + 1, false⟩)
              ∧ (∀ e' i, e' ≠ e → u.armed e' i = s.armed e' i)
              ∧ (s.heard a).changesOnly u [.milestone])

/-- PARTY_READ answers the whole record of a slot, with its amount due and its trip distance, in any state of the slot; a slot outside 0 to 3 is
REFUSED with RANGE; neither changes any state (R49). The layout of the record, its eight use counts without a count byte among it, is the model's choice
(notes/assumptions/16.md). -/
def Obligations.PartyReads : Prop :=
  ∀ (a : Arrival) (s : State) (n : Byte),
    a.port = .c ∨ a.port = .d → s.hears a.port →
      (∀ i : Fin 4, n.toNat = i.val →
        exec (.partyRead a [n]) s = .next (s.answered a (doneReply a .partyRead (partyBytes s (s.party i)))))
      ∧ (4 ≤ n.toNat → exec (.partyRead a [n]) s = .next (s.answered a (refusedReply a .partyRead .range)))

/-- MILESTONE_READ answers an entry's fields and each slot's next level and fired mark; an index outside 0 to 11 is REFUSED with RANGE; neither changes
any state (R61). That the four cells carry no count byte is the model's choice (notes/assumptions/16.md), and so are the code of the enabled flag and the
bytes of the filter (17.md). -/
def Obligations.MilestoneReads : Prop :=
  ∀ (a : Arrival) (s : State) (n : Byte),
    a.port = .c ∨ a.port = .d → s.hears a.port →
      (∀ e : Fin 12, n.toNat = e.val →
        exec (.milestoneRead a [n]) s =
          .next (s.answered a (doneReply a .milestoneRead
            (milestoneBytes s.milestone.table[e]
              ++ slots.flatMap fun i => be 5 (s.armed e i).level ++ [flag (s.armed e i).fired]))))
      ∧ (12 ≤ n.toNat → exec (.milestoneRead a [n]) s = .next (s.answered a (refusedReply a .milestoneRead .range)))

/-- A pass over a table of NOTIFY entries touches no party and leaves nothing due: after it no enabled entry of its quantity whose filter the party meets and
whose mark is clear has its level reached (R54, R55, R57). With any table nothing is left due from the last SWITCH_TARIFF entry on, judged by the fare and
tariff the actions left (R55, R56). Where one entry alone can fire, its firing marks it and is told by one MILESTONE notice behind the displays: a SWITCH_TARIFF
of a present tariff gives the party that tariff and the lock FIXED, a METERING one stepped at once, and of an absent one is SKIPPED; an ADD_EXTRA adds the
stored amount whatever the extra's kind, and of an absent extra or at its limit is LIMIT; the fare it leaves starts no further pass (R44, R45, R46, R47, R48, R58, R59). That an action's own displays stand before its MILESTONE notice is the
model's choice (notes/assumptions/13.md): it takes an action as an event of the fare engine, at whose end R47 and R48 have them. -/
def Obligations.PassLeavesNothingDue : Prop :=
  (∀ (i : Fin 4) (q : Quantity) (s : State),
    (∀ e : Fin 12, s.milestone.table[e].action = .notify ∧ 0 < s.milestone.table[e].threshold) →
      let u := runPass i q s
      u.fare = s.fare ∧ u.milestone.table = s.milestone.table
        ∧ (∀ (e : Fin 12) (j : Fin 4), j ≠ i → u.armed e j = s.armed e j)
        ∧ ∀ e : Fin 12,
          takesPart u.milestone.table[e] (u.armed e i) q (u.party i).tariff = true →
            u.quantityOf q (u.party i) < (u.armed e i).level * u.milestone.table[e].threshold)
  ∧ (∀ (i : Fin 4) (q : Quantity) (s : State) (e : Fin 12),
    let u := runPass i q s
    let m := s.milestone.table[e]
    0 < m.threshold → (∀ e' : Fin 12, e ≤ e' → s.milestone.table[e'].action ≠ .switchTariff) →
      takesPart m (u.armed e i) q (u.party i).tariff = true → u.quantityOf q (u.party i) < (u.armed e i).level * m.threshold)
  ∧ ∀ (i : Fin 4) (q : Quantity) (s : State) (e : Fin 12),
    let m := s.milestone.table[e]
    let p := s.party i
    (∀ e' : Fin 12, e' ≠ e → s.milestone.table[e'].enabled = false) → takesPart m (s.armed e i) q p.tariff = true →
      (s.armed e i).level * m.threshold ≤ s.quantityOf q p →
        let fires (p' : Party) (outcome : FiringOutcome) : Prop :=
          let u := runPass i q s
          u.fare = s.fare.withParty i p' ∧ u.milestone.table = s.milestone.table
            ∧ u.armed e i = (match m.repetition with
                | .every => { s.armed e i with level := s.quantityOf q p / m.threshold + 1 }
                | .once => { s.armed e i with fired := true })
            ∧ (∀ (e' : Fin 12) (j : Fin 4), e' ≠ e ∨ j ≠ i → u.armed e' j = s.armed e' j)
            ∧ u.port .c = ((s.port .c).shownConsole s u).placed
                (noticeFrame s.request.seqC .milestone [byte i.val, byte e.val, enc FiringOutcome.all outcome])
            ∧ u.port .p = (s.port .p).shownPassenger s u ∧ u.request = { s.request with seqC := nextSeq s.request.seqC }
            ∧ s.changesOnly u [.request, .fare, .milestone]
        (m.action = .notify → fires p .notified)
        ∧ (m.action = .switchTariff →
          (s.tariffAt m.argument = none → fires p .skipped)
          ∧ (s.tariffAt m.argument ≠ none →
            let switched := { p with tariff := m.argument, lock := .fixed }
            fires (if p.state = .metering then s.stepped switched else switched) .switched))
        ∧ (m.action = .addExtra → ∀ x : Fin 8, m.argument = x.val →
          (s.extraAt x.val = none → fires p .limit)
          ∧ ∀ y, s.extraAt x.val = some y →
            (y.limit ≠ 0 ∧ y.limit ≤ p.uses[x] → fires p .limit)
            ∧ (y.limit = 0 ∨ p.uses[x] < y.limit →
              fires { p with
                extras := min 999999 (p.extras + y.amount), capped := p.capped || decide (999999 < p.extras + y.amount),
                uses := p.uses.set x (min 255 (p.uses[x] + 1)) } .added))

/-! ### Payments -/

/-- OFFER_CARD is refused, in this order, with PARTY_STATE for a slot not in HOLD, LINK_DOWN while K is DOWN, RANGE for an amount above the due. Otherwise
the party goes to PAYING, and a record of the whole due (for an amount of 0) or of the amount joins the queue's tail: OFFERED with a CHARGE_OFFER toward
K and 120 s on the offer timer if it is the only one, QUEUED with nothing sent to K if not; a TRIP notice and the displays tell it
(R21, R47, R62, R63, R64). -/
def Obligations.OfferCardJoinsQueue : Prop :=
  ∀ (a : Arrival) (s : State) (i : Fin 4) (a3 a2 a1 a0 : Byte),
    s.takes a .offerCard →
      let p := s.party i
      let amount := num [a3, a2, a1, a0]
      let offered := if amount = 0 then p.due else amount
      let refused (reason : Reason) : Prop :=
        exec (.offerCard a [byte i.val, a3, a2, a1, a0]) s = .next (s.answered a (refusedReply a .offerCard reason))
      (p.state ≠ .hold → refused .partyState)
      ∧ (p.state = .hold → s.isUp .k = false → refused .linkDown)
      ∧ (p.state = .hold → s.isUp .k = true → p.due < amount → refused .range)
      ∧ (p.state = .hold → s.isUp .k = true → amount ≤ p.due →
        let st : RecordState := if s.payment.queue = [] then .offered else .queued
        ∃ u, exec (.offerCard a [byte i.val, a3, a2, a1, a0]) s =
            .next (emit a.port (doneReply a .offerCard (be 4 offered ++ [enc RecordState.all st])) u)
          ∧ u.fare = s.fare.withParty i { p with state := .paying } ∧ (s.heard a).tripTold u i p.trip
          ∧ u.payment = { s.payment with
              queue := s.payment.queue ++ [⟨i, offered, st, none, none, none, none⟩],
              offerTimer := if s.payment.queue = [] then some 120000 else s.payment.offerTimer }
          ∧ u.port .k = (if s.payment.queue = [] then
              (s.port .k).placed (payFrame .chargeOffer (byte i.val :: be 4 offered ++ [byte s.payment.policy.tipPercent]))
            else s.port .k)
          ∧ (s.heard a).changesOnly u [.request, .fare, .payment, .sign, .power])

/-- A cancellation of the head, by the console, the terminal or the offer timer, returns its party to HOLD with its payments as they were, sends K a
CHARGE_WITHDRAW, removes the record and promotes the next, whose CHARGE_OFFER follows (R63, R65, R66, R67). CANCEL_CARD of a later record removes it
and sends K nothing, and of an AUTHORIZING head is REFUSED with PAYMENT_STATE (R65). C is told each by a TRIP notice, the displays and a PAY notice CANCELLED
with its cause, delivered (R21, R32, R47, R48, R89); that the displays stand before the PAY notice is the model's choice (notes/assumptions/13.md). PIN_START takes an OFFERED head to PIN, stops its timer and empties
the voice lanes of C and D; PIN_END takes it back with 120 s; every other stage is ignored (R66, R171). -/
def Obligations.CardStagesAndCancellations : Prop :=
  ∀ (a : Arrival) (s : State) (r : Record) (rest : List Record),
    s.payment.queue = r :: rest →
      let gone (b u : State) (cause : Byte) : Prop :=
        u.fare = s.fare.withParty r.slot { s.party r.slot with state := .hold }
          ∧ b.payTold u r.slot (s.party r.slot).trip 5 cause 0 ∧ u.request.seqD = s.request.seqD
          ∧ u.payment = { s.payment with queue := promotedQueue rest, offerTimer := promotedTimer rest }
          ∧ u.port .k =
            ((b.port .k).placed (payFrame .chargeWithdraw [byte r.slot.val])).offeredNext s.payment.policy.tipPercent rest
          ∧ b.changesOnly u [.request, .fare, .payment, .sign, .power]
      (s.takes a .cancelCard →
        ((s.party r.slot).state = .paying → r.state ≠ .authorizing →
          ∃ u, exec (.cancelCard a [byte r.slot.val]) s = .next (emit a.port (doneReply a .cancelCard []) u) ∧ gone (s.heard a) u 1)
        ∧ ((s.party r.slot).state = .paying → r.state = .authorizing →
          exec (.cancelCard a [byte r.slot.val]) s = .next (s.answered a (refusedReply a .cancelCard .paymentState)))
        ∧ ∀ i r', i ≠ r.slot → (s.party i).state = .paying → s.recordOf i = some r' → r'.state ≠ .authorizing →
          ∃ u, exec (.cancelCard a [byte i.val]) s = .next (emit a.port (doneReply a .cancelCard []) u)
            ∧ u.fare = s.fare.withParty i { s.party i with state := .hold }
            ∧ (s.heard a).payTold u i (s.party i).trip 5 1 0 ∧ u.request.seqD = s.request.seqD
            ∧ u.payment = { s.payment with queue := s.payment.queue.filter fun x => x.slot != i }
            ∧ u.port .k = s.port .k ∧ (s.heard a).changesOnly u [.request, .fare, .payment, .sign, .power])
      ∧ (a.port = .k → s.hears .k →
        (r.state = .offered →
          ∃ u, exec (.cardStage a [byte r.slot.val, 0]) s = .next u
            ∧ u.payment = { s.payment with queue := { r with state := .pin } :: rest, offerTimer := none }
            ∧ (u.port .c).voice = [] ∧ (u.port .d).voice = [] ∧ (s.heard a).changesOnly u [.payment])
        ∧ (r.state = .pin →
          exec (.cardStage a [byte r.slot.val, 1]) s =
            .next { s.heard a with payment := { s.payment with queue := { r with state := .offered } :: rest, offerTimer := some 120000 } })
        ∧ (r.state = .offered ∨ r.state = .pin →
          ∃ u, exec (.cardStage a [byte r.slot.val, 2]) s = .next u ∧ gone (s.heard a) u 2)
        ∧ ∀ slot stage : Byte, stage.toNat ≤ 2 →
          slot.toNat ≠ r.slot.val ∨ r.state = .authorizing ∨ (r.state = .pin ∧ stage = 0) ∨ (r.state = .offered ∧ stage = 1) →
            exec (.cardStage a [slot, stage]) s = .next (s.heard a))
      ∧ (s.power.state = .run → s.payment.offerTimer.isSome = true → r.state = .offered →
        ∃ u, exec .offerTimerExpiry s = .next u ∧ gone s u 3)

/-- AUTH_ASK: for no head, a head of another slot or one AUTHORIZING it is answered REFUSED_STATE, for an amount outside 1 to the offer or a tip above the
tip percent REFUSED_AMOUNT, and nothing else changes (R68). With D UP, force-offline off and fewer than 32 entries held it goes online under a fresh
reference: AUTH_FORWARD toward D, the head AUTHORIZING, the answer timer started (R69, R70). Otherwise it is decided at once by the four tests of R75 in order:
refused, the party goes back to HOLD; approved, the sale is stored, committed and posted, and the PAID chime plays while P is UP; the next record is promoted
either way (R75, R76, R77, R158). C is told by a TRIP notice, the displays and a PAY notice with the outcome and the reason, delivered (R21, R32, R47, R48, R89).
The append makes D a STORE notice at 28 entries, and starts the upload of the head entry where D is UP and the upload IDLE (R79, R80). That the displays stand
before the PAY notice, and the STORE notice before the UPLOAD, are the model's choices (notes/assumptions/13.md and 34.md). -/
def Obligations.AuthAskTakesItsPath : Prop :=
  (∀ (x : Ask) (s : State),
    let sum := x.amount + x.tip
    let policy := s.payment.policy
    (policy.floorLimit < sum → offlineFault x s = some .floor)
    ∧ (sum ≤ policy.floorLimit → policy.shiftCap < s.shift.totals.committed + sum → offlineFault x s = some .cap)
    ∧ (sum ≤ policy.floorLimit → s.shift.totals.committed + sum ≤ policy.shiftCap →
      (28 ≤ s.payment.store.length → offlineFault x s = some .queue)
      ∧ (s.payment.store.length < 28 →
        (tokenPrefix x.token ∈ s.payment.refusalList → offlineFault x s = some .listed)
        ∧ (tokenPrefix x.token ∉ s.payment.refusalList → offlineFault x s = none))))
  ∧ ∀ (a : Arrival) (s : State) (slot : Byte) (bytes : List Byte),
    a.port = .k → s.hears .k → bytes.length = 28 →
      let x := askOf bytes
      let result (code reason : Byte) (amount tip : Nat) : Frame :=
        payFrame .authResult ([slot, code, reason] ++ be 4 x.terminalRef.toNat ++ be 4 amount ++ be 4 tip)
      ((∀ r rest, s.payment.queue = r :: rest → r.slot.val ≠ slot.toNat ∨ (r.state ≠ .offered ∧ r.state ≠ .pin)) →
        exec (.authAsk a (slot :: bytes)) s = .next (emit .k (result 5 0 0 0) (s.heard a)))
      ∧ ∀ r rest, s.payment.queue = r :: rest → r.slot.val = slot.toNat → r.state = .offered ∨ r.state = .pin →
        let passes := 1 ≤ x.amount ∧ x.amount ≤ r.offered ∧ x.tip ≤ x.amount * s.payment.policy.tipPercent / 100
        let online := s.isUp .d = true ∧ s.payment.policy.forceOffline = false ∧ s.payment.store.length < 32
        let p := s.party r.slot
        (¬ passes → exec (.authAsk a (slot :: bytes)) s = .next (emit .k (result 6 0 0 0) (s.heard a)))
        ∧ (passes → online →
          ∃ u ref, exec (.authAsk a (slot :: bytes)) s = .next u
            ∧ (s.payment.refCounter ≤ 65535 → 1 ≤ ref ∧ ref ≤ 65535 ∧ ∀ e ∈ s.payment.store, e.hubRef ≠ ref)
            ∧ u.payment = { s.payment with
                queue := { r with
                  state := .authorizing, terminalRef := some x.terminalRef, amountAsked := some x.amount, tipAsked := some x.tip,
                  hubRef := some ref } :: rest,
                refCounter := ref, offerTimer := none, answerTimer := some (s.payment.policy.answerTimeout * 1000) }
            ∧ u.port .d = (s.port .d).placed (payFrame .authForward
                (be 2 ref ++ be 4 s.tariff.cabNumber.toNat ++ be 2 s.shift.number ++ be 4 p.trip ++ be 4 x.amount ++ be 4 x.tip
                  ++ be 16 x.token.toNat ++ stampBytes s.tariff.clock))
            ∧ u.port .k = (s.heard a).port .k ∧ u.port .c = s.port .c ∧ u.port .p = s.port .p ∧ (s.heard a).changesOnly u [.payment])
        ∧ (passes → ¬ online → ∀ reason, offlineFault x s = some reason →
          ∃ u, exec (.authAsk a (slot :: bytes)) s = .next u
            ∧ u.fare = s.fare.withParty r.slot { p with state := .hold }
            ∧ u.payment = { s.payment with queue := promotedQueue rest, offerTimer := promotedTimer rest }
            ∧ u.port .k =
              (((s.heard a).port .k).placed (result 4 (offlineCode reason) 0 0)).offeredNext s.payment.policy.tipPercent rest
            ∧ (s.heard a).payTold u r.slot p.trip 4 (offlineCode reason) 0
            ∧ u.port .d = s.port .d ∧ u.request.seqD = s.request.seqD
            ∧ (s.heard a).changesOnly u [.request, .fare, .payment, .sign, .power])
        ∧ (passes → ¬ online → offlineFault x s = none →
          let q := { p with cardOffline := p.cardOffline + x.amount, tipsOffline := p.tipsOffline + x.tip }
          ∃ u ref, exec (.authAsk a (slot :: bytes)) s = .next u
            ∧ (s.payment.refCounter ≤ 65535 → 1 ≤ ref ∧ ref ≤ 65535 ∧ ∀ e ∈ s.payment.store, e.hubRef ≠ ref)
            ∧ u.fare = s.fare.withParty r.slot { q with state := if q.due = 0 then .settled else .hold }
            ∧ (let stored := { s.payment with
                store := s.payment.store ++ [⟨.sale x.amount x.tip x.token, ref, r.slot, p.trip, s.shift.number, s.tariff.clock⟩],
                queue := promotedQueue rest, offerTimer := promotedTimer rest, refCounter := ref }
              u.payment = stored.uploading (s.isUp .d)
                ∧ u.port .d = ((s.port .d).storeTold s.request.seqD stored.store.length).uploaded stored s.tariff.cabNumber
                ∧ u.request.seqD = storeSeq s.request.seqD stored.store.length)
            ∧ u.shift = { s.shift with totals := s.shift.totals.countSale.commit (x.amount + x.tip) } ∧ u.intercom = s.paidChimed
            ∧ u.port .k =
              (((s.heard a).port .k).placed (result 3 0 x.amount x.tip)).offeredNext s.payment.policy.tipPercent rest
            ∧ (s.heard a).payTold u r.slot p.trip 3 0 0
            ∧ (s.heard a).changesOnly u [.request, .fare, .payment, .shift, .sign, .intercom, .power])

/-- An AUTH_ANSWER whose reference the AUTHORIZING head holds ends it: APPROVED posts the amount and tip asked and plays the PAID chime while P is UP,
DECLINED posts nothing; the party goes to SETTLED or HOLD, the terminal is told whatever its link, the next record is promoted (R32, R71, R72). Any other
answer is counted as unmatched and changes nothing else (R73). The answer timer's expiry tells the terminal TIMEOUT, stores a REVERSAL under the head's
reference, counts it and returns the party to HOLD (R74, R78, R79); the append makes D a STORE notice at 28 entries, and starts the upload of the head entry where
D is UP and the upload IDLE (R79, R80). C is told each by a TRIP notice, the displays and a PAY notice with the outcome, undelivered where K is DOWN (R21, R32,
R47, R48, R89). That the displays stand before the PAY notice, and the STORE notice before the UPLOAD, are the model's choices (notes/assumptions/13.md and
34.md). -/
def Obligations.AnswersAndTimeout : Prop :=
  ∀ (a : Arrival) (s : State) (hi lo : Byte),
    (a.port = .d → s.hears .d → s.authorizing (num [hi, lo]) = none → ∀ result : Byte, result = 0 ∨ result = 1 →
      exec (.authAnswer a [hi, lo, result]) s =
        .next { s.heard a with payment := { s.payment with unmatched := min 65535 (s.payment.unmatched + 1) } })
    ∧ ∀ r rest amount tip ref, s.payment.queue = r :: rest → r.state = .authorizing → r.amountAsked = some amount →
      r.tipAsked = some tip → r.hubRef = some ref → s.payment.offerTimer = none →
        let p := s.party r.slot
        let result (code : Byte) (amount tip : Nat) : Frame :=
          payFrame .authResult ([byte r.slot.val, code, 0] ++ be 4 (r.terminalRef.getD 0).toNat ++ be 4 amount ++ be 4 tip)
        let told (f : Frame) : PortState := ((s.port .k).placed f).offeredNext s.payment.policy.tipPercent rest
        let marker := flag (!s.isUp .k)
        (a.port = .d → s.hears .d → ref = num [hi, lo] →
          (let q := { p with cardOnline := p.cardOnline + amount, tipsOnline := p.tipsOnline + tip }
           ∃ u, exec (.authAnswer a [hi, lo, 0]) s = .next u
            ∧ u.fare = s.fare.withParty r.slot { q with state := if q.due = 0 then .settled else .hold }
            ∧ u.payment = { s.payment with queue := promotedQueue rest, offerTimer := promotedTimer rest, answerTimer := none }
            ∧ u.intercom = s.paidChimed ∧ u.port .k = told (result 0 amount tip)
            ∧ (s.heard a).payTold u r.slot p.trip 0 0 marker ∧ u.port .d = (s.heard a).port .d ∧ u.request.seqD = s.request.seqD
            ∧ (s.heard a).changesOnly u [.request, .fare, .payment, .sign, .intercom, .power])
          ∧ ∃ u, exec (.authAnswer a [hi, lo, 1]) s = .next u
            ∧ u.fare = s.fare.withParty r.slot { p with state := .hold }
            ∧ u.payment = { s.payment with queue := promotedQueue rest, offerTimer := promotedTimer rest, answerTimer := none }
            ∧ u.port .k = told (result 1 0 0)
            ∧ (s.heard a).payTold u r.slot p.trip 1 0 marker ∧ u.port .d = (s.heard a).port .d ∧ u.request.seqD = s.request.seqD
            ∧ (s.heard a).changesOnly u [.request, .fare, .payment, .sign, .power])
        ∧ (s.power.state = .run → s.payment.answerTimer.isSome = true →
          ∃ u, exec .answerTimerExpiry s = .next u
            ∧ u.fare = s.fare.withParty r.slot { p with state := .hold }
            ∧ (let stored := { s.payment with
                store := s.payment.store ++ [⟨.reversal, ref, r.slot, p.trip, s.shift.number, s.tariff.clock⟩],
                queue := promotedQueue rest, offerTimer := promotedTimer rest, answerTimer := none }
              u.payment = stored.uploading (s.isUp .d)
                ∧ u.port .d = ((s.port .d).storeTold s.request.seqD stored.store.length).uploaded stored s.tariff.cabNumber
                ∧ u.request.seqD = storeSeq s.request.seqD stored.store.length)
            ∧ u.shift = { s.shift with totals := s.shift.totals.countReversal } ∧ u.port .k = told (result 2 0 0)
            ∧ s.payTold u r.slot p.trip 2 0 marker
            ∧ s.changesOnly u [.request, .fare, .payment, .shift, .sign, .power])

/-- An UPLOAD_ACK of the head entry's reference removes it and sends the next at once with 20 s on the upload timer, or idles the upload when none is left;
any other is counted as unmatched and changes nothing else (R80, R81). A removal from 28 entries to 27 places a STORE notice toward D (R79), before the UPLOAD, which
is the model's choice (notes/assumptions/34.md). The upload timer's expiry in AWAITING sends the head entry again and starts the 20 s
anew (R80). -/
def Obligations.UploadsInOrder : Prop :=
  ∀ (a : Arrival) (s : State) (hi lo : Byte),
    (a.port = .d → s.hears .d →
      ((∀ e rest, s.payment.store = e :: rest → e.hubRef ≠ num [hi, lo]) →
        exec (.uploadAck a [hi, lo]) s =
          .next { s.heard a with payment := { s.payment with unmatched := min 65535 (s.payment.unmatched + 1) } })
      ∧ ∀ e rest, s.payment.store = e :: rest → e.hubRef = num [hi, lo] →
        let d := (s.heard a).port .d
        let told := if rest.length = 27 then d.placed (noticeFrame s.request.seqD .store [27]) else d
        ∃ u, exec (.uploadAck a [hi, lo]) s = .next u
          ∧ u.payment = { s.payment with
              store := rest, upload := if rest = [] then .idle else .awaiting, uploadTimer := if rest = [] then none else some 20000 }
          ∧ u.port .d = (match rest with | [] => told | e' :: _ => told.placed (payFrame .upload (uploadFields s.tariff.cabNumber e')))
          ∧ u.request = (if rest.length = 27 then { s.request with seqD := nextSeq s.request.seqD } else s.request)
          ∧ (s.heard a).changesOnly u [.request, .payment])
    ∧ (s.power.state = .run → s.payment.uploadTimer.isSome = true → s.payment.upload = .awaiting →
      ∀ e rest, s.payment.store = e :: rest →
        exec .uploadTimerExpiry s =
          .next (emit .d (payFrame .upload (uploadFields s.tariff.cabNumber e))
            { s with payment := { s.payment with uploadTimer := some 20000 } }))

/-- POLICY_SET writes all six fields while the shift is CLOSED and hands on the listen policy; it is REFUSED with SHIFT_STATE otherwise, and with RANGE naming
the first field out of range, writing none (R84, R85, R194). The refusal list's requests add, remove and clear prefixes, at most 64, and answer how many are
held (R86); that a REFUSED reply carries no such number is the model's choice (notes/assumptions/38.md). PAY_STATUS answers the payment unit, laid out as
notes/assumptions/16.md reads it, and then, with clear set, makes the unmatched-answer counter
0 (R90). -/
def Obligations.PaymentSettings : Prop :=
  ∀ (a : Arrival) (s : State),
    (s.takes a .policySet → ∀ (f3 f2 f1 f0 c3 c2 c1 c0 timeout tip : Byte) (force listen : Bool),
      let p : Policy := ⟨num [f3, f2, f1, f0], num [c3, c2, c1, c0], timeout.toNat, tip.toNat, force, listen⟩
      let args := [f3, f2, f1, f0, c3, c2, c1, c0, timeout, tip, flag force, flag listen]
      let named (n : Byte) : Prop :=
        exec (.policySet a args) s = .next (s.answered a (replyFrame a.tag RequestName.policySet.code (.refused .range (0, n))))
      (s.shift.state ≠ .closed → exec (.policySet a args) s = .next (s.answered a (refusedReply a .policySet .shiftState)))
      ∧ (s.shift.state = .closed →
        (999999 < p.floorLimit → named 0)
        ∧ (p.floorLimit ≤ 999999 → 9999999 < p.shiftCap → named 1)
        ∧ (p.floorLimit ≤ 999999 → p.shiftCap ≤ 9999999 → p.answerTimeout < 10 ∨ 90 < p.answerTimeout → named 2)
        ∧ (p.floorLimit ≤ 999999 → p.shiftCap ≤ 9999999 → 10 ≤ p.answerTimeout → p.answerTimeout ≤ 90 → 100 < p.tipPercent → named 3)
        ∧ (p.floorLimit ≤ 999999 → p.shiftCap ≤ 9999999 → 10 ≤ p.answerTimeout → p.answerTimeout ≤ 90 → p.tipPercent ≤ 100 →
          exec (.policySet a args) s =
            .next (State.answered
              { s with payment := { s.payment with policy := p }, intercom := { s.intercom with listen := listen } } a
              (doneReply a .policySet [])))))
    ∧ (let list := s.payment.refusalList
       let holding (r : RequestName) (l : List (BitVec 64)) : Host.Outcome State Fault Refusal :=
         .next (State.answered { s with payment := { s.payment with refusalList := l } } a (doneReply a r [byte l.length]))
       (∀ (bytes : List Byte), bytes.length = 8 →
         let v := BitVec.ofNat 64 (num bytes)
         (s.takes a .refusalListAdd →
           (v ∈ list → exec (.refusalListAdd a bytes) s = holding .refusalListAdd list)
           ∧ (v ∉ list → list.length < 64 → exec (.refusalListAdd a bytes) s = holding .refusalListAdd (list ++ [v]))
           ∧ (v ∉ list → 64 ≤ list.length →
             exec (.refusalListAdd a bytes) s = .next (s.answered a (refusedReply a .refusalListAdd .full))))
         ∧ (s.takes a .refusalListRemove →
           (v ∈ list → exec (.refusalListRemove a bytes) s = holding .refusalListRemove (list.filter fun x => x != v))
           ∧ (v ∉ list →
             exec (.refusalListRemove a bytes) s = .next (s.answered a (refusedReply a .refusalListRemove .notFound)))))
       ∧ (s.takes a .refusalListClear → exec (.refusalListClear a []) s = holding .refusalListClear []))
    ∧ (s.takes a .payStatus →
      let x := s.payment
      let p := x.policy
      let fields :=
        be 4 p.floorLimit ++ be 4 p.shiftCap ++ [byte p.answerTimeout, byte p.tipPercent, flag p.forceOffline, flag p.listen]
          ++ byte x.queue.length :: x.queue.flatMap recordBytes ++ byte x.store.length :: headEntryBytes x.store
          ++ [enc UploadState.all x.upload] ++ be 2 x.refCounter ++ [byte x.refusalList.length] ++ be 2 x.unmatched
      exec (.payStatus a [0]) s = .next (s.answered a (doneReply a .payStatus fields))
      ∧ exec (.payStatus a [1]) s =
        .next (State.answered { s with payment := { x with unmatched := 0 } } a (doneReply a .payStatus fields)))

/-! ### The shift -/

/-- SHIFT_OPEN is refused by the first class of R93 that applies; otherwise the shift is OPEN under the next number, with zero totals, the driver, the clock's
stamp and the set id and change counter in force (R93, R94). SHIFT_BREAK and SHIFT_RESUME move between OPEN and BREAK and change no total (R95).
SHIFT_CLOSE, with every slot IDLE, appends a report of the live pages with state CLOSED, releases the snapshot, clears the share flag and the override and
keeps the totals (R96, R97). The sign unit holds the new state each time, and a SHIFT notice with OPENED or CLOSED and the shift number tells C and D of an
opening and a close; a break and its end raise none (R92, R112). -/
def Obligations.ShiftRequests : Prop :=
  ∀ (a : Arrival) (s : State),
    (s.takes a .shiftOpen → ∀ d2 d1 d0 : Byte,
      let refused (reason : Reason) : Prop := exec (.shiftOpen a [d2, d1, d0]) s = .next (s.answered a (refusedReply a .shiftOpen reason))
      (s.shift.state ≠ .closed → refused .shiftState)
      ∧ (s.shift.state = .closed →
        (s.setInForce = false → refused .noTariff)
        ∧ (s.setInForce = true → 999999 < num [d2, d1, d0] → refused .range)
        ∧ (s.setInForce = true → num [d2, d1, d0] ≤ 999999 → 8 ≤ s.shift.reports.length → refused .full)
        ∧ (s.setInForce = true → num [d2, d1, d0] ≤ 999999 → s.shift.reports.length < 8 →
          let number := if s.shift.number = 65535 then 1 else s.shift.number + 1
          ∃ u, exec (.shiftOpen a [d2, d1, d0]) s = .next (emit a.port (doneReply a .shiftOpen (be 2 number)) u)
            ∧ u.shift = { s.shift with
                state := .opened, number := number, driverId := num [d2, d1, d0], openTime := s.tariff.clock,
                setId := s.tariff.setId, changes := s.tariff.changes, totals := .zero }
            ∧ u.sign.shift = .opened ∧ (s.heard a).bothTold u .shift (0 :: be 2 number)
            ∧ (s.heard a).changesOnly u [.request, .shift, .sign])))
    ∧ (s.takes a .shiftBreak →
      (s.shift.state ≠ .opened → exec (.shiftBreak a []) s = .next (s.answered a (refusedReply a .shiftBreak .shiftState)))
      ∧ (s.shift.state = .opened → s.everyIdle = false →
        exec (.shiftBreak a []) s = .next (s.answered a (refusedReply a .shiftBreak .partyState)))
      ∧ (s.shift.state = .opened → s.everyIdle = true →
        ∃ u, exec (.shiftBreak a []) s = .next (emit a.port (doneReply a .shiftBreak [2]) u)
          ∧ u.shift = { s.shift with state := .onBreak } ∧ u.sign.shift = .onBreak
          ∧ u.port .c = (s.heard a).port .c ∧ u.port .d = (s.heard a).port .d ∧ (s.heard a).changesOnly u [.shift, .sign]))
    ∧ (s.takes a .shiftResume →
      (s.shift.state ≠ .onBreak → exec (.shiftResume a []) s = .next (s.answered a (refusedReply a .shiftResume .shiftState)))
      ∧ (s.shift.state = .onBreak →
        ∃ u, exec (.shiftResume a []) s = .next (emit a.port (doneReply a .shiftResume [1]) u)
          ∧ u.shift = { s.shift with state := .opened } ∧ u.sign.shift = .opened
          ∧ u.port .c = (s.heard a).port .c ∧ u.port .d = (s.heard a).port .d ∧ (s.heard a).changesOnly u [.shift, .sign]))
    ∧ (s.takes a .shiftClose →
      (s.shift.state = .closed → exec (.shiftClose a []) s = .next (s.answered a (refusedReply a .shiftClose .shiftState)))
      ∧ (s.shift.state ≠ .closed → s.everyIdle = false →
        exec (.shiftClose a []) s = .next (s.answered a (refusedReply a .shiftClose .partyState)))
      ∧ (s.shift.state ≠ .closed → s.everyIdle = true →
        ∃ u, exec (.shiftClose a []) s =
            .next (emit a.port (doneReply a .shiftClose (be 2 s.shift.number ++ [byte (s.shift.reports.length + 1)])) u)
          ∧ u.shift = { s.shift with
              state := .closed, snapshot := none, reports := s.shift.reports ++ [{ s.livePages with state := .closed }] }
          ∧ u.fare = { s.fare with share := false } ∧ u.sign.offDuty = false ∧ u.sign.shift = .closed
          ∧ (s.heard a).bothTold u .shift (1 :: be 2 s.shift.number)
          ∧ (s.heard a).changesOnly u [.request, .fare, .shift, .sign]))

/-- TOTALS_READ answers a page from a held snapshot, from one it takes with freeze set while the shift is OPEN or on BREAK, or live; the read that completes
the three marks releases the snapshot (R105, R106). TOTALS_THAW releases it (R107). REPORT_READ answers a page of a held report and changes nothing
(R109). A page above 2 is REFUSED with RANGE by both reads (R105, R109). REPORT_DROP removes the oldest report if its number matches (R110). -/
def Obligations.TotalsAndReports : Prop :=
  (∀ (a : Arrival) (s : State) (n : Byte),
    3 ≤ n.toNat →
      (s.takes a .totalsRead → ∀ freeze : Bool,
        exec (.totalsRead a [n, flag freeze]) s = .next (s.answered a (refusedReply a .totalsRead .range)))
      ∧ (s.takes a .reportRead → ∀ k : Byte,
        exec (.reportRead a [k, n]) s = .next (s.answered a (refusedReply a .reportRead .range))))
  ∧ ∀ (a : Arrival) (s : State) (n : Byte) (page : Fin 3),
    n.toNat = page.val →
      (s.takes a .totalsRead →
        (∀ x (freeze : Bool), s.shift.snapshot = some x →
          let all := (x.read0 || page == 0) && (x.read1 || page == 1) && (x.read2 || page == 2)
          exec (.totalsRead a [n, flag freeze]) s =
            .next (State.answered
              { s with shift := { s.shift with
                  snapshot := if all then none else some ⟨x.pages, x.read0 || page == 0, x.read1 || page == 1, x.read2 || page == 2⟩ } }
              a (doneReply a .totalsRead (pageBytes .snapshot 0 x.pages page))))
        ∧ (s.shift.snapshot = none → s.shift.state ≠ .closed →
          exec (.totalsRead a [n, 1]) s =
            .next (State.answered
              { s with shift := { s.shift with snapshot := some ⟨s.livePages, page == 0, page == 1, page == 2⟩ } }
              a (doneReply a .totalsRead (pageBytes .snapshot 0 s.livePages page))))
        ∧ (∀ freeze : Bool, s.shift.snapshot = none → s.shift.state = .closed ∨ freeze = false →
          exec (.totalsRead a [n, flag freeze]) s =
            .next (s.answered a (doneReply a .totalsRead (pageBytes .live 0 s.livePages page)))))
      ∧ (s.takes a .totalsThaw →
        exec (.totalsThaw a []) s =
          .next (State.answered { s with shift := { s.shift with snapshot := none } } a
            (doneReply a .totalsThaw [flag s.shift.snapshot.isSome])))
      ∧ (s.takes a .reportRead → ∀ k : Byte,
        (∀ p, s.shift.reports[k.toNat]? = some p → k.toNat ≤ 7 →
          exec (.reportRead a [k, n]) s =
            .next (s.answered a (doneReply a .reportRead (pageBytes .report s.shift.reports.length p page))))
        ∧ (s.shift.reports.length ≤ k.toNat → k.toNat ≤ 7 →
          exec (.reportRead a [k, n]) s = .next (s.answered a (refusedReply a .reportRead .notFound)))
        ∧ (7 < k.toNat → exec (.reportRead a [k, n]) s = .next (s.answered a (refusedReply a .reportRead .range))))
      ∧ (s.takes a .reportDrop → ∀ hi lo : Byte,
        (s.shift.reports = [] → exec (.reportDrop a [hi, lo]) s = .next (s.answered a (refusedReply a .reportDrop .notFound)))
        ∧ ∀ p rest, s.shift.reports = p :: rest →
          (p.number ≠ num [hi, lo] → exec (.reportDrop a [hi, lo]) s = .next (s.answered a (refusedReply a .reportDrop .mismatch)))
          ∧ (p.number = num [hi, lo] →
            exec (.reportDrop a [hi, lo]) s =
              .next (State.answered { s with shift := { s.shift with reports := rest } } a
                (doneReply a .reportDrop [byte rest.length]))))

/-! ### The sign -/

/-- VIEW_SET, IMAGE_SET, STRIPES_SET and BLOCK_SET write their entry whole and change nothing else; they are REFUSED with RANGE for an image base or index
above 7, a count above 8, a stripe wider than 80 (naming the first such), a length of 0 or above 16 (R117, R119, R120, R121). SIGN_READ answers an
entry as held, to C and D alike, and RANGE outside the tables (R126); that the stripes are eight pairs without a count byte is the model's choice
(notes/assumptions/16.md). -/
def Obligations.SignTables : Prop :=
  ∀ (a : Arrival) (s : State),
    let wrote (r : RequestName) (x : SignUnit) : Host.Outcome State Fault Refusal :=
      .next (State.answered { s with sign := x } a (doneReply a r []))
    let range (r : RequestName) : Host.Outcome State Fault Refusal := .next (s.answered a (refusedReply a r .range))
    (s.takes a .viewSet →
      ∀ (mode : SignMode) (source : PanelSource) (base : Byte) (an : Animation) (t : TimerId) (ti : Bool) (l0 l1 l2 l3 : LampProgram),
        let args := [enc SignMode.all mode, enc PanelSource.all source, base, enc Animation.all an, enc TimerId.all t, flag ti,
          enc LampProgram.all l0, enc LampProgram.all l1, enc LampProgram.all l2, enc LampProgram.all l3]
        (base.toNat ≤ 7 →
          exec (.viewSet a args) s = wrote .viewSet { s.sign with
            views := s.sign.views.set mode.index ⟨source, base.toNat, an, t, ti, #v[l0, l1, l2, l3]⟩ })
        ∧ (7 < base.toNat → exec (.viewSet a args) s = range .viewSet))
    ∧ (s.takes a .imageSet → ∀ columns : List Byte, columns.length = 80 →
      (∀ i : Fin 8, exec (.imageSet a (byte i.val :: columns)) s =
        wrote .imageSet { s.sign with images := s.sign.images.set i columns })
      ∧ ∀ n : Byte, 8 ≤ n.toNat → exec (.imageSet a (n :: columns)) s = range .imageSet)
    ∧ (s.takes a .stripesSet → ∀ pairs : List Stripe, (∀ x ∈ pairs, x.width ≤ 255) → pairs.length ≤ 99 →
      let args := byte pairs.length :: pairs.flatMap fun x => [byte x.width, x.column]
      (pairs.length ≤ 8 → (∀ x ∈ pairs, x.width ≤ 80) →
        exec (.stripesSet a args) s =
          wrote .stripesSet { s.sign with stripes := Vector.ofFn fun i : Fin 8 => pairs.getD i.val ⟨0, 0⟩ })
      ∧ (8 < pairs.length → exec (.stripesSet a args) s = range .stripesSet)
      ∧ ∀ before x after, pairs = before ++ x :: after → pairs.length ≤ 8 → (∀ y ∈ before, y.width ≤ 80) → 80 < x.width →
        exec (.stripesSet a args) s = .next (s.answered a (replyFrame a.tag RequestName.stripesSet.code
          (.refused .range (0, byte before.length)))))
    ∧ (s.takes a .blockSet → ∀ bytes : List Byte, bytes.length ≤ 198 →
      (1 ≤ bytes.length → bytes.length ≤ 16 →
        exec (.blockSet a (byte bytes.length :: bytes)) s = wrote .blockSet { s.sign with block := bytes })
      ∧ (bytes.length = 0 ∨ 16 < bytes.length → exec (.blockSet a (byte bytes.length :: bytes)) s = range .blockSet))
    ∧ (s.takes a .signRead →
      let reads (table n : Byte) (fields : List Byte) : Prop :=
        exec (.signRead a [table, n]) s = .next (s.answered a (doneReply a .signRead fields))
      (∀ i : Fin 5, reads 0 (byte i.val) (viewBytes s.sign.views[i])) ∧ (∀ i : Fin 8, reads 1 (byte i.val) s.sign.images[i])
      ∧ reads 2 0 (s.sign.stripes.toList.flatMap fun x => [byte x.width, x.column])
      ∧ reads 3 0 (byte s.sign.block.length :: s.sign.block)
      ∧ ∀ table n : Byte, (table = 0 ∧ 5 ≤ n.toNat) ∨ (table = 1 ∧ 8 ≤ n.toNat) ∨ ((table = 2 ∨ table = 3) ∧ n ≠ 0) →
        exec (.signRead a [table, n]) s = range .signRead)

/-- OFF_DUTY_OVERRIDE writes the override and answers it with the mode the latch taken as clear gives; the mode is derived and the sign composed at that
event (R111, R116, R122). EMERGENCY_CLEAR with the latch set clears it, tells the intercom and the power unit, empties D's voice lane and places CLEARED
toward D alone; with the latch clear it changes nothing (R113, R114, R115, R171). SIGN_STATUS answers the sign as it stands: toward D with the latch, the
alarm flag, the lamps of the last output and the effective image its composition chose, toward C without them (R118, R125), laid out as
notes/assumptions/16.md reads it; that the image reads 0 where the current view's source is not IMAGE or no image is in use is the model's choice (24.md).
SIGN_STAT, in RUN and in PARKED until S is shut, replaces the health; a change is noticed, a fall from healthy to faulty counted (R124, R186). -/
def Obligations.SignModeRequests : Prop :=
  ∀ (a : Arrival) (s : State),
    let x := s.sign
    (s.takes a .offDutyOverride → ∀ on : Bool,
      let told := deriveMode false x.riding x.share x.seatLimit x.shift on
      ∃ u, exec (.offDutyOverride a [flag on]) s =
          .next (emit a.port (doneReply a .offDutyOverride [flag on, enc SignMode.all told]) u)
        ∧ u.sign.offDuty = on ∧ u.sign.mode = deriveMode x.latch x.riding x.share x.seatLimit x.shift on
        ∧ u.sign.output = u.composed ∧ u.sign.imageInUse = u.imageChosen ∧ (s.heard a).changesOnly u [.sign])
    ∧ (s.takes a .emergencyClear →
      (x.latch = false → exec (.emergencyClear a []) s = .next (s.answered a (doneReply a .emergencyClear [0])))
      ∧ (x.latch = true →
        ∃ u, exec (.emergencyClear a []) s = .next (emit a.port (doneReply a .emergencyClear [1]) u)
          ∧ u.sign.latch = false ∧ u.sign.alarmSeen = x.alarmSeen
          ∧ u.sign.mode = deriveMode false x.riding x.share x.seatLimit x.shift x.offDuty
          ∧ u.sign.output = u.composed ∧ u.sign.imageInUse = u.imageChosen ∧ u.intercom = { s.intercom with emergency := false } ∧ u.power.latch = false
          ∧ u.port .d = ({ (s.heard a).port .d with voice := [] }).placed (noticeFrame s.request.seqD .emergency [1])
          ∧ u.port .c = s.port .c ∧ u.request = { s.request with seqD := (s.request.seqD + 1) % 256 }
          ∧ (s.heard a).changesOnly u [.link, .request, .sign, .intercom, .power]))
    ∧ (s.takes a .signStatus →
      let inputs := [flag x.offDuty, byte x.riding, flag x.share, byte x.seatLimit]
      let health := [lampByte x.lampFaults, flag x.panelFault]
      (a.port = .d →
        exec (.signStatus a []) s = .next (s.answered a (doneReply a .signStatus
          ([enc SignMode.all x.mode, flag x.latch, flag x.alarmSeen] ++ inputs
            ++ [lampByte x.output.lamps, if x.view.source = .image then byte (x.imageInUse.getD 0) else 0] ++ health))))
      ∧ (a.port = .c →
        exec (.signStatus a []) s = .next (s.answered a (doneReply a .signStatus
          (enc SignMode.all (deriveMode false x.riding x.share x.seatLimit x.shift x.offDuty) :: inputs ++ health)))))
    ∧ (a.port = .s → s.power.state ≠ .off → s.isUp .s = true → (s.port .s).shut = false → ∀ (lamps : Byte) (panel : Bool),
      let healthy := lampByte x.lampFaults = 0 ∧ x.panelFault = false
      let changed := lampsOf lamps ≠ x.lampFaults ∨ panel ≠ x.panelFault
      let onset := healthy ∧ changed ∧ s.shift.state ≠ .closed
      ∃ u, exec (.signStat a [lamps, flag panel]) s = .next u
        ∧ u.sign = { x with lampFaults := lampsOf lamps, panelFault := panel }
        ∧ u.shift = (if onset then { s.shift with totals := s.shift.totals.countSignFault } else s.shift)
        ∧ (s.link.telemetryRoutes.s.targets = 0 → s.power.state = .run ∨ s.power.shutPending = false →
          u.request = (if changed then ⟨(s.request.seqC + 1) % 256, (s.request.seqD + 1) % 256⟩ else s.request)
            ∧ u.port .c = (if changed then (s.port .c).placed (noticeFrame s.request.seqC .signHealth [lamps &&& 0x0F, flag panel])
                else s.port .c)
            ∧ u.port .d = (if changed then (s.port .d).placed (noticeFrame s.request.seqD .signHealth [lamps &&& 0x0F, flag panel])
                else s.port .d))
        ∧ (s.heard a).changesOnly u ((if s.power.shutPending then [.link, .power] else []) ++ [.request, .shift, .sign]))

/-! ### Cadence -/

/-- A cadence count takes both timers: a stopped one stands, one above 1 counts down, one at 1 sets its flag and reloads or stops. The comparators then act
on the lamp latches: TOGGLE inverts its lamp at a match, ONCE_TOGGLE only while armed, SET_CLEAR sets at a match and clears at its timer's terminal
count, both at once leaving the lamp as it was, PAIR toggles its TOGGLE partner's lamp, and the two of a pair at one event toggle it once; the requests of
all eight on one lamp combine, an even number of toggles leaving it and a set or a clear alone overriding them (R129, R135 to R139). The sign composes before or after the count, as the event leaves open, and repaints after 100 counts (R122, R123); that the composition comes before
the refresh count grows is the model's choice (notes/assumptions/11.md), and that SIGN_REFRESH and TERMINAL_COUNT are such a count is too (5.md). -/
def Obligations.CadenceCounts : Prop :=
  let offers (w : CadenceTimer) : Option Nat :=
    if w.state = .stopped then none
    else if 1 < w.count then some (w.count - 1)
    else if w.state = .running ∧ w.mode = .repeating then some w.programmed
    else none
  (∀ (x : CadenceUnit) (t : TimerId),
    let w := x.timer t
    (w.state = .stopped → x.count.timer t = w)
    ∧ (w.state ≠ .stopped → 1 < w.count → x.count.timer t = { w with count := w.count - 1 })
    ∧ (w.state ≠ .stopped → w.count = 1 →
      x.count.timer t =
        if w.state = .running ∧ w.mode = .repeating then { w with terminal := true, current := w.programmed, count := w.programmed }
        else { w with terminal := true, state := .stopped, count := 0 }))
  ∧ (∀ (x : CadenceUnit) (i : Fin 8),
    let y := x.comparators[i]
    let w := x.timer y.timer
    let hit := offers w = some y.value
    let terminal := w.state ≠ .stopped ∧ w.count ≤ 1
    let loaded := terminal ∧ w.state = .running ∧ w.mode = .repeating
    let lamp (b : Bool) : Prop := x.count.latches = x.latches.set y.lamp b
    let old := x.latches[y.lamp]
    y.value ≠ 0 → (∀ j, j ≠ i → (x.comparators[j]).mode = .off) →
      (y.mode = .off ∨ y.mode = .pair → x.count.latches = x.latches)
      ∧ (y.mode = .toggle → lamp (if hit then !old else old))
      ∧ (y.mode = .onceToggle →
          lamp (if hit ∧ (y.armed = true ∨ loaded) then !old else old)
            ∧ ((x.count.comparators[i]).armed = true ↔ ¬ hit ∧ (y.armed = true ∨ loaded)))
      ∧ (y.mode = .setClear → lamp (if hit ∧ ¬ terminal then true else if terminal ∧ ¬ hit then false else old)))
  ∧ (∀ (x : CadenceUnit) (i : Fin 4),
    let y := x.comparators[i.val]
    let z := x.comparators[i.val + 4]
    y.mode = .toggle → z.mode = .pair → y.value ≠ 0 → z.value ≠ 0 →
      (∀ j : Fin 8, j.val ≠ i.val → j.val ≠ i.val + 4 → (x.comparators[j]).mode = .off) →
        x.count.latches = x.latches.set y.lamp
          (if offers (x.timer y.timer) = some y.value ∨ offers (x.timer z.timer) = some z.value then !x.latches[y.lamp]
            else x.latches[y.lamp]))
  ∧ (∀ (x : CadenceUnit),
    let offered (t : TimerId) : Option Nat := offers (x.timer t)
    let terminal (t : TimerId) : Bool := (x.timer t).state != .stopped && decide ((x.timer t).count ≤ 1)
    let loaded (t : TimerId) : Bool := terminal t && (x.timer t).state == .running && (x.timer t).mode == .repeating
    (∀ l : Fin 4, x.count.latches[l] = x.latchAfter offered loaded terminal l)
      ∧ ∀ i : Fin 8, x.count.comparators[i] = x.comparatorAfter offered loaded i)
  ∧ ∀ (s : State) (signFirst : Bool),
    s.power.state = .run →
      ∃ u, exec (.cadenceCount signFirst) s = .next u ∧ u.cadence = s.cadence.count
        ∧ u.sign = { s.sign with
            output := if signFirst then s.composed else State.composed { s with cadence := s.cadence.count },
            imageInUse := s.imageChosen, refresh := u.sign.refresh }
        ∧ (s.isUp .s = false → u.sign.refresh = s.sign.refresh ∧ u.link = s.link)
        ∧ (s.isUp .s = true → u.sign.output = s.sign.output →
          (s.sign.refresh < 99 → u.sign.refresh = s.sign.refresh + 1 ∧ u.link = s.link)
          ∧ (s.sign.refresh = 99 → u.sign.refresh = 0 ∧ u.port .s = (s.port .s).placed (signFrame s.sign.output)
              ∧ exec (.signRefresh signFirst) s = .next u))
        ∧ (s.isUp .s = true → u.sign.output ≠ s.sign.output → u.port .s = (s.port .s).placed (signFrame u.sign.output))
        ∧ s.changesOnly u [.sign, .cadence, .intercom]
        ∧ ∀ t, (s.cadence.timer t).state ≠ .stopped → (s.cadence.timer t).count = 1 →
          exec (.terminalCount t signFirst) s = .next u

/-- TIMER_SET writes the clamped period and the mode and leaves the run in progress (R130). COMPARATOR_SET writes four fields or is REFUSED with RANGE
(R134). TIMER_START loads and runs a timer, whose ONCE_TOGGLE comparators are rearmed and whose comparators are then offered the count, with no flag set and
no clear of a SET_CLEAR (R131, R136); TIMER_STOP stops it, with no flag set; TIMER_STOP_AT_END makes a RUNNING one DRAINING (R131, R132).
TIMER_STATUS answers all, its latches in one byte as notes/assumptions/16.md reads it, and then clears both flags (R133). LAMP_WRITE sets one latch (R140). -/
def Obligations.CadenceRequests : Prop :=
  ∀ (a : Arrival) (s : State),
    let leaves (x : CadenceUnit) (f : Frame) : Host.Outcome State Fault Refusal := .next (State.answered { s with cadence := x } a f)
    (s.takes a .timerSet → ∀ (t : TimerId) (hi lo : Byte) (mode : TimerMode),
      let w := s.cadence.timer t
      let period := max 2 (min 16383 (num [hi, lo]))
      exec (.timerSet a [enc TimerId.all t, hi, lo, enc TimerMode.all mode]) s =
        leaves (s.cadence.setTimer t { w with programmed := period, mode := mode })
          (replyFrame a.tag RequestName.timerSet.code
            (.done (be 2 period ++ [enc TimerMode.all mode, enc TimerState.all w.state] ++ be 2 w.current)
              (decide (num [hi, lo] < 2 ∨ 16383 < num [hi, lo])))))
    ∧ (s.takes a .comparatorSet → ∀ (n : Byte) (t : TimerId) (hi lo : Byte) (mode : ComparatorMode) (lamp : Byte),
      let args := [n, enc TimerId.all t, hi, lo, enc ComparatorMode.all mode, lamp]
      (8 ≤ n.toNat ∨ 16383 < num [hi, lo] ∨ 4 ≤ lamp.toNat ∨ (mode = .pair ∧ n.toNat < 4) →
        exec (.comparatorSet a args) s = .next (s.answered a (refusedReply a .comparatorSet .range)))
      ∧ ∀ (i : Fin 8) (l : Fin 4), n.toNat = i.val → lamp.toNat = l.val → num [hi, lo] ≤ 16383 → (mode = .pair → 4 ≤ i.val) →
        exec (.comparatorSet a args) s =
          leaves { s.cadence with
              comparators := s.cadence.comparators.set i ⟨t, num [hi, lo], mode, l, (s.cadence.comparators[i]).armed⟩ }
            (doneReply a .comparatorSet []))
    ∧ (∀ t : TimerId,
      let w := s.cadence.timer t
      (s.takes a .timerStart →
        exec (.timerStart a [enc TimerId.all t]) s =
          leaves (s.cadence.start t) (doneReply a .timerStart (be 2 w.programmed ++ be 2 w.programmed)))
      ∧ (s.cadence.start t).timer t = { w with current := w.programmed, count := w.programmed, state := .running }
      ∧ (∀ t', t' ≠ t → (s.cadence.start t).timer t' = s.cadence.timer t')
      ∧ (let offered (t' : TimerId) : Option Nat := if t' = t then some w.programmed else none
         (∀ l : Fin 4, (s.cadence.start t).latches[l] = s.cadence.latchAfter offered (fun t' => t' == t) (fun _ => false) l)
           ∧ ∀ i : Fin 8, (s.cadence.start t).comparators[i] = s.cadence.comparatorAfter offered (fun t' => t' == t) i)
      ∧ (s.takes a .timerStop →
        exec (.timerStop a [enc TimerId.all t]) s =
          leaves (s.cadence.setTimer t (if w.state = .stopped then w else { w with state := .stopped, count := 0 }))
            (doneReply a .timerStop [enc TimerState.all .stopped]))
      ∧ (s.takes a .timerStopAtEnd →
        let st : TimerState := if w.state = .stopped then .stopped else .draining
        exec (.timerStopAtEnd a [enc TimerId.all t]) s =
          leaves (s.cadence.setTimer t { w with state := st }) (doneReply a .timerStopAtEnd [enc TimerState.all st])))
    ∧ (s.takes a .timerStatus →
      let x := s.cadence
      exec (.timerStatus a []) s =
        leaves { x with ct0 := { x.ct0 with terminal := false }, ct1 := { x.ct1 with terminal := false } }
          (doneReply a .timerStatus
            (timerBytes x.ct0 ++ timerBytes x.ct1 ++ x.comparators.toList.flatMap comparatorBytes ++ [lampByte x.latches])))
    ∧ (s.takes a .lampWrite → ∀ value : Bool,
      (∀ l : Fin 4,
        let latches := s.cadence.latches.set l value
        exec (.lampWrite a [byte l.val, flag value]) s =
          leaves { s.cadence with latches := latches } (doneReply a .lampWrite [lampByte latches]))
      ∧ ∀ n : Byte, 4 ≤ n.toNat →
        exec (.lampWrite a [n, flag value]) s = .next (s.answered a (refusedReply a .lampWrite .range)))

/-! ### The intercom -/

/-- ANSWER is REFUSED with LINK_DOWN while P is DOWN; otherwise it opens the stations named together with those that wait, or adds them to a
conversation (R148). HANGUP makes the intercom QUIET (R149). GAINS_SET writes four gains, each clamped to 127 (R153). CHIME_SET writes one entry, its
amplitude clamped, or is REFUSED with RANGE; CHIME_READ answers one (R157, R162). INTERCOM_STATUS answers the intercom as it stands, and of emergency
listen only toward D (R161, R162). Its layout and the call timer's remaining time are the model's readings (notes/assumptions/16.md, 4.md). -/
def Obligations.IntercomRequests : Prop :=
  ∀ (a : Arrival) (s : State),
    let x := s.intercom
    let leaves (y : IntercomUnit) (f : Frame) : Host.Outcome State Fault Refusal := .next (State.answered { s with intercom := y } a f)
    (s.takes a .answer → ∀ stations : AnswerStations,
      let named : StationSet := ⟨stations != .right, stations != .left⟩
      (s.isUp .p = false →
        exec (.answer a [enc AnswerStations.all stations]) s = .next (s.answered a (refusedReply a .answer .linkDown)))
      ∧ (s.isUp .p = true →
        let done (y : IntercomUnit) : Prop :=
          exec (.answer a [enc AnswerStations.all stations]) s =
            leaves y (doneReply a .answer [enc IntercomState.all .opened, y.opened.byte])
        (x.state = .quiet → done { x with state := .opened, opened := named })
        ∧ (x.state = .calling →
          done { x with
            state := .opened, opened := x.calling.union named, calling := .none, callTimer := none, driverPlayer := none })
        ∧ (x.state = .opened → done { x with opened := x.opened.union named })
        ∧ (x.state = .announce →
          done { x with state := .opened, opened := x.calling.union named, calling := .none, callTimer := none })))
    ∧ (s.takes a .hangup →
      exec (.hangup a []) s =
        leaves (if x.state = .quiet then x else
            { x with state := .quiet, calling := .none, opened := .none, callTimer := none, driverPlayer := none })
          (doneReply a .hangup [enc IntercomState.all .quiet]))
    ∧ (s.takes a .gainsSet → ∀ g0 g1 g2 g3 : Byte,
      let c (g : Byte) : Nat := min 127 g.toNat
      exec (.gainsSet a [g0, g1, g2, g3]) s =
        leaves { x with gains := ⟨c g0, c g1, c g2, c g3⟩ }
          (replyFrame a.tag RequestName.gainsSet.code
            (.done [byte (c g0), byte (c g1), byte (c g2), byte (c g3)]
              (decide (127 < g0.toNat ∨ 127 < g1.toNat ∨ 127 < g2.toNat ∨ 127 < g3.toNat)))))
    ∧ (s.takes a .chimeSet → ∀ (chime : ChimeId) (half hi lo duration : Byte) (gate : Gate),
      let args := [enc ChimeId.all chime, half, hi, lo, duration, enc Gate.all gate]
      let y : Chime := ⟨half.toNat, min 16383 (num [hi, lo]), duration.toNat, gate⟩
      (2 ≤ half.toNat → half.toNat ≤ 80 → duration ≠ 0 →
        exec (.chimeSet a args) s =
          leaves { x with chimes := x.chimes.write chime y }
            (replyFrame a.tag RequestName.chimeSet.code
              (.done ([half] ++ be 2 (min 16383 (num [hi, lo])) ++ [duration, enc Gate.all gate]) (decide (16383 < num [hi, lo])))))
      ∧ (half.toNat < 2 ∨ 80 < half.toNat ∨ duration = 0 →
        exec (.chimeSet a args) s = .next (s.answered a (refusedReply a .chimeSet .range))))
    ∧ (s.takes a .chimeRead → ∀ chime : ChimeId,
      let y := x.chimes.entry chime
      exec (.chimeRead a [enc ChimeId.all chime]) s =
        .next (s.answered a (doneReply a .chimeRead
          ([byte y.halfPeriod] ++ be 2 y.amplitude ++ [byte y.duration, enc Gate.all y.gate]))))
    ∧ (s.takes a .intercomStatus →
      let common := [enc IntercomState.all x.state, x.calling.byte, x.opened.byte, byte x.callSeconds, flag x.seenLeft, flag x.seenRight,
          flag x.seenTalk, byte x.gains.gL, byte x.gains.gR, byte x.gains.hL, byte x.gains.hR]
        ++ playerBytes x.driverPlayer ++ playerBytes x.partitionPlayer
        ++ [byte x.seqC, byte x.seqP, flag (x.muted.left || x.muted.right), x.muted.byte]
      (a.port = .c → exec (.intercomStatus a []) s = .next (s.answered a (doneReply a .intercomStatus common)))
      ∧ (a.port = .d →
        exec (.intercomStatus a []) s =
          .next (s.answered a (doneReply a .intercomStatus
            (common ++ [flag x.listen, flag (x.emergency && x.listen), byte x.seqD])))))

/-- A frame from P takes its buttons by the call protocol, LEFT before RIGHT: from QUIET a rise calls and starts the 30 s, in CALLING it joins the calls and
restarts them, in OPEN it joins the conversation, in ANNOUNCE it is held; each fresh call is one CALL notice (R142, R144, R145). It then forms the block
toward C, where C is UP and there is something to hear. A frame from C takes the talk key and forms the block toward P (R146, R154, R155). The block that
completes a chime's duration ends it, a CALL the frame's own rise triggered included, which is the event CHIME_END; where no chime ends there is no such event
(R145, R158, R159, notes/assumptions/5.md). The call timer's expiry in CALLING misses the calls (R147). -/
def Obligations.AudioFrames : Prop :=
  ∀ (a : Arrival) (s : State),
    let x := s.intercom
    (a.port = .p → s.hears .p → ∀ (buttons : Byte) (bytes : List Byte), bytes.length = 160 →
      let rises : StationSet := ⟨buttons.getLsbD 0 && !x.seenLeft, buttons.getLsbD 1 && !x.seenRight⟩
      let held : StationSet := match x.state with | .quiet => .none | .opened => x.opened | _ => x.calling
      let fresh : StationSet := ⟨rises.left && !held.left, rises.right && !held.right⟩
      let mute := s.mutedStations
      let l := muteSamples mute.left ((samples bytes).take 40)
      let r := muteSamples mute.right ((samples bytes).drop 40)
      ∃ u, exec (.audioFromP a (buttons :: bytes)) s = .next u
        ∧ u.intercom.seenLeft = buttons.getLsbD 0 ∧ u.intercom.seenRight = buttons.getLsbD 1 ∧ u.intercom.muted = mute
        ∧ u.intercom.state = (if x.state = .quiet ∧ fresh ≠ .none then .calling else x.state)
        ∧ u.intercom.calling = (if x.state = .opened ∨ fresh = .none then x.calling else held.union fresh)
        ∧ u.intercom.opened = (if x.state = .opened then x.opened.union fresh else x.opened)
        ∧ u.intercom.callTimer = (if fresh ≠ .none ∧ (x.state = .quiet ∨ x.state = .calling) then some 30000 else x.callTimer)
        ∧ u.request = { s.request with
            seqC := (if fresh.left then nextSeq else id) ((if fresh.right then nextSeq else id) s.request.seqC) }
        ∧ (fresh = .none →
          u.port .c =
            (if s.isUp .c ∧ ((x.state = .opened ∧ x.opened ≠ .none) ∨ x.driverPlayer.isSome = true) then
              (s.port .c).placeVoice
                (frameOf .audio 0 (byte x.seqC) (0 :: samplesBytes ((List.range 40).map (driverSample x s.cadence l r))))
            else s.port .c)
          ∧ ((x.listen && x.emergency && s.isUp .d) = true →
            u.port .d = (s.port .d).placeVoice
              (frameOf .audio 0 (byte x.seqD) (0 :: samplesBytes ((List.range 40).map fun i => clamp16 (l.getD i 0 + r.getD i 0))))))
        ∧ (s.heard a).changesOnly u [.request, .intercom])
    ∧ (a.port = .c → s.hears .c → ∀ (key : Byte) (bytes : List Byte), bytes.length = 80 →
      ∃ u, exec (.audioFromC a (key :: bytes)) s = .next u ∧ u.intercom.seenTalk = key.getLsbD 0
        ∧ (let rise := key.getLsbD 0 = true ∧ x.seenTalk = false
           let fall := key.getLsbD 0 = false ∧ x.seenTalk = true
           let answers := rise ∧ x.state = .calling
           let calls := fall ∧ x.state = .announce ∧ x.calling ≠ .none
           u.intercom.state =
              (if rise ∧ x.state = .quiet then .announce else if answers then .opened
                else if calls then .calling else if fall ∧ x.state = .announce then .quiet else x.state)
            ∧ u.intercom.calling = (if answers then .none else x.calling)
            ∧ u.intercom.opened = (if answers then x.calling else x.opened)
            ∧ u.intercom.callTimer = (if answers then none else if calls then some 30000 else x.callTimer)
            ∧ (answers → u.intercom.driverPlayer = none))
        ∧ (let route := u.intercom.fromDriver
           let channel (on : Bool) (gain : Nat) := samplesBytes ((List.range 40).map (partitionSample x s.cadence on gain (samples bytes)))
           let heard := s.isUp .p = true ∧ (route ≠ .none ∨ x.partitionPlayer.isSome = true)
           u.intercom.seqP = (if heard then (x.seqP + 1) % 256 else x.seqP)
            ∧ u.port .p = (if heard then
                (s.port .p).placeVoice
                  (frameOf .audio 0 (byte x.seqP) (0 :: channel route.left x.gains.hL ++ channel route.right x.gains.hR))
              else s.port .p))
        ∧ (s.heard a).changesOnly u [.intercom])
    ∧ (a.port = .p → s.hears .p → s.isUp .c = true → ∀ (buttons : Byte) (bytes : List Byte), bytes.length = 160 →
      let rises : StationSet := ⟨buttons.getLsbD 0 && !x.seenLeft, buttons.getLsbD 1 && !x.seenRight⟩
      let held : StationSet := match x.state with | .quiet => .none | .opened => x.opened | _ => x.calling
      let calls := x.state ≠ .announce ∧ ((rises.left && !held.left) || (rises.right && !held.right)) = true
      let ends :=
        (calls ∧ x.chimes.call.duration ≤ 1)
          ∨ (¬ calls ∧ ∃ y, x.driverPlayer = some y ∧ y.entry.duration ≤ y.produced + 1)
      (ends → ∃ u, exec (.chimeEnd .driver a (buttons :: bytes)) s = .next u ∧ u.intercom.driverPlayer = none
        ∧ exec (.audioFromP a (buttons :: bytes)) s = .next u)
      ∧ (¬ ends → exec (.chimeEnd .driver a (buttons :: bytes)) s = .next s))
    ∧ (a.port = .c → s.hears .c → s.isUp .p = true → ∀ (key : Byte) (bytes : List Byte), bytes.length = 80 →
      let ends := ∃ y, x.partitionPlayer = some y ∧ y.entry.duration ≤ y.produced + 1
      (ends → ∃ u, exec (.chimeEnd .partition a (key :: bytes)) s = .next u ∧ u.intercom.partitionPlayer = none
        ∧ exec (.audioFromC a (key :: bytes)) s = .next u)
      ∧ (¬ ends → exec (.chimeEnd .partition a (key :: bytes)) s = .next s))
    ∧ (s.power.state = .run → x.callTimer.isSome = true → x.state = .calling →
      ∃ u, exec .callTimerExpiry s = .next u
        ∧ u.intercom = { x with state := .quiet, calling := .none, opened := .none, callTimer := none, driverPlayer := none }
        ∧ u.port .c = (s.port .c).missedTold s.request.seqC x.calling
        ∧ s.changesOnly u [.request, .intercom])

/-- While the head of the payment queue is in PIN, nothing a frame from P carries in the samples of the paying party's station, or of either station for a
party with none, reaches any part of the hub's state: two frames that differ in those samples alone have the same outcome (R156). -/
def Obligations.PinMuting : Prop :=
  ∀ (a : Arrival) (s : State) (r : Record) (buttons : Byte) (left left' right right' : List Byte),
    a.port = .p → s.hears .p → s.pinHead = some r →
      left.length = 80 → left'.length = 80 → right.length = 80 → right'.length = 80 →
      (s.party r.slot).station = .left ∧ right = right' ∨ (s.party r.slot).station = .right ∧ left = left'
          ∨ (s.party r.slot).station = .none →
        ∃ u, exec (.audioFromP a (buttons :: left ++ right)) s = .next u
          ∧ exec (.audioFromP a (buttons :: left' ++ right')) s = .next u

/-! ### Parking and waking -/

/-- The park: PARKED, staging, snapshot and upload dropped, timers and lamps stopped, the intercom QUIET, the sign dark, C, P and K shut, S shut or its shut
pending, V untouched (R107, R123, R141, R144, R185); D is told by a PARKING notice and then a LINK notice for each of C, P and K that was UP (R167, R185), the order of
these three being the model's choice (notes/assumptions/39.md); that no effective image is in use then is the model's choice (notes/assumptions/24.md). S is shut once its
lane is empty and its transmitter idle, and not before (R185, notes/assumptions/9.md). A frame from D that holds the wake call wakes the part: RUN, the four ports
opened, notice numbers 0, the last count unknown, the park delay started if the conditions hold, the head entry of the store sent with 20 s on the upload timer if one
is held and the upload is IDLE (R80, R83); any other is dropped (R186, R187). A MOTION with the ignition on wakes it too, and resumes the upload if D is UP (R83, R186). -/
def Obligations.ParkAndWake : Prop :=
  (∀ s : State,
    s.powerSound = true → s.linkSound = true → s.accountsSound = true → s.signTrue = true → s.power.parkTimer.isSome = true →
      ∃ u, exec .park s = .next u
        ∧ u.power = { s.power with state := .parked, parkTimer := none, shutPending := s.isUp .s }
        ∧ (∀ q, q = .c ∨ q = .p ∨ q = .k → (u.port q).shut = true ∧ u.isUp q = false)
        ∧ (u.port .s).shut = !s.isUp .s ∧ (s.isUp .s = true → u.port .s = (s.port .s).placed (signFrame .dark))
        ∧ u.isUp .d = s.isUp .d ∧ u.port .v = s.port .v
        ∧ (u.port .d, u.request.seqD) =
            s.linksLost ((s.port .d).placed (noticeFrame s.request.seqD .parking []), nextSeq s.request.seqD) [.c, .p, .k]
        ∧ u.tariff = { s.tariff with staging := none } ∧ u.shift = { s.shift with snapshot := none }
        ∧ u.payment = { s.payment with upload := .idle, uploadTimer := none } ∧ u.fare = { s.fare with countKnown := false }
        ∧ u.milestone = s.milestone ∧ u.sign = { s.sign with output := .dark, imageInUse := none, refresh := 0 }
        ∧ u.cadence = { s.cadence with
            ct0 := { s.cadence.ct0 with state := .stopped, count := 0 }, ct1 := { s.cadence.ct1 with state := .stopped, count := 0 },
            comparators := s.cadence.comparators.map fun y => { y with armed := true }, latches := Vector.replicate 4 false }
        ∧ u.intercom = { s.intercom with
            state := .quiet, calling := .none, opened := .none, callTimer := none, driverPlayer := none, partitionPlayer := none,
            seenLeft := false, seenRight := false, seenTalk := false }
        ∧ u.pending = s.pending)
  ∧ (∀ s : State, s.power.state = .parked → s.power.shutPending = true →
    ((s.port .s).general = [] → (s.port .s).sending = none →
      ∃ u, exec .sShut s = .next u ∧ (u.port .s).shut = true ∧ u.isUp .s = false
        ∧ u.power = { s.power with shutPending := false } ∧ s.changesOnly u [.link, .request, .power])
    ∧ ((s.port .s).general ≠ [] ∨ (s.port .s).sending ≠ none → exec .sShut s = .next s))
  ∧ (∀ (f : Frame) (o : Order) (s : State),
    s.power.state = .parked → s.isUp .d = true → (s.port .d).shut = false → f.len.toNat = f.payload.length → f.payload.length ≤ 200 →
      let n := be 4 s.tariff.cabNumber.toNat
      let call : List Byte := [0xC3, 0x3C, 0xC3, 0x3C] ++ n ++ n ++ n ++ n
      ((∃ pre post, f.payload = pre ++ call ++ post) →
        ∃ u, exec (.wakeCall f o) s = .next u
          ∧ u.power = { s.power with
              state := .run, shutPending := false, parkTimer := if s.power.mayPark then some 60000 else none }
          ∧ (∀ q, q = .c ∨ q = .p ∨ q = .k ∨ q = .s → (s.port q).shut = true →
              (u.port q).shut = false ∧ u.isUp q = false ∧ (u.port q).bringUp = false ∧ (u.port q).quiet = some 100)
          ∧ (∀ q, (s.port q).shut = false → u.isUp q = s.isUp q ∧ (u.port q).shut = false)
          ∧ u.request = ⟨0, 0⟩ ∧ u.fare = { s.fare with countKnown := false }
          ∧ u.payment = s.payment.uploading true
          ∧ u.port .d = ({ s.port .d with silence := some 500 } : PortState).uploaded s.payment s.tariff.cabNumber
          ∧ s.changesOnly u [.link, .request, .fare, .payment, .power])
      ∧ ((¬ ∃ pre post, f.payload = pre ++ call ++ post) → s.power.shutPending = false →
        exec (.wakeCall f o) s = .next (s.setPort .d { s.port .d with silence := some 500 })))
  ∧ ∀ (a : Arrival) (s : State) (hi lo flags : Byte),
    a.port = .v → s.power.state = .parked → s.isUp .v = true → (s.port .v).shut = false → flags.getLsbD 0 = true →
      ∃ u, exec (.motion a [hi, lo, flags]) s = .next u ∧ u.power.state = .run ∧ u.power.ignition = true ∧ u.power.parkTimer = none
        ∧ u.payment = s.payment.uploading (s.isUp .d)
end

