-- ==== Sys2Proof/Laws/State.lean ====
section
/-! SUPPORT. What each update and each shared placing of a frame leaves as it was: one lemma for each block of `State`, true by
unfolding, so that no later proof unfolds a record update. -/

namespace Sys2Proof.Machine

/-! ### Ports -/

@[simp] theorem PerPort.get_set_same {α : Type} (x : PerPort α) (q : Port) (y : α) : (x.set q y).get q = y := by
  cases q <;> rfl

theorem PerPort.get_set_other {α : Type} (x : PerPort α) (q r : Port) (y : α) (h : r ≠ q) : (x.set q y).get r = x.get r := by
  cases q <;> cases r <;> first | rfl | exact absurd rfl h

@[simp] theorem State.port_setPort_same (s : State) (q : Port) (x : PortState) : (s.setPort q x).port q = x :=
  PerPort.get_set_same _ _ _

theorem State.port_setPort_other (s : State) (q r : Port) (x : PortState) (h : r ≠ q) : (s.setPort q x).port r = s.port r :=
  PerPort.get_set_other _ _ _ _ h

/-! ### Parties and cells of the armed matrix -/

@[simp] theorem State.party_setParty_same (s : State) (i : Fin 4) (p : Party) : (s.setParty i p).party i = p := by
  simp [State.party, State.setParty]

theorem State.party_setParty_other (s : State) (i j : Fin 4) (p : Party) (h : j ≠ i) : (s.setParty i p).party j = s.party j := by
  simp only [State.party, State.setParty, Fin.getElem_fin]
  exact Vector.getElem_set_ne _ _ (fun e => h (Fin.ext e.symm))

@[simp] theorem State.armed_setArmed_same (s : State) (e : Fin 12) (i : Fin 4) (a : Armed) : (s.setArmed e i a).armed e i = a := by
  simp [State.armed, State.setArmed]


/-! ### State.setPort -/

@[simp] theorem State.setPort_request (s : State) (q : Port) (x : PortState) : (s.setPort q x).request = s.request := rfl
@[simp] theorem State.setPort_tariff (s : State) (q : Port) (x : PortState) : (s.setPort q x).tariff = s.tariff := rfl
@[simp] theorem State.setPort_fare (s : State) (q : Port) (x : PortState) : (s.setPort q x).fare = s.fare := rfl
@[simp] theorem State.setPort_milestone (s : State) (q : Port) (x : PortState) : (s.setPort q x).milestone = s.milestone := rfl
@[simp] theorem State.setPort_payment (s : State) (q : Port) (x : PortState) : (s.setPort q x).payment = s.payment := rfl
@[simp] theorem State.setPort_shift (s : State) (q : Port) (x : PortState) : (s.setPort q x).shift = s.shift := rfl
@[simp] theorem State.setPort_sign (s : State) (q : Port) (x : PortState) : (s.setPort q x).sign = s.sign := rfl
@[simp] theorem State.setPort_cadence (s : State) (q : Port) (x : PortState) : (s.setPort q x).cadence = s.cadence := rfl
@[simp] theorem State.setPort_intercom (s : State) (q : Port) (x : PortState) : (s.setPort q x).intercom = s.intercom := rfl
@[simp] theorem State.setPort_power (s : State) (q : Port) (x : PortState) : (s.setPort q x).power = s.power := rfl
@[simp] theorem State.setPort_pending (s : State) (q : Port) (x : PortState) : (s.setPort q x).pending = s.pending := rfl

/-! ### State.setParty -/

@[simp] theorem State.setParty_link (s : State) (i : Fin 4) (p : Party) : (s.setParty i p).link = s.link := rfl
@[simp] theorem State.setParty_request (s : State) (i : Fin 4) (p : Party) : (s.setParty i p).request = s.request := rfl
@[simp] theorem State.setParty_tariff (s : State) (i : Fin 4) (p : Party) : (s.setParty i p).tariff = s.tariff := rfl
@[simp] theorem State.setParty_milestone (s : State) (i : Fin 4) (p : Party) : (s.setParty i p).milestone = s.milestone := rfl
@[simp] theorem State.setParty_payment (s : State) (i : Fin 4) (p : Party) : (s.setParty i p).payment = s.payment := rfl
@[simp] theorem State.setParty_shift (s : State) (i : Fin 4) (p : Party) : (s.setParty i p).shift = s.shift := rfl
@[simp] theorem State.setParty_sign (s : State) (i : Fin 4) (p : Party) : (s.setParty i p).sign = s.sign := rfl
@[simp] theorem State.setParty_cadence (s : State) (i : Fin 4) (p : Party) : (s.setParty i p).cadence = s.cadence := rfl
@[simp] theorem State.setParty_intercom (s : State) (i : Fin 4) (p : Party) : (s.setParty i p).intercom = s.intercom := rfl
@[simp] theorem State.setParty_power (s : State) (i : Fin 4) (p : Party) : (s.setParty i p).power = s.power := rfl
@[simp] theorem State.setParty_pending (s : State) (i : Fin 4) (p : Party) : (s.setParty i p).pending = s.pending := rfl

/-! ### State.setArmed -/

@[simp] theorem State.setArmed_link (s : State) (e : Fin 12) (i : Fin 4) (a : Armed) : (s.setArmed e i a).link = s.link := rfl
@[simp] theorem State.setArmed_request (s : State) (e : Fin 12) (i : Fin 4) (a : Armed) : (s.setArmed e i a).request = s.request := rfl
@[simp] theorem State.setArmed_tariff (s : State) (e : Fin 12) (i : Fin 4) (a : Armed) : (s.setArmed e i a).tariff = s.tariff := rfl
@[simp] theorem State.setArmed_fare (s : State) (e : Fin 12) (i : Fin 4) (a : Armed) : (s.setArmed e i a).fare = s.fare := rfl
@[simp] theorem State.setArmed_payment (s : State) (e : Fin 12) (i : Fin 4) (a : Armed) : (s.setArmed e i a).payment = s.payment := rfl
@[simp] theorem State.setArmed_shift (s : State) (e : Fin 12) (i : Fin 4) (a : Armed) : (s.setArmed e i a).shift = s.shift := rfl
@[simp] theorem State.setArmed_sign (s : State) (e : Fin 12) (i : Fin 4) (a : Armed) : (s.setArmed e i a).sign = s.sign := rfl
@[simp] theorem State.setArmed_cadence (s : State) (e : Fin 12) (i : Fin 4) (a : Armed) : (s.setArmed e i a).cadence = s.cadence := rfl
@[simp] theorem State.setArmed_intercom (s : State) (e : Fin 12) (i : Fin 4) (a : Armed) : (s.setArmed e i a).intercom = s.intercom := rfl
@[simp] theorem State.setArmed_power (s : State) (e : Fin 12) (i : Fin 4) (a : Armed) : (s.setArmed e i a).power = s.power := rfl
@[simp] theorem State.setArmed_pending (s : State) (e : Fin 12) (i : Fin 4) (a : Armed) : (s.setArmed e i a).pending = s.pending := rfl

/-! ### Whole blocks -/

@[simp] theorem State.setIntercom_link (s : State) (x : IntercomUnit) : (s.setIntercom x).link = s.link := rfl
@[simp] theorem State.setIntercom_request (s : State) (x : IntercomUnit) : (s.setIntercom x).request = s.request := rfl
@[simp] theorem State.setIntercom_tariff (s : State) (x : IntercomUnit) : (s.setIntercom x).tariff = s.tariff := rfl
@[simp] theorem State.setIntercom_fare (s : State) (x : IntercomUnit) : (s.setIntercom x).fare = s.fare := rfl
@[simp] theorem State.setIntercom_milestone (s : State) (x : IntercomUnit) : (s.setIntercom x).milestone = s.milestone := rfl
@[simp] theorem State.setIntercom_payment (s : State) (x : IntercomUnit) : (s.setIntercom x).payment = s.payment := rfl
@[simp] theorem State.setIntercom_shift (s : State) (x : IntercomUnit) : (s.setIntercom x).shift = s.shift := rfl
@[simp] theorem State.setIntercom_sign (s : State) (x : IntercomUnit) : (s.setIntercom x).sign = s.sign := rfl
@[simp] theorem State.setIntercom_cadence (s : State) (x : IntercomUnit) : (s.setIntercom x).cadence = s.cadence := rfl
@[simp] theorem State.setIntercom_power (s : State) (x : IntercomUnit) : (s.setIntercom x).power = s.power := rfl
@[simp] theorem State.setIntercom_pending (s : State) (x : IntercomUnit) : (s.setIntercom x).pending = s.pending := rfl
@[simp] theorem State.setIntercom_intercom (s : State) (x : IntercomUnit) : (s.setIntercom x).intercom = x := rfl
@[simp] theorem State.setShift_link (s : State) (x : ShiftUnit) : (s.setShift x).link = s.link := rfl
@[simp] theorem State.setShift_request (s : State) (x : ShiftUnit) : (s.setShift x).request = s.request := rfl
@[simp] theorem State.setShift_tariff (s : State) (x : ShiftUnit) : (s.setShift x).tariff = s.tariff := rfl
@[simp] theorem State.setShift_fare (s : State) (x : ShiftUnit) : (s.setShift x).fare = s.fare := rfl
@[simp] theorem State.setShift_milestone (s : State) (x : ShiftUnit) : (s.setShift x).milestone = s.milestone := rfl
@[simp] theorem State.setShift_payment (s : State) (x : ShiftUnit) : (s.setShift x).payment = s.payment := rfl
@[simp] theorem State.setShift_sign (s : State) (x : ShiftUnit) : (s.setShift x).sign = s.sign := rfl
@[simp] theorem State.setShift_cadence (s : State) (x : ShiftUnit) : (s.setShift x).cadence = s.cadence := rfl
@[simp] theorem State.setShift_intercom (s : State) (x : ShiftUnit) : (s.setShift x).intercom = s.intercom := rfl
@[simp] theorem State.setShift_power (s : State) (x : ShiftUnit) : (s.setShift x).power = s.power := rfl
@[simp] theorem State.setShift_pending (s : State) (x : ShiftUnit) : (s.setShift x).pending = s.pending := rfl
@[simp] theorem State.setShift_shift (s : State) (x : ShiftUnit) : (s.setShift x).shift = x := rfl
@[simp] theorem State.setTariff_link (s : State) (x : TariffStore) : (s.setTariff x).link = s.link := rfl
@[simp] theorem State.setTariff_request (s : State) (x : TariffStore) : (s.setTariff x).request = s.request := rfl
@[simp] theorem State.setTariff_fare (s : State) (x : TariffStore) : (s.setTariff x).fare = s.fare := rfl
@[simp] theorem State.setTariff_milestone (s : State) (x : TariffStore) : (s.setTariff x).milestone = s.milestone := rfl
@[simp] theorem State.setTariff_payment (s : State) (x : TariffStore) : (s.setTariff x).payment = s.payment := rfl
@[simp] theorem State.setTariff_shift (s : State) (x : TariffStore) : (s.setTariff x).shift = s.shift := rfl
@[simp] theorem State.setTariff_sign (s : State) (x : TariffStore) : (s.setTariff x).sign = s.sign := rfl
@[simp] theorem State.setTariff_cadence (s : State) (x : TariffStore) : (s.setTariff x).cadence = s.cadence := rfl
@[simp] theorem State.setTariff_intercom (s : State) (x : TariffStore) : (s.setTariff x).intercom = s.intercom := rfl
@[simp] theorem State.setTariff_power (s : State) (x : TariffStore) : (s.setTariff x).power = s.power := rfl
@[simp] theorem State.setTariff_pending (s : State) (x : TariffStore) : (s.setTariff x).pending = s.pending := rfl
@[simp] theorem State.setTariff_tariff (s : State) (x : TariffStore) : (s.setTariff x).tariff = x := rfl
@[simp] theorem State.setPayment_link (s : State) (x : PaymentUnit) : (s.setPayment x).link = s.link := rfl
@[simp] theorem State.setPayment_request (s : State) (x : PaymentUnit) : (s.setPayment x).request = s.request := rfl
@[simp] theorem State.setPayment_tariff (s : State) (x : PaymentUnit) : (s.setPayment x).tariff = s.tariff := rfl
@[simp] theorem State.setPayment_fare (s : State) (x : PaymentUnit) : (s.setPayment x).fare = s.fare := rfl
@[simp] theorem State.setPayment_milestone (s : State) (x : PaymentUnit) : (s.setPayment x).milestone = s.milestone := rfl
@[simp] theorem State.setPayment_shift (s : State) (x : PaymentUnit) : (s.setPayment x).shift = s.shift := rfl
@[simp] theorem State.setPayment_sign (s : State) (x : PaymentUnit) : (s.setPayment x).sign = s.sign := rfl
@[simp] theorem State.setPayment_cadence (s : State) (x : PaymentUnit) : (s.setPayment x).cadence = s.cadence := rfl
@[simp] theorem State.setPayment_intercom (s : State) (x : PaymentUnit) : (s.setPayment x).intercom = s.intercom := rfl
@[simp] theorem State.setPayment_power (s : State) (x : PaymentUnit) : (s.setPayment x).power = s.power := rfl
@[simp] theorem State.setPayment_pending (s : State) (x : PaymentUnit) : (s.setPayment x).pending = s.pending := rfl
@[simp] theorem State.setPayment_payment (s : State) (x : PaymentUnit) : (s.setPayment x).payment = x := rfl
@[simp] theorem State.setTotals_link (s : State) (x : Totals) : (s.setTotals x).link = s.link := rfl
@[simp] theorem State.setTotals_request (s : State) (x : Totals) : (s.setTotals x).request = s.request := rfl
@[simp] theorem State.setTotals_tariff (s : State) (x : Totals) : (s.setTotals x).tariff = s.tariff := rfl
@[simp] theorem State.setTotals_fare (s : State) (x : Totals) : (s.setTotals x).fare = s.fare := rfl
@[simp] theorem State.setTotals_milestone (s : State) (x : Totals) : (s.setTotals x).milestone = s.milestone := rfl
@[simp] theorem State.setTotals_payment (s : State) (x : Totals) : (s.setTotals x).payment = s.payment := rfl
@[simp] theorem State.setTotals_sign (s : State) (x : Totals) : (s.setTotals x).sign = s.sign := rfl
@[simp] theorem State.setTotals_cadence (s : State) (x : Totals) : (s.setTotals x).cadence = s.cadence := rfl
@[simp] theorem State.setTotals_intercom (s : State) (x : Totals) : (s.setTotals x).intercom = s.intercom := rfl
@[simp] theorem State.setTotals_power (s : State) (x : Totals) : (s.setTotals x).power = s.power := rfl
@[simp] theorem State.setTotals_pending (s : State) (x : Totals) : (s.setTotals x).pending = s.pending := rfl
@[simp] theorem State.setTotals_totals (s : State) (x : Totals) : (s.setTotals x).shift.totals = x := rfl

/-! ### Frames of the hub -/

@[simp] theorem emit_request (q : Port) (f : Frame) (s : State) : (emit q f s).request = s.request := rfl
@[simp] theorem emit_tariff (q : Port) (f : Frame) (s : State) : (emit q f s).tariff = s.tariff := rfl
@[simp] theorem emit_fare (q : Port) (f : Frame) (s : State) : (emit q f s).fare = s.fare := rfl
@[simp] theorem emit_milestone (q : Port) (f : Frame) (s : State) : (emit q f s).milestone = s.milestone := rfl
@[simp] theorem emit_payment (q : Port) (f : Frame) (s : State) : (emit q f s).payment = s.payment := rfl
@[simp] theorem emit_shift (q : Port) (f : Frame) (s : State) : (emit q f s).shift = s.shift := rfl
@[simp] theorem emit_sign (q : Port) (f : Frame) (s : State) : (emit q f s).sign = s.sign := rfl
@[simp] theorem emit_cadence (q : Port) (f : Frame) (s : State) : (emit q f s).cadence = s.cadence := rfl
@[simp] theorem emit_intercom (q : Port) (f : Frame) (s : State) : (emit q f s).intercom = s.intercom := rfl
@[simp] theorem emit_power (q : Port) (f : Frame) (s : State) : (emit q f s).power = s.power := rfl
@[simp] theorem emit_pending (q : Port) (f : Frame) (s : State) : (emit q f s).pending = s.pending := rfl
@[simp] theorem emitVoice_request (q : Port) (f : Frame) (s : State) : (emitVoice q f s).request = s.request := rfl
@[simp] theorem emitVoice_tariff (q : Port) (f : Frame) (s : State) : (emitVoice q f s).tariff = s.tariff := rfl
@[simp] theorem emitVoice_fare (q : Port) (f : Frame) (s : State) : (emitVoice q f s).fare = s.fare := rfl
@[simp] theorem emitVoice_milestone (q : Port) (f : Frame) (s : State) : (emitVoice q f s).milestone = s.milestone := rfl
@[simp] theorem emitVoice_payment (q : Port) (f : Frame) (s : State) : (emitVoice q f s).payment = s.payment := rfl
@[simp] theorem emitVoice_shift (q : Port) (f : Frame) (s : State) : (emitVoice q f s).shift = s.shift := rfl
@[simp] theorem emitVoice_sign (q : Port) (f : Frame) (s : State) : (emitVoice q f s).sign = s.sign := rfl
@[simp] theorem emitVoice_cadence (q : Port) (f : Frame) (s : State) : (emitVoice q f s).cadence = s.cadence := rfl
@[simp] theorem emitVoice_intercom (q : Port) (f : Frame) (s : State) : (emitVoice q f s).intercom = s.intercom := rfl
@[simp] theorem emitVoice_power (q : Port) (f : Frame) (s : State) : (emitVoice q f s).power = s.power := rfl
@[simp] theorem emitVoice_pending (q : Port) (f : Frame) (s : State) : (emitVoice q f s).pending = s.pending := rfl
@[simp] theorem purgeVoice_request (q : Port) (s : State) : (purgeVoice q s).request = s.request := rfl
@[simp] theorem purgeVoice_tariff (q : Port) (s : State) : (purgeVoice q s).tariff = s.tariff := rfl
@[simp] theorem purgeVoice_fare (q : Port) (s : State) : (purgeVoice q s).fare = s.fare := rfl
@[simp] theorem purgeVoice_milestone (q : Port) (s : State) : (purgeVoice q s).milestone = s.milestone := rfl
@[simp] theorem purgeVoice_payment (q : Port) (s : State) : (purgeVoice q s).payment = s.payment := rfl
@[simp] theorem purgeVoice_shift (q : Port) (s : State) : (purgeVoice q s).shift = s.shift := rfl
@[simp] theorem purgeVoice_sign (q : Port) (s : State) : (purgeVoice q s).sign = s.sign := rfl
@[simp] theorem purgeVoice_cadence (q : Port) (s : State) : (purgeVoice q s).cadence = s.cadence := rfl
@[simp] theorem purgeVoice_intercom (q : Port) (s : State) : (purgeVoice q s).intercom = s.intercom := rfl
@[simp] theorem purgeVoice_power (q : Port) (s : State) : (purgeVoice q s).power = s.power := rfl
@[simp] theorem purgeVoice_pending (q : Port) (s : State) : (purgeVoice q s).pending = s.pending := rfl
@[simp] theorem restartSilence_request (q : Port) (s : State) : (restartSilence q s).request = s.request := rfl
@[simp] theorem restartSilence_tariff (q : Port) (s : State) : (restartSilence q s).tariff = s.tariff := rfl
@[simp] theorem restartSilence_fare (q : Port) (s : State) : (restartSilence q s).fare = s.fare := rfl
@[simp] theorem restartSilence_milestone (q : Port) (s : State) : (restartSilence q s).milestone = s.milestone := rfl
@[simp] theorem restartSilence_payment (q : Port) (s : State) : (restartSilence q s).payment = s.payment := rfl
@[simp] theorem restartSilence_shift (q : Port) (s : State) : (restartSilence q s).shift = s.shift := rfl
@[simp] theorem restartSilence_sign (q : Port) (s : State) : (restartSilence q s).sign = s.sign := rfl
@[simp] theorem restartSilence_cadence (q : Port) (s : State) : (restartSilence q s).cadence = s.cadence := rfl
@[simp] theorem restartSilence_intercom (q : Port) (s : State) : (restartSilence q s).intercom = s.intercom := rfl
@[simp] theorem restartSilence_power (q : Port) (s : State) : (restartSilence q s).power = s.power := rfl
@[simp] theorem restartSilence_pending (q : Port) (s : State) : (restartSilence q s).pending = s.pending := rfl
@[simp] theorem countDiscard_request (q : Port) (s : State) : (countDiscard q s).request = s.request := rfl
@[simp] theorem countDiscard_tariff (q : Port) (s : State) : (countDiscard q s).tariff = s.tariff := rfl
@[simp] theorem countDiscard_fare (q : Port) (s : State) : (countDiscard q s).fare = s.fare := rfl
@[simp] theorem countDiscard_milestone (q : Port) (s : State) : (countDiscard q s).milestone = s.milestone := rfl
@[simp] theorem countDiscard_payment (q : Port) (s : State) : (countDiscard q s).payment = s.payment := rfl
@[simp] theorem countDiscard_shift (q : Port) (s : State) : (countDiscard q s).shift = s.shift := rfl
@[simp] theorem countDiscard_sign (q : Port) (s : State) : (countDiscard q s).sign = s.sign := rfl
@[simp] theorem countDiscard_cadence (q : Port) (s : State) : (countDiscard q s).cadence = s.cadence := rfl
@[simp] theorem countDiscard_intercom (q : Port) (s : State) : (countDiscard q s).intercom = s.intercom := rfl
@[simp] theorem countDiscard_power (q : Port) (s : State) : (countDiscard q s).power = s.power := rfl
@[simp] theorem countDiscard_pending (q : Port) (s : State) : (countDiscard q s).pending = s.pending := rfl

/-! ### Notices -/

@[simp] theorem notifyC_tariff (n : Notice) (fields : List Byte) (s : State) : (notifyC n fields s).tariff = s.tariff := rfl
@[simp] theorem notifyC_fare (n : Notice) (fields : List Byte) (s : State) : (notifyC n fields s).fare = s.fare := rfl
@[simp] theorem notifyC_milestone (n : Notice) (fields : List Byte) (s : State) : (notifyC n fields s).milestone = s.milestone := rfl
@[simp] theorem notifyC_payment (n : Notice) (fields : List Byte) (s : State) : (notifyC n fields s).payment = s.payment := rfl
@[simp] theorem notifyC_shift (n : Notice) (fields : List Byte) (s : State) : (notifyC n fields s).shift = s.shift := rfl
@[simp] theorem notifyC_sign (n : Notice) (fields : List Byte) (s : State) : (notifyC n fields s).sign = s.sign := rfl
@[simp] theorem notifyC_cadence (n : Notice) (fields : List Byte) (s : State) : (notifyC n fields s).cadence = s.cadence := rfl
@[simp] theorem notifyC_intercom (n : Notice) (fields : List Byte) (s : State) : (notifyC n fields s).intercom = s.intercom := rfl
@[simp] theorem notifyC_power (n : Notice) (fields : List Byte) (s : State) : (notifyC n fields s).power = s.power := rfl
@[simp] theorem notifyC_pending (n : Notice) (fields : List Byte) (s : State) : (notifyC n fields s).pending = s.pending := rfl
@[simp] theorem notifyD_tariff (n : Notice) (fields : List Byte) (s : State) : (notifyD n fields s).tariff = s.tariff := rfl
@[simp] theorem notifyD_fare (n : Notice) (fields : List Byte) (s : State) : (notifyD n fields s).fare = s.fare := rfl
@[simp] theorem notifyD_milestone (n : Notice) (fields : List Byte) (s : State) : (notifyD n fields s).milestone = s.milestone := rfl
@[simp] theorem notifyD_payment (n : Notice) (fields : List Byte) (s : State) : (notifyD n fields s).payment = s.payment := rfl
@[simp] theorem notifyD_shift (n : Notice) (fields : List Byte) (s : State) : (notifyD n fields s).shift = s.shift := rfl
@[simp] theorem notifyD_sign (n : Notice) (fields : List Byte) (s : State) : (notifyD n fields s).sign = s.sign := rfl
@[simp] theorem notifyD_cadence (n : Notice) (fields : List Byte) (s : State) : (notifyD n fields s).cadence = s.cadence := rfl
@[simp] theorem notifyD_intercom (n : Notice) (fields : List Byte) (s : State) : (notifyD n fields s).intercom = s.intercom := rfl
@[simp] theorem notifyD_power (n : Notice) (fields : List Byte) (s : State) : (notifyD n fields s).power = s.power := rfl
@[simp] theorem notifyD_pending (n : Notice) (fields : List Byte) (s : State) : (notifyD n fields s).pending = s.pending := rfl
@[simp] theorem notifyBoth_tariff (n : Notice) (fields : List Byte) (s : State) : (notifyBoth n fields s).tariff = s.tariff := rfl
@[simp] theorem notifyBoth_fare (n : Notice) (fields : List Byte) (s : State) : (notifyBoth n fields s).fare = s.fare := rfl
@[simp] theorem notifyBoth_milestone (n : Notice) (fields : List Byte) (s : State) : (notifyBoth n fields s).milestone = s.milestone := rfl
@[simp] theorem notifyBoth_payment (n : Notice) (fields : List Byte) (s : State) : (notifyBoth n fields s).payment = s.payment := rfl
@[simp] theorem notifyBoth_shift (n : Notice) (fields : List Byte) (s : State) : (notifyBoth n fields s).shift = s.shift := rfl
@[simp] theorem notifyBoth_sign (n : Notice) (fields : List Byte) (s : State) : (notifyBoth n fields s).sign = s.sign := rfl
@[simp] theorem notifyBoth_cadence (n : Notice) (fields : List Byte) (s : State) : (notifyBoth n fields s).cadence = s.cadence := rfl
@[simp] theorem notifyBoth_intercom (n : Notice) (fields : List Byte) (s : State) : (notifyBoth n fields s).intercom = s.intercom := rfl
@[simp] theorem notifyBoth_power (n : Notice) (fields : List Byte) (s : State) : (notifyBoth n fields s).power = s.power := rfl
@[simp] theorem notifyBoth_pending (n : Notice) (fields : List Byte) (s : State) : (notifyBoth n fields s).pending = s.pending := rfl
@[simp] theorem notifyLink_tariff (q : Port) (up : Bool) (s : State) : (notifyLink q up s).tariff = s.tariff := rfl
@[simp] theorem notifyLink_fare (q : Port) (up : Bool) (s : State) : (notifyLink q up s).fare = s.fare := rfl
@[simp] theorem notifyLink_milestone (q : Port) (up : Bool) (s : State) : (notifyLink q up s).milestone = s.milestone := rfl
@[simp] theorem notifyLink_payment (q : Port) (up : Bool) (s : State) : (notifyLink q up s).payment = s.payment := rfl
@[simp] theorem notifyLink_shift (q : Port) (up : Bool) (s : State) : (notifyLink q up s).shift = s.shift := rfl
@[simp] theorem notifyLink_sign (q : Port) (up : Bool) (s : State) : (notifyLink q up s).sign = s.sign := rfl
@[simp] theorem notifyLink_cadence (q : Port) (up : Bool) (s : State) : (notifyLink q up s).cadence = s.cadence := rfl
@[simp] theorem notifyLink_intercom (q : Port) (up : Bool) (s : State) : (notifyLink q up s).intercom = s.intercom := rfl
@[simp] theorem notifyLink_power (q : Port) (up : Bool) (s : State) : (notifyLink q up s).power = s.power := rfl
@[simp] theorem notifyLink_pending (q : Port) (up : Bool) (s : State) : (notifyLink q up s).pending = s.pending := rfl
@[simp] theorem notifyShift_tariff (closed : Bool) (s : State) : (notifyShift closed s).tariff = s.tariff := rfl
@[simp] theorem notifyShift_fare (closed : Bool) (s : State) : (notifyShift closed s).fare = s.fare := rfl
@[simp] theorem notifyShift_milestone (closed : Bool) (s : State) : (notifyShift closed s).milestone = s.milestone := rfl
@[simp] theorem notifyShift_payment (closed : Bool) (s : State) : (notifyShift closed s).payment = s.payment := rfl
@[simp] theorem notifyShift_shift (closed : Bool) (s : State) : (notifyShift closed s).shift = s.shift := rfl
@[simp] theorem notifyShift_sign (closed : Bool) (s : State) : (notifyShift closed s).sign = s.sign := rfl
@[simp] theorem notifyShift_cadence (closed : Bool) (s : State) : (notifyShift closed s).cadence = s.cadence := rfl
@[simp] theorem notifyShift_intercom (closed : Bool) (s : State) : (notifyShift closed s).intercom = s.intercom := rfl
@[simp] theorem notifyShift_power (closed : Bool) (s : State) : (notifyShift closed s).power = s.power := rfl
@[simp] theorem notifyShift_pending (closed : Bool) (s : State) : (notifyShift closed s).pending = s.pending := rfl
@[simp] theorem notifyMotion_tariff (resync : Bool) (s : State) : (notifyMotion resync s).tariff = s.tariff := rfl
@[simp] theorem notifyMotion_fare (resync : Bool) (s : State) : (notifyMotion resync s).fare = s.fare := rfl
@[simp] theorem notifyMotion_milestone (resync : Bool) (s : State) : (notifyMotion resync s).milestone = s.milestone := rfl
@[simp] theorem notifyMotion_payment (resync : Bool) (s : State) : (notifyMotion resync s).payment = s.payment := rfl
@[simp] theorem notifyMotion_shift (resync : Bool) (s : State) : (notifyMotion resync s).shift = s.shift := rfl
@[simp] theorem notifyMotion_sign (resync : Bool) (s : State) : (notifyMotion resync s).sign = s.sign := rfl
@[simp] theorem notifyMotion_cadence (resync : Bool) (s : State) : (notifyMotion resync s).cadence = s.cadence := rfl
@[simp] theorem notifyMotion_intercom (resync : Bool) (s : State) : (notifyMotion resync s).intercom = s.intercom := rfl
@[simp] theorem notifyMotion_power (resync : Bool) (s : State) : (notifyMotion resync s).power = s.power := rfl
@[simp] theorem notifyMotion_pending (resync : Bool) (s : State) : (notifyMotion resync s).pending = s.pending := rfl
@[simp] theorem notifyStore_tariff (s : State) : (notifyStore s).tariff = s.tariff := rfl
@[simp] theorem notifyStore_fare (s : State) : (notifyStore s).fare = s.fare := rfl
@[simp] theorem notifyStore_milestone (s : State) : (notifyStore s).milestone = s.milestone := rfl
@[simp] theorem notifyStore_payment (s : State) : (notifyStore s).payment = s.payment := rfl
@[simp] theorem notifyStore_shift (s : State) : (notifyStore s).shift = s.shift := rfl
@[simp] theorem notifyStore_sign (s : State) : (notifyStore s).sign = s.sign := rfl
@[simp] theorem notifyStore_cadence (s : State) : (notifyStore s).cadence = s.cadence := rfl
@[simp] theorem notifyStore_intercom (s : State) : (notifyStore s).intercom = s.intercom := rfl
@[simp] theorem notifyStore_power (s : State) : (notifyStore s).power = s.power := rfl
@[simp] theorem notifyStore_pending (s : State) : (notifyStore s).pending = s.pending := rfl
@[simp] theorem notifyPay_tariff (i : Fin 4) (r : PayResult) (c : Byte) (u : Bool) (s : State) : (notifyPay i r c u s).tariff = s.tariff := rfl
@[simp] theorem notifyPay_fare (i : Fin 4) (r : PayResult) (c : Byte) (u : Bool) (s : State) : (notifyPay i r c u s).fare = s.fare := rfl
@[simp] theorem notifyPay_milestone (i : Fin 4) (r : PayResult) (c : Byte) (u : Bool) (s : State) : (notifyPay i r c u s).milestone = s.milestone := rfl
@[simp] theorem notifyPay_payment (i : Fin 4) (r : PayResult) (c : Byte) (u : Bool) (s : State) : (notifyPay i r c u s).payment = s.payment := rfl
@[simp] theorem notifyPay_shift (i : Fin 4) (r : PayResult) (c : Byte) (u : Bool) (s : State) : (notifyPay i r c u s).shift = s.shift := rfl
@[simp] theorem notifyPay_sign (i : Fin 4) (r : PayResult) (c : Byte) (u : Bool) (s : State) : (notifyPay i r c u s).sign = s.sign := rfl
@[simp] theorem notifyPay_cadence (i : Fin 4) (r : PayResult) (c : Byte) (u : Bool) (s : State) : (notifyPay i r c u s).cadence = s.cadence := rfl
@[simp] theorem notifyPay_intercom (i : Fin 4) (r : PayResult) (c : Byte) (u : Bool) (s : State) : (notifyPay i r c u s).intercom = s.intercom := rfl
@[simp] theorem notifyPay_power (i : Fin 4) (r : PayResult) (c : Byte) (u : Bool) (s : State) : (notifyPay i r c u s).power = s.power := rfl
@[simp] theorem notifyPay_pending (i : Fin 4) (r : PayResult) (c : Byte) (u : Bool) (s : State) : (notifyPay i r c u s).pending = s.pending := rfl
@[simp] theorem notifyCall_tariff (st : Station) (s : State) : (notifyCall st s).tariff = s.tariff := rfl
@[simp] theorem notifyCall_fare (st : Station) (s : State) : (notifyCall st s).fare = s.fare := rfl
@[simp] theorem notifyCall_milestone (st : Station) (s : State) : (notifyCall st s).milestone = s.milestone := rfl
@[simp] theorem notifyCall_payment (st : Station) (s : State) : (notifyCall st s).payment = s.payment := rfl
@[simp] theorem notifyCall_shift (st : Station) (s : State) : (notifyCall st s).shift = s.shift := rfl
@[simp] theorem notifyCall_sign (st : Station) (s : State) : (notifyCall st s).sign = s.sign := rfl
@[simp] theorem notifyCall_cadence (st : Station) (s : State) : (notifyCall st s).cadence = s.cadence := rfl
@[simp] theorem notifyCall_intercom (st : Station) (s : State) : (notifyCall st s).intercom = s.intercom := rfl
@[simp] theorem notifyCall_power (st : Station) (s : State) : (notifyCall st s).power = s.power := rfl
@[simp] theorem notifyCall_pending (st : Station) (s : State) : (notifyCall st s).pending = s.pending := rfl

/-! ### Discards and copies -/

@[simp] theorem reportDiscard_tariff (q : Port) (r : DiscardReason) (n : Option Port) (k : Byte) (report parked : Bool) (s : State) : (reportDiscard q r n k report parked s).tariff = s.tariff := by
  unfold reportDiscard; split <;> rfl
@[simp] theorem reportDiscard_fare (q : Port) (r : DiscardReason) (n : Option Port) (k : Byte) (report parked : Bool) (s : State) : (reportDiscard q r n k report parked s).fare = s.fare := by
  unfold reportDiscard; split <;> rfl
@[simp] theorem reportDiscard_milestone (q : Port) (r : DiscardReason) (n : Option Port) (k : Byte) (report parked : Bool) (s : State) : (reportDiscard q r n k report parked s).milestone = s.milestone := by
  unfold reportDiscard; split <;> rfl
@[simp] theorem reportDiscard_payment (q : Port) (r : DiscardReason) (n : Option Port) (k : Byte) (report parked : Bool) (s : State) : (reportDiscard q r n k report parked s).payment = s.payment := by
  unfold reportDiscard; split <;> rfl
@[simp] theorem reportDiscard_shift (q : Port) (r : DiscardReason) (n : Option Port) (k : Byte) (report parked : Bool) (s : State) : (reportDiscard q r n k report parked s).shift = s.shift := by
  unfold reportDiscard; split <;> rfl
@[simp] theorem reportDiscard_sign (q : Port) (r : DiscardReason) (n : Option Port) (k : Byte) (report parked : Bool) (s : State) : (reportDiscard q r n k report parked s).sign = s.sign := by
  unfold reportDiscard; split <;> rfl
@[simp] theorem reportDiscard_cadence (q : Port) (r : DiscardReason) (n : Option Port) (k : Byte) (report parked : Bool) (s : State) : (reportDiscard q r n k report parked s).cadence = s.cadence := by
  unfold reportDiscard; split <;> rfl
@[simp] theorem reportDiscard_intercom (q : Port) (r : DiscardReason) (n : Option Port) (k : Byte) (report parked : Bool) (s : State) : (reportDiscard q r n k report parked s).intercom = s.intercom := by
  unfold reportDiscard; split <;> rfl
@[simp] theorem reportDiscard_power (q : Port) (r : DiscardReason) (n : Option Port) (k : Byte) (report parked : Bool) (s : State) : (reportDiscard q r n k report parked s).power = s.power := by
  unfold reportDiscard; split <;> rfl
@[simp] theorem reportDiscard_pending (q : Port) (r : DiscardReason) (n : Option Port) (k : Byte) (report parked : Bool) (s : State) : (reportDiscard q r n k report parked s).pending = s.pending := by
  unfold reportDiscard; split <;> rfl
@[simp] theorem discardAtIngress_tariff (q : Port) (r : DiscardReason) (f : Frame) (parked : Bool) (s : State) : (discardAtIngress q r f parked s).tariff = s.tariff := by
  simp [discardAtIngress]
@[simp] theorem discardAtIngress_fare (q : Port) (r : DiscardReason) (f : Frame) (parked : Bool) (s : State) : (discardAtIngress q r f parked s).fare = s.fare := by
  simp [discardAtIngress]
@[simp] theorem discardAtIngress_milestone (q : Port) (r : DiscardReason) (f : Frame) (parked : Bool) (s : State) : (discardAtIngress q r f parked s).milestone = s.milestone := by
  simp [discardAtIngress]
@[simp] theorem discardAtIngress_payment (q : Port) (r : DiscardReason) (f : Frame) (parked : Bool) (s : State) : (discardAtIngress q r f parked s).payment = s.payment := by
  simp [discardAtIngress]
@[simp] theorem discardAtIngress_shift (q : Port) (r : DiscardReason) (f : Frame) (parked : Bool) (s : State) : (discardAtIngress q r f parked s).shift = s.shift := by
  simp [discardAtIngress]
@[simp] theorem discardAtIngress_sign (q : Port) (r : DiscardReason) (f : Frame) (parked : Bool) (s : State) : (discardAtIngress q r f parked s).sign = s.sign := by
  simp [discardAtIngress]
@[simp] theorem discardAtIngress_cadence (q : Port) (r : DiscardReason) (f : Frame) (parked : Bool) (s : State) : (discardAtIngress q r f parked s).cadence = s.cadence := by
  simp [discardAtIngress]
@[simp] theorem discardAtIngress_intercom (q : Port) (r : DiscardReason) (f : Frame) (parked : Bool) (s : State) : (discardAtIngress q r f parked s).intercom = s.intercom := by
  simp [discardAtIngress]
@[simp] theorem discardAtIngress_power (q : Port) (r : DiscardReason) (f : Frame) (parked : Bool) (s : State) : (discardAtIngress q r f parked s).power = s.power := by
  simp [discardAtIngress]
@[simp] theorem discardAtIngress_pending (q : Port) (r : DiscardReason) (f : Frame) (parked : Bool) (s : State) : (discardAtIngress q r f parked s).pending = s.pending := by
  simp [discardAtIngress]
@[simp] theorem placeCopy_tariff (i q : Port) (f : Frame) (report parked : Bool) (s : State) : (placeCopy i q f report parked s).tariff = s.tariff := by
  unfold placeCopy; dsimp only; split <;> simp
@[simp] theorem placeCopy_fare (i q : Port) (f : Frame) (report parked : Bool) (s : State) : (placeCopy i q f report parked s).fare = s.fare := by
  unfold placeCopy; dsimp only; split <;> simp
@[simp] theorem placeCopy_milestone (i q : Port) (f : Frame) (report parked : Bool) (s : State) : (placeCopy i q f report parked s).milestone = s.milestone := by
  unfold placeCopy; dsimp only; split <;> simp
@[simp] theorem placeCopy_payment (i q : Port) (f : Frame) (report parked : Bool) (s : State) : (placeCopy i q f report parked s).payment = s.payment := by
  unfold placeCopy; dsimp only; split <;> simp
@[simp] theorem placeCopy_shift (i q : Port) (f : Frame) (report parked : Bool) (s : State) : (placeCopy i q f report parked s).shift = s.shift := by
  unfold placeCopy; dsimp only; split <;> simp
@[simp] theorem placeCopy_sign (i q : Port) (f : Frame) (report parked : Bool) (s : State) : (placeCopy i q f report parked s).sign = s.sign := by
  unfold placeCopy; dsimp only; split <;> simp
@[simp] theorem placeCopy_cadence (i q : Port) (f : Frame) (report parked : Bool) (s : State) : (placeCopy i q f report parked s).cadence = s.cadence := by
  unfold placeCopy; dsimp only; split <;> simp
@[simp] theorem placeCopy_intercom (i q : Port) (f : Frame) (report parked : Bool) (s : State) : (placeCopy i q f report parked s).intercom = s.intercom := by
  unfold placeCopy; dsimp only; split <;> simp
@[simp] theorem placeCopy_power (i q : Port) (f : Frame) (report parked : Bool) (s : State) : (placeCopy i q f report parked s).power = s.power := by
  unfold placeCopy; dsimp only; split <;> simp
@[simp] theorem placeCopy_pending (i q : Port) (f : Frame) (report parked : Bool) (s : State) : (placeCopy i q f report parked s).pending = s.pending := by
  unfold placeCopy; dsimp only; split <;> simp

/-! ### Displays -/

@[simp] theorem showConsole_request (s : State) : (showConsole s).request = s.request := by
  unfold showConsole; split <;> rfl
@[simp] theorem showConsole_tariff (s : State) : (showConsole s).tariff = s.tariff := by
  unfold showConsole; split <;> rfl
@[simp] theorem showConsole_fare (s : State) : (showConsole s).fare = s.fare := by
  unfold showConsole; split <;> rfl
@[simp] theorem showConsole_milestone (s : State) : (showConsole s).milestone = s.milestone := by
  unfold showConsole; split <;> rfl
@[simp] theorem showConsole_payment (s : State) : (showConsole s).payment = s.payment := by
  unfold showConsole; split <;> rfl
@[simp] theorem showConsole_shift (s : State) : (showConsole s).shift = s.shift := by
  unfold showConsole; split <;> rfl
@[simp] theorem showConsole_sign (s : State) : (showConsole s).sign = s.sign := by
  unfold showConsole; split <;> rfl
@[simp] theorem showConsole_cadence (s : State) : (showConsole s).cadence = s.cadence := by
  unfold showConsole; split <;> rfl
@[simp] theorem showConsole_intercom (s : State) : (showConsole s).intercom = s.intercom := by
  unfold showConsole; split <;> rfl
@[simp] theorem showConsole_power (s : State) : (showConsole s).power = s.power := by
  unfold showConsole; split <;> rfl
@[simp] theorem showConsole_pending (s : State) : (showConsole s).pending = s.pending := by
  unfold showConsole; split <;> rfl
@[simp] theorem showPassenger_request (s : State) : (showPassenger s).request = s.request := by
  unfold showPassenger; split <;> rfl
@[simp] theorem showPassenger_tariff (s : State) : (showPassenger s).tariff = s.tariff := by
  unfold showPassenger; split <;> rfl
@[simp] theorem showPassenger_fare (s : State) : (showPassenger s).fare = s.fare := by
  unfold showPassenger; split <;> rfl
@[simp] theorem showPassenger_milestone (s : State) : (showPassenger s).milestone = s.milestone := by
  unfold showPassenger; split <;> rfl
@[simp] theorem showPassenger_payment (s : State) : (showPassenger s).payment = s.payment := by
  unfold showPassenger; split <;> rfl
@[simp] theorem showPassenger_shift (s : State) : (showPassenger s).shift = s.shift := by
  unfold showPassenger; split <;> rfl
@[simp] theorem showPassenger_sign (s : State) : (showPassenger s).sign = s.sign := by
  unfold showPassenger; split <;> rfl
@[simp] theorem showPassenger_cadence (s : State) : (showPassenger s).cadence = s.cadence := by
  unfold showPassenger; split <;> rfl
@[simp] theorem showPassenger_intercom (s : State) : (showPassenger s).intercom = s.intercom := by
  unfold showPassenger; split <;> rfl
@[simp] theorem showPassenger_power (s : State) : (showPassenger s).power = s.power := by
  unfold showPassenger; split <;> rfl
@[simp] theorem showPassenger_pending (s : State) : (showPassenger s).pending = s.pending := by
  unfold showPassenger; split <;> rfl
@[simp] theorem showViews_request (c p : Bool) (s : State) : (showViews c p s).request = s.request := by
  unfold showViews; dsimp only; split <;> split <;> simp
@[simp] theorem showViews_tariff (c p : Bool) (s : State) : (showViews c p s).tariff = s.tariff := by
  unfold showViews; dsimp only; split <;> split <;> simp
@[simp] theorem showViews_fare (c p : Bool) (s : State) : (showViews c p s).fare = s.fare := by
  unfold showViews; dsimp only; split <;> split <;> simp
@[simp] theorem showViews_milestone (c p : Bool) (s : State) : (showViews c p s).milestone = s.milestone := by
  unfold showViews; dsimp only; split <;> split <;> simp
@[simp] theorem showViews_payment (c p : Bool) (s : State) : (showViews c p s).payment = s.payment := by
  unfold showViews; dsimp only; split <;> split <;> simp
@[simp] theorem showViews_shift (c p : Bool) (s : State) : (showViews c p s).shift = s.shift := by
  unfold showViews; dsimp only; split <;> split <;> simp
@[simp] theorem showViews_sign (c p : Bool) (s : State) : (showViews c p s).sign = s.sign := by
  unfold showViews; dsimp only; split <;> split <;> simp
@[simp] theorem showViews_cadence (c p : Bool) (s : State) : (showViews c p s).cadence = s.cadence := by
  unfold showViews; dsimp only; split <;> split <;> simp
@[simp] theorem showViews_intercom (c p : Bool) (s : State) : (showViews c p s).intercom = s.intercom := by
  unfold showViews; dsimp only; split <;> split <;> simp
@[simp] theorem showViews_power (c p : Bool) (s : State) : (showViews c p s).power = s.power := by
  unfold showViews; dsimp only; split <;> split <;> simp
@[simp] theorem showViews_pending (c p : Bool) (s : State) : (showViews c p s).pending = s.pending := by
  unfold showViews; dsimp only; split <;> split <;> simp
@[simp] theorem showChanges_request (before s : State) : (showChanges before s).request = s.request := by
  simp [showChanges]
@[simp] theorem showChanges_tariff (before s : State) : (showChanges before s).tariff = s.tariff := by
  simp [showChanges]
@[simp] theorem showChanges_fare (before s : State) : (showChanges before s).fare = s.fare := by
  simp [showChanges]
@[simp] theorem showChanges_milestone (before s : State) : (showChanges before s).milestone = s.milestone := by
  simp [showChanges]
@[simp] theorem showChanges_payment (before s : State) : (showChanges before s).payment = s.payment := by
  simp [showChanges]
@[simp] theorem showChanges_shift (before s : State) : (showChanges before s).shift = s.shift := by
  simp [showChanges]
@[simp] theorem showChanges_sign (before s : State) : (showChanges before s).sign = s.sign := by
  simp [showChanges]
@[simp] theorem showChanges_cadence (before s : State) : (showChanges before s).cadence = s.cadence := by
  simp [showChanges]
@[simp] theorem showChanges_intercom (before s : State) : (showChanges before s).intercom = s.intercom := by
  simp [showChanges]
@[simp] theorem showChanges_power (before s : State) : (showChanges before s).power = s.power := by
  simp [showChanges]
@[simp] theorem showChanges_pending (before s : State) : (showChanges before s).pending = s.pending := by
  simp [showChanges]

/-! ### The sign -/

@[simp] theorem repaintSign_request (s : State) : (repaintSign s).request = s.request := rfl
@[simp] theorem repaintSign_tariff (s : State) : (repaintSign s).tariff = s.tariff := rfl
@[simp] theorem repaintSign_fare (s : State) : (repaintSign s).fare = s.fare := rfl
@[simp] theorem repaintSign_milestone (s : State) : (repaintSign s).milestone = s.milestone := rfl
@[simp] theorem repaintSign_payment (s : State) : (repaintSign s).payment = s.payment := rfl
@[simp] theorem repaintSign_shift (s : State) : (repaintSign s).shift = s.shift := rfl
@[simp] theorem repaintSign_cadence (s : State) : (repaintSign s).cadence = s.cadence := rfl
@[simp] theorem repaintSign_intercom (s : State) : (repaintSign s).intercom = s.intercom := rfl
@[simp] theorem repaintSign_power (s : State) : (repaintSign s).power = s.power := rfl
@[simp] theorem repaintSign_pending (s : State) : (repaintSign s).pending = s.pending := rfl
@[simp] theorem compose_request (s : State) : (compose s).request = s.request := by
  unfold compose; split
  · rfl
  · dsimp only; split <;> rfl
@[simp] theorem compose_tariff (s : State) : (compose s).tariff = s.tariff := by
  unfold compose; split
  · rfl
  · dsimp only; split <;> rfl
@[simp] theorem compose_fare (s : State) : (compose s).fare = s.fare := by
  unfold compose; split
  · rfl
  · dsimp only; split <;> rfl
@[simp] theorem compose_milestone (s : State) : (compose s).milestone = s.milestone := by
  unfold compose; split
  · rfl
  · dsimp only; split <;> rfl
@[simp] theorem compose_payment (s : State) : (compose s).payment = s.payment := by
  unfold compose; split
  · rfl
  · dsimp only; split <;> rfl
@[simp] theorem compose_shift (s : State) : (compose s).shift = s.shift := by
  unfold compose; split
  · rfl
  · dsimp only; split <;> rfl
@[simp] theorem compose_cadence (s : State) : (compose s).cadence = s.cadence := by
  unfold compose; split
  · rfl
  · dsimp only; split <;> rfl
@[simp] theorem compose_intercom (s : State) : (compose s).intercom = s.intercom := by
  unfold compose; split
  · rfl
  · dsimp only; split <;> rfl
@[simp] theorem compose_power (s : State) : (compose s).power = s.power := by
  unfold compose; split
  · rfl
  · dsimp only; split <;> rfl
@[simp] theorem compose_pending (s : State) : (compose s).pending = s.pending := by
  unfold compose; split
  · rfl
  · dsimp only; split <;> rfl
@[simp] theorem deriveSign_request (s : State) : (deriveSign s).request = s.request := by
  simp [deriveSign]
@[simp] theorem deriveSign_tariff (s : State) : (deriveSign s).tariff = s.tariff := by
  simp [deriveSign]
@[simp] theorem deriveSign_fare (s : State) : (deriveSign s).fare = s.fare := by
  simp [deriveSign]
@[simp] theorem deriveSign_milestone (s : State) : (deriveSign s).milestone = s.milestone := by
  simp [deriveSign]
@[simp] theorem deriveSign_payment (s : State) : (deriveSign s).payment = s.payment := by
  simp [deriveSign]
@[simp] theorem deriveSign_shift (s : State) : (deriveSign s).shift = s.shift := by
  simp [deriveSign]
@[simp] theorem deriveSign_cadence (s : State) : (deriveSign s).cadence = s.cadence := by
  simp [deriveSign]
@[simp] theorem deriveSign_intercom (s : State) : (deriveSign s).intercom = s.intercom := by
  simp [deriveSign]
@[simp] theorem deriveSign_power (s : State) : (deriveSign s).power = s.power := by
  simp [deriveSign]
@[simp] theorem deriveSign_pending (s : State) : (deriveSign s).pending = s.pending := by
  simp [deriveSign]
@[simp] theorem deliverParties_request (s : State) : (deliverParties s).request = s.request := by
  simp [deliverParties]
@[simp] theorem deliverParties_tariff (s : State) : (deliverParties s).tariff = s.tariff := by
  simp [deliverParties]
@[simp] theorem deliverParties_fare (s : State) : (deliverParties s).fare = s.fare := by
  simp [deliverParties]
@[simp] theorem deliverParties_milestone (s : State) : (deliverParties s).milestone = s.milestone := by
  simp [deliverParties]
@[simp] theorem deliverParties_payment (s : State) : (deliverParties s).payment = s.payment := by
  simp [deliverParties]
@[simp] theorem deliverParties_shift (s : State) : (deliverParties s).shift = s.shift := by
  simp [deliverParties]
@[simp] theorem deliverParties_cadence (s : State) : (deliverParties s).cadence = s.cadence := by
  simp [deliverParties]
@[simp] theorem deliverParties_intercom (s : State) : (deliverParties s).intercom = s.intercom := by
  simp [deliverParties]
@[simp] theorem deliverParties_power (s : State) : (deliverParties s).power = s.power := by
  simp [deliverParties]
@[simp] theorem deliverParties_pending (s : State) : (deliverParties s).pending = s.pending := by
  simp [deliverParties]
@[simp] theorem deliverShift_request (s : State) : (deliverShift s).request = s.request := by
  simp [deliverShift]
@[simp] theorem deliverShift_tariff (s : State) : (deliverShift s).tariff = s.tariff := by
  simp [deliverShift]
@[simp] theorem deliverShift_fare (s : State) : (deliverShift s).fare = s.fare := by
  simp [deliverShift]
@[simp] theorem deliverShift_milestone (s : State) : (deliverShift s).milestone = s.milestone := by
  simp [deliverShift]
@[simp] theorem deliverShift_payment (s : State) : (deliverShift s).payment = s.payment := by
  simp [deliverShift]
@[simp] theorem deliverShift_shift (s : State) : (deliverShift s).shift = s.shift := by
  simp [deliverShift]
@[simp] theorem deliverShift_cadence (s : State) : (deliverShift s).cadence = s.cadence := by
  simp [deliverShift]
@[simp] theorem deliverShift_intercom (s : State) : (deliverShift s).intercom = s.intercom := by
  simp [deliverShift]
@[simp] theorem deliverShift_power (s : State) : (deliverShift s).power = s.power := by
  simp [deliverShift]
@[simp] theorem deliverShift_pending (s : State) : (deliverShift s).pending = s.pending := by
  simp [deliverShift]
@[simp] theorem signCount_request (s : State) : (signCount s).request = s.request := by
  unfold signCount; split
  · rfl
  · dsimp only; split
    · split <;> simp
    · simp
@[simp] theorem signCount_tariff (s : State) : (signCount s).tariff = s.tariff := by
  unfold signCount; split
  · rfl
  · dsimp only; split
    · split <;> simp
    · simp
@[simp] theorem signCount_fare (s : State) : (signCount s).fare = s.fare := by
  unfold signCount; split
  · rfl
  · dsimp only; split
    · split <;> simp
    · simp
@[simp] theorem signCount_milestone (s : State) : (signCount s).milestone = s.milestone := by
  unfold signCount; split
  · rfl
  · dsimp only; split
    · split <;> simp
    · simp
@[simp] theorem signCount_payment (s : State) : (signCount s).payment = s.payment := by
  unfold signCount; split
  · rfl
  · dsimp only; split
    · split <;> simp
    · simp
@[simp] theorem signCount_shift (s : State) : (signCount s).shift = s.shift := by
  unfold signCount; split
  · rfl
  · dsimp only; split
    · split <;> simp
    · simp
@[simp] theorem signCount_cadence (s : State) : (signCount s).cadence = s.cadence := by
  unfold signCount; split
  · rfl
  · dsimp only; split
    · split <;> simp
    · simp
@[simp] theorem signCount_intercom (s : State) : (signCount s).intercom = s.intercom := by
  unfold signCount; split
  · rfl
  · dsimp only; split
    · split <;> simp
    · simp
@[simp] theorem signCount_power (s : State) : (signCount s).power = s.power := by
  unfold signCount; split
  · rfl
  · dsimp only; split
    · split <;> simp
    · simp
@[simp] theorem signCount_pending (s : State) : (signCount s).pending = s.pending := by
  unfold signCount; split
  · rfl
  · dsimp only; split
    · split <;> simp
    · simp

/-- While PARKED nothing is composed (R185, R187). -/
theorem compose_of_parked {s : State} (h : s.parked = true) : compose s = s := by
  simp [compose, h]

/-- Otherwise the last output is the composed one (R122, R123). -/
theorem compose_output {s : State} (h : s.parked = false) : (compose s).sign.output = s.composed := by
  unfold compose; rw [if_neg (by simp [h])]; dsimp only; split <;> rfl

/-- And the image in use is the one that composition chose (R118, R125). -/
theorem compose_imageInUse {s : State} (h : s.parked = false) : (compose s).sign.imageInUse = s.imageChosen := by
  unfold compose; rw [if_neg (by simp [h])]; dsimp only; split <;> rfl

@[simp] theorem parkSign_output (s : State) : (parkSign s).sign.output = .dark := rfl

@[simp] theorem parkSign_imageInUse (s : State) : (parkSign s).sign.imageInUse = none := rfl

/-! ### Hand-offs of the fare engine -/

@[simp] theorem handOff_tariff (i : Fin 4) (trip : Nat) (s : State) : (handOff i trip s).tariff = s.tariff := by
  unfold handOff; dsimp only; split <;> simp
@[simp] theorem handOff_fare (i : Fin 4) (trip : Nat) (s : State) : (handOff i trip s).fare = s.fare := by
  unfold handOff; dsimp only; split <;> simp
@[simp] theorem handOff_milestone (i : Fin 4) (trip : Nat) (s : State) : (handOff i trip s).milestone = s.milestone := by
  unfold handOff; dsimp only; split <;> simp
@[simp] theorem handOff_payment (i : Fin 4) (trip : Nat) (s : State) : (handOff i trip s).payment = s.payment := by
  unfold handOff; dsimp only; split <;> simp
@[simp] theorem handOff_shift (i : Fin 4) (trip : Nat) (s : State) : (handOff i trip s).shift = s.shift := by
  unfold handOff; dsimp only; split <;> simp
@[simp] theorem handOff_cadence (i : Fin 4) (trip : Nat) (s : State) : (handOff i trip s).cadence = s.cadence := by
  unfold handOff; dsimp only; split <;> simp
@[simp] theorem handOff_intercom (i : Fin 4) (trip : Nat) (s : State) : (handOff i trip s).intercom = s.intercom := by
  unfold handOff; dsimp only; split <;> simp
@[simp] theorem handOff_pending (i : Fin 4) (trip : Nat) (s : State) : (handOff i trip s).pending = s.pending := by
  unfold handOff; dsimp only; split <;> simp
@[simp] theorem moveParty_tariff (i : Fin 4) (p : Party) (s : State) : (moveParty i p s).tariff = s.tariff := by
  simp [moveParty]
@[simp] theorem moveParty_milestone (i : Fin 4) (p : Party) (s : State) : (moveParty i p s).milestone = s.milestone := by
  simp [moveParty]
@[simp] theorem moveParty_payment (i : Fin 4) (p : Party) (s : State) : (moveParty i p s).payment = s.payment := by
  simp [moveParty]
@[simp] theorem moveParty_shift (i : Fin 4) (p : Party) (s : State) : (moveParty i p s).shift = s.shift := by
  simp [moveParty]
@[simp] theorem moveParty_cadence (i : Fin 4) (p : Party) (s : State) : (moveParty i p s).cadence = s.cadence := by
  simp [moveParty]
@[simp] theorem moveParty_intercom (i : Fin 4) (p : Party) (s : State) : (moveParty i p s).intercom = s.intercom := by
  simp [moveParty]
@[simp] theorem moveParty_pending (i : Fin 4) (p : Party) (s : State) : (moveParty i p s).pending = s.pending := by
  simp [moveParty]

/-! ### Counts of the shift -/

@[simp] theorem whileLive_link (f : Totals → Totals) (s : State) : (whileLive f s).link = s.link := by
  unfold whileLive; split <;> rfl
@[simp] theorem whileLive_request (f : Totals → Totals) (s : State) : (whileLive f s).request = s.request := by
  unfold whileLive; split <;> rfl
@[simp] theorem whileLive_tariff (f : Totals → Totals) (s : State) : (whileLive f s).tariff = s.tariff := by
  unfold whileLive; split <;> rfl
@[simp] theorem whileLive_fare (f : Totals → Totals) (s : State) : (whileLive f s).fare = s.fare := by
  unfold whileLive; split <;> rfl
@[simp] theorem whileLive_milestone (f : Totals → Totals) (s : State) : (whileLive f s).milestone = s.milestone := by
  unfold whileLive; split <;> rfl
@[simp] theorem whileLive_payment (f : Totals → Totals) (s : State) : (whileLive f s).payment = s.payment := by
  unfold whileLive; split <;> rfl
@[simp] theorem whileLive_sign (f : Totals → Totals) (s : State) : (whileLive f s).sign = s.sign := by
  unfold whileLive; split <;> rfl
@[simp] theorem whileLive_cadence (f : Totals → Totals) (s : State) : (whileLive f s).cadence = s.cadence := by
  unfold whileLive; split <;> rfl
@[simp] theorem whileLive_intercom (f : Totals → Totals) (s : State) : (whileLive f s).intercom = s.intercom := by
  unfold whileLive; split <;> rfl
@[simp] theorem whileLive_power (f : Totals → Totals) (s : State) : (whileLive f s).power = s.power := by
  unfold whileLive; split <;> rfl
@[simp] theorem whileLive_pending (f : Totals → Totals) (s : State) : (whileLive f s).pending = s.pending := by
  unfold whileLive; split <;> rfl

end Sys2Proof.Machine
end

