-- ==== Sys2Proof/Laws/Frames.lean ====
section
/-! SUPPORT. What each event of the blocks leaves as it was: one lemma for each block of `State` that the event does not reach. -/

namespace Sys2Proof.Machine

/-- A fold keeps what each of its steps keeps. -/
theorem foldl_keeps {α β γ : Type} (g : β → γ) (f : β → α → β) (h : ∀ b a, g (f b a) = g b) (xs : List α) (b : β) :
    g (xs.foldl f b) = g b := by
  induction xs generalizing b with
  | nil => rfl
  | cons x xs ih => rw [List.foldl_cons, ih, h]


/-! ### Milestones -/

@[simp] theorem armSlot_link (i : Fin 4) (s : State) : (armSlot i s).link = s.link := rfl
@[simp] theorem armSlot_request (i : Fin 4) (s : State) : (armSlot i s).request = s.request := rfl
@[simp] theorem armSlot_tariff (i : Fin 4) (s : State) : (armSlot i s).tariff = s.tariff := rfl
@[simp] theorem armSlot_fare (i : Fin 4) (s : State) : (armSlot i s).fare = s.fare := rfl
@[simp] theorem armSlot_payment (i : Fin 4) (s : State) : (armSlot i s).payment = s.payment := rfl
@[simp] theorem armSlot_shift (i : Fin 4) (s : State) : (armSlot i s).shift = s.shift := rfl
@[simp] theorem armSlot_sign (i : Fin 4) (s : State) : (armSlot i s).sign = s.sign := rfl
@[simp] theorem armSlot_cadence (i : Fin 4) (s : State) : (armSlot i s).cadence = s.cadence := rfl
@[simp] theorem armSlot_intercom (i : Fin 4) (s : State) : (armSlot i s).intercom = s.intercom := rfl
@[simp] theorem armSlot_power (i : Fin 4) (s : State) : (armSlot i s).power = s.power := rfl
@[simp] theorem armSlot_pending (i : Fin 4) (s : State) : (armSlot i s).pending = s.pending := rfl
@[simp] theorem rearmEntry_link (e : Fin 12) (m : Milestone) (s : State) : (rearmEntry e m s).link = s.link := by
  refine foldl_keeps State.link _ (fun b a => ?_) slots s
  split <;> rfl
@[simp] theorem rearmEntry_request (e : Fin 12) (m : Milestone) (s : State) : (rearmEntry e m s).request = s.request := by
  refine foldl_keeps State.request _ (fun b a => ?_) slots s
  split <;> rfl
@[simp] theorem rearmEntry_tariff (e : Fin 12) (m : Milestone) (s : State) : (rearmEntry e m s).tariff = s.tariff := by
  refine foldl_keeps State.tariff _ (fun b a => ?_) slots s
  split <;> rfl
@[simp] theorem rearmEntry_fare (e : Fin 12) (m : Milestone) (s : State) : (rearmEntry e m s).fare = s.fare := by
  refine foldl_keeps State.fare _ (fun b a => ?_) slots s
  split <;> rfl
@[simp] theorem rearmEntry_payment (e : Fin 12) (m : Milestone) (s : State) : (rearmEntry e m s).payment = s.payment := by
  refine foldl_keeps State.payment _ (fun b a => ?_) slots s
  split <;> rfl
@[simp] theorem rearmEntry_shift (e : Fin 12) (m : Milestone) (s : State) : (rearmEntry e m s).shift = s.shift := by
  refine foldl_keeps State.shift _ (fun b a => ?_) slots s
  split <;> rfl
@[simp] theorem rearmEntry_sign (e : Fin 12) (m : Milestone) (s : State) : (rearmEntry e m s).sign = s.sign := by
  refine foldl_keeps State.sign _ (fun b a => ?_) slots s
  split <;> rfl
@[simp] theorem rearmEntry_cadence (e : Fin 12) (m : Milestone) (s : State) : (rearmEntry e m s).cadence = s.cadence := by
  refine foldl_keeps State.cadence _ (fun b a => ?_) slots s
  split <;> rfl
@[simp] theorem rearmEntry_intercom (e : Fin 12) (m : Milestone) (s : State) : (rearmEntry e m s).intercom = s.intercom := by
  refine foldl_keeps State.intercom _ (fun b a => ?_) slots s
  split <;> rfl
@[simp] theorem rearmEntry_power (e : Fin 12) (m : Milestone) (s : State) : (rearmEntry e m s).power = s.power := by
  refine foldl_keeps State.power _ (fun b a => ?_) slots s
  split <;> rfl
@[simp] theorem rearmEntry_pending (e : Fin 12) (m : Milestone) (s : State) : (rearmEntry e m s).pending = s.pending := by
  refine foldl_keeps State.pending _ (fun b a => ?_) slots s
  split <;> rfl
@[simp] theorem switchTariff_request (i : Fin 4) (t : Nat) (s : State) : ((switchTariff i t s).1).request = s.request := by
  unfold switchTariff; split <;> simp
@[simp] theorem switchTariff_tariff (i : Fin 4) (t : Nat) (s : State) : ((switchTariff i t s).1).tariff = s.tariff := by
  unfold switchTariff; split <;> simp
@[simp] theorem switchTariff_milestone (i : Fin 4) (t : Nat) (s : State) : ((switchTariff i t s).1).milestone = s.milestone := by
  unfold switchTariff; split <;> simp
@[simp] theorem switchTariff_payment (i : Fin 4) (t : Nat) (s : State) : ((switchTariff i t s).1).payment = s.payment := by
  unfold switchTariff; split <;> simp
@[simp] theorem switchTariff_shift (i : Fin 4) (t : Nat) (s : State) : ((switchTariff i t s).1).shift = s.shift := by
  unfold switchTariff; split <;> simp
@[simp] theorem switchTariff_sign (i : Fin 4) (t : Nat) (s : State) : ((switchTariff i t s).1).sign = s.sign := by
  unfold switchTariff; split <;> simp
@[simp] theorem switchTariff_cadence (i : Fin 4) (t : Nat) (s : State) : ((switchTariff i t s).1).cadence = s.cadence := by
  unfold switchTariff; split <;> simp
@[simp] theorem switchTariff_intercom (i : Fin 4) (t : Nat) (s : State) : ((switchTariff i t s).1).intercom = s.intercom := by
  unfold switchTariff; split <;> simp
@[simp] theorem switchTariff_power (i : Fin 4) (t : Nat) (s : State) : ((switchTariff i t s).1).power = s.power := by
  unfold switchTariff; split <;> simp
@[simp] theorem switchTariff_pending (i : Fin 4) (t : Nat) (s : State) : ((switchTariff i t s).1).pending = s.pending := by
  unfold switchTariff; split <;> simp
@[simp] theorem milestoneExtra_request (i : Fin 4) (x : Nat) (s : State) : ((milestoneExtra i x s).1).request = s.request := by
  unfold milestoneExtra; split
  · split <;> simp
  · rfl
@[simp] theorem milestoneExtra_tariff (i : Fin 4) (x : Nat) (s : State) : ((milestoneExtra i x s).1).tariff = s.tariff := by
  unfold milestoneExtra; split
  · split <;> simp
  · rfl
@[simp] theorem milestoneExtra_milestone (i : Fin 4) (x : Nat) (s : State) : ((milestoneExtra i x s).1).milestone = s.milestone := by
  unfold milestoneExtra; split
  · split <;> simp
  · rfl
@[simp] theorem milestoneExtra_payment (i : Fin 4) (x : Nat) (s : State) : ((milestoneExtra i x s).1).payment = s.payment := by
  unfold milestoneExtra; split
  · split <;> simp
  · rfl
@[simp] theorem milestoneExtra_shift (i : Fin 4) (x : Nat) (s : State) : ((milestoneExtra i x s).1).shift = s.shift := by
  unfold milestoneExtra; split
  · split <;> simp
  · rfl
@[simp] theorem milestoneExtra_sign (i : Fin 4) (x : Nat) (s : State) : ((milestoneExtra i x s).1).sign = s.sign := by
  unfold milestoneExtra; split
  · split <;> simp
  · rfl
@[simp] theorem milestoneExtra_cadence (i : Fin 4) (x : Nat) (s : State) : ((milestoneExtra i x s).1).cadence = s.cadence := by
  unfold milestoneExtra; split
  · split <;> simp
  · rfl
@[simp] theorem milestoneExtra_intercom (i : Fin 4) (x : Nat) (s : State) : ((milestoneExtra i x s).1).intercom = s.intercom := by
  unfold milestoneExtra; split
  · split <;> simp
  · rfl
@[simp] theorem milestoneExtra_power (i : Fin 4) (x : Nat) (s : State) : ((milestoneExtra i x s).1).power = s.power := by
  unfold milestoneExtra; split
  · split <;> simp
  · rfl
@[simp] theorem milestoneExtra_pending (i : Fin 4) (x : Nat) (s : State) : ((milestoneExtra i x s).1).pending = s.pending := by
  unfold milestoneExtra; split
  · split <;> simp
  · rfl
@[simp] theorem fireAction_request (i : Fin 4) (m : Milestone) (s : State) : ((fireAction i m s).1).request = s.request := by
  unfold fireAction; split <;> simp
@[simp] theorem fireAction_tariff (i : Fin 4) (m : Milestone) (s : State) : ((fireAction i m s).1).tariff = s.tariff := by
  unfold fireAction; split <;> simp
@[simp] theorem fireAction_milestone (i : Fin 4) (m : Milestone) (s : State) : ((fireAction i m s).1).milestone = s.milestone := by
  unfold fireAction; split <;> simp
@[simp] theorem fireAction_payment (i : Fin 4) (m : Milestone) (s : State) : ((fireAction i m s).1).payment = s.payment := by
  unfold fireAction; split <;> simp
@[simp] theorem fireAction_shift (i : Fin 4) (m : Milestone) (s : State) : ((fireAction i m s).1).shift = s.shift := by
  unfold fireAction; split <;> simp
@[simp] theorem fireAction_sign (i : Fin 4) (m : Milestone) (s : State) : ((fireAction i m s).1).sign = s.sign := by
  unfold fireAction; split <;> simp
@[simp] theorem fireAction_cadence (i : Fin 4) (m : Milestone) (s : State) : ((fireAction i m s).1).cadence = s.cadence := by
  unfold fireAction; split <;> simp
@[simp] theorem fireAction_intercom (i : Fin 4) (m : Milestone) (s : State) : ((fireAction i m s).1).intercom = s.intercom := by
  unfold fireAction; split <;> simp
@[simp] theorem fireAction_power (i : Fin 4) (m : Milestone) (s : State) : ((fireAction i m s).1).power = s.power := by
  unfold fireAction; split <;> simp
@[simp] theorem fireAction_pending (i : Fin 4) (m : Milestone) (s : State) : ((fireAction i m s).1).pending = s.pending := by
  unfold fireAction; split <;> simp
@[simp] theorem passEntry_tariff (i : Fin 4) (q : Quantity) (w : PassState) (e : Fin 12) : (passEntry i q w e).state.tariff = w.state.tariff := by
  unfold passEntry; dsimp only; split
  · split <;> simp
  · rfl
@[simp] theorem passEntry_payment (i : Fin 4) (q : Quantity) (w : PassState) (e : Fin 12) : (passEntry i q w e).state.payment = w.state.payment := by
  unfold passEntry; dsimp only; split
  · split <;> simp
  · rfl
@[simp] theorem passEntry_shift (i : Fin 4) (q : Quantity) (w : PassState) (e : Fin 12) : (passEntry i q w e).state.shift = w.state.shift := by
  unfold passEntry; dsimp only; split
  · split <;> simp
  · rfl
@[simp] theorem passEntry_sign (i : Fin 4) (q : Quantity) (w : PassState) (e : Fin 12) : (passEntry i q w e).state.sign = w.state.sign := by
  unfold passEntry; dsimp only; split
  · split <;> simp
  · rfl
@[simp] theorem passEntry_cadence (i : Fin 4) (q : Quantity) (w : PassState) (e : Fin 12) : (passEntry i q w e).state.cadence = w.state.cadence := by
  unfold passEntry; dsimp only; split
  · split <;> simp
  · rfl
@[simp] theorem passEntry_intercom (i : Fin 4) (q : Quantity) (w : PassState) (e : Fin 12) : (passEntry i q w e).state.intercom = w.state.intercom := by
  unfold passEntry; dsimp only; split
  · split <;> simp
  · rfl
@[simp] theorem passEntry_power (i : Fin 4) (q : Quantity) (w : PassState) (e : Fin 12) : (passEntry i q w e).state.power = w.state.power := by
  unfold passEntry; dsimp only; split
  · split <;> simp
  · rfl
@[simp] theorem passEntry_pending (i : Fin 4) (q : Quantity) (w : PassState) (e : Fin 12) : (passEntry i q w e).state.pending = w.state.pending := by
  unfold passEntry; dsimp only; split
  · split <;> simp
  · rfl
@[simp] theorem runPass_tariff (i : Fin 4) (q : Quantity) (s : State) : (runPass i q s).tariff = s.tariff := by
  simpa only [runPass] using foldl_keeps (fun w : PassState => w.state.tariff) (passEntry i q) (passEntry_tariff i q) entries _
@[simp] theorem runPass_payment (i : Fin 4) (q : Quantity) (s : State) : (runPass i q s).payment = s.payment := by
  simpa only [runPass] using foldl_keeps (fun w : PassState => w.state.payment) (passEntry i q) (passEntry_payment i q) entries _
@[simp] theorem runPass_shift (i : Fin 4) (q : Quantity) (s : State) : (runPass i q s).shift = s.shift := by
  simpa only [runPass] using foldl_keeps (fun w : PassState => w.state.shift) (passEntry i q) (passEntry_shift i q) entries _
@[simp] theorem runPass_sign (i : Fin 4) (q : Quantity) (s : State) : (runPass i q s).sign = s.sign := by
  simpa only [runPass] using foldl_keeps (fun w : PassState => w.state.sign) (passEntry i q) (passEntry_sign i q) entries _
@[simp] theorem runPass_cadence (i : Fin 4) (q : Quantity) (s : State) : (runPass i q s).cadence = s.cadence := by
  simpa only [runPass] using foldl_keeps (fun w : PassState => w.state.cadence) (passEntry i q) (passEntry_cadence i q) entries _
@[simp] theorem runPass_intercom (i : Fin 4) (q : Quantity) (s : State) : (runPass i q s).intercom = s.intercom := by
  simpa only [runPass] using foldl_keeps (fun w : PassState => w.state.intercom) (passEntry i q) (passEntry_intercom i q) entries _
@[simp] theorem runPass_power (i : Fin 4) (q : Quantity) (s : State) : (runPass i q s).power = s.power := by
  simpa only [runPass] using foldl_keeps (fun w : PassState => w.state.power) (passEntry i q) (passEntry_power i q) entries _
@[simp] theorem runPass_pending (i : Fin 4) (q : Quantity) (s : State) : (runPass i q s).pending = s.pending := by
  simpa only [runPass] using foldl_keeps (fun w : PassState => w.state.pending) (passEntry i q) (passEntry_pending i q) entries _
@[simp] theorem fareChange_tariff (i : Fin 4) (f : Nat) (s : State) : (fareChange i f s).tariff = s.tariff := by
  unfold fareChange; split <;> simp
@[simp] theorem fareChange_payment (i : Fin 4) (f : Nat) (s : State) : (fareChange i f s).payment = s.payment := by
  unfold fareChange; split <;> simp
@[simp] theorem fareChange_shift (i : Fin 4) (f : Nat) (s : State) : (fareChange i f s).shift = s.shift := by
  unfold fareChange; split <;> simp
@[simp] theorem fareChange_sign (i : Fin 4) (f : Nat) (s : State) : (fareChange i f s).sign = s.sign := by
  unfold fareChange; split <;> simp
@[simp] theorem fareChange_cadence (i : Fin 4) (f : Nat) (s : State) : (fareChange i f s).cadence = s.cadence := by
  unfold fareChange; split <;> simp
@[simp] theorem fareChange_intercom (i : Fin 4) (f : Nat) (s : State) : (fareChange i f s).intercom = s.intercom := by
  unfold fareChange; split <;> simp
@[simp] theorem fareChange_power (i : Fin 4) (f : Nat) (s : State) : (fareChange i f s).power = s.power := by
  unfold fareChange; split <;> simp
@[simp] theorem fareChange_pending (i : Fin 4) (f : Nat) (s : State) : (fareChange i f s).pending = s.pending := by
  unfold fareChange; split <;> simp
@[simp] theorem retariffAuto_tariff (t : Nat) (s : State) (i : Fin 4) : (retariffAuto t s i).tariff = s.tariff := by
  unfold retariffAuto; dsimp only; split
  · split <;> simp
  · rfl
@[simp] theorem retariffAuto_payment (t : Nat) (s : State) (i : Fin 4) : (retariffAuto t s i).payment = s.payment := by
  unfold retariffAuto; dsimp only; split
  · split <;> simp
  · rfl
@[simp] theorem retariffAuto_shift (t : Nat) (s : State) (i : Fin 4) : (retariffAuto t s i).shift = s.shift := by
  unfold retariffAuto; dsimp only; split
  · split <;> simp
  · rfl
@[simp] theorem retariffAuto_sign (t : Nat) (s : State) (i : Fin 4) : (retariffAuto t s i).sign = s.sign := by
  unfold retariffAuto; dsimp only; split
  · split <;> simp
  · rfl
@[simp] theorem retariffAuto_cadence (t : Nat) (s : State) (i : Fin 4) : (retariffAuto t s i).cadence = s.cadence := by
  unfold retariffAuto; dsimp only; split
  · split <;> simp
  · rfl
@[simp] theorem retariffAuto_intercom (t : Nat) (s : State) (i : Fin 4) : (retariffAuto t s i).intercom = s.intercom := by
  unfold retariffAuto; dsimp only; split
  · split <;> simp
  · rfl
@[simp] theorem retariffAuto_power (t : Nat) (s : State) (i : Fin 4) : (retariffAuto t s i).power = s.power := by
  unfold retariffAuto; dsimp only; split
  · split <;> simp
  · rfl
@[simp] theorem retariffAuto_pending (t : Nat) (s : State) (i : Fin 4) : (retariffAuto t s i).pending = s.pending := by
  unfold retariffAuto; dsimp only; split
  · split <;> simp
  · rfl
@[simp] theorem tariffChange_tariff (t : Nat) (s : State) : (tariffChange t s).tariff = s.tariff := by
  simp only [tariffChange, showChanges_tariff]
  exact foldl_keeps State.tariff _ (retariffAuto_tariff t) slots s
@[simp] theorem tariffChange_payment (t : Nat) (s : State) : (tariffChange t s).payment = s.payment := by
  simp only [tariffChange, showChanges_payment]
  exact foldl_keeps State.payment _ (retariffAuto_payment t) slots s
@[simp] theorem tariffChange_shift (t : Nat) (s : State) : (tariffChange t s).shift = s.shift := by
  simp only [tariffChange, showChanges_shift]
  exact foldl_keeps State.shift _ (retariffAuto_shift t) slots s
@[simp] theorem tariffChange_sign (t : Nat) (s : State) : (tariffChange t s).sign = s.sign := by
  simp only [tariffChange, showChanges_sign]
  exact foldl_keeps State.sign _ (retariffAuto_sign t) slots s
@[simp] theorem tariffChange_cadence (t : Nat) (s : State) : (tariffChange t s).cadence = s.cadence := by
  simp only [tariffChange, showChanges_cadence]
  exact foldl_keeps State.cadence _ (retariffAuto_cadence t) slots s
@[simp] theorem tariffChange_intercom (t : Nat) (s : State) : (tariffChange t s).intercom = s.intercom := by
  simp only [tariffChange, showChanges_intercom]
  exact foldl_keeps State.intercom _ (retariffAuto_intercom t) slots s
@[simp] theorem tariffChange_power (t : Nat) (s : State) : (tariffChange t s).power = s.power := by
  simp only [tariffChange, showChanges_power]
  exact foldl_keeps State.power _ (retariffAuto_power t) slots s
@[simp] theorem tariffChange_pending (t : Nat) (s : State) : (tariffChange t s).pending = s.pending := by
  simp only [tariffChange, showChanges_pending]
  exact foldl_keeps State.pending _ (retariffAuto_pending t) slots s

/-! ### Chimes and the band -/

@[simp] theorem triggerChime_link (c : ChimeId) (s : State) : (triggerChime c s).link = s.link := by
  unfold triggerChime; split <;> rfl
@[simp] theorem triggerChime_request (c : ChimeId) (s : State) : (triggerChime c s).request = s.request := by
  unfold triggerChime; split <;> rfl
@[simp] theorem triggerChime_tariff (c : ChimeId) (s : State) : (triggerChime c s).tariff = s.tariff := by
  unfold triggerChime; split <;> rfl
@[simp] theorem triggerChime_fare (c : ChimeId) (s : State) : (triggerChime c s).fare = s.fare := by
  unfold triggerChime; split <;> rfl
@[simp] theorem triggerChime_milestone (c : ChimeId) (s : State) : (triggerChime c s).milestone = s.milestone := by
  unfold triggerChime; split <;> rfl
@[simp] theorem triggerChime_payment (c : ChimeId) (s : State) : (triggerChime c s).payment = s.payment := by
  unfold triggerChime; split <;> rfl
@[simp] theorem triggerChime_shift (c : ChimeId) (s : State) : (triggerChime c s).shift = s.shift := by
  unfold triggerChime; split <;> rfl
@[simp] theorem triggerChime_sign (c : ChimeId) (s : State) : (triggerChime c s).sign = s.sign := by
  unfold triggerChime; split <;> rfl
@[simp] theorem triggerChime_cadence (c : ChimeId) (s : State) : (triggerChime c s).cadence = s.cadence := by
  unfold triggerChime; split <;> rfl
@[simp] theorem triggerChime_power (c : ChimeId) (s : State) : (triggerChime c s).power = s.power := by
  unfold triggerChime; split <;> rfl
@[simp] theorem triggerChime_pending (c : ChimeId) (s : State) : (triggerChime c s).pending = s.pending := by
  unfold triggerChime; split <;> rfl
@[simp] theorem changeBand_payment (b : Option Nat) (s : State) : (changeBand b s).payment = s.payment := by
  unfold changeBand; dsimp only; split <;> split <;> simp
@[simp] theorem changeBand_shift (b : Option Nat) (s : State) : (changeBand b s).shift = s.shift := by
  unfold changeBand; dsimp only; split <;> split <;> simp
@[simp] theorem changeBand_sign (b : Option Nat) (s : State) : (changeBand b s).sign = s.sign := by
  unfold changeBand; dsimp only; split <;> split <;> simp
@[simp] theorem changeBand_cadence (b : Option Nat) (s : State) : (changeBand b s).cadence = s.cadence := by
  unfold changeBand; dsimp only; split <;> split <;> simp
@[simp] theorem changeBand_power (b : Option Nat) (s : State) : (changeBand b s).power = s.power := by
  unfold changeBand; dsimp only; split <;> split <;> simp
@[simp] theorem changeBand_pending (b : Option Nat) (s : State) : (changeBand b s).pending = s.pending := by
  unfold changeBand; dsimp only; split <;> split <;> simp
@[simp] theorem evaluateBand_payment (s : State) : (evaluateBand s).payment = s.payment := by
  unfold evaluateBand; dsimp only; split <;> simp
@[simp] theorem evaluateBand_shift (s : State) : (evaluateBand s).shift = s.shift := by
  unfold evaluateBand; dsimp only; split <;> simp
@[simp] theorem evaluateBand_sign (s : State) : (evaluateBand s).sign = s.sign := by
  unfold evaluateBand; dsimp only; split <;> simp
@[simp] theorem evaluateBand_cadence (s : State) : (evaluateBand s).cadence = s.cadence := by
  unfold evaluateBand; dsimp only; split <;> simp
@[simp] theorem evaluateBand_power (s : State) : (evaluateBand s).power = s.power := by
  unfold evaluateBand; dsimp only; split <;> simp
@[simp] theorem evaluateBand_pending (s : State) : (evaluateBand s).pending = s.pending := by
  unfold evaluateBand; dsimp only; split <;> simp
@[simp] theorem minuteBoundary_payment (s : State) : (minuteBoundary s).payment = s.payment := by
  unfold minuteBoundary; split <;> simp
@[simp] theorem minuteBoundary_shift (s : State) : (minuteBoundary s).shift = s.shift := by
  unfold minuteBoundary; split <;> simp
@[simp] theorem minuteBoundary_sign (s : State) : (minuteBoundary s).sign = s.sign := by
  unfold minuteBoundary; split <;> simp
@[simp] theorem minuteBoundary_cadence (s : State) : (minuteBoundary s).cadence = s.cadence := by
  unfold minuteBoundary; split <;> simp
@[simp] theorem minuteBoundary_power (s : State) : (minuteBoundary s).power = s.power := by
  unfold minuteBoundary; split <;> simp
@[simp] theorem minuteBoundary_pending (s : State) : (minuteBoundary s).pending = s.pending := by
  unfold minuteBoundary; split <;> simp

/-! ### Trips -/

@[simp] theorem markShared_link (s : State) : (markShared s).link = s.link := rfl
@[simp] theorem markShared_request (s : State) : (markShared s).request = s.request := rfl
@[simp] theorem markShared_tariff (s : State) : (markShared s).tariff = s.tariff := rfl
@[simp] theorem markShared_milestone (s : State) : (markShared s).milestone = s.milestone := rfl
@[simp] theorem markShared_payment (s : State) : (markShared s).payment = s.payment := rfl
@[simp] theorem markShared_shift (s : State) : (markShared s).shift = s.shift := rfl
@[simp] theorem markShared_sign (s : State) : (markShared s).sign = s.sign := rfl
@[simp] theorem markShared_cadence (s : State) : (markShared s).cadence = s.cadence := rfl
@[simp] theorem markShared_intercom (s : State) : (markShared s).intercom = s.intercom := rfl
@[simp] theorem markShared_power (s : State) : (markShared s).power = s.power := rfl
@[simp] theorem markShared_pending (s : State) : (markShared s).pending = s.pending := rfl
@[simp] theorem markMotionLost_link (s : State) : (markMotionLost s).link = s.link := rfl
@[simp] theorem markMotionLost_request (s : State) : (markMotionLost s).request = s.request := rfl
@[simp] theorem markMotionLost_tariff (s : State) : (markMotionLost s).tariff = s.tariff := rfl
@[simp] theorem markMotionLost_milestone (s : State) : (markMotionLost s).milestone = s.milestone := rfl
@[simp] theorem markMotionLost_payment (s : State) : (markMotionLost s).payment = s.payment := rfl
@[simp] theorem markMotionLost_shift (s : State) : (markMotionLost s).shift = s.shift := rfl
@[simp] theorem markMotionLost_sign (s : State) : (markMotionLost s).sign = s.sign := rfl
@[simp] theorem markMotionLost_cadence (s : State) : (markMotionLost s).cadence = s.cadence := rfl
@[simp] theorem markMotionLost_intercom (s : State) : (markMotionLost s).intercom = s.intercom := rfl
@[simp] theorem markMotionLost_power (s : State) : (markMotionLost s).power = s.power := rfl
@[simp] theorem markMotionLost_pending (s : State) : (markMotionLost s).pending = s.pending := rfl
@[simp] theorem setLastCount_link (n : Nat) (s : State) : (setLastCount n s).link = s.link := rfl
@[simp] theorem setLastCount_request (n : Nat) (s : State) : (setLastCount n s).request = s.request := rfl
@[simp] theorem setLastCount_tariff (n : Nat) (s : State) : (setLastCount n s).tariff = s.tariff := rfl
@[simp] theorem setLastCount_milestone (n : Nat) (s : State) : (setLastCount n s).milestone = s.milestone := rfl
@[simp] theorem setLastCount_payment (n : Nat) (s : State) : (setLastCount n s).payment = s.payment := rfl
@[simp] theorem setLastCount_shift (n : Nat) (s : State) : (setLastCount n s).shift = s.shift := rfl
@[simp] theorem setLastCount_sign (n : Nat) (s : State) : (setLastCount n s).sign = s.sign := rfl
@[simp] theorem setLastCount_cadence (n : Nat) (s : State) : (setLastCount n s).cadence = s.cadence := rfl
@[simp] theorem setLastCount_intercom (n : Nat) (s : State) : (setLastCount n s).intercom = s.intercom := rfl
@[simp] theorem setLastCount_power (n : Nat) (s : State) : (setLastCount n s).power = s.power := rfl
@[simp] theorem setLastCount_pending (n : Nat) (s : State) : (setLastCount n s).pending = s.pending := rfl
@[simp] theorem forgetCount_link (s : State) : (forgetCount s).link = s.link := rfl
@[simp] theorem forgetCount_request (s : State) : (forgetCount s).request = s.request := rfl
@[simp] theorem forgetCount_tariff (s : State) : (forgetCount s).tariff = s.tariff := rfl
@[simp] theorem forgetCount_milestone (s : State) : (forgetCount s).milestone = s.milestone := rfl
@[simp] theorem forgetCount_payment (s : State) : (forgetCount s).payment = s.payment := rfl
@[simp] theorem forgetCount_shift (s : State) : (forgetCount s).shift = s.shift := rfl
@[simp] theorem forgetCount_sign (s : State) : (forgetCount s).sign = s.sign := rfl
@[simp] theorem forgetCount_cadence (s : State) : (forgetCount s).cadence = s.cadence := rfl
@[simp] theorem forgetCount_intercom (s : State) : (forgetCount s).intercom = s.intercom := rfl
@[simp] theorem forgetCount_power (s : State) : (forgetCount s).power = s.power := rfl
@[simp] theorem forgetCount_pending (s : State) : (forgetCount s).pending = s.pending := rfl
@[simp] theorem vacate_tariff (i : Fin 4) (s : State) : (vacate i s).tariff = s.tariff := by
  simp [vacate]
@[simp] theorem vacate_milestone (i : Fin 4) (s : State) : (vacate i s).milestone = s.milestone := by
  simp [vacate]
@[simp] theorem vacate_payment (i : Fin 4) (s : State) : (vacate i s).payment = s.payment := by
  simp [vacate]
@[simp] theorem vacate_shift (i : Fin 4) (s : State) : (vacate i s).shift = s.shift := by
  simp [vacate]
@[simp] theorem vacate_cadence (i : Fin 4) (s : State) : (vacate i s).cadence = s.cadence := by
  simp [vacate]
@[simp] theorem vacate_intercom (i : Fin 4) (s : State) : (vacate i s).intercom = s.intercom := by
  simp [vacate]
@[simp] theorem vacate_pending (i : Fin 4) (s : State) : (vacate i s).pending = s.pending := by
  simp [vacate]
@[simp] theorem openTrip_tariff (i : Fin 4) (t : TariffArg) (st : Station) (s : State) : (openTrip i t st s).tariff = s.tariff := by
  unfold openTrip; dsimp only; split <;> simp
@[simp] theorem openTrip_payment (i : Fin 4) (t : TariffArg) (st : Station) (s : State) : (openTrip i t st s).payment = s.payment := by
  unfold openTrip; dsimp only; split <;> simp
@[simp] theorem openTrip_sign (i : Fin 4) (t : TariffArg) (st : Station) (s : State) : (openTrip i t st s).sign = s.sign := by
  unfold openTrip; dsimp only; split <;> simp
@[simp] theorem openTrip_cadence (i : Fin 4) (t : TariffArg) (st : Station) (s : State) : (openTrip i t st s).cadence = s.cadence := by
  unfold openTrip; dsimp only; split <;> simp
@[simp] theorem openTrip_intercom (i : Fin 4) (t : TariffArg) (st : Station) (s : State) : (openTrip i t st s).intercom = s.intercom := by
  unfold openTrip; dsimp only; split <;> simp
@[simp] theorem openTrip_power (i : Fin 4) (t : TariffArg) (st : Station) (s : State) : (openTrip i t st s).power = s.power := by
  unfold openTrip; dsimp only; split <;> simp
@[simp] theorem openTrip_pending (i : Fin 4) (t : TariffArg) (st : Station) (s : State) : (openTrip i t st s).pending = s.pending := by
  unfold openTrip; dsimp only; split <;> simp
@[simp] theorem meterParty_tariff (q : Quantity) (g : Party → Party) (s : State) (i : Fin 4) : (meterParty q g s i).tariff = s.tariff := by
  unfold meterParty; dsimp only; split
  · split <;> simp
  · rfl
@[simp] theorem meterParty_payment (q : Quantity) (g : Party → Party) (s : State) (i : Fin 4) : (meterParty q g s i).payment = s.payment := by
  unfold meterParty; dsimp only; split
  · split <;> simp
  · rfl
@[simp] theorem meterParty_shift (q : Quantity) (g : Party → Party) (s : State) (i : Fin 4) : (meterParty q g s i).shift = s.shift := by
  unfold meterParty; dsimp only; split
  · split <;> simp
  · rfl
@[simp] theorem meterParty_sign (q : Quantity) (g : Party → Party) (s : State) (i : Fin 4) : (meterParty q g s i).sign = s.sign := by
  unfold meterParty; dsimp only; split
  · split <;> simp
  · rfl
@[simp] theorem meterParty_cadence (q : Quantity) (g : Party → Party) (s : State) (i : Fin 4) : (meterParty q g s i).cadence = s.cadence := by
  unfold meterParty; dsimp only; split
  · split <;> simp
  · rfl
@[simp] theorem meterParty_intercom (q : Quantity) (g : Party → Party) (s : State) (i : Fin 4) : (meterParty q g s i).intercom = s.intercom := by
  unfold meterParty; dsimp only; split
  · split <;> simp
  · rfl
@[simp] theorem meterParty_power (q : Quantity) (g : Party → Party) (s : State) (i : Fin 4) : (meterParty q g s i).power = s.power := by
  unfold meterParty; dsimp only; split
  · split <;> simp
  · rfl
@[simp] theorem meterParty_pending (q : Quantity) (g : Party → Party) (s : State) (i : Fin 4) : (meterParty q g s i).pending = s.pending := by
  unfold meterParty; dsimp only; split
  · split <;> simp
  · rfl
theorem meterEach_tariff (q : Quantity) (g : State → Party → Party) (is : List (Fin 4)) (r : State × Bool × Bool) : (meterEach q g is r).1.tariff = r.1.tariff := by
  induction is generalizing r with
  | nil => rfl
  | cons i is ih => obtain ⟨s, c, p⟩ := r; simp [meterEach, ih]
theorem meterEach_payment (q : Quantity) (g : State → Party → Party) (is : List (Fin 4)) (r : State × Bool × Bool) : (meterEach q g is r).1.payment = r.1.payment := by
  induction is generalizing r with
  | nil => rfl
  | cons i is ih => obtain ⟨s, c, p⟩ := r; simp [meterEach, ih]
theorem meterEach_shift (q : Quantity) (g : State → Party → Party) (is : List (Fin 4)) (r : State × Bool × Bool) : (meterEach q g is r).1.shift = r.1.shift := by
  induction is generalizing r with
  | nil => rfl
  | cons i is ih => obtain ⟨s, c, p⟩ := r; simp [meterEach, ih]
theorem meterEach_sign (q : Quantity) (g : State → Party → Party) (is : List (Fin 4)) (r : State × Bool × Bool) : (meterEach q g is r).1.sign = r.1.sign := by
  induction is generalizing r with
  | nil => rfl
  | cons i is ih => obtain ⟨s, c, p⟩ := r; simp [meterEach, ih]
theorem meterEach_cadence (q : Quantity) (g : State → Party → Party) (is : List (Fin 4)) (r : State × Bool × Bool) : (meterEach q g is r).1.cadence = r.1.cadence := by
  induction is generalizing r with
  | nil => rfl
  | cons i is ih => obtain ⟨s, c, p⟩ := r; simp [meterEach, ih]
theorem meterEach_intercom (q : Quantity) (g : State → Party → Party) (is : List (Fin 4)) (r : State × Bool × Bool) : (meterEach q g is r).1.intercom = r.1.intercom := by
  induction is generalizing r with
  | nil => rfl
  | cons i is ih => obtain ⟨s, c, p⟩ := r; simp [meterEach, ih]
theorem meterEach_power (q : Quantity) (g : State → Party → Party) (is : List (Fin 4)) (r : State × Bool × Bool) : (meterEach q g is r).1.power = r.1.power := by
  induction is generalizing r with
  | nil => rfl
  | cons i is ih => obtain ⟨s, c, p⟩ := r; simp [meterEach, ih]
theorem meterEach_pending (q : Quantity) (g : State → Party → Party) (is : List (Fin 4)) (r : State × Bool × Bool) : (meterEach q g is r).1.pending = r.1.pending := by
  induction is generalizing r with
  | nil => rfl
  | cons i is ih => obtain ⟨s, c, p⟩ := r; simp [meterEach, ih]
@[simp] theorem meterAll_tariff (q : Quantity) (g : State → Party → Party) (s : State) : (meterAll q g s).tariff = s.tariff := by
  simp [meterAll, meterEach_tariff]
@[simp] theorem meterAll_payment (q : Quantity) (g : State → Party → Party) (s : State) : (meterAll q g s).payment = s.payment := by
  simp [meterAll, meterEach_payment]
@[simp] theorem meterAll_shift (q : Quantity) (g : State → Party → Party) (s : State) : (meterAll q g s).shift = s.shift := by
  simp [meterAll, meterEach_shift]
@[simp] theorem meterAll_sign (q : Quantity) (g : State → Party → Party) (s : State) : (meterAll q g s).sign = s.sign := by
  simp [meterAll, meterEach_sign]
@[simp] theorem meterAll_cadence (q : Quantity) (g : State → Party → Party) (s : State) : (meterAll q g s).cadence = s.cadence := by
  simp [meterAll, meterEach_cadence]
@[simp] theorem meterAll_intercom (q : Quantity) (g : State → Party → Party) (s : State) : (meterAll q g s).intercom = s.intercom := by
  simp [meterAll, meterEach_intercom]
@[simp] theorem meterAll_power (q : Quantity) (g : State → Party → Party) (s : State) : (meterAll q g s).power = s.power := by
  simp [meterAll, meterEach_power]
@[simp] theorem meterAll_pending (q : Quantity) (g : State → Party → Party) (s : State) : (meterAll q g s).pending = s.pending := by
  simp [meterAll, meterEach_pending]
@[simp] theorem fareTick_tariff (s : State) : (fareTick s).tariff = s.tariff := by
  simp [fareTick]
@[simp] theorem fareTick_payment (s : State) : (fareTick s).payment = s.payment := by
  simp [fareTick]
@[simp] theorem fareTick_shift (s : State) : (fareTick s).shift = s.shift := by
  simp [fareTick]
@[simp] theorem fareTick_sign (s : State) : (fareTick s).sign = s.sign := by
  simp [fareTick]
@[simp] theorem fareTick_cadence (s : State) : (fareTick s).cadence = s.cadence := by
  simp [fareTick]
@[simp] theorem fareTick_intercom (s : State) : (fareTick s).intercom = s.intercom := by
  simp [fareTick]
@[simp] theorem fareTick_power (s : State) : (fareTick s).power = s.power := by
  simp [fareTick]
@[simp] theorem fareTick_pending (s : State) : (fareTick s).pending = s.pending := by
  simp [fareTick]
@[simp] theorem resync_tariff (n : Nat) (s : State) : (resync n s).tariff = s.tariff := by
  simp [resync]
@[simp] theorem resync_payment (n : Nat) (s : State) : (resync n s).payment = s.payment := by
  simp [resync]
@[simp] theorem resync_shift (n : Nat) (s : State) : (resync n s).shift = s.shift := by
  simp [resync]
@[simp] theorem resync_sign (n : Nat) (s : State) : (resync n s).sign = s.sign := by
  simp [resync]
@[simp] theorem resync_cadence (n : Nat) (s : State) : (resync n s).cadence = s.cadence := by
  simp [resync]
@[simp] theorem resync_intercom (n : Nat) (s : State) : (resync n s).intercom = s.intercom := by
  simp [resync]
@[simp] theorem resync_power (n : Nat) (s : State) : (resync n s).power = s.power := by
  simp [resync]
@[simp] theorem resync_pending (n : Nat) (s : State) : (resync n s).pending = s.pending := by
  simp [resync]
@[simp] theorem dropDelta_tariff (n : Nat) (s : State) : (dropDelta n s).tariff = s.tariff := by
  simp [dropDelta]
@[simp] theorem dropDelta_payment (n : Nat) (s : State) : (dropDelta n s).payment = s.payment := by
  simp [dropDelta]
@[simp] theorem dropDelta_sign (n : Nat) (s : State) : (dropDelta n s).sign = s.sign := by
  simp [dropDelta]
@[simp] theorem dropDelta_cadence (n : Nat) (s : State) : (dropDelta n s).cadence = s.cadence := by
  simp [dropDelta]
@[simp] theorem dropDelta_intercom (n : Nat) (s : State) : (dropDelta n s).intercom = s.intercom := by
  simp [dropDelta]
@[simp] theorem dropDelta_power (n : Nat) (s : State) : (dropDelta n s).power = s.power := by
  simp [dropDelta]
@[simp] theorem dropDelta_pending (n : Nat) (s : State) : (dropDelta n s).pending = s.pending := by
  simp [dropDelta]
@[simp] theorem handPulses_link (h : Bool) (d : Nat) (s : State) : (handPulses h d s).link = s.link := by
  simp [handPulses]
@[simp] theorem handPulses_request (h : Bool) (d : Nat) (s : State) : (handPulses h d s).request = s.request := by
  simp [handPulses]
@[simp] theorem handPulses_tariff (h : Bool) (d : Nat) (s : State) : (handPulses h d s).tariff = s.tariff := by
  simp [handPulses]
@[simp] theorem handPulses_fare (h : Bool) (d : Nat) (s : State) : (handPulses h d s).fare = s.fare := by
  simp [handPulses]
@[simp] theorem handPulses_milestone (h : Bool) (d : Nat) (s : State) : (handPulses h d s).milestone = s.milestone := by
  simp [handPulses]
@[simp] theorem handPulses_payment (h : Bool) (d : Nat) (s : State) : (handPulses h d s).payment = s.payment := by
  simp [handPulses]
@[simp] theorem handPulses_sign (h : Bool) (d : Nat) (s : State) : (handPulses h d s).sign = s.sign := by
  simp [handPulses]
@[simp] theorem handPulses_cadence (h : Bool) (d : Nat) (s : State) : (handPulses h d s).cadence = s.cadence := by
  simp [handPulses]
@[simp] theorem handPulses_intercom (h : Bool) (d : Nat) (s : State) : (handPulses h d s).intercom = s.intercom := by
  simp [handPulses]
@[simp] theorem handPulses_power (h : Bool) (d : Nat) (s : State) : (handPulses h d s).power = s.power := by
  simp [handPulses]
@[simp] theorem handPulses_pending (h : Bool) (d : Nat) (s : State) : (handPulses h d s).pending = s.pending := by
  simp [handPulses]
@[simp] theorem applyDelta_tariff (n d : Nat) (s : State) : (applyDelta n d s).tariff = s.tariff := by
  unfold applyDelta; dsimp only; split <;> simp
@[simp] theorem applyDelta_payment (n d : Nat) (s : State) : (applyDelta n d s).payment = s.payment := by
  unfold applyDelta; dsimp only; split <;> simp
@[simp] theorem applyDelta_sign (n d : Nat) (s : State) : (applyDelta n d s).sign = s.sign := by
  unfold applyDelta; dsimp only; split <;> simp
@[simp] theorem applyDelta_cadence (n d : Nat) (s : State) : (applyDelta n d s).cadence = s.cadence := by
  unfold applyDelta; dsimp only; split <;> simp
@[simp] theorem applyDelta_intercom (n d : Nat) (s : State) : (applyDelta n d s).intercom = s.intercom := by
  unfold applyDelta; dsimp only; split <;> simp
@[simp] theorem applyDelta_power (n d : Nat) (s : State) : (applyDelta n d s).power = s.power := by
  unfold applyDelta; dsimp only; split <;> simp
@[simp] theorem applyDelta_pending (n d : Nat) (s : State) : (applyDelta n d s).pending = s.pending := by
  unfold applyDelta; dsimp only; split <;> simp
@[simp] theorem takeCount_tariff (n : Nat) (s : State) : (takeCount n s).tariff = s.tariff := by
  unfold takeCount; split
  · simp
  · split <;> simp
@[simp] theorem takeCount_payment (n : Nat) (s : State) : (takeCount n s).payment = s.payment := by
  unfold takeCount; split
  · simp
  · split <;> simp
@[simp] theorem takeCount_sign (n : Nat) (s : State) : (takeCount n s).sign = s.sign := by
  unfold takeCount; split
  · simp
  · split <;> simp
@[simp] theorem takeCount_cadence (n : Nat) (s : State) : (takeCount n s).cadence = s.cadence := by
  unfold takeCount; split
  · simp
  · split <;> simp
@[simp] theorem takeCount_intercom (n : Nat) (s : State) : (takeCount n s).intercom = s.intercom := by
  unfold takeCount; split
  · simp
  · split <;> simp
@[simp] theorem takeCount_power (n : Nat) (s : State) : (takeCount n s).power = s.power := by
  unfold takeCount; split
  · simp
  · split <;> simp
@[simp] theorem takeCount_pending (n : Nat) (s : State) : (takeCount n s).pending = s.pending := by
  unfold takeCount; split
  · simp
  · split <;> simp

/-! ### Events of the payment unit at the fare engine -/

@[simp] theorem offerTaken_tariff (i : Fin 4) (s : State) : (offerTaken i s).tariff = s.tariff := by
  simp [offerTaken]
@[simp] theorem offerTaken_milestone (i : Fin 4) (s : State) : (offerTaken i s).milestone = s.milestone := by
  simp [offerTaken]
@[simp] theorem offerTaken_payment (i : Fin 4) (s : State) : (offerTaken i s).payment = s.payment := by
  simp [offerTaken]
@[simp] theorem offerTaken_shift (i : Fin 4) (s : State) : (offerTaken i s).shift = s.shift := by
  simp [offerTaken]
@[simp] theorem offerTaken_cadence (i : Fin 4) (s : State) : (offerTaken i s).cadence = s.cadence := by
  simp [offerTaken]
@[simp] theorem offerTaken_intercom (i : Fin 4) (s : State) : (offerTaken i s).intercom = s.intercom := by
  simp [offerTaken]
@[simp] theorem offerTaken_pending (i : Fin 4) (s : State) : (offerTaken i s).pending = s.pending := by
  simp [offerTaken]
@[simp] theorem paymentReleased_tariff (i : Fin 4) (s : State) : (paymentReleased i s).tariff = s.tariff := by
  simp [paymentReleased]
@[simp] theorem paymentReleased_milestone (i : Fin 4) (s : State) : (paymentReleased i s).milestone = s.milestone := by
  simp [paymentReleased]
@[simp] theorem paymentReleased_payment (i : Fin 4) (s : State) : (paymentReleased i s).payment = s.payment := by
  simp [paymentReleased]
@[simp] theorem paymentReleased_shift (i : Fin 4) (s : State) : (paymentReleased i s).shift = s.shift := by
  simp [paymentReleased]
@[simp] theorem paymentReleased_cadence (i : Fin 4) (s : State) : (paymentReleased i s).cadence = s.cadence := by
  simp [paymentReleased]
@[simp] theorem paymentReleased_intercom (i : Fin 4) (s : State) : (paymentReleased i s).intercom = s.intercom := by
  simp [paymentReleased]
@[simp] theorem paymentReleased_pending (i : Fin 4) (s : State) : (paymentReleased i s).pending = s.pending := by
  simp [paymentReleased]
@[simp] theorem postedOnline_tariff (i : Fin 4) (b t : Nat) (s : State) : (postedOnline i b t s).tariff = s.tariff := by
  simp [postedOnline]
@[simp] theorem postedOnline_milestone (i : Fin 4) (b t : Nat) (s : State) : (postedOnline i b t s).milestone = s.milestone := by
  simp [postedOnline]
@[simp] theorem postedOnline_payment (i : Fin 4) (b t : Nat) (s : State) : (postedOnline i b t s).payment = s.payment := by
  simp [postedOnline]
@[simp] theorem postedOnline_shift (i : Fin 4) (b t : Nat) (s : State) : (postedOnline i b t s).shift = s.shift := by
  simp [postedOnline]
@[simp] theorem postedOnline_cadence (i : Fin 4) (b t : Nat) (s : State) : (postedOnline i b t s).cadence = s.cadence := by
  simp [postedOnline]
@[simp] theorem postedOnline_intercom (i : Fin 4) (b t : Nat) (s : State) : (postedOnline i b t s).intercom = s.intercom := by
  simp [postedOnline]
@[simp] theorem postedOnline_pending (i : Fin 4) (b t : Nat) (s : State) : (postedOnline i b t s).pending = s.pending := by
  simp [postedOnline]
@[simp] theorem postedOffline_tariff (i : Fin 4) (b t : Nat) (s : State) : (postedOffline i b t s).tariff = s.tariff := by
  simp [postedOffline]
@[simp] theorem postedOffline_milestone (i : Fin 4) (b t : Nat) (s : State) : (postedOffline i b t s).milestone = s.milestone := by
  simp [postedOffline]
@[simp] theorem postedOffline_payment (i : Fin 4) (b t : Nat) (s : State) : (postedOffline i b t s).payment = s.payment := by
  simp [postedOffline]
@[simp] theorem postedOffline_shift (i : Fin 4) (b t : Nat) (s : State) : (postedOffline i b t s).shift = s.shift := by
  simp [postedOffline]
@[simp] theorem postedOffline_cadence (i : Fin 4) (b t : Nat) (s : State) : (postedOffline i b t s).cadence = s.cadence := by
  simp [postedOffline]
@[simp] theorem postedOffline_intercom (i : Fin 4) (b t : Nat) (s : State) : (postedOffline i b t s).intercom = s.intercom := by
  simp [postedOffline]
@[simp] theorem postedOffline_pending (i : Fin 4) (b t : Nat) (s : State) : (postedOffline i b t s).pending = s.pending := by
  simp [postedOffline]

/-! ### The payment unit -/

@[simp] theorem promote_request (s : State) : (promote s).request = s.request := by
  unfold promote; split <;> simp
@[simp] theorem promote_tariff (s : State) : (promote s).tariff = s.tariff := by
  unfold promote; split <;> simp
@[simp] theorem promote_fare (s : State) : (promote s).fare = s.fare := by
  unfold promote; split <;> simp
@[simp] theorem promote_milestone (s : State) : (promote s).milestone = s.milestone := by
  unfold promote; split <;> simp
@[simp] theorem promote_shift (s : State) : (promote s).shift = s.shift := by
  unfold promote; split <;> simp
@[simp] theorem promote_sign (s : State) : (promote s).sign = s.sign := by
  unfold promote; split <;> simp
@[simp] theorem promote_cadence (s : State) : (promote s).cadence = s.cadence := by
  unfold promote; split <;> simp
@[simp] theorem promote_intercom (s : State) : (promote s).intercom = s.intercom := by
  unfold promote; split <;> simp
@[simp] theorem promote_power (s : State) : (promote s).power = s.power := by
  unfold promote; split <;> simp
@[simp] theorem promote_pending (s : State) : (promote s).pending = s.pending := by
  unfold promote; split <;> simp
@[simp] theorem removeHead_request (s : State) : (removeHead s).request = s.request := by
  simp [removeHead]
@[simp] theorem removeHead_tariff (s : State) : (removeHead s).tariff = s.tariff := by
  simp [removeHead]
@[simp] theorem removeHead_fare (s : State) : (removeHead s).fare = s.fare := by
  simp [removeHead]
@[simp] theorem removeHead_milestone (s : State) : (removeHead s).milestone = s.milestone := by
  simp [removeHead]
@[simp] theorem removeHead_shift (s : State) : (removeHead s).shift = s.shift := by
  simp [removeHead]
@[simp] theorem removeHead_sign (s : State) : (removeHead s).sign = s.sign := by
  simp [removeHead]
@[simp] theorem removeHead_cadence (s : State) : (removeHead s).cadence = s.cadence := by
  simp [removeHead]
@[simp] theorem removeHead_intercom (s : State) : (removeHead s).intercom = s.intercom := by
  simp [removeHead]
@[simp] theorem removeHead_power (s : State) : (removeHead s).power = s.power := by
  simp [removeHead]
@[simp] theorem removeHead_pending (s : State) : (removeHead s).pending = s.pending := by
  simp [removeHead]
@[simp] theorem cancelRecord_tariff (i : Fin 4) (c : CancelCause) (s : State) : (cancelRecord i c s).tariff = s.tariff := by
  unfold cancelRecord; dsimp only; split <;> split <;> simp
@[simp] theorem cancelRecord_milestone (i : Fin 4) (c : CancelCause) (s : State) : (cancelRecord i c s).milestone = s.milestone := by
  unfold cancelRecord; dsimp only; split <;> split <;> simp
@[simp] theorem cancelRecord_shift (i : Fin 4) (c : CancelCause) (s : State) : (cancelRecord i c s).shift = s.shift := by
  unfold cancelRecord; dsimp only; split <;> split <;> simp
@[simp] theorem cancelRecord_cadence (i : Fin 4) (c : CancelCause) (s : State) : (cancelRecord i c s).cadence = s.cadence := by
  unfold cancelRecord; dsimp only; split <;> split <;> simp
@[simp] theorem cancelRecord_intercom (i : Fin 4) (c : CancelCause) (s : State) : (cancelRecord i c s).intercom = s.intercom := by
  unfold cancelRecord; dsimp only; split <;> split <;> simp
@[simp] theorem cancelRecord_pending (i : Fin 4) (c : CancelCause) (s : State) : (cancelRecord i c s).pending = s.pending := by
  unfold cancelRecord; dsimp only; split <;> split <;> simp
@[simp] theorem State.setHead_link (s : State) (r : Record) : (s.setHead r).link = s.link := rfl
@[simp] theorem State.setHead_request (s : State) (r : Record) : (s.setHead r).request = s.request := rfl
@[simp] theorem State.setHead_tariff (s : State) (r : Record) : (s.setHead r).tariff = s.tariff := rfl
@[simp] theorem State.setHead_fare (s : State) (r : Record) : (s.setHead r).fare = s.fare := rfl
@[simp] theorem State.setHead_milestone (s : State) (r : Record) : (s.setHead r).milestone = s.milestone := rfl
@[simp] theorem State.setHead_shift (s : State) (r : Record) : (s.setHead r).shift = s.shift := rfl
@[simp] theorem State.setHead_sign (s : State) (r : Record) : (s.setHead r).sign = s.sign := rfl
@[simp] theorem State.setHead_cadence (s : State) (r : Record) : (s.setHead r).cadence = s.cadence := rfl
@[simp] theorem State.setHead_intercom (s : State) (r : Record) : (s.setHead r).intercom = s.intercom := rfl
@[simp] theorem State.setHead_power (s : State) (r : Record) : (s.setHead r).power = s.power := rfl
@[simp] theorem State.setHead_pending (s : State) (r : Record) : (s.setHead r).pending = s.pending := rfl
@[simp] theorem pinStarted_request (s : State) : (pinStarted s).request = s.request := by
  simp [pinStarted]
@[simp] theorem pinStarted_tariff (s : State) : (pinStarted s).tariff = s.tariff := by
  simp [pinStarted]
@[simp] theorem pinStarted_fare (s : State) : (pinStarted s).fare = s.fare := by
  simp [pinStarted]
@[simp] theorem pinStarted_milestone (s : State) : (pinStarted s).milestone = s.milestone := by
  simp [pinStarted]
@[simp] theorem pinStarted_payment (s : State) : (pinStarted s).payment = s.payment := by
  simp [pinStarted]
@[simp] theorem pinStarted_shift (s : State) : (pinStarted s).shift = s.shift := by
  simp [pinStarted]
@[simp] theorem pinStarted_sign (s : State) : (pinStarted s).sign = s.sign := by
  simp [pinStarted]
@[simp] theorem pinStarted_cadence (s : State) : (pinStarted s).cadence = s.cadence := by
  simp [pinStarted]
@[simp] theorem pinStarted_intercom (s : State) : (pinStarted s).intercom = s.intercom := by
  simp [pinStarted]
@[simp] theorem pinStarted_power (s : State) : (pinStarted s).power = s.power := by
  simp [pinStarted]
@[simp] theorem pinStarted_pending (s : State) : (pinStarted s).pending = s.pending := by
  simp [pinStarted]
@[simp] theorem takeStage_tariff (x : CardStage) (r : Record) (s : State) : (takeStage x r s).tariff = s.tariff := by
  unfold takeStage; split <;> simp
@[simp] theorem takeStage_milestone (x : CardStage) (r : Record) (s : State) : (takeStage x r s).milestone = s.milestone := by
  unfold takeStage; split <;> simp
@[simp] theorem takeStage_shift (x : CardStage) (r : Record) (s : State) : (takeStage x r s).shift = s.shift := by
  unfold takeStage; split <;> simp
@[simp] theorem takeStage_cadence (x : CardStage) (r : Record) (s : State) : (takeStage x r s).cadence = s.cadence := by
  unfold takeStage; split <;> simp
@[simp] theorem takeStage_intercom (x : CardStage) (r : Record) (s : State) : (takeStage x r s).intercom = s.intercom := by
  unfold takeStage; split <;> simp
@[simp] theorem takeStage_pending (x : CardStage) (r : Record) (s : State) : (takeStage x r s).pending = s.pending := by
  unfold takeStage; split <;> simp
@[simp] theorem takeCardStage_tariff (fields : List Byte) (s : State) : (takeCardStage fields s).tariff = s.tariff := by
  unfold takeCardStage; split
  · split
    · split <;> simp
    · rfl
  · rfl
@[simp] theorem takeCardStage_milestone (fields : List Byte) (s : State) : (takeCardStage fields s).milestone = s.milestone := by
  unfold takeCardStage; split
  · split
    · split <;> simp
    · rfl
  · rfl
@[simp] theorem takeCardStage_shift (fields : List Byte) (s : State) : (takeCardStage fields s).shift = s.shift := by
  unfold takeCardStage; split
  · split
    · split <;> simp
    · rfl
  · rfl
@[simp] theorem takeCardStage_cadence (fields : List Byte) (s : State) : (takeCardStage fields s).cadence = s.cadence := by
  unfold takeCardStage; split
  · split
    · split <;> simp
    · rfl
  · rfl
@[simp] theorem takeCardStage_intercom (fields : List Byte) (s : State) : (takeCardStage fields s).intercom = s.intercom := by
  unfold takeCardStage; split
  · split
    · split <;> simp
    · rfl
  · rfl
@[simp] theorem takeCardStage_pending (fields : List Byte) (s : State) : (takeCardStage fields s).pending = s.pending := by
  unfold takeCardStage; split
  · split
    · split <;> simp
    · rfl
  · rfl
@[simp] theorem offerExpiry_tariff (s : State) : (offerExpiry s).tariff = s.tariff := by
  unfold offerExpiry; split
  · split <;> simp
  · rfl
@[simp] theorem offerExpiry_milestone (s : State) : (offerExpiry s).milestone = s.milestone := by
  unfold offerExpiry; split
  · split <;> simp
  · rfl
@[simp] theorem offerExpiry_shift (s : State) : (offerExpiry s).shift = s.shift := by
  unfold offerExpiry; split
  · split <;> simp
  · rfl
@[simp] theorem offerExpiry_cadence (s : State) : (offerExpiry s).cadence = s.cadence := by
  unfold offerExpiry; split
  · split <;> simp
  · rfl
@[simp] theorem offerExpiry_intercom (s : State) : (offerExpiry s).intercom = s.intercom := by
  unfold offerExpiry; split
  · split <;> simp
  · rfl
@[simp] theorem offerExpiry_pending (s : State) : (offerExpiry s).pending = s.pending := by
  unfold offerExpiry; split
  · split <;> simp
  · rfl
@[simp] theorem uploadHead_request (s : State) : (uploadHead s).request = s.request := by
  unfold uploadHead; split <;> simp
@[simp] theorem uploadHead_tariff (s : State) : (uploadHead s).tariff = s.tariff := by
  unfold uploadHead; split <;> simp
@[simp] theorem uploadHead_fare (s : State) : (uploadHead s).fare = s.fare := by
  unfold uploadHead; split <;> simp
@[simp] theorem uploadHead_milestone (s : State) : (uploadHead s).milestone = s.milestone := by
  unfold uploadHead; split <;> simp
@[simp] theorem uploadHead_shift (s : State) : (uploadHead s).shift = s.shift := by
  unfold uploadHead; split <;> simp
@[simp] theorem uploadHead_sign (s : State) : (uploadHead s).sign = s.sign := by
  unfold uploadHead; split <;> simp
@[simp] theorem uploadHead_cadence (s : State) : (uploadHead s).cadence = s.cadence := by
  unfold uploadHead; split <;> simp
@[simp] theorem uploadHead_intercom (s : State) : (uploadHead s).intercom = s.intercom := by
  unfold uploadHead; split <;> simp
@[simp] theorem uploadHead_power (s : State) : (uploadHead s).power = s.power := by
  unfold uploadHead; split <;> simp
@[simp] theorem uploadHead_pending (s : State) : (uploadHead s).pending = s.pending := by
  unfold uploadHead; split <;> simp
@[simp] theorem sendUpload_request (s : State) : (sendUpload s).request = s.request := by
  unfold sendUpload; split <;> simp
@[simp] theorem sendUpload_tariff (s : State) : (sendUpload s).tariff = s.tariff := by
  unfold sendUpload; split <;> simp
@[simp] theorem sendUpload_fare (s : State) : (sendUpload s).fare = s.fare := by
  unfold sendUpload; split <;> simp
@[simp] theorem sendUpload_milestone (s : State) : (sendUpload s).milestone = s.milestone := by
  unfold sendUpload; split <;> simp
@[simp] theorem sendUpload_shift (s : State) : (sendUpload s).shift = s.shift := by
  unfold sendUpload; split <;> simp
@[simp] theorem sendUpload_sign (s : State) : (sendUpload s).sign = s.sign := by
  unfold sendUpload; split <;> simp
@[simp] theorem sendUpload_cadence (s : State) : (sendUpload s).cadence = s.cadence := by
  unfold sendUpload; split <;> simp
@[simp] theorem sendUpload_intercom (s : State) : (sendUpload s).intercom = s.intercom := by
  unfold sendUpload; split <;> simp
@[simp] theorem sendUpload_power (s : State) : (sendUpload s).power = s.power := by
  unfold sendUpload; split <;> simp
@[simp] theorem sendUpload_pending (s : State) : (sendUpload s).pending = s.pending := by
  unfold sendUpload; split <;> simp
@[simp] theorem idleUpload_link (s : State) : (idleUpload s).link = s.link := rfl
@[simp] theorem idleUpload_request (s : State) : (idleUpload s).request = s.request := rfl
@[simp] theorem idleUpload_tariff (s : State) : (idleUpload s).tariff = s.tariff := rfl
@[simp] theorem idleUpload_fare (s : State) : (idleUpload s).fare = s.fare := rfl
@[simp] theorem idleUpload_milestone (s : State) : (idleUpload s).milestone = s.milestone := rfl
@[simp] theorem idleUpload_shift (s : State) : (idleUpload s).shift = s.shift := rfl
@[simp] theorem idleUpload_sign (s : State) : (idleUpload s).sign = s.sign := rfl
@[simp] theorem idleUpload_cadence (s : State) : (idleUpload s).cadence = s.cadence := rfl
@[simp] theorem idleUpload_intercom (s : State) : (idleUpload s).intercom = s.intercom := rfl
@[simp] theorem idleUpload_power (s : State) : (idleUpload s).power = s.power := rfl
@[simp] theorem idleUpload_pending (s : State) : (idleUpload s).pending = s.pending := rfl
@[simp] theorem appendEntry_tariff (e : StoreEntry) (s : State) : (appendEntry e s).tariff = s.tariff := by
  unfold appendEntry; dsimp only; split <;> simp
@[simp] theorem appendEntry_fare (e : StoreEntry) (s : State) : (appendEntry e s).fare = s.fare := by
  unfold appendEntry; dsimp only; split <;> simp
@[simp] theorem appendEntry_milestone (e : StoreEntry) (s : State) : (appendEntry e s).milestone = s.milestone := by
  unfold appendEntry; dsimp only; split <;> simp
@[simp] theorem appendEntry_sign (e : StoreEntry) (s : State) : (appendEntry e s).sign = s.sign := by
  unfold appendEntry; dsimp only; split <;> simp
@[simp] theorem appendEntry_cadence (e : StoreEntry) (s : State) : (appendEntry e s).cadence = s.cadence := by
  unfold appendEntry; dsimp only; split <;> simp
@[simp] theorem appendEntry_intercom (e : StoreEntry) (s : State) : (appendEntry e s).intercom = s.intercom := by
  unfold appendEntry; dsimp only; split <;> simp
@[simp] theorem appendEntry_power (e : StoreEntry) (s : State) : (appendEntry e s).power = s.power := by
  unfold appendEntry; dsimp only; split <;> simp
@[simp] theorem appendEntry_pending (e : StoreEntry) (s : State) : (appendEntry e s).pending = s.pending := by
  unfold appendEntry; dsimp only; split <;> simp
@[simp] theorem countUnmatched_link (s : State) : (countUnmatched s).link = s.link := rfl
@[simp] theorem countUnmatched_request (s : State) : (countUnmatched s).request = s.request := rfl
@[simp] theorem countUnmatched_tariff (s : State) : (countUnmatched s).tariff = s.tariff := rfl
@[simp] theorem countUnmatched_fare (s : State) : (countUnmatched s).fare = s.fare := rfl
@[simp] theorem countUnmatched_milestone (s : State) : (countUnmatched s).milestone = s.milestone := rfl
@[simp] theorem countUnmatched_shift (s : State) : (countUnmatched s).shift = s.shift := rfl
@[simp] theorem countUnmatched_sign (s : State) : (countUnmatched s).sign = s.sign := rfl
@[simp] theorem countUnmatched_cadence (s : State) : (countUnmatched s).cadence = s.cadence := rfl
@[simp] theorem countUnmatched_intercom (s : State) : (countUnmatched s).intercom = s.intercom := rfl
@[simp] theorem countUnmatched_power (s : State) : (countUnmatched s).power = s.power := rfl
@[simp] theorem countUnmatched_pending (s : State) : (countUnmatched s).pending = s.pending := rfl
@[simp] theorem takeUploadAck_tariff (fields : List Byte) (s : State) : (takeUploadAck fields s).tariff = s.tariff := by
  unfold takeUploadAck; split
  · simp
  · split
    · dsimp only; split <;> simp
    · simp
@[simp] theorem takeUploadAck_fare (fields : List Byte) (s : State) : (takeUploadAck fields s).fare = s.fare := by
  unfold takeUploadAck; split
  · simp
  · split
    · dsimp only; split <;> simp
    · simp
@[simp] theorem takeUploadAck_milestone (fields : List Byte) (s : State) : (takeUploadAck fields s).milestone = s.milestone := by
  unfold takeUploadAck; split
  · simp
  · split
    · dsimp only; split <;> simp
    · simp
@[simp] theorem takeUploadAck_shift (fields : List Byte) (s : State) : (takeUploadAck fields s).shift = s.shift := by
  unfold takeUploadAck; split
  · simp
  · split
    · dsimp only; split <;> simp
    · simp
@[simp] theorem takeUploadAck_sign (fields : List Byte) (s : State) : (takeUploadAck fields s).sign = s.sign := by
  unfold takeUploadAck; split
  · simp
  · split
    · dsimp only; split <;> simp
    · simp
@[simp] theorem takeUploadAck_cadence (fields : List Byte) (s : State) : (takeUploadAck fields s).cadence = s.cadence := by
  unfold takeUploadAck; split
  · simp
  · split
    · dsimp only; split <;> simp
    · simp
@[simp] theorem takeUploadAck_intercom (fields : List Byte) (s : State) : (takeUploadAck fields s).intercom = s.intercom := by
  unfold takeUploadAck; split
  · simp
  · split
    · dsimp only; split <;> simp
    · simp
@[simp] theorem takeUploadAck_power (fields : List Byte) (s : State) : (takeUploadAck fields s).power = s.power := by
  unfold takeUploadAck; split
  · simp
  · split
    · dsimp only; split <;> simp
    · simp
@[simp] theorem takeUploadAck_pending (fields : List Byte) (s : State) : (takeUploadAck fields s).pending = s.pending := by
  unfold takeUploadAck; split
  · simp
  · split
    · dsimp only; split <;> simp
    · simp
@[simp] theorem uploadExpiry_request (s : State) : (uploadExpiry s).request = s.request := by
  unfold uploadExpiry; split <;> simp
@[simp] theorem uploadExpiry_tariff (s : State) : (uploadExpiry s).tariff = s.tariff := by
  unfold uploadExpiry; split <;> simp
@[simp] theorem uploadExpiry_fare (s : State) : (uploadExpiry s).fare = s.fare := by
  unfold uploadExpiry; split <;> simp
@[simp] theorem uploadExpiry_milestone (s : State) : (uploadExpiry s).milestone = s.milestone := by
  unfold uploadExpiry; split <;> simp
@[simp] theorem uploadExpiry_shift (s : State) : (uploadExpiry s).shift = s.shift := by
  unfold uploadExpiry; split <;> simp
@[simp] theorem uploadExpiry_sign (s : State) : (uploadExpiry s).sign = s.sign := by
  unfold uploadExpiry; split <;> simp
@[simp] theorem uploadExpiry_cadence (s : State) : (uploadExpiry s).cadence = s.cadence := by
  unfold uploadExpiry; split <;> simp
@[simp] theorem uploadExpiry_intercom (s : State) : (uploadExpiry s).intercom = s.intercom := by
  unfold uploadExpiry; split <;> simp
@[simp] theorem uploadExpiry_power (s : State) : (uploadExpiry s).power = s.power := by
  unfold uploadExpiry; split <;> simp
@[simp] theorem uploadExpiry_pending (s : State) : (uploadExpiry s).pending = s.pending := by
  unfold uploadExpiry; split <;> simp
@[simp] theorem authResult_request (n : Byte) (r : AuthResult) (c : Byte) (t : BitVec 32) (x y : Nat) (s : State) : (authResult n r c t x y s).request = s.request := rfl
@[simp] theorem authResult_tariff (n : Byte) (r : AuthResult) (c : Byte) (t : BitVec 32) (x y : Nat) (s : State) : (authResult n r c t x y s).tariff = s.tariff := rfl
@[simp] theorem authResult_fare (n : Byte) (r : AuthResult) (c : Byte) (t : BitVec 32) (x y : Nat) (s : State) : (authResult n r c t x y s).fare = s.fare := rfl
@[simp] theorem authResult_milestone (n : Byte) (r : AuthResult) (c : Byte) (t : BitVec 32) (x y : Nat) (s : State) : (authResult n r c t x y s).milestone = s.milestone := rfl
@[simp] theorem authResult_payment (n : Byte) (r : AuthResult) (c : Byte) (t : BitVec 32) (x y : Nat) (s : State) : (authResult n r c t x y s).payment = s.payment := rfl
@[simp] theorem authResult_shift (n : Byte) (r : AuthResult) (c : Byte) (t : BitVec 32) (x y : Nat) (s : State) : (authResult n r c t x y s).shift = s.shift := rfl
@[simp] theorem authResult_sign (n : Byte) (r : AuthResult) (c : Byte) (t : BitVec 32) (x y : Nat) (s : State) : (authResult n r c t x y s).sign = s.sign := rfl
@[simp] theorem authResult_cadence (n : Byte) (r : AuthResult) (c : Byte) (t : BitVec 32) (x y : Nat) (s : State) : (authResult n r c t x y s).cadence = s.cadence := rfl
@[simp] theorem authResult_intercom (n : Byte) (r : AuthResult) (c : Byte) (t : BitVec 32) (x y : Nat) (s : State) : (authResult n r c t x y s).intercom = s.intercom := rfl
@[simp] theorem authResult_power (n : Byte) (r : AuthResult) (c : Byte) (t : BitVec 32) (x y : Nat) (s : State) : (authResult n r c t x y s).power = s.power := rfl
@[simp] theorem authResult_pending (n : Byte) (r : AuthResult) (c : Byte) (t : BitVec 32) (x y : Nat) (s : State) : (authResult n r c t x y s).pending = s.pending := rfl
@[simp] theorem forwardAsk_request (r : Record) (x : Ask) (s : State) : (forwardAsk r x s).request = s.request := by
  simp [forwardAsk]
@[simp] theorem forwardAsk_tariff (r : Record) (x : Ask) (s : State) : (forwardAsk r x s).tariff = s.tariff := by
  simp [forwardAsk]
@[simp] theorem forwardAsk_fare (r : Record) (x : Ask) (s : State) : (forwardAsk r x s).fare = s.fare := by
  simp [forwardAsk]
@[simp] theorem forwardAsk_milestone (r : Record) (x : Ask) (s : State) : (forwardAsk r x s).milestone = s.milestone := by
  simp [forwardAsk]
@[simp] theorem forwardAsk_shift (r : Record) (x : Ask) (s : State) : (forwardAsk r x s).shift = s.shift := by
  simp [forwardAsk]
@[simp] theorem forwardAsk_sign (r : Record) (x : Ask) (s : State) : (forwardAsk r x s).sign = s.sign := by
  simp [forwardAsk]
@[simp] theorem forwardAsk_cadence (r : Record) (x : Ask) (s : State) : (forwardAsk r x s).cadence = s.cadence := by
  simp [forwardAsk]
@[simp] theorem forwardAsk_intercom (r : Record) (x : Ask) (s : State) : (forwardAsk r x s).intercom = s.intercom := by
  simp [forwardAsk]
@[simp] theorem forwardAsk_power (r : Record) (x : Ask) (s : State) : (forwardAsk r x s).power = s.power := by
  simp [forwardAsk]
@[simp] theorem forwardAsk_pending (r : Record) (x : Ask) (s : State) : (forwardAsk r x s).pending = s.pending := by
  simp [forwardAsk]
@[simp] theorem approveOffline_tariff (r : Record) (x : Ask) (s : State) : (approveOffline r x s).tariff = s.tariff := by
  simp [approveOffline]
@[simp] theorem approveOffline_milestone (r : Record) (x : Ask) (s : State) : (approveOffline r x s).milestone = s.milestone := by
  simp [approveOffline]
@[simp] theorem approveOffline_cadence (r : Record) (x : Ask) (s : State) : (approveOffline r x s).cadence = s.cadence := by
  simp [approveOffline]
@[simp] theorem approveOffline_pending (r : Record) (x : Ask) (s : State) : (approveOffline r x s).pending = s.pending := by
  simp [approveOffline]
@[simp] theorem refuseOffline_tariff (r : Record) (x : Ask) (c : OfflineReason) (s : State) : (refuseOffline r x c s).tariff = s.tariff := by
  simp [refuseOffline]
@[simp] theorem refuseOffline_milestone (r : Record) (x : Ask) (c : OfflineReason) (s : State) : (refuseOffline r x c s).milestone = s.milestone := by
  simp [refuseOffline]
@[simp] theorem refuseOffline_shift (r : Record) (x : Ask) (c : OfflineReason) (s : State) : (refuseOffline r x c s).shift = s.shift := by
  simp [refuseOffline]
@[simp] theorem refuseOffline_cadence (r : Record) (x : Ask) (c : OfflineReason) (s : State) : (refuseOffline r x c s).cadence = s.cadence := by
  simp [refuseOffline]
@[simp] theorem refuseOffline_intercom (r : Record) (x : Ask) (c : OfflineReason) (s : State) : (refuseOffline r x c s).intercom = s.intercom := by
  simp [refuseOffline]
@[simp] theorem refuseOffline_pending (r : Record) (x : Ask) (c : OfflineReason) (s : State) : (refuseOffline r x c s).pending = s.pending := by
  simp [refuseOffline]
@[simp] theorem decideOffline_tariff (r : Record) (x : Ask) (s : State) : (decideOffline r x s).tariff = s.tariff := by
  unfold decideOffline; split <;> simp
@[simp] theorem decideOffline_milestone (r : Record) (x : Ask) (s : State) : (decideOffline r x s).milestone = s.milestone := by
  unfold decideOffline; split <;> simp
@[simp] theorem decideOffline_cadence (r : Record) (x : Ask) (s : State) : (decideOffline r x s).cadence = s.cadence := by
  unfold decideOffline; split <;> simp
@[simp] theorem decideOffline_pending (r : Record) (x : Ask) (s : State) : (decideOffline r x s).pending = s.pending := by
  unfold decideOffline; split <;> simp
@[simp] theorem takeAuthAsk_tariff (fields : List Byte) (s : State) : (takeAuthAsk fields s).tariff = s.tariff := by
  unfold takeAuthAsk; split
  · rfl
  · dsimp only; split
    · simp
    · split
      · simp
      · split
        · simp
        · split <;> simp
@[simp] theorem takeAuthAsk_milestone (fields : List Byte) (s : State) : (takeAuthAsk fields s).milestone = s.milestone := by
  unfold takeAuthAsk; split
  · rfl
  · dsimp only; split
    · simp
    · split
      · simp
      · split
        · simp
        · split <;> simp
@[simp] theorem takeAuthAsk_cadence (fields : List Byte) (s : State) : (takeAuthAsk fields s).cadence = s.cadence := by
  unfold takeAuthAsk; split
  · rfl
  · dsimp only; split
    · simp
    · split
      · simp
      · split
        · simp
        · split <;> simp
@[simp] theorem takeAuthAsk_pending (fields : List Byte) (s : State) : (takeAuthAsk fields s).pending = s.pending := by
  unfold takeAuthAsk; split
  · rfl
  · dsimp only; split
    · simp
    · split
      · simp
      · split
        · simp
        · split <;> simp
@[simp] theorem answerApproved_tariff (r : Record) (s : State) : (answerApproved r s).tariff = s.tariff := by
  simp [answerApproved]
@[simp] theorem answerApproved_milestone (r : Record) (s : State) : (answerApproved r s).milestone = s.milestone := by
  simp [answerApproved]
@[simp] theorem answerApproved_shift (r : Record) (s : State) : (answerApproved r s).shift = s.shift := by
  simp [answerApproved]
@[simp] theorem answerApproved_cadence (r : Record) (s : State) : (answerApproved r s).cadence = s.cadence := by
  simp [answerApproved]
@[simp] theorem answerApproved_pending (r : Record) (s : State) : (answerApproved r s).pending = s.pending := by
  simp [answerApproved]
@[simp] theorem answerDeclined_tariff (r : Record) (s : State) : (answerDeclined r s).tariff = s.tariff := by
  simp [answerDeclined]
@[simp] theorem answerDeclined_milestone (r : Record) (s : State) : (answerDeclined r s).milestone = s.milestone := by
  simp [answerDeclined]
@[simp] theorem answerDeclined_shift (r : Record) (s : State) : (answerDeclined r s).shift = s.shift := by
  simp [answerDeclined]
@[simp] theorem answerDeclined_cadence (r : Record) (s : State) : (answerDeclined r s).cadence = s.cadence := by
  simp [answerDeclined]
@[simp] theorem answerDeclined_intercom (r : Record) (s : State) : (answerDeclined r s).intercom = s.intercom := by
  simp [answerDeclined]
@[simp] theorem answerDeclined_pending (r : Record) (s : State) : (answerDeclined r s).pending = s.pending := by
  simp [answerDeclined]
@[simp] theorem takeAuthAnswer_tariff (fields : List Byte) (s : State) : (takeAuthAnswer fields s).tariff = s.tariff := by
  unfold takeAuthAnswer; split
  · split <;> simp
  · rfl
@[simp] theorem takeAuthAnswer_milestone (fields : List Byte) (s : State) : (takeAuthAnswer fields s).milestone = s.milestone := by
  unfold takeAuthAnswer; split
  · split <;> simp
  · rfl
@[simp] theorem takeAuthAnswer_shift (fields : List Byte) (s : State) : (takeAuthAnswer fields s).shift = s.shift := by
  unfold takeAuthAnswer; split
  · split <;> simp
  · rfl
@[simp] theorem takeAuthAnswer_cadence (fields : List Byte) (s : State) : (takeAuthAnswer fields s).cadence = s.cadence := by
  unfold takeAuthAnswer; split
  · split <;> simp
  · rfl
@[simp] theorem takeAuthAnswer_pending (fields : List Byte) (s : State) : (takeAuthAnswer fields s).pending = s.pending := by
  unfold takeAuthAnswer; split
  · split <;> simp
  · rfl
@[simp] theorem answerTimedOut_tariff (r : Record) (s : State) : (answerTimedOut r s).tariff = s.tariff := by
  simp [answerTimedOut]
@[simp] theorem answerTimedOut_milestone (r : Record) (s : State) : (answerTimedOut r s).milestone = s.milestone := by
  simp [answerTimedOut]
@[simp] theorem answerTimedOut_cadence (r : Record) (s : State) : (answerTimedOut r s).cadence = s.cadence := by
  simp [answerTimedOut]
@[simp] theorem answerTimedOut_intercom (r : Record) (s : State) : (answerTimedOut r s).intercom = s.intercom := by
  simp [answerTimedOut]
@[simp] theorem answerTimedOut_pending (r : Record) (s : State) : (answerTimedOut r s).pending = s.pending := by
  simp [answerTimedOut]
@[simp] theorem answerExpiry_tariff (s : State) : (answerExpiry s).tariff = s.tariff := by
  unfold answerExpiry; split
  · split <;> simp
  · rfl
@[simp] theorem answerExpiry_milestone (s : State) : (answerExpiry s).milestone = s.milestone := by
  unfold answerExpiry; split
  · split <;> simp
  · rfl
@[simp] theorem answerExpiry_cadence (s : State) : (answerExpiry s).cadence = s.cadence := by
  unfold answerExpiry; split
  · split <;> simp
  · rfl
@[simp] theorem answerExpiry_intercom (s : State) : (answerExpiry s).intercom = s.intercom := by
  unfold answerExpiry; split
  · split <;> simp
  · rfl
@[simp] theorem answerExpiry_pending (s : State) : (answerExpiry s).pending = s.pending := by
  unfold answerExpiry; split
  · split <;> simp
  · rfl
@[simp] theorem cardLinkDown_tariff (s : State) : (cardLinkDown s).tariff = s.tariff := foldl_keeps State.tariff (fun s (r : Record) => cancelRecord r.slot .link s) (fun b a => cancelRecord_tariff a.slot .link b) _ s
@[simp] theorem cardLinkDown_milestone (s : State) : (cardLinkDown s).milestone = s.milestone := foldl_keeps State.milestone (fun s (r : Record) => cancelRecord r.slot .link s) (fun b a => cancelRecord_milestone a.slot .link b) _ s
@[simp] theorem cardLinkDown_shift (s : State) : (cardLinkDown s).shift = s.shift := foldl_keeps State.shift (fun s (r : Record) => cancelRecord r.slot .link s) (fun b a => cancelRecord_shift a.slot .link b) _ s
@[simp] theorem cardLinkDown_cadence (s : State) : (cardLinkDown s).cadence = s.cadence := foldl_keeps State.cadence (fun s (r : Record) => cancelRecord r.slot .link s) (fun b a => cancelRecord_cadence a.slot .link b) _ s
@[simp] theorem cardLinkDown_intercom (s : State) : (cardLinkDown s).intercom = s.intercom := foldl_keeps State.intercom (fun s (r : Record) => cancelRecord r.slot .link s) (fun b a => cancelRecord_intercom a.slot .link b) _ s
@[simp] theorem cardLinkDown_pending (s : State) : (cardLinkDown s).pending = s.pending := foldl_keeps State.pending (fun s (r : Record) => cancelRecord r.slot .link s) (fun b a => cancelRecord_pending a.slot .link b) _ s

/-! ### The intercom unit -/

@[simp] theorem callRise_tariff (st : Station) (s : State) : (callRise st s).tariff = s.tariff := by
  unfold callRise; dsimp only; split
  · simp
  · split <;> simp
  · split <;> simp
  · split <;> simp
@[simp] theorem callRise_fare (st : Station) (s : State) : (callRise st s).fare = s.fare := by
  unfold callRise; dsimp only; split
  · simp
  · split <;> simp
  · split <;> simp
  · split <;> simp
@[simp] theorem callRise_milestone (st : Station) (s : State) : (callRise st s).milestone = s.milestone := by
  unfold callRise; dsimp only; split
  · simp
  · split <;> simp
  · split <;> simp
  · split <;> simp
@[simp] theorem callRise_payment (st : Station) (s : State) : (callRise st s).payment = s.payment := by
  unfold callRise; dsimp only; split
  · simp
  · split <;> simp
  · split <;> simp
  · split <;> simp
@[simp] theorem callRise_shift (st : Station) (s : State) : (callRise st s).shift = s.shift := by
  unfold callRise; dsimp only; split
  · simp
  · split <;> simp
  · split <;> simp
  · split <;> simp
@[simp] theorem callRise_sign (st : Station) (s : State) : (callRise st s).sign = s.sign := by
  unfold callRise; dsimp only; split
  · simp
  · split <;> simp
  · split <;> simp
  · split <;> simp
@[simp] theorem callRise_cadence (st : Station) (s : State) : (callRise st s).cadence = s.cadence := by
  unfold callRise; dsimp only; split
  · simp
  · split <;> simp
  · split <;> simp
  · split <;> simp
@[simp] theorem callRise_power (st : Station) (s : State) : (callRise st s).power = s.power := by
  unfold callRise; dsimp only; split
  · simp
  · split <;> simp
  · split <;> simp
  · split <;> simp
@[simp] theorem callRise_pending (st : Station) (s : State) : (callRise st s).pending = s.pending := by
  unfold callRise; dsimp only; split
  · simp
  · split <;> simp
  · split <;> simp
  · split <;> simp
@[simp] theorem talkRise_tariff (s : State) : (talkRise s).tariff = s.tariff := by
  unfold talkRise; dsimp only; split <;> simp
@[simp] theorem talkRise_fare (s : State) : (talkRise s).fare = s.fare := by
  unfold talkRise; dsimp only; split <;> simp
@[simp] theorem talkRise_milestone (s : State) : (talkRise s).milestone = s.milestone := by
  unfold talkRise; dsimp only; split <;> simp
@[simp] theorem talkRise_payment (s : State) : (talkRise s).payment = s.payment := by
  unfold talkRise; dsimp only; split <;> simp
@[simp] theorem talkRise_shift (s : State) : (talkRise s).shift = s.shift := by
  unfold talkRise; dsimp only; split <;> simp
@[simp] theorem talkRise_sign (s : State) : (talkRise s).sign = s.sign := by
  unfold talkRise; dsimp only; split <;> simp
@[simp] theorem talkRise_cadence (s : State) : (talkRise s).cadence = s.cadence := by
  unfold talkRise; dsimp only; split <;> simp
@[simp] theorem talkRise_power (s : State) : (talkRise s).power = s.power := by
  unfold talkRise; dsimp only; split <;> simp
@[simp] theorem talkRise_pending (s : State) : (talkRise s).pending = s.pending := by
  unfold talkRise; dsimp only; split <;> simp
@[simp] theorem talkFall_tariff (s : State) : (talkFall s).tariff = s.tariff := by
  unfold talkFall; dsimp only; split
  · split <;> simp
  · rfl
@[simp] theorem talkFall_fare (s : State) : (talkFall s).fare = s.fare := by
  unfold talkFall; dsimp only; split
  · split <;> simp
  · rfl
@[simp] theorem talkFall_milestone (s : State) : (talkFall s).milestone = s.milestone := by
  unfold talkFall; dsimp only; split
  · split <;> simp
  · rfl
@[simp] theorem talkFall_payment (s : State) : (talkFall s).payment = s.payment := by
  unfold talkFall; dsimp only; split
  · split <;> simp
  · rfl
@[simp] theorem talkFall_shift (s : State) : (talkFall s).shift = s.shift := by
  unfold talkFall; dsimp only; split
  · split <;> simp
  · rfl
@[simp] theorem talkFall_sign (s : State) : (talkFall s).sign = s.sign := by
  unfold talkFall; dsimp only; split
  · split <;> simp
  · rfl
@[simp] theorem talkFall_cadence (s : State) : (talkFall s).cadence = s.cadence := by
  unfold talkFall; dsimp only; split
  · split <;> simp
  · rfl
@[simp] theorem talkFall_power (s : State) : (talkFall s).power = s.power := by
  unfold talkFall; dsimp only; split
  · split <;> simp
  · rfl
@[simp] theorem talkFall_pending (s : State) : (talkFall s).pending = s.pending := by
  unfold talkFall; dsimp only; split
  · split <;> simp
  · rfl
@[simp] theorem notifyMissed_tariff (x : StationSet) (s : State) : (notifyMissed x s).tariff = s.tariff := by
  unfold notifyMissed; dsimp only; split <;> split <;> simp
@[simp] theorem notifyMissed_fare (x : StationSet) (s : State) : (notifyMissed x s).fare = s.fare := by
  unfold notifyMissed; dsimp only; split <;> split <;> simp
@[simp] theorem notifyMissed_milestone (x : StationSet) (s : State) : (notifyMissed x s).milestone = s.milestone := by
  unfold notifyMissed; dsimp only; split <;> split <;> simp
@[simp] theorem notifyMissed_payment (x : StationSet) (s : State) : (notifyMissed x s).payment = s.payment := by
  unfold notifyMissed; dsimp only; split <;> split <;> simp
@[simp] theorem notifyMissed_shift (x : StationSet) (s : State) : (notifyMissed x s).shift = s.shift := by
  unfold notifyMissed; dsimp only; split <;> split <;> simp
@[simp] theorem notifyMissed_sign (x : StationSet) (s : State) : (notifyMissed x s).sign = s.sign := by
  unfold notifyMissed; dsimp only; split <;> split <;> simp
@[simp] theorem notifyMissed_cadence (x : StationSet) (s : State) : (notifyMissed x s).cadence = s.cadence := by
  unfold notifyMissed; dsimp only; split <;> split <;> simp
@[simp] theorem notifyMissed_power (x : StationSet) (s : State) : (notifyMissed x s).power = s.power := by
  unfold notifyMissed; dsimp only; split <;> split <;> simp
@[simp] theorem notifyMissed_pending (x : StationSet) (s : State) : (notifyMissed x s).pending = s.pending := by
  unfold notifyMissed; dsimp only; split <;> split <;> simp
@[simp] theorem callExpiry_tariff (s : State) : (callExpiry s).tariff = s.tariff := by
  unfold callExpiry; split
  · simp
  · rfl
@[simp] theorem callExpiry_fare (s : State) : (callExpiry s).fare = s.fare := by
  unfold callExpiry; split
  · simp
  · rfl
@[simp] theorem callExpiry_milestone (s : State) : (callExpiry s).milestone = s.milestone := by
  unfold callExpiry; split
  · simp
  · rfl
@[simp] theorem callExpiry_payment (s : State) : (callExpiry s).payment = s.payment := by
  unfold callExpiry; split
  · simp
  · rfl
@[simp] theorem callExpiry_shift (s : State) : (callExpiry s).shift = s.shift := by
  unfold callExpiry; split
  · simp
  · rfl
@[simp] theorem callExpiry_sign (s : State) : (callExpiry s).sign = s.sign := by
  unfold callExpiry; split
  · simp
  · rfl
@[simp] theorem callExpiry_cadence (s : State) : (callExpiry s).cadence = s.cadence := by
  unfold callExpiry; split
  · simp
  · rfl
@[simp] theorem callExpiry_power (s : State) : (callExpiry s).power = s.power := by
  unfold callExpiry; split
  · simp
  · rfl
@[simp] theorem callExpiry_pending (s : State) : (callExpiry s).pending = s.pending := by
  unfold callExpiry; split
  · simp
  · rfl
@[simp] theorem tripClosedAt_tariff (st : Station) (s : State) : (tripClosedAt st s).tariff = s.tariff := by
  unfold tripClosedAt; dsimp only; split
  · split <;> simp
  · rfl
@[simp] theorem tripClosedAt_fare (st : Station) (s : State) : (tripClosedAt st s).fare = s.fare := by
  unfold tripClosedAt; dsimp only; split
  · split <;> simp
  · rfl
@[simp] theorem tripClosedAt_milestone (st : Station) (s : State) : (tripClosedAt st s).milestone = s.milestone := by
  unfold tripClosedAt; dsimp only; split
  · split <;> simp
  · rfl
@[simp] theorem tripClosedAt_payment (st : Station) (s : State) : (tripClosedAt st s).payment = s.payment := by
  unfold tripClosedAt; dsimp only; split
  · split <;> simp
  · rfl
@[simp] theorem tripClosedAt_shift (st : Station) (s : State) : (tripClosedAt st s).shift = s.shift := by
  unfold tripClosedAt; dsimp only; split
  · split <;> simp
  · rfl
@[simp] theorem tripClosedAt_sign (st : Station) (s : State) : (tripClosedAt st s).sign = s.sign := by
  unfold tripClosedAt; dsimp only; split
  · split <;> simp
  · rfl
@[simp] theorem tripClosedAt_cadence (st : Station) (s : State) : (tripClosedAt st s).cadence = s.cadence := by
  unfold tripClosedAt; dsimp only; split
  · split <;> simp
  · rfl
@[simp] theorem tripClosedAt_power (st : Station) (s : State) : (tripClosedAt st s).power = s.power := by
  unfold tripClosedAt; dsimp only; split
  · split <;> simp
  · rfl
@[simp] theorem tripClosedAt_pending (st : Station) (s : State) : (tripClosedAt st s).pending = s.pending := by
  unfold tripClosedAt; dsimp only; split
  · split <;> simp
  · rfl
@[simp] theorem intercomPartitionDown_tariff (s : State) : (intercomPartitionDown s).tariff = s.tariff := by
  simp [intercomPartitionDown]
@[simp] theorem intercomPartitionDown_fare (s : State) : (intercomPartitionDown s).fare = s.fare := by
  simp [intercomPartitionDown]
@[simp] theorem intercomPartitionDown_milestone (s : State) : (intercomPartitionDown s).milestone = s.milestone := by
  simp [intercomPartitionDown]
@[simp] theorem intercomPartitionDown_payment (s : State) : (intercomPartitionDown s).payment = s.payment := by
  simp [intercomPartitionDown]
@[simp] theorem intercomPartitionDown_shift (s : State) : (intercomPartitionDown s).shift = s.shift := by
  simp [intercomPartitionDown]
@[simp] theorem intercomPartitionDown_sign (s : State) : (intercomPartitionDown s).sign = s.sign := by
  simp [intercomPartitionDown]
@[simp] theorem intercomPartitionDown_cadence (s : State) : (intercomPartitionDown s).cadence = s.cadence := by
  simp [intercomPartitionDown]
@[simp] theorem intercomPartitionDown_power (s : State) : (intercomPartitionDown s).power = s.power := by
  simp [intercomPartitionDown]
@[simp] theorem intercomPartitionDown_pending (s : State) : (intercomPartitionDown s).pending = s.pending := by
  simp [intercomPartitionDown]
@[simp] theorem intercomConsoleDown_tariff (s : State) : (intercomConsoleDown s).tariff = s.tariff := by
  simp [intercomConsoleDown]
@[simp] theorem intercomConsoleDown_fare (s : State) : (intercomConsoleDown s).fare = s.fare := by
  simp [intercomConsoleDown]
@[simp] theorem intercomConsoleDown_milestone (s : State) : (intercomConsoleDown s).milestone = s.milestone := by
  simp [intercomConsoleDown]
@[simp] theorem intercomConsoleDown_payment (s : State) : (intercomConsoleDown s).payment = s.payment := by
  simp [intercomConsoleDown]
@[simp] theorem intercomConsoleDown_shift (s : State) : (intercomConsoleDown s).shift = s.shift := by
  simp [intercomConsoleDown]
@[simp] theorem intercomConsoleDown_sign (s : State) : (intercomConsoleDown s).sign = s.sign := by
  simp [intercomConsoleDown]
@[simp] theorem intercomConsoleDown_cadence (s : State) : (intercomConsoleDown s).cadence = s.cadence := by
  simp [intercomConsoleDown]
@[simp] theorem intercomConsoleDown_power (s : State) : (intercomConsoleDown s).power = s.power := by
  simp [intercomConsoleDown]
@[simp] theorem intercomConsoleDown_pending (s : State) : (intercomConsoleDown s).pending = s.pending := by
  simp [intercomConsoleDown]
@[simp] theorem formDriverBlock_request (l r : List Int) (s : State) : (formDriverBlock l r s).request = s.request := by
  unfold formDriverBlock; dsimp only; split <;> simp
@[simp] theorem formDriverBlock_tariff (l r : List Int) (s : State) : (formDriverBlock l r s).tariff = s.tariff := by
  unfold formDriverBlock; dsimp only; split <;> simp
@[simp] theorem formDriverBlock_fare (l r : List Int) (s : State) : (formDriverBlock l r s).fare = s.fare := by
  unfold formDriverBlock; dsimp only; split <;> simp
@[simp] theorem formDriverBlock_milestone (l r : List Int) (s : State) : (formDriverBlock l r s).milestone = s.milestone := by
  unfold formDriverBlock; dsimp only; split <;> simp
@[simp] theorem formDriverBlock_payment (l r : List Int) (s : State) : (formDriverBlock l r s).payment = s.payment := by
  unfold formDriverBlock; dsimp only; split <;> simp
@[simp] theorem formDriverBlock_shift (l r : List Int) (s : State) : (formDriverBlock l r s).shift = s.shift := by
  unfold formDriverBlock; dsimp only; split <;> simp
@[simp] theorem formDriverBlock_sign (l r : List Int) (s : State) : (formDriverBlock l r s).sign = s.sign := by
  unfold formDriverBlock; dsimp only; split <;> simp
@[simp] theorem formDriverBlock_cadence (l r : List Int) (s : State) : (formDriverBlock l r s).cadence = s.cadence := by
  unfold formDriverBlock; dsimp only; split <;> simp
@[simp] theorem formDriverBlock_power (l r : List Int) (s : State) : (formDriverBlock l r s).power = s.power := by
  unfold formDriverBlock; dsimp only; split <;> simp
@[simp] theorem formDriverBlock_pending (l r : List Int) (s : State) : (formDriverBlock l r s).pending = s.pending := by
  unfold formDriverBlock; dsimp only; split <;> simp
@[simp] theorem formPartitionBlock_request (d : List Int) (s : State) : (formPartitionBlock d s).request = s.request := by
  unfold formPartitionBlock; dsimp only; split <;> simp
@[simp] theorem formPartitionBlock_tariff (d : List Int) (s : State) : (formPartitionBlock d s).tariff = s.tariff := by
  unfold formPartitionBlock; dsimp only; split <;> simp
@[simp] theorem formPartitionBlock_fare (d : List Int) (s : State) : (formPartitionBlock d s).fare = s.fare := by
  unfold formPartitionBlock; dsimp only; split <;> simp
@[simp] theorem formPartitionBlock_milestone (d : List Int) (s : State) : (formPartitionBlock d s).milestone = s.milestone := by
  unfold formPartitionBlock; dsimp only; split <;> simp
@[simp] theorem formPartitionBlock_payment (d : List Int) (s : State) : (formPartitionBlock d s).payment = s.payment := by
  unfold formPartitionBlock; dsimp only; split <;> simp
@[simp] theorem formPartitionBlock_shift (d : List Int) (s : State) : (formPartitionBlock d s).shift = s.shift := by
  unfold formPartitionBlock; dsimp only; split <;> simp
@[simp] theorem formPartitionBlock_sign (d : List Int) (s : State) : (formPartitionBlock d s).sign = s.sign := by
  unfold formPartitionBlock; dsimp only; split <;> simp
@[simp] theorem formPartitionBlock_cadence (d : List Int) (s : State) : (formPartitionBlock d s).cadence = s.cadence := by
  unfold formPartitionBlock; dsimp only; split <;> simp
@[simp] theorem formPartitionBlock_power (d : List Int) (s : State) : (formPartitionBlock d s).power = s.power := by
  unfold formPartitionBlock; dsimp only; split <;> simp
@[simp] theorem formPartitionBlock_pending (d : List Int) (s : State) : (formPartitionBlock d s).pending = s.pending := by
  unfold formPartitionBlock; dsimp only; split <;> simp
@[simp] theorem formListenBlock_request (l r : List Int) (s : State) : (formListenBlock l r s).request = s.request := by
  unfold formListenBlock; dsimp only; split <;> simp
@[simp] theorem formListenBlock_tariff (l r : List Int) (s : State) : (formListenBlock l r s).tariff = s.tariff := by
  unfold formListenBlock; dsimp only; split <;> simp
@[simp] theorem formListenBlock_fare (l r : List Int) (s : State) : (formListenBlock l r s).fare = s.fare := by
  unfold formListenBlock; dsimp only; split <;> simp
@[simp] theorem formListenBlock_milestone (l r : List Int) (s : State) : (formListenBlock l r s).milestone = s.milestone := by
  unfold formListenBlock; dsimp only; split <;> simp
@[simp] theorem formListenBlock_payment (l r : List Int) (s : State) : (formListenBlock l r s).payment = s.payment := by
  unfold formListenBlock; dsimp only; split <;> simp
@[simp] theorem formListenBlock_shift (l r : List Int) (s : State) : (formListenBlock l r s).shift = s.shift := by
  unfold formListenBlock; dsimp only; split <;> simp
@[simp] theorem formListenBlock_sign (l r : List Int) (s : State) : (formListenBlock l r s).sign = s.sign := by
  unfold formListenBlock; dsimp only; split <;> simp
@[simp] theorem formListenBlock_cadence (l r : List Int) (s : State) : (formListenBlock l r s).cadence = s.cadence := by
  unfold formListenBlock; dsimp only; split <;> simp
@[simp] theorem formListenBlock_power (l r : List Int) (s : State) : (formListenBlock l r s).power = s.power := by
  unfold formListenBlock; dsimp only; split <;> simp
@[simp] theorem formListenBlock_pending (l r : List Int) (s : State) : (formListenBlock l r s).pending = s.pending := by
  unfold formListenBlock; dsimp only; split <;> simp
@[simp] theorem takeButtons_tariff (x y : Bool) (s : State) : (takeButtons x y s).tariff = s.tariff := by
  unfold takeButtons; dsimp only; split <;> split <;> simp
@[simp] theorem takeButtons_fare (x y : Bool) (s : State) : (takeButtons x y s).fare = s.fare := by
  unfold takeButtons; dsimp only; split <;> split <;> simp
@[simp] theorem takeButtons_milestone (x y : Bool) (s : State) : (takeButtons x y s).milestone = s.milestone := by
  unfold takeButtons; dsimp only; split <;> split <;> simp
@[simp] theorem takeButtons_payment (x y : Bool) (s : State) : (takeButtons x y s).payment = s.payment := by
  unfold takeButtons; dsimp only; split <;> split <;> simp
@[simp] theorem takeButtons_shift (x y : Bool) (s : State) : (takeButtons x y s).shift = s.shift := by
  unfold takeButtons; dsimp only; split <;> split <;> simp
@[simp] theorem takeButtons_sign (x y : Bool) (s : State) : (takeButtons x y s).sign = s.sign := by
  unfold takeButtons; dsimp only; split <;> split <;> simp
@[simp] theorem takeButtons_cadence (x y : Bool) (s : State) : (takeButtons x y s).cadence = s.cadence := by
  unfold takeButtons; dsimp only; split <;> split <;> simp
@[simp] theorem takeButtons_power (x y : Bool) (s : State) : (takeButtons x y s).power = s.power := by
  unfold takeButtons; dsimp only; split <;> split <;> simp
@[simp] theorem takeButtons_pending (x y : Bool) (s : State) : (takeButtons x y s).pending = s.pending := by
  unfold takeButtons; dsimp only; split <;> split <;> simp
@[simp] theorem takeTalkKey_tariff (x : Bool) (s : State) : (takeTalkKey x s).tariff = s.tariff := by
  unfold takeTalkKey; dsimp only; split
  · simp
  · split <;> simp
@[simp] theorem takeTalkKey_fare (x : Bool) (s : State) : (takeTalkKey x s).fare = s.fare := by
  unfold takeTalkKey; dsimp only; split
  · simp
  · split <;> simp
@[simp] theorem takeTalkKey_milestone (x : Bool) (s : State) : (takeTalkKey x s).milestone = s.milestone := by
  unfold takeTalkKey; dsimp only; split
  · simp
  · split <;> simp
@[simp] theorem takeTalkKey_payment (x : Bool) (s : State) : (takeTalkKey x s).payment = s.payment := by
  unfold takeTalkKey; dsimp only; split
  · simp
  · split <;> simp
@[simp] theorem takeTalkKey_shift (x : Bool) (s : State) : (takeTalkKey x s).shift = s.shift := by
  unfold takeTalkKey; dsimp only; split
  · simp
  · split <;> simp
@[simp] theorem takeTalkKey_sign (x : Bool) (s : State) : (takeTalkKey x s).sign = s.sign := by
  unfold takeTalkKey; dsimp only; split
  · simp
  · split <;> simp
@[simp] theorem takeTalkKey_cadence (x : Bool) (s : State) : (takeTalkKey x s).cadence = s.cadence := by
  unfold takeTalkKey; dsimp only; split
  · simp
  · split <;> simp
@[simp] theorem takeTalkKey_power (x : Bool) (s : State) : (takeTalkKey x s).power = s.power := by
  unfold takeTalkKey; dsimp only; split
  · simp
  · split <;> simp
@[simp] theorem takeTalkKey_pending (x : Bool) (s : State) : (takeTalkKey x s).pending = s.pending := by
  unfold takeTalkKey; dsimp only; split
  · simp
  · split <;> simp
@[simp] theorem takeAudioP_tariff (payload : List Byte) (s : State) : (takeAudioP payload s).tariff = s.tariff := by
  unfold takeAudioP; split <;> simp
@[simp] theorem takeAudioP_fare (payload : List Byte) (s : State) : (takeAudioP payload s).fare = s.fare := by
  unfold takeAudioP; split <;> simp
@[simp] theorem takeAudioP_milestone (payload : List Byte) (s : State) : (takeAudioP payload s).milestone = s.milestone := by
  unfold takeAudioP; split <;> simp
@[simp] theorem takeAudioP_payment (payload : List Byte) (s : State) : (takeAudioP payload s).payment = s.payment := by
  unfold takeAudioP; split <;> simp
@[simp] theorem takeAudioP_shift (payload : List Byte) (s : State) : (takeAudioP payload s).shift = s.shift := by
  unfold takeAudioP; split <;> simp
@[simp] theorem takeAudioP_sign (payload : List Byte) (s : State) : (takeAudioP payload s).sign = s.sign := by
  unfold takeAudioP; split <;> simp
@[simp] theorem takeAudioP_cadence (payload : List Byte) (s : State) : (takeAudioP payload s).cadence = s.cadence := by
  unfold takeAudioP; split <;> simp
@[simp] theorem takeAudioP_power (payload : List Byte) (s : State) : (takeAudioP payload s).power = s.power := by
  unfold takeAudioP; split <;> simp
@[simp] theorem takeAudioP_pending (payload : List Byte) (s : State) : (takeAudioP payload s).pending = s.pending := by
  unfold takeAudioP; split <;> simp
@[simp] theorem takeAudioC_tariff (payload : List Byte) (s : State) : (takeAudioC payload s).tariff = s.tariff := by
  unfold takeAudioC; split <;> simp
@[simp] theorem takeAudioC_fare (payload : List Byte) (s : State) : (takeAudioC payload s).fare = s.fare := by
  unfold takeAudioC; split <;> simp
@[simp] theorem takeAudioC_milestone (payload : List Byte) (s : State) : (takeAudioC payload s).milestone = s.milestone := by
  unfold takeAudioC; split <;> simp
@[simp] theorem takeAudioC_payment (payload : List Byte) (s : State) : (takeAudioC payload s).payment = s.payment := by
  unfold takeAudioC; split <;> simp
@[simp] theorem takeAudioC_shift (payload : List Byte) (s : State) : (takeAudioC payload s).shift = s.shift := by
  unfold takeAudioC; split <;> simp
@[simp] theorem takeAudioC_sign (payload : List Byte) (s : State) : (takeAudioC payload s).sign = s.sign := by
  unfold takeAudioC; split <;> simp
@[simp] theorem takeAudioC_cadence (payload : List Byte) (s : State) : (takeAudioC payload s).cadence = s.cadence := by
  unfold takeAudioC; split <;> simp
@[simp] theorem takeAudioC_power (payload : List Byte) (s : State) : (takeAudioC payload s).power = s.power := by
  unfold takeAudioC; split <;> simp
@[simp] theorem takeAudioC_pending (payload : List Byte) (s : State) : (takeAudioC payload s).pending = s.pending := by
  unfold takeAudioC; split <;> simp
@[simp] theorem deliverEmergency_request (b : Bool) (s : State) : (deliverEmergency b s).request = s.request := by
  unfold deliverEmergency; dsimp only; split <;> simp
@[simp] theorem deliverEmergency_tariff (b : Bool) (s : State) : (deliverEmergency b s).tariff = s.tariff := by
  unfold deliverEmergency; dsimp only; split <;> simp
@[simp] theorem deliverEmergency_fare (b : Bool) (s : State) : (deliverEmergency b s).fare = s.fare := by
  unfold deliverEmergency; dsimp only; split <;> simp
@[simp] theorem deliverEmergency_milestone (b : Bool) (s : State) : (deliverEmergency b s).milestone = s.milestone := by
  unfold deliverEmergency; dsimp only; split <;> simp
@[simp] theorem deliverEmergency_payment (b : Bool) (s : State) : (deliverEmergency b s).payment = s.payment := by
  unfold deliverEmergency; dsimp only; split <;> simp
@[simp] theorem deliverEmergency_shift (b : Bool) (s : State) : (deliverEmergency b s).shift = s.shift := by
  unfold deliverEmergency; dsimp only; split <;> simp
@[simp] theorem deliverEmergency_sign (b : Bool) (s : State) : (deliverEmergency b s).sign = s.sign := by
  unfold deliverEmergency; dsimp only; split <;> simp
@[simp] theorem deliverEmergency_cadence (b : Bool) (s : State) : (deliverEmergency b s).cadence = s.cadence := by
  unfold deliverEmergency; dsimp only; split <;> simp
@[simp] theorem deliverEmergency_power (b : Bool) (s : State) : (deliverEmergency b s).power = s.power := by
  unfold deliverEmergency; dsimp only; split <;> simp
@[simp] theorem deliverEmergency_pending (b : Bool) (s : State) : (deliverEmergency b s).pending = s.pending := by
  unfold deliverEmergency; dsimp only; split <;> simp

/-! ### The emergency latch -/

@[simp] theorem notifyEmergency_tariff (b : Bool) (s : State) : (notifyEmergency b s).tariff = s.tariff := by
  unfold notifyEmergency; split <;> simp
@[simp] theorem notifyEmergency_fare (b : Bool) (s : State) : (notifyEmergency b s).fare = s.fare := by
  unfold notifyEmergency; split <;> simp
@[simp] theorem notifyEmergency_milestone (b : Bool) (s : State) : (notifyEmergency b s).milestone = s.milestone := by
  unfold notifyEmergency; split <;> simp
@[simp] theorem notifyEmergency_payment (b : Bool) (s : State) : (notifyEmergency b s).payment = s.payment := by
  unfold notifyEmergency; split <;> simp
@[simp] theorem notifyEmergency_shift (b : Bool) (s : State) : (notifyEmergency b s).shift = s.shift := by
  unfold notifyEmergency; split <;> simp
@[simp] theorem notifyEmergency_sign (b : Bool) (s : State) : (notifyEmergency b s).sign = s.sign := by
  unfold notifyEmergency; split <;> simp
@[simp] theorem notifyEmergency_cadence (b : Bool) (s : State) : (notifyEmergency b s).cadence = s.cadence := by
  unfold notifyEmergency; split <;> simp
@[simp] theorem notifyEmergency_intercom (b : Bool) (s : State) : (notifyEmergency b s).intercom = s.intercom := by
  unfold notifyEmergency; split <;> simp
@[simp] theorem notifyEmergency_power (b : Bool) (s : State) : (notifyEmergency b s).power = s.power := by
  unfold notifyEmergency; split <;> simp
@[simp] theorem notifyEmergency_pending (b : Bool) (s : State) : (notifyEmergency b s).pending = s.pending := by
  unfold notifyEmergency; split <;> simp
@[simp] theorem changeLatch_tariff (b : Bool) (s : State) : (changeLatch b s).tariff = s.tariff := by
  simp [changeLatch]
@[simp] theorem changeLatch_fare (b : Bool) (s : State) : (changeLatch b s).fare = s.fare := by
  simp [changeLatch]
@[simp] theorem changeLatch_milestone (b : Bool) (s : State) : (changeLatch b s).milestone = s.milestone := by
  simp [changeLatch]
@[simp] theorem changeLatch_payment (b : Bool) (s : State) : (changeLatch b s).payment = s.payment := by
  simp [changeLatch]
@[simp] theorem changeLatch_shift (b : Bool) (s : State) : (changeLatch b s).shift = s.shift := by
  simp [changeLatch]
@[simp] theorem changeLatch_cadence (b : Bool) (s : State) : (changeLatch b s).cadence = s.cadence := by
  simp [changeLatch]
@[simp] theorem changeLatch_pending (b : Bool) (s : State) : (changeLatch b s).pending = s.pending := by
  simp [changeLatch]
@[simp] theorem takeAlarm_tariff (b : Bool) (s : State) : (takeAlarm b s).tariff = s.tariff := by
  unfold takeAlarm; dsimp only; split <;> simp
@[simp] theorem takeAlarm_fare (b : Bool) (s : State) : (takeAlarm b s).fare = s.fare := by
  unfold takeAlarm; dsimp only; split <;> simp
@[simp] theorem takeAlarm_milestone (b : Bool) (s : State) : (takeAlarm b s).milestone = s.milestone := by
  unfold takeAlarm; dsimp only; split <;> simp
@[simp] theorem takeAlarm_payment (b : Bool) (s : State) : (takeAlarm b s).payment = s.payment := by
  unfold takeAlarm; dsimp only; split <;> simp
@[simp] theorem takeAlarm_shift (b : Bool) (s : State) : (takeAlarm b s).shift = s.shift := by
  unfold takeAlarm; dsimp only; split <;> simp
@[simp] theorem takeAlarm_cadence (b : Bool) (s : State) : (takeAlarm b s).cadence = s.cadence := by
  unfold takeAlarm; dsimp only; split <;> simp
@[simp] theorem takeAlarm_pending (b : Bool) (s : State) : (takeAlarm b s).pending = s.pending := by
  unfold takeAlarm; dsimp only; split <;> simp
@[simp] theorem emergencyLinkUp_tariff (s : State) : (emergencyLinkUp s).tariff = s.tariff := by
  unfold emergencyLinkUp; split <;> simp
@[simp] theorem emergencyLinkUp_fare (s : State) : (emergencyLinkUp s).fare = s.fare := by
  unfold emergencyLinkUp; split <;> simp
@[simp] theorem emergencyLinkUp_milestone (s : State) : (emergencyLinkUp s).milestone = s.milestone := by
  unfold emergencyLinkUp; split <;> simp
@[simp] theorem emergencyLinkUp_payment (s : State) : (emergencyLinkUp s).payment = s.payment := by
  unfold emergencyLinkUp; split <;> simp
@[simp] theorem emergencyLinkUp_shift (s : State) : (emergencyLinkUp s).shift = s.shift := by
  unfold emergencyLinkUp; split <;> simp
@[simp] theorem emergencyLinkUp_sign (s : State) : (emergencyLinkUp s).sign = s.sign := by
  unfold emergencyLinkUp; split <;> simp
@[simp] theorem emergencyLinkUp_cadence (s : State) : (emergencyLinkUp s).cadence = s.cadence := by
  unfold emergencyLinkUp; split <;> simp
@[simp] theorem emergencyLinkUp_intercom (s : State) : (emergencyLinkUp s).intercom = s.intercom := by
  unfold emergencyLinkUp; split <;> simp
@[simp] theorem emergencyLinkUp_power (s : State) : (emergencyLinkUp s).power = s.power := by
  unfold emergencyLinkUp; split <;> simp
@[simp] theorem emergencyLinkUp_pending (s : State) : (emergencyLinkUp s).pending = s.pending := by
  unfold emergencyLinkUp; split <;> simp

/-! ### The link switch -/

@[simp] theorem signLinkUp_request (s : State) : (signLinkUp s).request = s.request := by
  unfold signLinkUp; split <;> simp
@[simp] theorem signLinkUp_tariff (s : State) : (signLinkUp s).tariff = s.tariff := by
  unfold signLinkUp; split <;> simp
@[simp] theorem signLinkUp_fare (s : State) : (signLinkUp s).fare = s.fare := by
  unfold signLinkUp; split <;> simp
@[simp] theorem signLinkUp_milestone (s : State) : (signLinkUp s).milestone = s.milestone := by
  unfold signLinkUp; split <;> simp
@[simp] theorem signLinkUp_payment (s : State) : (signLinkUp s).payment = s.payment := by
  unfold signLinkUp; split <;> simp
@[simp] theorem signLinkUp_shift (s : State) : (signLinkUp s).shift = s.shift := by
  unfold signLinkUp; split <;> simp
@[simp] theorem signLinkUp_cadence (s : State) : (signLinkUp s).cadence = s.cadence := by
  unfold signLinkUp; split <;> simp
@[simp] theorem signLinkUp_intercom (s : State) : (signLinkUp s).intercom = s.intercom := by
  unfold signLinkUp; split <;> simp
@[simp] theorem signLinkUp_power (s : State) : (signLinkUp s).power = s.power := by
  unfold signLinkUp; split <;> simp
@[simp] theorem signLinkUp_pending (s : State) : (signLinkUp s).pending = s.pending := by
  unfold signLinkUp; split <;> simp
@[simp] theorem deliverUp_tariff (q : Port) (o : Order) (s : State) : (deliverUp q o s).tariff = s.tariff := by
  unfold deliverUp; split
  · split <;> simp
  all_goals simp
@[simp] theorem deliverUp_fare (q : Port) (o : Order) (s : State) : (deliverUp q o s).fare = s.fare := by
  unfold deliverUp; split
  · split <;> simp
  all_goals simp
@[simp] theorem deliverUp_milestone (q : Port) (o : Order) (s : State) : (deliverUp q o s).milestone = s.milestone := by
  unfold deliverUp; split
  · split <;> simp
  all_goals simp
@[simp] theorem deliverUp_shift (q : Port) (o : Order) (s : State) : (deliverUp q o s).shift = s.shift := by
  unfold deliverUp; split
  · split <;> simp
  all_goals simp
@[simp] theorem deliverUp_cadence (q : Port) (o : Order) (s : State) : (deliverUp q o s).cadence = s.cadence := by
  unfold deliverUp; split
  · split <;> simp
  all_goals simp
@[simp] theorem deliverUp_intercom (q : Port) (o : Order) (s : State) : (deliverUp q o s).intercom = s.intercom := by
  unfold deliverUp; split
  · split <;> simp
  all_goals simp
@[simp] theorem deliverUp_power (q : Port) (o : Order) (s : State) : (deliverUp q o s).power = s.power := by
  unfold deliverUp; split
  · split <;> simp
  all_goals simp
@[simp] theorem deliverUp_pending (q : Port) (o : Order) (s : State) : (deliverUp q o s).pending = s.pending := by
  unfold deliverUp; split
  · split <;> simp
  all_goals simp
@[simp] theorem deliverDown_tariff (q : Port) (s : State) : (deliverDown q s).tariff = s.tariff := by
  unfold deliverDown; split <;> simp
@[simp] theorem deliverDown_milestone (q : Port) (s : State) : (deliverDown q s).milestone = s.milestone := by
  unfold deliverDown; split <;> simp
@[simp] theorem deliverDown_shift (q : Port) (s : State) : (deliverDown q s).shift = s.shift := by
  unfold deliverDown; split <;> simp
@[simp] theorem deliverDown_cadence (q : Port) (s : State) : (deliverDown q s).cadence = s.cadence := by
  unfold deliverDown; split <;> simp
@[simp] theorem deliverDown_pending (q : Port) (s : State) : (deliverDown q s).pending = s.pending := by
  unfold deliverDown; split <;> simp
@[simp] theorem goUp_tariff (q : Port) (o : Order) (s : State) : (goUp q o s).tariff = s.tariff := by
  simp [goUp]
@[simp] theorem goUp_fare (q : Port) (o : Order) (s : State) : (goUp q o s).fare = s.fare := by
  simp [goUp]
@[simp] theorem goUp_milestone (q : Port) (o : Order) (s : State) : (goUp q o s).milestone = s.milestone := by
  simp [goUp]
@[simp] theorem goUp_shift (q : Port) (o : Order) (s : State) : (goUp q o s).shift = s.shift := by
  simp [goUp]
@[simp] theorem goUp_cadence (q : Port) (o : Order) (s : State) : (goUp q o s).cadence = s.cadence := by
  simp [goUp]
@[simp] theorem goUp_intercom (q : Port) (o : Order) (s : State) : (goUp q o s).intercom = s.intercom := by
  simp [goUp]
@[simp] theorem goUp_power (q : Port) (o : Order) (s : State) : (goUp q o s).power = s.power := by
  simp [goUp]
@[simp] theorem goUp_pending (q : Port) (o : Order) (s : State) : (goUp q o s).pending = s.pending := by
  simp [goUp]
@[simp] theorem goDown_tariff (q : Port) (s : State) : (goDown q s).tariff = s.tariff := by
  simp [goDown]
@[simp] theorem goDown_milestone (q : Port) (s : State) : (goDown q s).milestone = s.milestone := by
  simp [goDown]
@[simp] theorem goDown_shift (q : Port) (s : State) : (goDown q s).shift = s.shift := by
  simp [goDown]
@[simp] theorem goDown_cadence (q : Port) (s : State) : (goDown q s).cadence = s.cadence := by
  simp [goDown]
@[simp] theorem goDown_pending (q : Port) (s : State) : (goDown q s).pending = s.pending := by
  simp [goDown]
@[simp] theorem shutPort_tariff (q : Port) (s : State) : (shutPort q s).tariff = s.tariff := by
  unfold shutPort; dsimp only; split <;> simp
@[simp] theorem shutPort_milestone (q : Port) (s : State) : (shutPort q s).milestone = s.milestone := by
  unfold shutPort; dsimp only; split <;> simp
@[simp] theorem shutPort_shift (q : Port) (s : State) : (shutPort q s).shift = s.shift := by
  unfold shutPort; dsimp only; split <;> simp
@[simp] theorem shutPort_cadence (q : Port) (s : State) : (shutPort q s).cadence = s.cadence := by
  unfold shutPort; dsimp only; split <;> simp
@[simp] theorem shutPort_pending (q : Port) (s : State) : (shutPort q s).pending = s.pending := by
  unfold shutPort; dsimp only; split <;> simp
@[simp] theorem openPort_request (q : Port) (s : State) : (openPort q s).request = s.request := by
  unfold openPort; split <;> simp
@[simp] theorem openPort_tariff (q : Port) (s : State) : (openPort q s).tariff = s.tariff := by
  unfold openPort; split <;> simp
@[simp] theorem openPort_fare (q : Port) (s : State) : (openPort q s).fare = s.fare := by
  unfold openPort; split <;> simp
@[simp] theorem openPort_milestone (q : Port) (s : State) : (openPort q s).milestone = s.milestone := by
  unfold openPort; split <;> simp
@[simp] theorem openPort_payment (q : Port) (s : State) : (openPort q s).payment = s.payment := by
  unfold openPort; split <;> simp
@[simp] theorem openPort_shift (q : Port) (s : State) : (openPort q s).shift = s.shift := by
  unfold openPort; split <;> simp
@[simp] theorem openPort_sign (q : Port) (s : State) : (openPort q s).sign = s.sign := by
  unfold openPort; split <;> simp
@[simp] theorem openPort_cadence (q : Port) (s : State) : (openPort q s).cadence = s.cadence := by
  unfold openPort; split <;> simp
@[simp] theorem openPort_intercom (q : Port) (s : State) : (openPort q s).intercom = s.intercom := by
  unfold openPort; split <;> simp
@[simp] theorem openPort_power (q : Port) (s : State) : (openPort q s).power = s.power := by
  unfold openPort; split <;> simp
@[simp] theorem openPort_pending (q : Port) (s : State) : (openPort q s).pending = s.pending := by
  unfold openPort; split <;> simp
@[simp] theorem silenceExpiry_tariff (q : Port) (s : State) : (silenceExpiry q s).tariff = s.tariff := by
  unfold silenceExpiry; split
  · rfl
  · split <;> simp
@[simp] theorem silenceExpiry_milestone (q : Port) (s : State) : (silenceExpiry q s).milestone = s.milestone := by
  unfold silenceExpiry; split
  · rfl
  · split <;> simp
@[simp] theorem silenceExpiry_shift (q : Port) (s : State) : (silenceExpiry q s).shift = s.shift := by
  unfold silenceExpiry; split
  · rfl
  · split <;> simp
@[simp] theorem silenceExpiry_cadence (q : Port) (s : State) : (silenceExpiry q s).cadence = s.cadence := by
  unfold silenceExpiry; split
  · rfl
  · split <;> simp
@[simp] theorem silenceExpiry_pending (q : Port) (s : State) : (silenceExpiry q s).pending = s.pending := by
  unfold silenceExpiry; split
  · rfl
  · split <;> simp
@[simp] theorem placeCopies_tariff (i : Port) (t : PortSet) (f : Port → Frame) (report parked : Bool) (s : State) : (placeCopies i t f report parked s).tariff = s.tariff := by
  refine foldl_keeps State.tariff _ (fun b a => ?_) Port.all s
  split <;> simp
@[simp] theorem placeCopies_fare (i : Port) (t : PortSet) (f : Port → Frame) (report parked : Bool) (s : State) : (placeCopies i t f report parked s).fare = s.fare := by
  refine foldl_keeps State.fare _ (fun b a => ?_) Port.all s
  split <;> simp
@[simp] theorem placeCopies_milestone (i : Port) (t : PortSet) (f : Port → Frame) (report parked : Bool) (s : State) : (placeCopies i t f report parked s).milestone = s.milestone := by
  refine foldl_keeps State.milestone _ (fun b a => ?_) Port.all s
  split <;> simp
@[simp] theorem placeCopies_payment (i : Port) (t : PortSet) (f : Port → Frame) (report parked : Bool) (s : State) : (placeCopies i t f report parked s).payment = s.payment := by
  refine foldl_keeps State.payment _ (fun b a => ?_) Port.all s
  split <;> simp
@[simp] theorem placeCopies_shift (i : Port) (t : PortSet) (f : Port → Frame) (report parked : Bool) (s : State) : (placeCopies i t f report parked s).shift = s.shift := by
  refine foldl_keeps State.shift _ (fun b a => ?_) Port.all s
  split <;> simp
@[simp] theorem placeCopies_sign (i : Port) (t : PortSet) (f : Port → Frame) (report parked : Bool) (s : State) : (placeCopies i t f report parked s).sign = s.sign := by
  refine foldl_keeps State.sign _ (fun b a => ?_) Port.all s
  split <;> simp
@[simp] theorem placeCopies_cadence (i : Port) (t : PortSet) (f : Port → Frame) (report parked : Bool) (s : State) : (placeCopies i t f report parked s).cadence = s.cadence := by
  refine foldl_keeps State.cadence _ (fun b a => ?_) Port.all s
  split <;> simp
@[simp] theorem placeCopies_intercom (i : Port) (t : PortSet) (f : Port → Frame) (report parked : Bool) (s : State) : (placeCopies i t f report parked s).intercom = s.intercom := by
  refine foldl_keeps State.intercom _ (fun b a => ?_) Port.all s
  split <;> simp
@[simp] theorem placeCopies_power (i : Port) (t : PortSet) (f : Port → Frame) (report parked : Bool) (s : State) : (placeCopies i t f report parked s).power = s.power := by
  refine foldl_keeps State.power _ (fun b a => ?_) Port.all s
  split <;> simp
@[simp] theorem placeCopies_pending (i : Port) (t : PortSet) (f : Port → Frame) (report parked : Bool) (s : State) : (placeCopies i t f report parked s).pending = s.pending := by
  refine foldl_keeps State.pending _ (fun b a => ?_) Port.all s
  split <;> simp
@[simp] theorem copyTelemetry_tariff (q : Port) (f : Frame) (parked : Bool) (s : State) : (copyTelemetry q f parked s).tariff = s.tariff := by
  simp [copyTelemetry]
@[simp] theorem copyTelemetry_fare (q : Port) (f : Frame) (parked : Bool) (s : State) : (copyTelemetry q f parked s).fare = s.fare := by
  simp [copyTelemetry]
@[simp] theorem copyTelemetry_milestone (q : Port) (f : Frame) (parked : Bool) (s : State) : (copyTelemetry q f parked s).milestone = s.milestone := by
  simp [copyTelemetry]
@[simp] theorem copyTelemetry_payment (q : Port) (f : Frame) (parked : Bool) (s : State) : (copyTelemetry q f parked s).payment = s.payment := by
  simp [copyTelemetry]
@[simp] theorem copyTelemetry_shift (q : Port) (f : Frame) (parked : Bool) (s : State) : (copyTelemetry q f parked s).shift = s.shift := by
  simp [copyTelemetry]
@[simp] theorem copyTelemetry_sign (q : Port) (f : Frame) (parked : Bool) (s : State) : (copyTelemetry q f parked s).sign = s.sign := by
  simp [copyTelemetry]
@[simp] theorem copyTelemetry_cadence (q : Port) (f : Frame) (parked : Bool) (s : State) : (copyTelemetry q f parked s).cadence = s.cadence := by
  simp [copyTelemetry]
@[simp] theorem copyTelemetry_intercom (q : Port) (f : Frame) (parked : Bool) (s : State) : (copyTelemetry q f parked s).intercom = s.intercom := by
  simp [copyTelemetry]
@[simp] theorem copyTelemetry_power (q : Port) (f : Frame) (parked : Bool) (s : State) : (copyTelemetry q f parked s).power = s.power := by
  simp [copyTelemetry]
@[simp] theorem copyTelemetry_pending (q : Port) (f : Frame) (parked : Bool) (s : State) : (copyTelemetry q f parked s).pending = s.pending := by
  simp [copyTelemetry]
@[simp] theorem routePass_tariff (q : Port) (f : Frame) (parked : Bool) (s : State) : (routePass q f parked s).tariff = s.tariff := by
  unfold routePass; dsimp only; split <;> simp
@[simp] theorem routePass_fare (q : Port) (f : Frame) (parked : Bool) (s : State) : (routePass q f parked s).fare = s.fare := by
  unfold routePass; dsimp only; split <;> simp
@[simp] theorem routePass_milestone (q : Port) (f : Frame) (parked : Bool) (s : State) : (routePass q f parked s).milestone = s.milestone := by
  unfold routePass; dsimp only; split <;> simp
@[simp] theorem routePass_payment (q : Port) (f : Frame) (parked : Bool) (s : State) : (routePass q f parked s).payment = s.payment := by
  unfold routePass; dsimp only; split <;> simp
@[simp] theorem routePass_shift (q : Port) (f : Frame) (parked : Bool) (s : State) : (routePass q f parked s).shift = s.shift := by
  unfold routePass; dsimp only; split <;> simp
@[simp] theorem routePass_sign (q : Port) (f : Frame) (parked : Bool) (s : State) : (routePass q f parked s).sign = s.sign := by
  unfold routePass; dsimp only; split <;> simp
@[simp] theorem routePass_cadence (q : Port) (f : Frame) (parked : Bool) (s : State) : (routePass q f parked s).cadence = s.cadence := by
  unfold routePass; dsimp only; split <;> simp
@[simp] theorem routePass_intercom (q : Port) (f : Frame) (parked : Bool) (s : State) : (routePass q f parked s).intercom = s.intercom := by
  unfold routePass; dsimp only; split <;> simp
@[simp] theorem routePass_power (q : Port) (f : Frame) (parked : Bool) (s : State) : (routePass q f parked s).power = s.power := by
  unfold routePass; dsimp only; split <;> simp
@[simp] theorem routePass_pending (q : Port) (f : Frame) (parked : Bool) (s : State) : (routePass q f parked s).pending = s.pending := by
  unfold routePass; dsimp only; split <;> simp

/-! ### The power unit -/

@[simp] theorem parkSign_request (s : State) : (parkSign s).request = s.request := by
  unfold parkSign; dsimp only; split <;> simp
@[simp] theorem parkSign_tariff (s : State) : (parkSign s).tariff = s.tariff := by
  unfold parkSign; dsimp only; split <;> simp
@[simp] theorem parkSign_fare (s : State) : (parkSign s).fare = s.fare := by
  unfold parkSign; dsimp only; split <;> simp
@[simp] theorem parkSign_milestone (s : State) : (parkSign s).milestone = s.milestone := by
  unfold parkSign; dsimp only; split <;> simp
@[simp] theorem parkSign_payment (s : State) : (parkSign s).payment = s.payment := by
  unfold parkSign; dsimp only; split <;> simp
@[simp] theorem parkSign_shift (s : State) : (parkSign s).shift = s.shift := by
  unfold parkSign; dsimp only; split <;> simp
@[simp] theorem parkSign_cadence (s : State) : (parkSign s).cadence = s.cadence := by
  unfold parkSign; dsimp only; split <;> simp
@[simp] theorem parkSign_intercom (s : State) : (parkSign s).intercom = s.intercom := by
  unfold parkSign; dsimp only; split <;> simp
@[simp] theorem parkSign_power (s : State) : (parkSign s).power = s.power := by
  unfold parkSign; dsimp only; split <;> simp
@[simp] theorem parkSign_pending (s : State) : (parkSign s).pending = s.pending := by
  unfold parkSign; dsimp only; split <;> simp
@[simp] theorem parkBlocks_link (s : State) : (parkBlocks s).link = s.link := rfl
@[simp] theorem parkBlocks_request (s : State) : (parkBlocks s).request = s.request := rfl
@[simp] theorem parkBlocks_milestone (s : State) : (parkBlocks s).milestone = s.milestone := rfl
@[simp] theorem parkBlocks_sign (s : State) : (parkBlocks s).sign = s.sign := rfl
@[simp] theorem parkBlocks_cadence (s : State) : (parkBlocks s).cadence = s.cadence := rfl
@[simp] theorem parkBlocks_intercom (s : State) : (parkBlocks s).intercom = s.intercom := rfl
@[simp] theorem parkBlocks_power (s : State) : (parkBlocks s).power = s.power := rfl
@[simp] theorem parkBlocks_pending (s : State) : (parkBlocks s).pending = s.pending := rfl
@[simp] theorem wakeHub_tariff (s : State) : (wakeHub s).tariff = s.tariff := by
  simp [wakeHub]
@[simp] theorem wakeHub_milestone (s : State) : (wakeHub s).milestone = s.milestone := by
  simp [wakeHub]
@[simp] theorem wakeHub_shift (s : State) : (wakeHub s).shift = s.shift := by
  simp [wakeHub]
@[simp] theorem wakeHub_sign (s : State) : (wakeHub s).sign = s.sign := by
  simp [wakeHub]
@[simp] theorem wakeHub_cadence (s : State) : (wakeHub s).cadence = s.cadence := by
  simp [wakeHub]
@[simp] theorem wakeHub_intercom (s : State) : (wakeHub s).intercom = s.intercom := by
  simp [wakeHub]
@[simp] theorem wakeHub_pending (s : State) : (wakeHub s).pending = s.pending := by
  simp [wakeHub]
@[simp] theorem examineForWake_tariff (f : Frame) (s : State) : (examineForWake f s).tariff = s.tariff := by
  unfold examineForWake; split <;> simp
@[simp] theorem examineForWake_milestone (f : Frame) (s : State) : (examineForWake f s).milestone = s.milestone := by
  unfold examineForWake; split <;> simp
@[simp] theorem examineForWake_shift (f : Frame) (s : State) : (examineForWake f s).shift = s.shift := by
  unfold examineForWake; split <;> simp
@[simp] theorem examineForWake_sign (f : Frame) (s : State) : (examineForWake f s).sign = s.sign := by
  unfold examineForWake; split <;> simp
@[simp] theorem examineForWake_cadence (f : Frame) (s : State) : (examineForWake f s).cadence = s.cadence := by
  unfold examineForWake; split <;> simp
@[simp] theorem examineForWake_intercom (f : Frame) (s : State) : (examineForWake f s).intercom = s.intercom := by
  unfold examineForWake; split <;> simp
@[simp] theorem examineForWake_pending (f : Frame) (s : State) : (examineForWake f s).pending = s.pending := by
  unfold examineForWake; split <;> simp
@[simp] theorem takeIgnitionFlag_tariff (b : Bool) (s : State) : (takeIgnitionFlag b s).tariff = s.tariff := by
  unfold takeIgnitionFlag; dsimp only; split <;> simp
@[simp] theorem takeIgnitionFlag_milestone (b : Bool) (s : State) : (takeIgnitionFlag b s).milestone = s.milestone := by
  unfold takeIgnitionFlag; dsimp only; split <;> simp
@[simp] theorem takeIgnitionFlag_shift (b : Bool) (s : State) : (takeIgnitionFlag b s).shift = s.shift := by
  unfold takeIgnitionFlag; dsimp only; split <;> simp
@[simp] theorem takeIgnitionFlag_sign (b : Bool) (s : State) : (takeIgnitionFlag b s).sign = s.sign := by
  unfold takeIgnitionFlag; dsimp only; split <;> simp
@[simp] theorem takeIgnitionFlag_cadence (b : Bool) (s : State) : (takeIgnitionFlag b s).cadence = s.cadence := by
  unfold takeIgnitionFlag; dsimp only; split <;> simp
@[simp] theorem takeIgnitionFlag_intercom (b : Bool) (s : State) : (takeIgnitionFlag b s).intercom = s.intercom := by
  unfold takeIgnitionFlag; dsimp only; split <;> simp
@[simp] theorem takeIgnitionFlag_pending (b : Bool) (s : State) : (takeIgnitionFlag b s).pending = s.pending := by
  unfold takeIgnitionFlag; dsimp only; split <;> simp
@[simp] theorem settleSign_tariff (s : State) : (settleSign s).tariff = s.tariff := by
  unfold settleSign; split
  · simp
  · rfl
@[simp] theorem settleSign_milestone (s : State) : (settleSign s).milestone = s.milestone := by
  unfold settleSign; split
  · simp
  · rfl
@[simp] theorem settleSign_shift (s : State) : (settleSign s).shift = s.shift := by
  unfold settleSign; split
  · simp
  · rfl
@[simp] theorem settleSign_cadence (s : State) : (settleSign s).cadence = s.cadence := by
  unfold settleSign; split
  · simp
  · rfl
@[simp] theorem settleSign_pending (s : State) : (settleSign s).pending = s.pending := by
  unfold settleSign; split
  · simp
  · rfl
@[simp] theorem parkSignPort_tariff (s : State) : (parkSignPort s).tariff = s.tariff := by
  unfold parkSignPort; split <;> simp
@[simp] theorem parkSignPort_milestone (s : State) : (parkSignPort s).milestone = s.milestone := by
  unfold parkSignPort; split <;> simp
@[simp] theorem parkSignPort_shift (s : State) : (parkSignPort s).shift = s.shift := by
  unfold parkSignPort; split <;> simp
@[simp] theorem parkSignPort_cadence (s : State) : (parkSignPort s).cadence = s.cadence := by
  unfold parkSignPort; split <;> simp
@[simp] theorem parkSignPort_pending (s : State) : (parkSignPort s).pending = s.pending := by
  unfold parkSignPort; split <;> simp
@[simp] theorem parkHub_milestone (s : State) : (parkHub s).milestone = s.milestone := by
  simp [parkHub]
@[simp] theorem parkHub_pending (s : State) : (parkHub s).pending = s.pending := by
  simp [parkHub]
@[simp] theorem parkExpiry_milestone (s : State) : (parkExpiry s).milestone = s.milestone := by
  unfold parkExpiry; split <;> simp
@[simp] theorem parkExpiry_pending (s : State) : (parkExpiry s).pending = s.pending := by
  unfold parkExpiry; split <;> simp

/-! ### MOTION and SIGN_STAT -/

@[simp] theorem takeFlags_tariff (b : Byte) (s : State) : (takeFlags b s).tariff = s.tariff := by
  simp [takeFlags]
@[simp] theorem takeFlags_milestone (b : Byte) (s : State) : (takeFlags b s).milestone = s.milestone := by
  simp [takeFlags]
@[simp] theorem takeFlags_shift (b : Byte) (s : State) : (takeFlags b s).shift = s.shift := by
  simp [takeFlags]
@[simp] theorem takeFlags_cadence (b : Byte) (s : State) : (takeFlags b s).cadence = s.cadence := by
  simp [takeFlags]
@[simp] theorem takeFlags_pending (b : Byte) (s : State) : (takeFlags b s).pending = s.pending := by
  simp [takeFlags]
@[simp] theorem takeMotion_tariff (o : Order) (payload : List Byte) (s : State) : (takeMotion o payload s).tariff = s.tariff := by
  unfold takeMotion; split
  · split <;> simp
  · rfl
@[simp] theorem takeMotion_cadence (o : Order) (payload : List Byte) (s : State) : (takeMotion o payload s).cadence = s.cadence := by
  unfold takeMotion; split
  · split <;> simp
  · rfl
@[simp] theorem takeMotion_pending (o : Order) (payload : List Byte) (s : State) : (takeMotion o payload s).pending = s.pending := by
  unfold takeMotion; split
  · split <;> simp
  · rfl
@[simp] theorem takeHealth_tariff (l : Lamps) (b : Bool) (s : State) : (takeHealth l b s).tariff = s.tariff := by
  unfold takeHealth; split
  · rfl
  · dsimp only; split <;> simp
@[simp] theorem takeHealth_fare (l : Lamps) (b : Bool) (s : State) : (takeHealth l b s).fare = s.fare := by
  unfold takeHealth; split
  · rfl
  · dsimp only; split <;> simp
@[simp] theorem takeHealth_milestone (l : Lamps) (b : Bool) (s : State) : (takeHealth l b s).milestone = s.milestone := by
  unfold takeHealth; split
  · rfl
  · dsimp only; split <;> simp
@[simp] theorem takeHealth_payment (l : Lamps) (b : Bool) (s : State) : (takeHealth l b s).payment = s.payment := by
  unfold takeHealth; split
  · rfl
  · dsimp only; split <;> simp
@[simp] theorem takeHealth_cadence (l : Lamps) (b : Bool) (s : State) : (takeHealth l b s).cadence = s.cadence := by
  unfold takeHealth; split
  · rfl
  · dsimp only; split <;> simp
@[simp] theorem takeHealth_intercom (l : Lamps) (b : Bool) (s : State) : (takeHealth l b s).intercom = s.intercom := by
  unfold takeHealth; split
  · rfl
  · dsimp only; split <;> simp
@[simp] theorem takeHealth_power (l : Lamps) (b : Bool) (s : State) : (takeHealth l b s).power = s.power := by
  unfold takeHealth; split
  · rfl
  · dsimp only; split <;> simp
@[simp] theorem takeHealth_pending (l : Lamps) (b : Bool) (s : State) : (takeHealth l b s).pending = s.pending := by
  unfold takeHealth; split
  · rfl
  · dsimp only; split <;> simp
@[simp] theorem takeSignStat_tariff (payload : List Byte) (s : State) : (takeSignStat payload s).tariff = s.tariff := by
  unfold takeSignStat; split
  · split <;> simp
  · rfl
@[simp] theorem takeSignStat_fare (payload : List Byte) (s : State) : (takeSignStat payload s).fare = s.fare := by
  unfold takeSignStat; split
  · split <;> simp
  · rfl
@[simp] theorem takeSignStat_milestone (payload : List Byte) (s : State) : (takeSignStat payload s).milestone = s.milestone := by
  unfold takeSignStat; split
  · split <;> simp
  · rfl
@[simp] theorem takeSignStat_payment (payload : List Byte) (s : State) : (takeSignStat payload s).payment = s.payment := by
  unfold takeSignStat; split
  · split <;> simp
  · rfl
@[simp] theorem takeSignStat_cadence (payload : List Byte) (s : State) : (takeSignStat payload s).cadence = s.cadence := by
  unfold takeSignStat; split
  · split <;> simp
  · rfl
@[simp] theorem takeSignStat_intercom (payload : List Byte) (s : State) : (takeSignStat payload s).intercom = s.intercom := by
  unfold takeSignStat; split
  · split <;> simp
  · rfl
@[simp] theorem takeSignStat_power (payload : List Byte) (s : State) : (takeSignStat payload s).power = s.power := by
  unfold takeSignStat; split
  · split <;> simp
  · rfl
@[simp] theorem takeSignStat_pending (payload : List Byte) (s : State) : (takeSignStat payload s).pending = s.pending := by
  unfold takeSignStat; split
  · split <;> simp
  · rfl
@[simp] theorem takePay_tariff (payload : List Byte) (s : State) : (takePay payload s).tariff = s.tariff := by
  unfold takePay; split
  · rfl
  · split <;> simp
@[simp] theorem takePay_milestone (payload : List Byte) (s : State) : (takePay payload s).milestone = s.milestone := by
  unfold takePay; split
  · rfl
  · split <;> simp
@[simp] theorem takePay_cadence (payload : List Byte) (s : State) : (takePay payload s).cadence = s.cadence := by
  unfold takePay; split
  · rfl
  · split <;> simp
@[simp] theorem takePay_pending (payload : List Byte) (s : State) : (takePay payload s).pending = s.pending := by
  unfold takePay; split
  · rfl
  · split <;> simp

/-! ### Ticks and counts -/

@[simp] theorem countCadence_link (s : State) : (countCadence s).link = s.link := rfl
@[simp] theorem countCadence_request (s : State) : (countCadence s).request = s.request := rfl
@[simp] theorem countCadence_tariff (s : State) : (countCadence s).tariff = s.tariff := rfl
@[simp] theorem countCadence_fare (s : State) : (countCadence s).fare = s.fare := rfl
@[simp] theorem countCadence_milestone (s : State) : (countCadence s).milestone = s.milestone := rfl
@[simp] theorem countCadence_payment (s : State) : (countCadence s).payment = s.payment := rfl
@[simp] theorem countCadence_shift (s : State) : (countCadence s).shift = s.shift := rfl
@[simp] theorem countCadence_sign (s : State) : (countCadence s).sign = s.sign := rfl
@[simp] theorem countCadence_intercom (s : State) : (countCadence s).intercom = s.intercom := rfl
@[simp] theorem countCadence_power (s : State) : (countCadence s).power = s.power := rfl
@[simp] theorem countCadence_pending (s : State) : (countCadence s).pending = s.pending := rfl
@[simp] theorem countCall_link (s : State) : (countCall s).link = s.link := by
  unfold countCall; split <;> rfl
@[simp] theorem countCall_request (s : State) : (countCall s).request = s.request := by
  unfold countCall; split <;> rfl
@[simp] theorem countCall_tariff (s : State) : (countCall s).tariff = s.tariff := by
  unfold countCall; split <;> rfl
@[simp] theorem countCall_fare (s : State) : (countCall s).fare = s.fare := by
  unfold countCall; split <;> rfl
@[simp] theorem countCall_milestone (s : State) : (countCall s).milestone = s.milestone := by
  unfold countCall; split <;> rfl
@[simp] theorem countCall_payment (s : State) : (countCall s).payment = s.payment := by
  unfold countCall; split <;> rfl
@[simp] theorem countCall_shift (s : State) : (countCall s).shift = s.shift := by
  unfold countCall; split <;> rfl
@[simp] theorem countCall_sign (s : State) : (countCall s).sign = s.sign := by
  unfold countCall; split <;> rfl
@[simp] theorem countCall_cadence (s : State) : (countCall s).cadence = s.cadence := by
  unfold countCall; split <;> rfl
@[simp] theorem countCall_power (s : State) : (countCall s).power = s.power := by
  unfold countCall; split <;> rfl
@[simp] theorem countCall_pending (s : State) : (countCall s).pending = s.pending := by
  unfold countCall; split <;> rfl
@[simp] theorem takeCadence_request (b : Bool) (s : State) : (takeCadence b s).request = s.request := by
  unfold takeCadence; split <;> simp
@[simp] theorem takeCadence_tariff (b : Bool) (s : State) : (takeCadence b s).tariff = s.tariff := by
  unfold takeCadence; split <;> simp
@[simp] theorem takeCadence_fare (b : Bool) (s : State) : (takeCadence b s).fare = s.fare := by
  unfold takeCadence; split <;> simp
@[simp] theorem takeCadence_milestone (b : Bool) (s : State) : (takeCadence b s).milestone = s.milestone := by
  unfold takeCadence; split <;> simp
@[simp] theorem takeCadence_payment (b : Bool) (s : State) : (takeCadence b s).payment = s.payment := by
  unfold takeCadence; split <;> simp
@[simp] theorem takeCadence_shift (b : Bool) (s : State) : (takeCadence b s).shift = s.shift := by
  unfold takeCadence; split <;> simp
@[simp] theorem takeCadence_power (b : Bool) (s : State) : (takeCadence b s).power = s.power := by
  unfold takeCadence; split <;> simp
@[simp] theorem takeCadence_pending (b : Bool) (s : State) : (takeCadence b s).pending = s.pending := by
  unfold takeCadence; split <;> simp
@[simp] theorem takeTick_payment (b : Bool) (s : State) : (takeTick b s).payment = s.payment := by
  unfold takeTick; dsimp only; split <;> simp
@[simp] theorem takeTick_sign (b : Bool) (s : State) : (takeTick b s).sign = s.sign := by
  unfold takeTick; dsimp only; split <;> simp
@[simp] theorem takeTick_cadence (b : Bool) (s : State) : (takeTick b s).cadence = s.cadence := by
  unfold takeTick; dsimp only; split <;> simp
@[simp] theorem takeTick_power (b : Bool) (s : State) : (takeTick b s).power = s.power := by
  unfold takeTick; dsimp only; split <;> simp
@[simp] theorem takeTick_pending (b : Bool) (s : State) : (takeTick b s).pending = s.pending := by
  unfold takeTick; dsimp only; split <;> simp

end Sys2Proof.Machine
end

