-- ==== Sys2Proof/Laws/Sends.lean ====
section
/-! SUPPORT. What places and sends frames leaves the rest of the link switch as it was: one lemma for each event that does no more than
that to the link switch. -/

namespace Sys2Proof.Machine

theorem PortState.face_arbitrate (x : PortState) : x.arbitrate.face = x.face := by
  unfold PortState.arbitrate; split <;> rfl

theorem PortState.face_placeGeneral (x : PortState) (f : Frame) : (x.placeGeneral f).1.face = x.face := by
  unfold PortState.placeGeneral; split
  · rfl
  · split
    · rfl
    · exact PortState.face_arbitrate _

theorem PortState.face_placeVoice (x : PortState) (f : Frame) : (x.placeVoice f).face = x.face := by
  unfold PortState.placeVoice; split
  · rfl
  · split <;> exact PortState.face_arbitrate _

/-- A port whose new value has the old one's face leaves the link switch's. -/
theorem linkFace_setPort (q : Port) (x : PortState) (s : State) (h : x.face = (s.port q).face) :
    (s.setPort q x).link.face = s.link.face := by
  cases q <;> simp_all [LinkSwitch.face, State.setPort, PerPort.set, State.port, PerPort.get]

/-- A port's link state is read from the face. -/
theorem face_of_face (s t : State) (h : t.link.face = s.link.face) (q : Port) : (t.port q).face = (s.port q).face := by
  simp only [LinkSwitch.face, LinkFace.mk.injEq, PerPort.mk.injEq] at h
  obtain ⟨-, -, hd, hc, hp, hk, hs, hv⟩ := h
  cases q <;> assumption

/-- Ports UP stay UP where the face stays. -/
theorem isUp_of_face (s t : State) (h : t.link.face = s.link.face) (q : Port) : t.isUp q = s.isUp q := by
  have := face_of_face s t h q
  simp only [PortState.face, PortFace.mk.injEq] at this
  simp [State.isUp, this.1]


/-! ### Lanes and notices -/

@[simp] theorem emit_face (q : Port) (f : Frame) (s : State) : (emit q f s).link.face = s.link.face := linkFace_setPort _ _ _ (PortState.face_placeGeneral _ _)
@[simp] theorem emitVoice_face (q : Port) (f : Frame) (s : State) : (emitVoice q f s).link.face = s.link.face := linkFace_setPort _ _ _ (PortState.face_placeVoice _ _)
@[simp] theorem purgeVoice_face (q : Port) (s : State) : (purgeVoice q s).link.face = s.link.face := linkFace_setPort _ _ _ rfl
@[simp] theorem countDiscard_face (q : Port) (s : State) : (countDiscard q s).link.face = s.link.face := linkFace_setPort _ _ _ rfl
@[simp] theorem notifyC_face (n : Notice) (fields : List Byte) (s : State) : (notifyC n fields s).link.face = s.link.face := by
  simp [notifyC]
@[simp] theorem notifyD_face (n : Notice) (fields : List Byte) (s : State) : (notifyD n fields s).link.face = s.link.face := by
  simp [notifyD]
@[simp] theorem notifyBoth_face (n : Notice) (fields : List Byte) (s : State) : (notifyBoth n fields s).link.face = s.link.face := by
  simp [notifyBoth]
@[simp] theorem reportDiscard_face (q : Port) (r : DiscardReason) (n : Option Port) (k : Byte) (b c : Bool) (s : State) : (reportDiscard q r n k b c s).link.face = s.link.face := by
  unfold reportDiscard; split <;> simp
@[simp] theorem discardAtIngress_face (q : Port) (r : DiscardReason) (f : Frame) (b : Bool) (s : State) : (discardAtIngress q r f b s).link.face = s.link.face := by
  simp [discardAtIngress]
@[simp] theorem placeCopy_face (i q : Port) (f : Frame) (b c : Bool) (s : State) : (placeCopy i q f b c s).link.face = s.link.face := by
  have h := linkFace_setPort q _ s (PortState.face_placeGeneral (s.port q) f)
  unfold placeCopy; dsimp only; split
  · exact h
  · simpa using h

/-! ### Sign -/

@[simp] theorem repaintSign_face (s : State) : (repaintSign s).link.face = s.link.face := by
  simp [repaintSign]
@[simp] theorem compose_face (s : State) : (compose s).link.face = s.link.face := by
  unfold compose; split
  · rfl
  · dsimp only; split <;> simp
@[simp] theorem signCount_face (s : State) : (signCount s).link.face = s.link.face := by
  unfold signCount; split
  · rfl
  · dsimp only; split
    · split <;> simp
    · simp
@[simp] theorem deriveSign_face (s : State) : (deriveSign s).link.face = s.link.face := by
  simp [deriveSign]
@[simp] theorem deliverParties_face (s : State) : (deliverParties s).link.face = s.link.face := by
  simp [deliverParties]
@[simp] theorem deliverShift_face (s : State) : (deliverShift s).link.face = s.link.face := by
  simp [deliverShift]
@[simp] theorem signLinkUp_face (s : State) : (signLinkUp s).link.face = s.link.face := by
  unfold signLinkUp; split <;> simp
@[simp] theorem parkSign_face (s : State) : (parkSign s).link.face = s.link.face := by
  unfold parkSign; dsimp only; split <;> simp

/-! ### Fare engine -/

@[simp] theorem showConsole_face (s : State) : (showConsole s).link.face = s.link.face := by
  unfold showConsole; split <;> simp
@[simp] theorem showPassenger_face (s : State) : (showPassenger s).link.face = s.link.face := by
  unfold showPassenger; split <;> simp
@[simp] theorem showViews_face (c p : Bool) (s : State) : (showViews c p s).link.face = s.link.face := by
  unfold showViews; dsimp only; split <;> split <;> simp
@[simp] theorem showChanges_face (b s : State) : (showChanges b s).link.face = s.link.face := by
  simp [showChanges]
@[simp] theorem handOff_face (i : Fin 4) (n : Nat) (s : State) : (handOff i n s).link.face = s.link.face := by
  unfold handOff; dsimp only; split <;> simp
@[simp] theorem moveParty_face (i : Fin 4) (p : Party) (s : State) : (moveParty i p s).link.face = s.link.face := by
  simp [moveParty]
@[simp] theorem offerTaken_face (i : Fin 4) (s : State) : (offerTaken i s).link.face = s.link.face := by
  simp [offerTaken]
@[simp] theorem paymentReleased_face (i : Fin 4) (s : State) : (paymentReleased i s).link.face = s.link.face := by
  simp [paymentReleased]
@[simp] theorem postedOnline_face (i : Fin 4) (b t : Nat) (s : State) : (postedOnline i b t s).link.face = s.link.face := by
  simp [postedOnline]
@[simp] theorem postedOffline_face (i : Fin 4) (b t : Nat) (s : State) : (postedOffline i b t s).link.face = s.link.face := by
  simp [postedOffline]

/-! ### Milestones -/

@[simp] theorem rearmEntry_face (e : Fin 12) (m : Milestone) (s : State) : (rearmEntry e m s).link.face = s.link.face := by
  refine foldl_keeps (fun s : State => s.link.face) _ (fun b a => ?_) slots s
  split <;> rfl
@[simp] theorem armSlot_face (i : Fin 4) (s : State) : (armSlot i s).link.face = s.link.face := rfl
@[simp] theorem switchTariff_face (i : Fin 4) (t : Nat) (s : State) : ((switchTariff i t s).1).link.face = s.link.face := by
  unfold switchTariff; split <;> simp
@[simp] theorem milestoneExtra_face (i : Fin 4) (x : Nat) (s : State) : ((milestoneExtra i x s).1).link.face = s.link.face := by
  unfold milestoneExtra; split
  · split <;> simp
  · rfl
@[simp] theorem fireAction_face (i : Fin 4) (m : Milestone) (s : State) : ((fireAction i m s).1).link.face = s.link.face := by
  unfold fireAction; split <;> simp
@[simp] theorem passEntry_face (i : Fin 4) (q : Quantity) (w : PassState) (e : Fin 12) :
    (passEntry i q w e).state.link.face = w.state.link.face := by
  unfold passEntry; dsimp only; split
  · split <;> simp
  · rfl
@[simp] theorem runPass_face (i : Fin 4) (q : Quantity) (s : State) : (runPass i q s).link.face = s.link.face := by
  simpa only [runPass] using foldl_keeps (fun w : PassState => w.state.link.face) (passEntry i q) (passEntry_face i q) entries _
@[simp] theorem fareChange_face (i : Fin 4) (f : Nat) (s : State) : (fareChange i f s).link.face = s.link.face := by
  unfold fareChange; split <;> simp
@[simp] theorem retariffAuto_face (t : Nat) (s : State) (i : Fin 4) : (retariffAuto t s i).link.face = s.link.face := by
  unfold retariffAuto; dsimp only; split
  · split <;> simp
  · rfl
@[simp] theorem tariffChange_face (t : Nat) (s : State) : (tariffChange t s).link.face = s.link.face := by
  simp only [tariffChange, showChanges_face]
  exact foldl_keeps (fun s : State => s.link.face) _ (retariffAuto_face t) slots s

/-! ### Chimes and the band -/

@[simp] theorem triggerChime_face (c : ChimeId) (s : State) : (triggerChime c s).link.face = s.link.face := by
  unfold triggerChime; split <;> rfl
@[simp] theorem changeBand_face (b : Option Nat) (s : State) : (changeBand b s).link.face = s.link.face := by
  unfold changeBand; dsimp only; split <;> split <;> simp
@[simp] theorem evaluateBand_face (s : State) : (evaluateBand s).link.face = s.link.face := by
  unfold evaluateBand; dsimp only; split <;> simp
@[simp] theorem minuteBoundary_face (s : State) : (minuteBoundary s).link.face = s.link.face := by
  unfold minuteBoundary; split <;> simp

/-! ### Trips -/

@[simp] theorem markShared_face (s : State) : (markShared s).link.face = s.link.face := rfl
@[simp] theorem markMotionLost_face (s : State) : (markMotionLost s).link.face = s.link.face := rfl
@[simp] theorem setLastCount_face (n : Nat) (s : State) : (setLastCount n s).link.face = s.link.face := rfl
@[simp] theorem forgetCount_face (s : State) : (forgetCount s).link.face = s.link.face := rfl
@[simp] theorem whileLive_face (f : Totals → Totals) (s : State) : (whileLive f s).link.face = s.link.face := by
  unfold whileLive; split <;> rfl
@[simp] theorem vacate_face (i : Fin 4) (s : State) : (vacate i s).link.face = s.link.face := by
  simp [vacate]
@[simp] theorem openTrip_face (i : Fin 4) (t : TariffArg) (st : Station) (s : State) : (openTrip i t st s).link.face = s.link.face := by
  unfold openTrip; dsimp only; split <;> simp
@[simp] theorem meterParty_face (q : Quantity) (g : Party → Party) (s : State) (i : Fin 4) : (meterParty q g s i).link.face = s.link.face := by
  unfold meterParty; dsimp only; split
  · split <;> simp
  · rfl
theorem meterEach_face (q : Quantity) (g : State → Party → Party) (is : List (Fin 4)) (r : State × Bool × Bool) :
    (meterEach q g is r).1.link.face = r.1.link.face := by
  induction is generalizing r with
  | nil => rfl
  | cons i is ih => obtain ⟨s, c, p⟩ := r; simp [meterEach, ih]
@[simp] theorem meterAll_face (q : Quantity) (g : State → Party → Party) (s : State) : (meterAll q g s).link.face = s.link.face := by
  simp [meterAll, meterEach_face]
@[simp] theorem fareTick_face (s : State) : (fareTick s).link.face = s.link.face := by
  simp [fareTick]
@[simp] theorem notifyMotion_face (b : Bool) (s : State) : (notifyMotion b s).link.face = s.link.face := by
  simp [notifyMotion]
@[simp] theorem resync_face (n : Nat) (s : State) : (resync n s).link.face = s.link.face := by
  simp [resync]
@[simp] theorem dropDelta_face (n : Nat) (s : State) : (dropDelta n s).link.face = s.link.face := by
  simp [dropDelta]
@[simp] theorem handPulses_face (h : Bool) (d : Nat) (s : State) : (handPulses h d s).link.face = s.link.face := by
  simp [handPulses]
@[simp] theorem applyDelta_face (n d : Nat) (s : State) : (applyDelta n d s).link.face = s.link.face := by
  unfold applyDelta; dsimp only; split <;> simp
@[simp] theorem takeCount_face (n : Nat) (s : State) : (takeCount n s).link.face = s.link.face := by
  unfold takeCount; split
  · simp
  · split <;> simp

/-! ### The payment unit -/

@[simp] theorem notifyPay_face (i : Fin 4) (r : PayResult) (c : Byte) (u : Bool) (s : State) : (notifyPay i r c u s).link.face = s.link.face := by
  simp [notifyPay]
@[simp] theorem promote_face (s : State) : (promote s).link.face = s.link.face := by
  unfold promote; split <;> simp
@[simp] theorem removeHead_face (s : State) : (removeHead s).link.face = s.link.face := by
  simp [removeHead]
@[simp] theorem cancelRecord_face (i : Fin 4) (c : CancelCause) (s : State) : (cancelRecord i c s).link.face = s.link.face := by
  unfold cancelRecord; dsimp only; split <;> split <;> simp
@[simp] theorem pinStarted_face (s : State) : (pinStarted s).link.face = s.link.face := by
  simp [pinStarted]
@[simp] theorem takeStage_face (x : CardStage) (r : Record) (s : State) : (takeStage x r s).link.face = s.link.face := by
  unfold takeStage; split <;> simp
@[simp] theorem takeCardStage_face (fields : List Byte) (s : State) : (takeCardStage fields s).link.face = s.link.face := by
  unfold takeCardStage; split
  · split
    · split <;> simp
    · rfl
  · rfl
@[simp] theorem offerExpiry_face (s : State) : (offerExpiry s).link.face = s.link.face := by
  unfold offerExpiry; split
  · split <;> simp
  · rfl
@[simp] theorem uploadHead_face (s : State) : (uploadHead s).link.face = s.link.face := by
  unfold uploadHead; split <;> simp
@[simp] theorem sendUpload_face (s : State) : (sendUpload s).link.face = s.link.face := by
  unfold sendUpload; split <;> simp
@[simp] theorem idleUpload_face (s : State) : (idleUpload s).link.face = s.link.face := rfl
@[simp] theorem notifyStore_face (s : State) : (notifyStore s).link.face = s.link.face := by
  simp [notifyStore]
@[simp] theorem appendEntry_face (e : StoreEntry) (s : State) : (appendEntry e s).link.face = s.link.face := by
  unfold appendEntry; dsimp only; split <;> simp
@[simp] theorem countUnmatched_face (s : State) : (countUnmatched s).link.face = s.link.face := rfl
@[simp] theorem takeUploadAck_face (fields : List Byte) (s : State) : (takeUploadAck fields s).link.face = s.link.face := by
  unfold takeUploadAck; split
  · simp
  · split
    · dsimp only; split <;> simp
    · simp
@[simp] theorem uploadExpiry_face (s : State) : (uploadExpiry s).link.face = s.link.face := by
  unfold uploadExpiry; split <;> simp
@[simp] theorem authResult_face (n : Byte) (r : AuthResult) (c : Byte) (t : BitVec 32) (x y : Nat) (s : State) : (authResult n r c t x y s).link.face = s.link.face := by
  simp [authResult]
@[simp] theorem forwardAsk_face (r : Record) (x : Ask) (s : State) : (forwardAsk r x s).link.face = s.link.face := by
  simp [forwardAsk]
@[simp] theorem approveOffline_face (r : Record) (x : Ask) (s : State) : (approveOffline r x s).link.face = s.link.face := by
  simp [approveOffline]
@[simp] theorem refuseOffline_face (r : Record) (x : Ask) (c : OfflineReason) (s : State) : (refuseOffline r x c s).link.face = s.link.face := by
  simp [refuseOffline]
@[simp] theorem decideOffline_face (r : Record) (x : Ask) (s : State) : (decideOffline r x s).link.face = s.link.face := by
  unfold decideOffline; split <;> simp
@[simp] theorem takeAuthAsk_face (fields : List Byte) (s : State) : (takeAuthAsk fields s).link.face = s.link.face := by
  unfold takeAuthAsk; split
  · rfl
  · dsimp only; split
    · simp
    · split
      · simp
      · split
        · simp
        · split <;> simp
@[simp] theorem answerApproved_face (r : Record) (s : State) : (answerApproved r s).link.face = s.link.face := by
  simp [answerApproved]
@[simp] theorem answerDeclined_face (r : Record) (s : State) : (answerDeclined r s).link.face = s.link.face := by
  simp [answerDeclined]
@[simp] theorem takeAuthAnswer_face (fields : List Byte) (s : State) : (takeAuthAnswer fields s).link.face = s.link.face := by
  unfold takeAuthAnswer; split
  · split <;> simp
  · rfl
@[simp] theorem answerTimedOut_face (r : Record) (s : State) : (answerTimedOut r s).link.face = s.link.face := by
  simp [answerTimedOut]
@[simp] theorem answerExpiry_face (s : State) : (answerExpiry s).link.face = s.link.face := by
  unfold answerExpiry; split
  · split <;> simp
  · rfl
@[simp] theorem cardLinkDown_face (s : State) : (cardLinkDown s).link.face = s.link.face := foldl_keeps (fun s : State => s.link.face) (fun s (r : Record) => cancelRecord r.slot .link s) (fun b a => cancelRecord_face a.slot .link b) _ s
@[simp] theorem takePay_face (payload : List Byte) (s : State) : (takePay payload s).link.face = s.link.face := by
  unfold takePay; split
  · rfl
  · split <;> simp

/-! ### The intercom unit -/

@[simp] theorem notifyCall_face (st : Station) (s : State) : (notifyCall st s).link.face = s.link.face := by
  simp [notifyCall]
@[simp] theorem callRise_face (st : Station) (s : State) : (callRise st s).link.face = s.link.face := by
  unfold callRise; dsimp only; split
  · simp
  · split <;> simp
  · split <;> simp
  · split <;> simp
@[simp] theorem talkRise_face (s : State) : (talkRise s).link.face = s.link.face := by
  unfold talkRise; dsimp only; split <;> simp
@[simp] theorem talkFall_face (s : State) : (talkFall s).link.face = s.link.face := by
  unfold talkFall; dsimp only; split
  · split <;> simp
  · rfl
@[simp] theorem notifyMissed_face (x : StationSet) (s : State) : (notifyMissed x s).link.face = s.link.face := by
  unfold notifyMissed; dsimp only; split <;> split <;> simp
@[simp] theorem callExpiry_face (s : State) : (callExpiry s).link.face = s.link.face := by
  unfold callExpiry; split
  · simp
  · rfl
@[simp] theorem tripClosedAt_face (st : Station) (s : State) : (tripClosedAt st s).link.face = s.link.face := by
  unfold tripClosedAt; dsimp only; split
  · split <;> simp
  · rfl
@[simp] theorem intercomPartitionDown_face (s : State) : (intercomPartitionDown s).link.face = s.link.face := by
  simp [intercomPartitionDown]
@[simp] theorem intercomConsoleDown_face (s : State) : (intercomConsoleDown s).link.face = s.link.face := by
  simp [intercomConsoleDown]
@[simp] theorem formDriverBlock_face (l r : List Int) (s : State) : (formDriverBlock l r s).link.face = s.link.face := by
  unfold formDriverBlock; dsimp only; split <;> simp
@[simp] theorem formPartitionBlock_face (d : List Int) (s : State) : (formPartitionBlock d s).link.face = s.link.face := by
  unfold formPartitionBlock; dsimp only; split <;> simp
@[simp] theorem formListenBlock_face (l r : List Int) (s : State) : (formListenBlock l r s).link.face = s.link.face := by
  unfold formListenBlock; dsimp only; split <;> simp
@[simp] theorem takeButtons_face (x y : Bool) (s : State) : (takeButtons x y s).link.face = s.link.face := by
  unfold takeButtons; dsimp only; split <;> split <;> simp
@[simp] theorem takeTalkKey_face (x : Bool) (s : State) : (takeTalkKey x s).link.face = s.link.face := by
  unfold takeTalkKey; dsimp only; split
  · simp
  · split <;> simp
@[simp] theorem takeAudioP_face (payload : List Byte) (s : State) : (takeAudioP payload s).link.face = s.link.face := by
  unfold takeAudioP; split <;> simp
@[simp] theorem takeAudioC_face (payload : List Byte) (s : State) : (takeAudioC payload s).link.face = s.link.face := by
  unfold takeAudioC; split <;> simp
@[simp] theorem deliverEmergency_face (b : Bool) (s : State) : (deliverEmergency b s).link.face = s.link.face := by
  unfold deliverEmergency; dsimp only; split <;> simp

/-! ### The emergency latch and the rest -/

@[simp] theorem notifyEmergency_face (b : Bool) (s : State) : (notifyEmergency b s).link.face = s.link.face := by
  unfold notifyEmergency; split <;> simp
@[simp] theorem changeLatch_face (b : Bool) (s : State) : (changeLatch b s).link.face = s.link.face := by
  simp [changeLatch]
@[simp] theorem takeAlarm_face (b : Bool) (s : State) : (takeAlarm b s).link.face = s.link.face := by
  unfold takeAlarm; dsimp only; split <;> simp
@[simp] theorem emergencyLinkUp_face (s : State) : (emergencyLinkUp s).link.face = s.link.face := by
  unfold emergencyLinkUp; split <;> simp
@[simp] theorem notifyLink_face (q : Port) (b : Bool) (s : State) : (notifyLink q b s).link.face = s.link.face := by
  simp [notifyLink]
@[simp] theorem deliverUp_face (q : Port) (o : Order) (s : State) : (deliverUp q o s).link.face = s.link.face := by
  unfold deliverUp; split
  · split <;> simp
  all_goals simp
@[simp] theorem deliverDown_face (q : Port) (s : State) : (deliverDown q s).link.face = s.link.face := by
  unfold deliverDown; split <;> simp
@[simp] theorem placeCopies_face (i : Port) (t : PortSet) (f : Port → Frame) (report parked : Bool) (s : State) : (placeCopies i t f report parked s).link.face = s.link.face := by
  refine foldl_keeps (fun s : State => s.link.face) _ (fun b a => ?_) Port.all s
  split <;> simp
@[simp] theorem copyTelemetry_face (q : Port) (f : Frame) (parked : Bool) (s : State) : (copyTelemetry q f parked s).link.face = s.link.face := by
  simp [copyTelemetry]
@[simp] theorem routePass_face (q : Port) (f : Frame) (parked : Bool) (s : State) : (routePass q f parked s).link.face = s.link.face := by
  unfold routePass; dsimp only; split <;> simp
@[simp] theorem takeHealth_face (l : Lamps) (b : Bool) (s : State) : (takeHealth l b s).link.face = s.link.face := by
  unfold takeHealth; split
  · rfl
  · dsimp only; split <;> simp
@[simp] theorem takeSignStat_face (payload : List Byte) (s : State) : (takeSignStat payload s).link.face = s.link.face := by
  unfold takeSignStat; split
  · split <;> simp
  · rfl
@[simp] theorem countCadence_face (s : State) : (countCadence s).link.face = s.link.face := rfl
@[simp] theorem countCall_face (s : State) : (countCall s).link.face = s.link.face := by
  unfold countCall; split <;> rfl
@[simp] theorem takeCadence_face (b : Bool) (s : State) : (takeCadence b s).link.face = s.link.face := by
  unfold takeCadence; split <;> simp
@[simp] theorem takeTick_face (b : Bool) (s : State) : (takeTick b s).link.face = s.link.face := by
  unfold takeTick; dsimp only; split <;> simp
@[simp] theorem notifyShift_face (b : Bool) (s : State) : (notifyShift b s).link.face = s.link.face := by
  simp [notifyShift]

/-! ### The start of an upload -/

/-- All that the start of an upload can do, in RUN: the payment unit and port D as R80 has them, and nothing else. -/
theorem sendUpload_eq (s : State) (h : s.power.state = .run) :
    sendUpload s =
      (s.setPort .d ((s.port .d).uploaded s.payment s.tariff.cabNumber)).setPayment (s.payment.uploading (s.isUp .d)) := by
  obtain ⟨link, request, tariff, fare, milestone, payment, shift, sign, cadence, intercom, power, pending⟩ := s
  cases hs : payment.store <;> by_cases hu : payment.upload = .idle <;> cases hd : link.ports.d.up <;>
    simp_all [sendUpload, uploadHead, emit, PortState.placed, State.running, State.isUp, State.port, PerPort.get, State.setPort, PerPort.set,
      State.setPayment, PortState.uploaded, PaymentUnit.uploading, Config.uploadPeriod]

end Sys2Proof.Machine
end

