-- ==== Sys2Proof/Laws/Arrival.lean ====
section
/-! SUPPORT. What an event and a frame's arrival come to while the hub runs: one lemma for each test on the way from a command to the
block that takes it. -/

namespace Sys2Proof.Machine

/-! ### Events -/

/-- Outside PARKED no shut of S is pending to be made. -/
theorem settleSign_of_run (s : State) (h : s.power.state = .run) : settleSign s = s := by
  simp [settleSign, State.parked, h]

/-- An event taken in RUN that leaves the hub in RUN is the event alone. -/
theorem event_of_run (f : State → State) (s : State) (h : s.power.state = .run) (ht : (f s).power.state = .run) :
    event f s = .next (f s) := by
  simp [event, h, settleSign_of_run _ ht]

/-- In OFF no event is taken. -/
theorem event_of_off (f : State → State) (s : State) (h : s.power.state = .off) : event f s = .next s := by
  simp [event, h]

/-- Outside OFF an event is taken and a pending shut of S settled. -/
theorem event_of_on (f : State → State) (s : State) (h : s.power.state ≠ .off) : event f s = .next (settleSign (f s)) := by
  simp [event, h]

/-! ### Ports -/

@[simp] theorem port_restartSilence_up (q r : Port) (s : State) : ((restartSilence q s).port r).up = (s.port r).up := by
  by_cases h : r = q
  · subst h; simp [restartSilence]
  · simp [restartSilence, State.port_setPort_other _ _ _ _ h]

@[simp] theorem isUp_restartSilence (q r : Port) (s : State) : (restartSilence q s).isUp r = s.isUp r := by
  simp [State.isUp]

@[simp] theorem parked_restartSilence (q : Port) (s : State) : (restartSilence q s).parked = s.parked := rfl

@[simp] theorem party_restartSilence (q : Port) (s : State) (i : Fin 4) : (restartSilence q s).party i = s.party i := rfl

/-- A good frame on a port that takes it at once goes to the four tests. -/
theorem receive_of_hears (q : Port) (f : Frame) (o : Order) (s : State) (h : s.hears q) :
    receive q f o s = takeGood q f o (restartSilence q s) := by
  simp [receive, h.2.2, State.isUp, h.2.1]

/-- In RUN a good frame on an UP port is discarded by the test it fails, and otherwise handed on. -/
theorem takeGood_of_run (q : Port) (f : Frame) (o : Order) (s : State) (h : s.power.state = .run) :
    takeGood q f o s =
      match ingressFailure q f with
      | some reason => discardAtIngress q reason f false s
      | none => handOn q f o false s := by
  have hp : s.parked = false := by simp [State.parked, h]
  unfold takeGood
  rw [hp]
  cases ingressFailure q f <;> rfl

/-! ### Requests -/

/-- A request's code is read back as the request. -/
@[simp] theorem requestOf_code (r : RequestName) : requestOf r.code = some r := by
  cases r <;> decide

/-- A REQ frame whose payload fits passes the four tests on C and on D. -/
theorem ingressFailure_req (a : Arrival) (payload : List Byte) (hp : a.port = .c ∨ a.port = .d) (hl : payload.length ≤ 200) :
    ingressFailure a.port (frameOf .req a.route a.tag payload) = none := by
  have h8 : (byte payload.length).toNat = payload.length := by
    simp only [byte, BitVec.toNat_ofNat]; omega
  have hk : kindOf (frameOf .req a.route a.tag payload) = some .req := rfl
  have ht : lengthTest (frameOf .req a.route a.tag payload) = true := by
    simp [lengthTest, frameOf, h8, Config.maxPayload, hl]
  simp only [ingressFailure, ht, hk]
  rcases hp with h | h <;> simp [h, acceptedKinds, payloadTest]

/-- A request's arrival on C or D while the hub runs and the port is UP reaches the request unit. -/
theorem arrive_req (a : Arrival) (payload : List Byte) (s : State) (h : s.hears a.port) (hp : a.port = .c ∨ a.port = .d)
    (hl : payload.length ≤ 200) :
    arrive a .req payload s = takeRequest a.port a.tag payload (restartSilence a.port s) := by
  have hr : (restartSilence a.port s).power.state = .run := h.1
  rw [arrive, receive_of_hears _ _ _ _ h, takeGood_of_run _ _ _ _ hr, ingressFailure_req a payload hp hl]
  rfl

/-- A permitted request whose arguments are read is answered by its owner. -/
theorem takeRequest_read (r : RequestName) (q : Port) (tag : Byte) (args : List Byte) (act : Action) (s : State)
    (hp : r.authority.permits q = true) (hr : r.read q args = some act) :
    takeRequest q tag (r.code :: args) s = answerRequest q tag r.code act s := by
  simp [takeRequest, hp, hr]

/-- A permitted request whose arguments are not read is answered MALFORMED. -/
theorem takeRequest_malformed (r : RequestName) (q : Port) (tag : Byte) (args : List Byte) (s : State)
    (hp : r.authority.permits q = true) (hr : r.read q args = none) :
    takeRequest q tag (r.code :: args) s = emit q (statusFrame tag r.code .malformed) s := by
  simp [takeRequest, hp, hr]

/-- A request from a port without its authority is answered NOT_PERMITTED. -/
theorem takeRequest_notPermitted (r : RequestName) (q : Port) (tag : Byte) (args : List Byte) (s : State)
    (hp : r.authority.permits q = false) :
    takeRequest q tag (r.code :: args) s = emit q (statusFrame tag r.code .notPermitted) s := by
  simp [takeRequest, hp]

/-- A permitted request is from C or D. -/
theorem permits_port (r : RequestName) (q : Port) (h : r.authority.permits q = true) : q = .c ∨ q = .d := by
  cases q <;> cases hr : r.authority <;> simp_all [Authority.permits]

/-- A request read by its owner, as a command: the owner's action on the state with the silence timer restarted, and the reply
last. The owner must leave the hub in RUN, as every owner does. -/
theorem request_read (r : RequestName) (a : Arrival) (args : List Byte) (act : Action) (s : State) (h : s.hears a.port)
    (hl : args.length < 200) (hp : r.authority.permits a.port = true) (hr : r.read a.port args = some act)
    (hrun : (act (restartSilence a.port s)).1.power.state = .run) :
    request r a args s =
      .next (emit a.port (replyFrame a.tag r.code (act (restartSilence a.port s)).2) (act (restartSilence a.port s)).1) := by
  have ha : arrive a .req (r.code :: args) s = answerRequest a.port a.tag r.code act (restartSilence a.port s) := by
    rw [arrive_req a _ s h (permits_port r _ hp) (by simp; omega), takeRequest_read r _ _ _ act _ hp hr]
  rw [request, event_of_run _ _ h.1 (by rw [ha]; exact hrun), ha]
  rfl

/-- A request with arguments outside their representable sets, as a command. -/
theorem request_malformed (r : RequestName) (a : Arrival) (args : List Byte) (s : State) (h : s.hears a.port)
    (hl : args.length < 200) (hp : r.authority.permits a.port = true) (hr : r.read a.port args = none) :
    request r a args s = .next (s.answered a (malformedReply a r)) := by
  have ha : arrive a .req (r.code :: args) s = s.answered a (malformedReply a r) := by
    rw [arrive_req a _ s h (permits_port r _ hp) (by simp; omega), takeRequest_malformed r _ _ _ _ hp hr]
    rfl
  rw [request, event_of_run _ _ h.1 (by rw [ha]; exact h.1), ha]

/-- A request from C or D without the authority, as a command. -/
theorem request_notPermitted (r : RequestName) (a : Arrival) (args : List Byte) (s : State) (h : s.hears a.port)
    (hq : a.port = .c ∨ a.port = .d) (hl : args.length < 200) (hp : r.authority.permits a.port = false) :
    request r a args s = .next (s.answered a (notPermittedReply a r)) := by
  have ha : arrive a .req (r.code :: args) s = s.answered a (notPermittedReply a r) := by
    rw [arrive_req a _ s h hq (by simp; omega), takeRequest_notPermitted r _ _ _ _ hp]
    rfl
  rw [request, event_of_run _ _ h.1 (by rw [ha]; exact h.1), ha]

/-! ### Other frames -/

/-- A frame that passes the four tests, as a command, where what it does leaves the hub in RUN. -/
theorem arrive_of_hears (a : Arrival) (kind : Kind) (payload : List Byte) (s : State) (h : s.hears a.port)
    (hi : ingressFailure a.port (frameOf kind a.route a.tag payload) = none) :
    arrive a kind payload s = handOn a.port (frameOf kind a.route a.tag payload) a.order false (restartSilence a.port s) := by
  have hr : (restartSilence a.port s).power.state = .run := h.1
  rw [arrive, receive_of_hears _ _ _ _ h, takeGood_of_run _ _ _ _ hr, hi]

end Sys2Proof.Machine
end

