-- ==== Sys2Proof/WellFormed.lean ====
section
/-! DEFINITION. Which commands are well formed: the command's operands are such that the event it names can be the one its row of the
table describes. `exec` has a meaning for the others too (the frame arrives, and the link switch judges it by its bytes). -/

namespace Sys2Proof

/-- A request's frame: it comes from C or D (R176), and its code and arguments fit a payload (R164). -/
def Arrival.fitsRequest (a : Arrival) (args : List Byte) : Bool :=
  (a.port == .c || a.port == .d) && decide (args.length < Config.maxPayload)

/-- A frame of a kind on the port that sends it, with a payload of the given length. -/
def Arrival.fits (a : Arrival) (ports : List Port) (payload : List Byte) (length : Nat) : Bool :=
  decide (a.port ∈ ports) && payload.length == length

/-- A payload whose request code names no request, or that holds no code at all (R176, tests 1 and 2). -/
def namesNoRequest (payload : List Byte) : Bool :=
  match payload with
  | [] => true
  | code :: _ => code == 0 || decide (Machine.requestCount < code.toNat)

/-- Whether a command is well formed. -/
def Instr.wellFormed : Instr → Bool
  | .loadBegin a args | .loadPart a args | .loadCommit a args | .tariffRead a args | .tariffStatus a args
  | .setClock a args | .setCabId a args | .hire a args | .total a args | .resume a args | .void a args
  | .payCash a args | .closeTrip a args | .addExtra a args | .setTariff a args | .setStation a args
  | .share a args | .partyRead a args | .milestoneSet a args | .milestoneRead a args | .offerCard a args
  | .cancelCard a args | .policySet a args | .refusalListAdd a args | .refusalListRemove a args
  | .refusalListClear a args | .payStatus a args | .shiftOpen a args | .shiftBreak a args
  | .shiftResume a args | .shiftClose a args | .totalsRead a args | .totalsThaw a args | .reportRead a args
  | .reportDrop a args | .offDutyOverride a args | .emergencyClear a args | .viewSet a args
  | .imageSet a args | .stripesSet a args | .blockSet a args | .signStatus a args | .signRead a args
  | .timerSet a args | .comparatorSet a args | .timerStart a args | .timerStop a args
  | .timerStopAtEnd a args | .timerStatus a args | .lampWrite a args | .answer a args | .hangup a args
  | .gainsSet a args | .intercomStatus a args | .chimeRead a args | .chimeSet a args | .routeSet a args
  | .routeRead a args | .portStatus a args => a.fitsRequest args
  | .unknownRequest a payload =>
    (a.port == .c || a.port == .d) && decide (payload.length ≤ Config.maxPayload) && namesNoRequest payload
  | .checkError _ bytes stopBitLow _ => !Machine.checkPasses bytes stopBitLow
  | .goodFrameOnDownPort _ _ _ => true
  | .frameDiscardedAtIngress port f _ => (Machine.ingressFailure port f).isSome
  | .idle _ => true
  | .motion a payload => a.fits [.v] payload 3
  | .signStat a payload => a.fits [.s] payload 2
  | .audioFromP a payload => a.fits [.p] payload 161
  | .audioFromC a payload => a.fits [.c] payload 81
  | .cardStage a fields => a.fits [.k] fields 2
  | .authAsk a fields => a.fits [.k] fields 29
  | .authAnswer a fields => a.fits [.d] fields 3
  | .uploadAck a fields => a.fits [.d] fields 2
  | .pass _ payload => decide (payload.length ≤ Config.maxPayload)
  | .wakeCall f _ => Machine.lengthTest f
  | .decisecondTick _ | .cadenceCount _ | .terminalCount _ _ | .signRefresh _ => true
  | .chimeEnd .driver a payload => a.fits [.p] payload 161
  | .chimeEnd .partition a payload => a.fits [.c] payload 81
  | .offerTimerExpiry | .answerTimerExpiry | .uploadTimerExpiry | .callTimerExpiry | .park => true
  | .silenceTimerExpiry _ | .quietTimerExpiry _ | .transmitComplete _ => true
  | .sShut | .powerOnReset | .backupSupplyLost => true

end Sys2Proof
end

