-- ==== Sys2Proof/Tests/Slice0.lean ====
section
/-! SUPPORT. Tests: each check of WellFormed refusing a term, the manual's worked figures, and for every statement with hypotheses a concrete
state and operands that meet them, clause by clause. -/

/-! The theorems of this file are elaborated one after another: in parallel, each waits for the kernel in a thread of its own. -/

set_option Elab.async false

namespace Sys2Proof.Tests

open Sys2Proof.Machine

/-! ### Sample values -/

def order : Order := ⟨true, true, true⟩
def fromC : Arrival := ⟨.c, 0, 1, order⟩
def fromD : Arrival := ⟨.d, 0, 1, order⟩
def fromP : Arrival := ⟨.p, 0, 0, order⟩
def fromK : Arrival := ⟨.k, 0, 0, order⟩
def fromS : Arrival := ⟨.s, 0, 0, order⟩
def fromV : Arrival := ⟨.v, 0, 0, order⟩

/-- An UP port with nothing waiting. -/
def portUp : PortState := { PortState.reset with up := true, silence := some 500 }

/-- The hub after reset with every port UP. -/
def hubUp : State :=
  { State.reset with link := { LinkSwitch.reset with ports := ⟨portUp, portUp, portUp, portUp, portUp, portUp⟩ } }

/-- The day tariff of section 2.8. -/
def dayTariff : Tariff := ⟨.double, 350, 1000, 600, 20, 120, 240⟩

/-- Tariff 2 of section 2.9. -/
def benchTariff : Tariff := ⟨.single, 500, 0, 0, 10, 50, 60⟩

/-- A set in the manner of sections 1.7 and 2.8: a night entry every day at minute 0, a day entry on working days at minute 360, a fixed and
a variable extra. -/
def sampleSet : TariffSet where
  params := some ⟨0, 6000, 2000, 2, 42⟩
  tariffs := #v[some dayTariff, some benchTariff, none, none, none, none, none, none]
  schedule :=
    #v[some ⟨0x7F, 0, 1⟩, some ⟨0x1F, 360, 0⟩, none, none, none, none, none, none, none, none, none, none, none, none, none, none]
  extras := #v[some ⟨.fixed, 300, 2⟩, some ⟨.variable, 500, 0⟩, none, none, none, none, none, none]

/-- A cab for hire: every port UP, a set in force, the shift OPEN, every slot IDLE. -/
def cab : State :=
  { hubUp with
    tariff := { TariffStore.reset with inForce := sampleSet, setId := 42, changes := 1, clock := ⟨7, 0, true⟩, band := some 1 }
    shift := { ShiftUnit.reset with state := .opened, number := 1, setId := 42, changes := 1 }
    sign := { SignUnit.reset with mode := .forHire, shift := .opened } }

/-- The cab between shifts, and on BREAK. -/
def closedCab : State :=
  { cab with shift := { cab.shift with state := .closed }, sign := { cab.sign with mode := .offDuty, shift := .closed } }
def breakCab : State :=
  { cab with shift := { cab.shift with state := .onBreak }, sign := { cab.sign with mode := .offDuty, shift := .onBreak } }

/-- The cab with a party in slot 0, and all that follows from it held true. -/
def riding (p : Party) : State :=
  let s := cab.setParty 0 p
  { s with
    shift := { s.shift with totals := { Totals.zero with started := 1 } }
    sign := { s.sign with riding := 1, mode := .hired }
    power := { s.power with allIdle := false } }

def metering : Party := { Party.vacant with state := .metering, trip := 1, station := .left, fare := 350 }
def holding : Party := { metering with state := .hold }
def paying : Party := { metering with state := .paying }
def settled : Party := { metering with state := .settled, cash := 350 }

/-- The cab with slot 0's payment at the head of the queue in a state. -/
def paymentAt (st : RecordState) : State :=
  let s := riding paying
  let asked := st == .authorizing
  { s with
    payment := { s.payment with
      queue := [⟨0, 350, st, if asked then some 9 else none, if asked then some 350 else none, if asked then some 0 else none,
        if asked then some 1 else none⟩]
      refCounter := if asked then 1 else 0
      offerTimer := if st == .offered then some 120000 else none
      answerTimer := if asked then some 30000 else none } }

/-- The cab with one REVERSAL stored and being uploaded. -/
def uploading : State :=
  { cab with
    payment := { cab.payment with
      store := [⟨.reversal, 1, 0, 1, 1, ⟨0, 0, false⟩⟩], refCounter := 1, upload := .awaiting, uploadTimer := some 20000 } }

/-- The cab with a set staged. -/
def staged : State :=
  cab.withStaging (some sampleSet)

/-- The cab with the ignition off, its park delay running. -/
def leaving : State :=
  { closedCab with power := { closedCab.power with ignition := false, parkTimer := some 60000 } }

def portShut : PortState := { PortState.reset with shut := true, quiet := none }

/-- The cab PARKED with S still to be shut, its lane empty and its transmitter idle. -/
def parkedCab : State :=
  { leaving with
    power := { leaving.power with state := .parked, parkTimer := none, shutPending := true }
    link := { leaving.link with ports := ⟨portUp, portShut, portShut, portShut, portUp, portUp⟩ } }

/-- The cab with the latch set. -/
def alarmed : State :=
  { cab with
    sign := { cab.sign with latch := true, mode := .emergency }
    intercom := { cab.intercom with emergency := true }
    power := { cab.power with latch := true } }

/-- The cab with its intercom in a state. -/
def talking (st : IntercomState) : State :=
  { cab with
    intercom := { cab.intercom with
      state := st
      calling := if st == .calling || st == .announce then ⟨true, false⟩ else ⟨false, false⟩
      opened := if st == .opened then ⟨true, false⟩ else ⟨false, false⟩
      callTimer := if st == .calling then some 30000 else none
      seenTalk := st == .announce } }

/-- The cab with CT0 one count from its end. -/
def ending : State :=
  { cab with cadence := { cab.cadence with ct0 := { cab.cadence.ct0 with state := .running, count := 1 } } }

/-- The bytes of an AUDIO frame's samples, all 0. -/
def silentBytes (n : Nat) : List Byte :=
  List.replicate n 0

/-! ### WellFormed refuses -/

theorem test_request_from_the_partition_refused : (Instr.hire fromP [255, 0]).wellFormed = false := by decide
theorem test_request_too_long_refused : (Instr.imageSet fromD (silentBytes 200)).wellFormed = false := by decide +kernel
theorem test_unknown_request_with_a_known_code_refused : (Instr.unknownRequest fromC [59]).wellFormed = false := by decide +kernel
theorem test_unknown_request_from_terminal_refused : (Instr.unknownRequest fromK []).wellFormed = false := by decide
theorem test_unknown_request_too_long_refused : (Instr.unknownRequest fromC (silentBytes 201)).wellFormed = false := by decide +kernel
theorem test_check_error_of_a_good_frame_refused :
    (Instr.checkError .c (frameBytes ⟨0, 0, 0, 0, []⟩) false order).wellFormed = false := by decide +kernel
theorem test_discard_of_an_accepted_frame_refused : (Instr.frameDiscardedAtIngress .c ⟨0, 0, 0, 0, []⟩ order).wellFormed = false := by
  decide
theorem test_motion_from_the_terminal_refused : (Instr.motion fromK [0, 0, 1]).wellFormed = false := by decide
theorem test_motion_of_two_bytes_refused : (Instr.motion fromV [0, 0]).wellFormed = false := by decide
theorem test_sign_stat_from_the_gateway_refused : (Instr.signStat fromV [0, 0]).wellFormed = false := by decide
theorem test_audio_of_one_channel_from_p_refused : (Instr.audioFromP fromP (silentBytes 81)).wellFormed = false := by decide +kernel
theorem test_audio_of_two_channels_from_c_refused : (Instr.audioFromC fromC (silentBytes 161)).wellFormed = false := by decide +kernel
theorem test_card_stage_from_d_refused : (Instr.cardStage fromD [0, 0]).wellFormed = false := by decide
theorem test_auth_ask_short_refused : (Instr.authAsk fromK (silentBytes 28)).wellFormed = false := by decide +kernel
theorem test_auth_answer_from_k_refused : (Instr.authAnswer fromK [0, 1, 0]).wellFormed = false := by decide
theorem test_upload_ack_long_refused : (Instr.uploadAck fromD [0, 1, 0]).wellFormed = false := by decide
theorem test_pass_too_long_refused : (Instr.pass fromC (silentBytes 201)).wellFormed = false := by decide +kernel
theorem test_wake_call_with_wrong_length_refused : (Instr.wakeCall ⟨1, 0, 0, 3, [1]⟩ order).wellFormed = false := by decide +kernel
theorem test_driver_chime_ended_by_c_refused : (Instr.chimeEnd .driver fromC (silentBytes 81)).wellFormed = false := by decide +kernel
theorem test_partition_chime_ended_by_p_refused : (Instr.chimeEnd .partition fromP (silentBytes 161)).wellFormed = false := by decide +kernel

/-! ### The manual's worked figures -/

/-- R189's check value of the digits 1 to 9. -/
theorem test_crc_of_nine_digits : crc16 [0x31, 0x32, 0x33, 0x34, 0x35, 0x36, 0x37, 0x38, 0x39] = 0x29B1 := by decide +kernel

/-- Section 8.8: sums of samples, rounded and clamped. -/
theorem test_mixing_figures :
    roundedDiv64 2240000 = 35000 ∧ clamp16 (roundedDiv64 2240000) = 32767 ∧ clamp16 (roundedDiv64 2240000 - 4000) = 31000
      ∧ roundedDiv64 (-6368) = -100 ∧ roundedDiv64 960000 = 15000 ∧ roundedDiv64 (96 * -96) = -144 ∧ roundedDiv64 (-96) = -2 := by
  decide

/-- Section 8.8: the second block of a chime of half-period 15 begins inside the wave of the first. -/
theorem test_chime_across_blocks :
    let x : Option Playing := advancePlayer (some ⟨.band, ⟨15, 3000, 20, .none⟩, 0, 0⟩)
    [0, 4, 5, 19, 20, 35].map (contribution .reset x) = [3000, 3000, -3000, -3000, 3000, -3000] := by decide

/-- Section 6.9: three stripes, the second of width 0, and two that are cut at column 79. -/
theorem test_stripes_panels :
    stripesPanel [⟨30, 0xFF⟩, ⟨0, 0x81⟩, ⟨25, 0x3C⟩] = List.replicate 30 0xFF ++ List.replicate 50 0x3C
      ∧ stripesPanel [⟨50, 0x18⟩, ⟨50, 0x7E⟩] = List.replicate 50 0x18 ++ List.replicate 30 0x7E := by decide +kernel

/-- Section 6.9: a pattern of three columns over 80. -/
theorem test_block_panel : (blockPanel [0x01, 0x7E, 0x00]).drop 77 = [0x00, 0x01, 0x7E] := by decide +kernel

/-- Section 2.8: +300 pulses after 5,800,000 and 500 ends both allowances; +700 charges one step. -/
theorem test_double_trip :
    let p : Party := { metering with accD := 6100000, accT := 500 }
    let q := p.step dayTariff 6000
    let r := { q with accD := 800000 }.step dayTariff 6000
    (q.accD, q.accT, q.phaseD, q.phaseT, q.fare) = (100000, 0, .stepping, .stepping, 350) ∧ (r.accD, r.fare) = (80000, 370) := by
  decide

/-- Section 2.9: SET_TARIFF 4 charges 250,000 and 45 under SINGLE, distance and time each. -/
theorem test_single_trip :
    let p : Party := { metering with accD := 250000, accT := 45, phaseD := .stepping, phaseT := .stepping, fare := 540 }
    let q := p.step ⟨.single, 500, 0, 0, 15, 20, 30⟩ 6000
    (q.accD, q.accT, q.fare) = (10000, 15, 585) := by decide

/-- Section 1.7: Saturday 00:00 stays with entry 0, Monday 06:00 turns to entry 1 of the sample set. -/
theorem test_band_of_the_week :
    bandAt sampleSet ⟨20004, 0, true⟩ = some 1 ∧ bandAt sampleSet ⟨20006, 216000, true⟩ = some 0
      ∧ bandAt sampleSet ⟨20006, 215999, true⟩ = some 1 ∧ bandAt sampleSet ⟨20006, 216000, false⟩ = some 0 := by decide

/-- Section 9.6, steps 1 to 6: where a PASS frame goes. -/
theorem test_routing_decisions :
    let c : Route := ⟨0b0000001, .maskOnly, false⟩
    let k : Route := ⟨0b0000001, .any, true⟩
    (passDestinations c .c 0x0000).toOption = some 0b0000001 ∧ (passDestinations c .c 0x8009).toOption = some 0b0000001
      ∧ (passDestinations c .c 0x8008).toOption = none ∧ (passDestinations c .c 0xC008).toOption = none
      ∧ (passDestinations k .k 0xC046).toOption = some 0b0000110 ∧ (passDestinations k .k 0xC048).toOption = none := by decide

/-- Section 7.7: LC5, SET_CLEAR at 30 on CT1, lights lamp 1 at the start and darkens it at the terminal count. -/
theorem test_single_flash :
    let x : CadenceUnit :=
      { CadenceUnit.reset with
        ct1 := { CadenceTimer.reset with programmed := 30, mode := .once }
        comparators := CadenceUnit.reset.comparators.set 5 ⟨.ct1, 30, .setClear, 1, true⟩ }
    let y := x.start .ct1
    let z := { y with ct1 := { y.ct1 with count := 1 } }.count
    y.latches[1] = true ∧ y.ct1.count = 30 ∧ z.latches[1] = false ∧ z.ct1.state = .stopped ∧ z.ct1.terminal = true := by decide +kernel

/-- The wake call of R186 is found at any offset, and only whole. -/
theorem test_wake_call_found :
    holdsBytes (wakeCallBytes 5120) ([1, 0xC3] ++ wakeCallBytes 5120 ++ [0]) = true
      ∧ holdsBytes (wakeCallBytes 5120) (wakeCallBytes 5120).dropLast = false := by decide +kernel

/-- Every addition to a total already at its bound sets the flag again, one of 0 at a posting included (R100, R102). -/
theorem test_posting_to_a_full_total_sets_the_flag :
    ({ Totals.zero with cash := 4294967295 }.post .vacant).saturated = true
      ∧ ({ Totals.zero with cash := 4294967295 }.post .vacant).cash = 4294967295
      ∧ ({ Totals.zero with cash := 4294967294 }.post .vacant).saturated = false := by decide +kernel

/-- A tick not on BREAK, and a posting that is not capped, add nothing to the totals of those (R102, R104). -/
theorem test_what_is_not_counted_is_no_addition :
    ({ Totals.zero with breakTicks := 4294967295 }.tick .opened false).saturated = false
      ∧ ({ Totals.zero with breakTicks := 4294967295 }.tick .onBreak false).saturated = true
      ∧ ({ Totals.zero with capped := 4294967295 }.post .vacant).saturated = false := by decide +kernel

/-! ### One step each -/

/-- A HIRE by the step: METERING in slot 0 at the flag fall of the band's tariff. -/
theorem test_step_hires :
    (match step { cab with pending := [.hire fromC [255, 1]] } with
      | .next t => some ((t.party 0).state, (t.party 0).fare, (t.party 0).tariff, t.sign.mode, t.shift.totals.started, t.pending.length)
      | _ => none) = some (.metering, 500, 1, .hired, 1, 0) := by decide +kernel

/-- PAY_CASH above the due settles the party and marks the clamp. -/
theorem test_step_pays_cash :
    (match step { riding holding with pending := [.payCash fromC [0, 0, 0, 2, 0]] } with
      | .next t => some ((t.party 0).state, (t.party 0).cash, ((t.port .c).general.getLast?).map fun f => f.payload.take 3)
      | _ => none) = some (.settled, 350, some [12, 0, 1]) := by decide +kernel

/-- The park shuts C and leaves S for later, its dark frame on the wire. -/
theorem test_step_parks :
    (match step { leaving with pending := [.park] } with
      | .next t => some (t.parked, (t.port .c).shut, (t.port .s).shut, t.power.shutPending, (t.port .s).sending.isSome)
      | _ => none) = some (true, true, false, true, true) := by decide +kernel

/-- A wake call wakes the parked hub. -/
theorem test_step_wakes :
    (match step { parkedCab with pending := [.wakeCall ⟨1, 0, 0, 20, wakeCallBytes 0⟩ order] } with
      | .next t => some (t.running, (t.port .c).shut, t.power.shutPending, t.power.parkTimer)
      | _ => none) = some (true, false, false, some 60000) := by decide +kernel

/-- The cab for hire with an image in its view, and a CALL chime one block long. -/
def showing : State :=
  { cab with
    sign := { cab.sign with views := cab.sign.views.set SignMode.forHire.index { cab.sign.view with source := .image, imageBase := 3 } }
    intercom := { cab.intercom with
      chimes := { cab.intercom.chimes with call := { cab.intercom.chimes.call with duration := 1 } } } }

/-- R118, R125: a view written since the last composition has no image in use until the next one. -/
theorem test_image_in_use_from_the_next_composition :
    showing.sign.imageReported = 0 ∧ (signCount showing).sign.imageReported = 3
      ∧ ({ (signCount showing) with sign := { (signCount showing).sign with views := cab.sign.views } }).sign.imageReported = 0 := by
  decide +kernel

/-- R158, R159: a CALL chime of one block, triggered by the frame's own rise, ends with the block that frame forms. -/
theorem test_step_ends_a_chime_it_begins :
    (match step { showing with pending := [.chimeEnd .driver fromP (1 :: silentBytes 160)] } with
      | .next t => some (t.intercom.state, t.intercom.driverPlayer.isSome, t.intercom.seqC)
      | _ => none) = some (.calling, false, 1) := by decide +kernel

/-! ### Witnesses: states and operands that meet the statements' hypotheses, clause by clause -/

/-- A hub that satisfies every invariant, with a party riding and a command waiting. -/
def waiting : State :=
  { riding metering with pending := [.decisecondTick true] }

theorem witness_StepTakesFrontCommand : waiting.pending = .decisecondTick true :: [] ∧ cab.pending = [] := by decide

theorem witness_SupplyEvents :
    State.off.power.state = .off ∧ Instr.sShut ≠ .powerOnReset ∧ Instr.sShut ≠ .backupSupplyLost ∧ cab.power.state ≠ .off := by decide

theorem witness_invariants_links : waiting.linkSound = true ∧ waiting.powerSound = true := by decide +kernel
theorem witness_invariants_money :
    waiting.tariffSound = true ∧ waiting.accountsSound = true ∧ waiting.payment.queueSound = true ∧ waiting.payment.storeSound = true
      ∧ waiting.tripsBalance = true ∧ waiting.booksBalance = true := by decide +kernel
theorem witness_invariants_sign :
    waiting.signTrue = true ∧ waiting.cadence.sound = true ∧ waiting.intercomSound = true ∧ cab.signTrue = true ∧ cab.sign.mode = .forHire := by
  decide +kernel
theorem witness_SignTrueKept_seats :
    (riding metering).accountsSound = true ∧ (riding metering).tariffSound = true ∧ (riding metering).tripsBalance = true
      ∧ (riding metering).seatsHold = true ∧ (riding metering).everyIdle = false ∧ waiting.seatsHold = true ∧ cab.seatsHold = true := by
  decide +kernel
theorem witness_invariants_payment_at_work :
    (paymentAt .authorizing).accountsSound = true ∧ (paymentAt .authorizing).payment.queueSound = true
      ∧ (paymentAt .authorizing).payment.storeSound = true ∧ uploading.payment.storeSound = true := by decide +kernel
theorem witness_invariants_step : ∃ t, step waiting = .next t := ⟨_, rfl⟩

theorem witness_SetAndPolicyStandWhileOpen :
    cab.shift.state ≠ .closed ∧ Instr.loadBegin fromD [] ≠ .powerOnReset ∧ Instr.loadBegin fromD [] ≠ .backupSupplyLost
      ∧ ∃ t, exec (.loadBegin fromD []) cab = .next t := ⟨by decide, by decide, by decide, _, rfl⟩

theorem witness_CheckErrorsAndIdleFrames :
    cab.power.state ≠ .off ∧ checkPasses [] false = false ∧ (cab.port .k).shut = false ∧ (parkedCab.port .k).shut = true
      ∧ parkedCab.power.state ≠ .off ∧ cab.hears fromK.port := by decide +kernel

theorem witness_FrameCheckCatchesOneWrongByte :
    (0 : Byte) ≠ 1 ∧ checkPasses ([] ++ 0 :: (frameBytes ⟨0, 0, 0, 0, []⟩).tail) false = true
      ∧ checkPasses ((frameBytes ⟨1, 0, 0, 2, [5, 6]⟩).dropLast ++ [(frameBytes ⟨1, 0, 0, 2, [5, 6]⟩).getLastD 0]) false = true
      ∧ cab.power.state = .run ∧ (cab.port .d).shut = false := by decide +kernel

theorem witness_TwoGoodFramesBringUp :
    State.reset.power.state = .run ∧ (State.reset.port .c).shut = false ∧ (State.reset.port .c).up = false
      ∧ (State.reset.port .c).bringUp = false
      ∧ ((State.reset.setPort .c { PortState.reset with bringUp := true }).port .c).bringUp = true
      ∧ ((State.reset.setPort .p { PortState.reset with bringUp := true }).port .p).bringUp = true
      ∧ (⟨0, 0, 0, 0, []⟩ : Frame).kind = 0 ∧ (⟨0, 0, 0, 0, []⟩ : Frame).len = 0 := by decide

/-- D at its second good frame with an entry to send, the latch set. -/
theorem witness_TwoGoodFramesBringUp_upload :
    let s := alarmed.setPort .d { PortState.reset with bringUp := true }
    let held := { s with payment := { uploading.payment with upload := .idle, uploadTimer := none } }
    held.power.state = .run ∧ (held.port .d).shut = false ∧ (held.port .d).up = false ∧ (held.port .d).bringUp = true
      ∧ held.sign.latch = true ∧ held.payment.store ≠ [] ∧ held.payment.upload = .idle := by decide +kernel

/-- The cab with report yes on the PASS entry of K, and no target there. -/
def reporting : State :=
  { cab with link := cab.link.setRoute .pass .k ⟨0, .any, true⟩ }

theorem witness_DiscardedAtIngress_report :
    cab.hears .k ∧ ingressFailure .k ⟨6, 0, 0, 0, []⟩ = some .kindNotAllowed ∧ (cab.link.passRoutes.get .k).report = false
      ∧ reporting.hears .k ∧ (reporting.link.passRoutes.get .k).report = true := by decide

theorem witness_DiscardedAtIngress_kinds :
    200 < (201 : Byte).toNat ∧ (1 : Byte).toNat ≠ ([] : List Byte).length ∧ kindOf ⟨11, 0, 0, 0, []⟩ = none
      ∧ kindOf ⟨9, 0, 0, 0, []⟩ = some .sign ∧ kindOf ⟨7, 0, 0, 0, []⟩ = some .reply ∧ kindOf ⟨8, 0, 0, 0, []⟩ = some .note
      ∧ kindOf ⟨10, 0, 0, 0, []⟩ = some .fareView ∧ kindOf ⟨6, 0, 0, 0, []⟩ = some .req ∧ kindOf ⟨4, 0, 0, 0, []⟩ = some .audio
      ∧ kindOf ⟨5, 0, 0, 0, []⟩ = some .pay ∧ kindOf ⟨2, 0, 0, 0, []⟩ = some .motion ∧ kindOf ⟨3, 0, 0, 0, []⟩ = some .signStat := by
  decide

theorem witness_PassCopied :
    cab.hears fromC.port ∧ (passDestinations (cab.link.passRoutes.get .c) .c fromC.route).toOption = some 0b0000001
      ∧ (cab.link.passRoutes.get .c).report = false ∧ cab.hears fromV.port
      ∧ (match passDestinations (cab.link.passRoutes.get .v) .v fromV.route with | .error r => r == .emptyRoute | .ok _ => false) = true
      ∧ (cab.link.passRoutes.get .v).report = false := by decide

theorem witness_PassDestinationsByPolicy :
    directFlag 0x7FFF = false ∧ directFlag 0x8000 = true ∧ replaceFlag 0x8000 = false ∧ replaceFlag 0xC000 = true
      ∧ Route.reset.policy = .none ∧ (⟨1, .maskOnly, false⟩ : Route).policy ≠ .none ∧ (⟨1, .any, true⟩ : Route).policy = .any := by decide

theorem witness_ConsoleNeverSeesTheAlarm : fromV.port = .v ∧ cab.hears .v ∧ cab.link.telemetryRoutes.v.report = false := by decide

theorem witness_SilenceTakesDown :
    cab.power.state = .run ∧ (cab.port .k).silence.isSome = true ∧ cab.isUp .k = true
      ∧ ((paymentAt .offered).payment.queue.map Record.slot).Nodup ∧ (paymentAt .offered).payment.queueSound = true
      ∧ (paymentAt .authorizing).payment.queueSound = true ∧ ((paymentAt .authorizing).port .k).silence.isSome = true
      ∧ ((State.reset.setPort .p { PortState.reset with silence := some 500 }).port .p).silence.isSome = true
      ∧ (State.reset.setPort .p { PortState.reset with silence := some 500 }).isUp .p = false := by decide

/-- A record that stands alone when K falls silent, and a call that waits when P does. -/
theorem witness_SilenceTakesDown_told :
    (paymentAt .offered).power.state = .run ∧ ((paymentAt .offered).port .k).silence.isSome = true ∧ (paymentAt .offered).isUp .k = true
      ∧ (paymentAt .offered).payment.queue = [⟨0, 350, .offered, none, none, none, none⟩] ∧ ((talking .calling).port .p).silence.isSome = true
      ∧ (talking .calling).isUp .p = true ∧ (talking .calling).intercom.calling = ⟨true, false⟩ ∧ cab.payment.queue = [] := by decide +kernel

/-- A hub sending a frame toward C, with lanes as given. -/
def sendingC (voice general : List Frame) : State :=
  hubUp.setPort .c { portUp with sending := some (plainFrame .idle []), voice := voice, general := general }

theorem witness_TransmitterTakesVoiceFirst :
    (sendingC [] []).power.state = .run ∧ ((sendingC [] []).port .c).sending.isSome = true ∧ ((sendingC [] []).port .c).quiet.isSome = true
      ∧ ((sendingC [plainFrame .audio []] []).port .c).voice = plainFrame .audio [] :: []
      ∧ ((sendingC [] [plainFrame .note []]).port .c).voice = []
      ∧ ((sendingC [] [plainFrame .note []]).port .c).general = plainFrame .note [] :: []
      ∧ (hubUp.port .c).sending = none ∧ (hubUp.port .c).voice = [] ∧ (hubUp.port .c).general = [] ∧ (hubUp.port .c).quiet.isSome = true := by
  decide

theorem witness_LinkRequests :
    dec RouteClass.all 1 = some .telemetry ∧ dec DirectPolicy.all 2 = some .any ∧ flagOf 1 = some true ∧ cab.takes fromD .routeSet
      ∧ cab.takes fromC .routeRead ∧ portOf 0 = some .d ∧ portOf 5 = some .v ∧ 5 < (6 : Byte).toNat ∧ cab.takes fromC .portStatus
      ∧ cab.takes fromD .portStatus := by decide

theorem witness_RequestsTurnedAway :
    cab.hears fromC.port ∧ RequestName.routeSet.authority.permits fromC.port = false ∧ RequestName.hire.authority.permits fromC.port = true
      ∧ (RequestName.hire.read fromC.port [255, 3]).isNone = true ∧ cab.hears fromD.port ∧ 59 < (60 : Byte).toNat := by decide

theorem witness_RefusedRequestsChangeNothing :
    cab.takes fromC .total ∧ RequestName.total.read fromC.port [0] = some (actTotal 0)
      ∧ (actTotal 0 (cab.heard fromC)).2 = .refused .partyState (255, 255)
      ∧ 4 ≤ (4 : Byte).toNat ∧ (0 : Byte).toNat = (0 : Fin 4).val ∧ (cab.party 0).state ≠ .metering :=
  ⟨by decide, rfl, by decide, by decide, by decide, by decide⟩

/-- Each of the ten requests that name a slot has arguments its layout takes. -/
theorem witness_RefusedRequestsChangeNothing_slots :
    cab.takes fromC .cancelCard ∧ (cab.party 0).state = .idle
      ∧ ([(RequestName.total, ([] : List Byte)), (.resume, []), (.void, []), (.payCash, [0, 0, 0, 1]), (.closeTrip, []),
          (.addExtra, [1, 0, 0, 0, 1]), (.setTariff, [255]), (.setStation, [2]), (.offerCard, [0, 0, 0, 0]), (.cancelCard, [])].all
        fun x => (x.1.read .c (0 :: x.2)).isSome && (x.1.read .c (4 :: x.2)).isSome) = true := by decide +kernel

/-! #### The tariff store -/

theorem witness_StagedLoad_present :
    cab.takes fromD .loadBegin ∧ staged.takes fromD .loadPart ∧ staged.tariff.staging = some sampleSet
      ∧ (readParams [0, 0x17, 0x70, 7, 0xD0, 2, 0, 42]).isSome = true
      ∧ (readTariff [0, 0, 0, 1, 94, 3, 232, 2, 88, 0, 20, 0, 120, 0, 240]).isSome = true ∧ (readSchedule [0x7F, 0, 0, 1]).isSome = true
      ∧ (readExtra [1, 0, 0, 1, 244, 0]).isSome = true := by decide +kernel

theorem witness_StagedLoad_refused :
    (readLoadPart [0, 1, 0, 0, 0, 0, 0, 0, 0, 0, 0]).isSome = true ∧ (readLoadPart (1 :: 8 :: 0 :: silentBytes 15)).isSome = true
      ∧ (readLoadPart [2, 16, 0, 0, 0, 0, 0]).isSome = true ∧ (readLoadPart [3, 8, 0, 0, 0, 0, 0, 0, 0]).isSome = true
      ∧ cab.tariff.staging = none ∧ cab.takes fromD .loadPart := by decide +kernel

theorem witness_StagedEntryReadsBack :
    staged.takes fromD .loadPart ∧ staged.hears fromC.port ∧ staged.tariff.staging = some sampleSet ∧ (sampleSet.read .schedule 15).isSome = true
      ∧ (readLoadPart [2, 15, 1, 0x7F, 5, 0x9F, 7]).isSome = true ∧ (0x7F : Byte).msb = false
      ∧ (sampleSet.read .tariff 7).isSome = true ∧ (readLoadPart (1 :: 7 :: 1 :: 1 :: silentBytes 14)).isSome = true := by decide +kernel

theorem witness_CommitInstallsValidSets_accepted :
    commitFault .closed sampleSet (crc16 sampleSet.serialize) = none ∧ sampleSet.valid = true
      ∧ closedCab.shift.state = .closed ∧ closedCab.takes fromD .loadCommit ∧ closedCab.everyIdle = true
      ∧ (closedCab.withStaging (some sampleSet)).tariff.staging = some sampleSet := by decide +kernel

theorem witness_CommitInstallsValidSets_refused :
    staged.takes fromD .loadCommit ∧ staged.tariff.staging = some sampleSet ∧ staged.shift.state ≠ .closed
      ∧ commitFault staged.shift.state sampleSet ((0 : Byte) ++ (0 : Byte)) = some (.shiftState, (255, 255)) ∧ cab.tariff.staging = none := by decide +kernel

theorem witness_SerializationDeterminesSet :
    sampleSet.valid = true ∧ sampleSet.serialize = sampleSet.serialize := by decide +kernel

theorem witness_StoreRequests_reads :
    cab.takes fromC .tariffRead ∧ (cab.tariff.inForce.read .tariff 7).isSome = true ∧ staged.takes fromD .tariffRead
      ∧ staged.tariff.staging = some sampleSet ∧ cab.tariff.staging = none ∧ cab.tariff.inForce.read .extras 8 = none
      ∧ cab.takes fromC .tariffStatus := by decide +kernel

theorem witness_StoreRequests_writes :
    cab.takes fromD .setClock ∧ num [0x0D, 0x2E, 0xFF] < 864000 ∧ 864000 ≤ num [0x0D, 0x2F, 0x00] ∧ cab.takes fromD .setCabId ∧ cab.shift.state ≠ .closed
      ∧ closedCab.takes fromD .setCabId ∧ closedCab.shift.state = .closed := by decide

/-- A SET_CLOCK that leaves the band of the riding cab and one that changes it, with a party at LEFT that follows it. -/
theorem witness_StoreRequests_band :
    (riding metering).takes fromD .setClock ∧ bandAt sampleSet ⟨num [0, 7], num [0, 0, 1], true⟩ = (riding metering).tariff.band
      ∧ bandAt sampleSet ⟨num [0, 7], num [3, 0x4B, 0xC0], true⟩ ≠ (riding metering).tariff.band ∧ (riding metering).milestonesOff = true
      ∧ ((riding metering).party 0).follows = true ∧ ((riding metering).party 0).station = .left
      ∧ ((riding metering).party 1).state ≠ .metering := by decide +kernel

theorem witness_BandIsLatestEntry :
    TariffSet.empty.params = none ∧ sampleSet.params = some ⟨0, 6000, 2000, 2, 42⟩
      ∧ some (⟨0x1F, 360, 0⟩ : Schedule) ∈ sampleSet.schedule.toList ∧ (0x1F : DaySet).getLsbD (7 % 7) = true ∧ 360 ≤ 216000 / 600
      ∧ (sampleSet.schedule.toList.all fun e => match e with | some f => f == ⟨0x1F, 360, 0⟩ || decide (f.start < 360) | none => true) = true := by
  decide +kernel

/-! #### Trips -/

theorem witness_HireOpensTrip_refused :
    hubUp.takes fromC .hire ∧ dec Station.all 1 = some .left ∧ hubUp.setInForce = false ∧ cab.setInForce = true
      ∧ breakCab.takes fromC .hire ∧ breakCab.setInForce = true ∧ breakCab.shift.state ≠ .opened ∧ (8 : Byte) ≠ 255 ∧ 7 < (8 : Byte).toNat
      ∧ (2 : Byte) ≠ 255 ∧ (cab.tariffAt 2).isNone = true ∧ (riding metering).seatLimit ≤ (riding metering).ridingCount := by decide +kernel

/-- The cab sharing, with a party in slot 0. -/
def sharing : State :=
  let s := riding metering
  { s with fare := { s.fare with share := true }, sign := { s.sign with share := true, seatLimit := 2, mode := .shareOpen } }

theorem witness_HireOpensTrip_opened :
    sharing.takes fromC .hire ∧ sharing.setInForce = true ∧ sharing.shift.state = .opened ∧ sharing.ridingCount < sharing.seatLimit
      ∧ (sharing.party 0).state ≠ .idle ∧ (sharing.party 0).station = .left ∧ sharing.lowestIdle = some 1 ∧ sharing.milestonesOff = true
      ∧ (∀ j, (sharing.party j).state ≠ .idle → (sharing.party j).station ≠ .right) ∧ sharing.tariffAt 1 = some benchTariff
      ∧ benchTariff.flagFall ≤ 99999 ∧ bandAt sharing.tariff.inForce sharing.tariff.clock = sharing.tariff.band := by decide +kernel

theorem witness_TotalEndsMetering :
    (riding metering).takes fromC .total ∧ ((riding metering).party 0).state = .metering := by decide +kernel

theorem witness_PayCashRecordsUpToDue :
    (riding holding).takes fromC .payCash ∧ ((riding holding).party 0).state = .hold ∧ num [0, 0, 0, 0] = 0 ∧ num [0, 0, 0, 1] ≠ 0
      ∧ holding.due - min (num [0, 0, 0, 1]) holding.due ≠ 0 ∧ holding.due - min (num [0, 0, 1, 94]) holding.due = 0 := by
  decide +kernel

theorem witness_TripsResumeAndEnd :
    (riding { holding with cash := 1 }).takes fromC .resume ∧ { holding with cash := 1 }.cash ≠ 0
      ∧ (riding holding).takes fromC .resume ∧ ((riding holding).party 0).state = .hold ∧ ((riding holding).party 0).cash = 0
      ∧ ((riding holding).stepped holding).fare = holding.fare ∧ (riding holding).milestonesOff = true
      ∧ ((riding holding).stepped { holding with accD := 9000000 }).fare ≠ holding.fare
      ∧ (riding metering).takes fromC .void ∧ ((riding metering).party 0).phaseD = .allowance ∧ ((riding metering).party 0).extras = 0
      ∧ { metering with phaseT := .stepping }.phaseT = .stepping
      ∧ (riding settled).takes fromC .closeTrip ∧ ((riding settled).party 0).state = .settled := by decide +kernel

theorem witness_TripSettings_extras :
    (riding metering).takes fromC .addExtra ∧ ((riding metering).party 0).state = .metering
      ∧ (riding metering).extraAt 0 = some ⟨.fixed, 300, 2⟩ ∧ ((riding metering).party 0).uses[0] < 2
      ∧ (riding holding).extraAt 1 = some ⟨.variable, 500, 0⟩ ∧ 1 ≤ num [0, 0, 1, 244] ∧ num [0, 0, 1, 244] ≤ 500 := by decide +kernel

theorem witness_TripSettings_rest :
    (riding metering).takes fromC .setTariff ∧ ((riding metering).tariffAt 1).isSome = true
      ∧ ((riding metering).stepped { metering with tariff := 1, lock := .fixed }).fare = metering.fare
      ∧ (riding metering).takes fromC .setStation ∧ (riding metering).pinEntryAt 0 = false ∧ dec Station.all 2 = some .right
      ∧ (∀ j, j ≠ 0 → ((riding metering).party j).state ≠ .idle → ((riding metering).party j).station ≠ .right)
      ∧ (riding metering).milestonesOff = true ∧ (paymentAt .pin).takes fromC .setStation ∧ ((paymentAt .pin).party 0).state ≠ .idle
      ∧ (paymentAt .pin).payment.queue = ⟨0, 350, .pin, none, none, none, none⟩ :: []
      ∧ breakCab.takes fromC .share ∧ breakCab.shift.state ≠ .opened ∧ cab.takes fromC .share ∧ cab.shift.state = .opened := by
  decide +kernel

/-- Two parties, LEFT and RIGHT: slot 0 cannot move to RIGHT. -/
theorem witness_TripSettings_station_taken :
    let s := (riding metering).setParty 1 { metering with station := .right, trip := 2 }
    s.takes fromC .setStation ∧ (s.party 0).state ≠ .idle ∧ s.pinEntryAt 0 = false ∧ (s.party 1).state ≠ .idle
      ∧ (s.party 1).station = .right := by decide +kernel

theorem witness_StepArithmetic :
    metering.fare ≤ 9999999 ∧ benchTariff.method = .single ∧ dayTariff.method = .double
      ∧ ((⟨.allowance, 6000000⟩ : Accumulator).process (dayTariff.distance 6000)).2.2 = true
      ∧ ((⟨.allowance, 5999999⟩ : Accumulator).process (dayTariff.distance 6000)).2.2 = false
      ∧ ((⟨.allowance, 600⟩ : Accumulator).process dayTariff.time).2.2 = true
      ∧ ((⟨.stepping, 240⟩ : Accumulator).process dayTariff.time).2 = (1, true)
      ∧ ((⟨.stepping, 239⟩ : Accumulator).process dayTariff.time).2.2 = false
      ∧ { metering with phaseD := .stepping, phaseT := .stepping }.phaseD = .stepping ∧ 0 < (benchTariff.distance 6000).step := by decide

/-- The riding cab with the last count known. -/
def counted : State :=
  let s := riding metering
  { s with fare := { s.fare with countKnown := true, lastCount := 65535 } }

theorem witness_MotionTaken :
    counted.power.state ≠ .off ∧ counted.isUp .v = true ∧ (counted.port .v).shut = false ∧ counted.power.state = .run
      ∧ counted.link.telemetryRoutes.v.targets = 0 ∧ counted.fare.countKnown = true ∧ counted.implausible ((num [7, 0xCF] + 65536 - 65535) % 65536) = false
      ∧ counted.implausible ((num [7, 0xD0] + 65536 - 65535) % 65536) = true ∧ cab.fare.countKnown = false ∧ counted.milestonesOff = true
      ∧ (counted.party 0).state = .metering ∧ (counted.party 1).state ≠ .metering := by decide +kernel

/-- The parked hub takes MOTION frames, with the ignition on or off and either order of flags and count. -/
theorem witness_MotionTaken_parked :
    parkedCab.power.state ≠ .off ∧ parkedCab.power.state = .parked ∧ parkedCab.isUp .v = true ∧ (parkedCab.port .v).shut = false
      ∧ (1 : Byte).getLsbD 0 = true ∧ (0 : Byte).getLsbD 0 = false ∧ fromV.order.flagsFirst = true
      ∧ (⟨.v, 0, 0, ⟨true, false, true⟩⟩ : Arrival).order.flagsFirst = false := by decide

/-- A tick that changes the band, in RUN, and a tick in PARKED. -/
theorem witness_TickTaken_band :
    let s := { counted with tariff := { counted.tariff with clock := ⟨7, 215999, true⟩ } }
    s.power.state ≠ .off ∧ s.tariff.clock.advance.ds % 600 = 0 ∧ bandAt s.tariff.inForce s.tariff.clock.advance ≠ s.tariff.band
      ∧ s.milestonesOff = true ∧ s.power.shutPending = false ∧ (s.party 0).follows = true ∧ parkedCab.power.state ≠ .off := by decide +kernel

theorem witness_TickTaken :
    counted.power.state = .run ∧ counted.tariff.clock.day ≤ 65535 ∧ counted.tariff.clock.ds < 864000
      ∧ counted.tariff.clock.advance.ds % 600 ≠ 0 ∧ counted.milestonesOff = true ∧ (counted.party 0).state = .metering := by decide +kernel

theorem witness_MilestoneSetRearms :
    (riding metering).takes fromD .milestoneSet ∧ flagOf 1 = some true ∧ dec Quantity.all 2 = some .fare ∧ num [0, 0, 1] = 1
      ∧ dec Repetition.all 0 = some .once ∧ readFilter 1 7 = some (some 7) ∧ readFilter 0 0 = some none
      ∧ dec MilestoneAction.all 2 = some .addExtra ∧ 12 ≤ (12 : Byte).toNat ∧ num [0, 0, 0] = 0 ∧ 7 < (8 : Byte).toNat
      ∧ (11 : Byte).toNat = (11 : Fin 12).val := by decide

theorem witness_PartyReads : cab.hears fromC.port ∧ cab.hears fromD.port ∧ (3 : Byte).toNat = (3 : Fin 4).val ∧ 4 ≤ (4 : Byte).toNat := by
  decide

theorem witness_MilestoneReads : cab.hears fromD.port ∧ (11 : Byte).toNat = (11 : Fin 12).val ∧ 12 ≤ (12 : Byte).toNat := by decide

theorem witness_PassLeavesNothingDue :
    (∀ e : Fin 12, cab.milestone.table[e].action = .notify ∧ 0 < cab.milestone.table[e].threshold) := by decide +kernel

/-- The riding cab with FARE entry 11 alone enabled, due at once. -/
def dueAt (action : MilestoneAction) (argument : Nat) : State :=
  let s := riding metering
  { s with milestone := { s.milestone with table := s.milestone.table.set 11 ⟨true, .fare, 350, .every, none, action, argument⟩ } }

theorem witness_PassLeavesNothingDue_firing :
    (∀ e : Fin 12, e ≠ 11 → (dueAt .switchTariff 1).milestone.table[e].enabled = false)
      ∧ takesPart (dueAt .switchTariff 1).milestone.table[11] ((dueAt .switchTariff 1).armed 11 0) .fare metering.tariff = true
      ∧ ((dueAt .switchTariff 1).armed 11 0).level * 350 ≤ (dueAt .switchTariff 1).quantityOf .fare metering
      ∧ ((dueAt .switchTariff 1).tariffAt 1).isSome = true ∧ ((dueAt .switchTariff 2).tariffAt 2) = none
      ∧ (dueAt .addExtra 0).extraAt 0 = some ⟨.fixed, 300, 2⟩ ∧ metering.uses[0] < 2 ∧ (2 : Nat) ≤ { metering with uses := metering.uses.set 0 2 }.uses[0]
      ∧ (dueAt .addExtra 2).extraAt 2 = none ∧ (dueAt .notify 0).milestone.table[11].action = .notify := by decide +kernel

/-- From entry 6 on no SWITCH_TARIFF, and entry 11 takes part again after its firing. -/
theorem witness_PassLeavesNothingDue_later :
    let s := dueAt .addExtra 0
    0 < s.milestone.table[11].threshold ∧ (∀ e : Fin 12, 11 ≤ e → s.milestone.table[e].action ≠ .switchTariff)
      ∧ takesPart s.milestone.table[11] ((runPass 0 .fare s).armed 11 0) .fare ((runPass 0 .fare s).party 0).tariff = true := by
  decide +kernel

/-! #### Payments -/

theorem witness_OfferCardJoinsQueue :
    (riding holding).takes fromC .offerCard ∧ ((riding holding).party 0).state = .hold ∧ (riding holding).isUp .k = true
      ∧ ((riding metering).party 0).state ≠ .hold ∧ ((riding holding).party 0).due < num [0, 0, 1, 95]
      ∧ num [0, 0, 1, 94] ≤ ((riding holding).party 0).due ∧ ((riding holding).setPort .k .reset).isUp .k = false
      ∧ ((riding holding).setPort .k .reset).takes fromC .offerCard := by decide +kernel

/-- The cab with a second payment waiting behind the first. -/
def paymentsTwo (st : RecordState) : State :=
  let s := (paymentAt st).setParty 1 { paying with trip := 2, station := .right }
  { s with payment := { s.payment with queue := s.payment.queue ++ [⟨1, 350, .queued, none, none, none, none⟩] } }

theorem witness_CardStagesAndCancellations_console :
    (paymentAt .offered).takes fromC .cancelCard ∧ ((paymentAt .offered).party 0).state = .paying
      ∧ (paymentAt .offered).payment.queue = ⟨0, 350, .offered, none, none, none, none⟩ :: []
      ∧ (paymentAt .authorizing).takes fromC .cancelCard ∧ ((paymentAt .authorizing).party 0).state = .paying
      ∧ (paymentsTwo .pin).takes fromC .cancelCard ∧ ((paymentsTwo .pin).party 1).state = .paying
      ∧ (paymentsTwo .pin).recordOf 1 = some ⟨1, 350, .queued, none, none, none, none⟩ := by decide +kernel

theorem witness_CardStagesAndCancellations_terminal :
    fromK.port = .k ∧ (paymentAt .offered).hears .k ∧ (paymentAt .pin).hears .k
      ∧ (paymentAt .pin).payment.queue = ⟨0, 350, .pin, none, none, none, none⟩ :: [] ∧ (2 : Byte).toNat ≤ 2
      ∧ (1 : Byte).toNat ≠ (0 : Fin 4).val ∧ (paymentAt .offered).power.state = .run
      ∧ (paymentAt .offered).payment.offerTimer.isSome = true := by decide +kernel

/-- An ask of an amount without tip. -/
def askBytes (amount : Nat) : List Byte :=
  be 4 amount ++ silentBytes 24

theorem witness_AuthAskTakesItsPath_tests :
    (0 : Nat) < (askOf (askBytes 350)).amount ∧ 28 ≤ (List.replicate 28 (0 : Nat)).length ∧ tokenPrefix 0 ∉ cab.payment.refusalList
      ∧ cab.payment.store.length < 28 := by decide +kernel

theorem witness_AuthAskTakesItsPath_paths :
    (paymentAt .offered).hears .k ∧ (askBytes 350).length = 28 ∧ cab.payment.queue = [] ∧ cab.hears .k
      ∧ (paymentAt .offered).payment.queue = ⟨0, 350, .offered, none, none, none, none⟩ :: []
      ∧ 1 ≤ (askOf (askBytes 350)).amount ∧ (askOf (askBytes 350)).amount ≤ 350 ∧ (askOf (askBytes 350)).tip ≤ 350 * 0 / 100
      ∧ ¬ (askOf (askBytes 351)).amount ≤ 350 ∧ (paymentAt .offered).isUp .d = true
      ∧ (paymentAt .offered).payment.policy.forceOffline = false ∧ (paymentAt .offered).payment.store.length < 32
      ∧ ((paymentAt .offered).setPort .d .reset).isUp .d = false
      ∧ offlineFault (askOf (askBytes 350)) ((paymentAt .offered).setPort .d .reset) = some .floor := by decide +kernel

theorem witness_AuthAskTakesItsPath_approved :
    let s := (paymentAt .offered).setPort .d .reset
    offlineFault (askOf (askBytes 350)) { s with payment := { s.payment with policy := ⟨350, 350, 30, 0, false, false⟩ } } = none
      ∧ s.payment.refCounter ≤ 65535 := by decide +kernel

/-- With D UP and force-offline on, an approved ask's entry starts the upload. -/
theorem witness_AuthAskTakesItsPath_upload :
    let s := paymentAt .offered
    let offline := { s with payment := { s.payment with policy := ⟨350, 350, 30, 0, true, false⟩ } }
    offlineFault (askOf (askBytes 350)) offline = none ∧ offline.hears .k ∧ offline.isUp .d = true
      ∧ offline.payment.policy.forceOffline = true ∧ offline.payment.upload = .idle ∧ offline.payment.store = [] := by decide +kernel

theorem witness_AnswersAndTimeout :
    cab.hears .d ∧ cab.authorizing (num [0, 1]) = none
      ∧ (paymentAt .authorizing).payment.queue = ⟨0, 350, .authorizing, some 9, some 350, some 0, some 1⟩ :: []
      ∧ (paymentAt .authorizing).payment.offerTimer = none ∧ (paymentAt .authorizing).hears .d ∧ 1 = num [0, 1]
      ∧ (paymentAt .authorizing).power.state = .run ∧ (paymentAt .authorizing).payment.answerTimer.isSome = true := by decide +kernel

theorem witness_UploadsInOrder :
    uploading.hears .d ∧ uploading.payment.store = ⟨.reversal, 1, 0, 1, 1, ⟨0, 0, false⟩⟩ :: [] ∧ 1 = num [0, 1] ∧ 1 ≠ num [0, 2]
      ∧ uploading.power.state = .run ∧ uploading.payment.uploadTimer.isSome = true ∧ uploading.payment.upload = .awaiting := by decide +kernel

/-- A removal that takes the store from 28 entries to 27. -/
theorem witness_UploadsInOrder_store_notice :
    let e : StoreEntry := ⟨.reversal, 1, 0, 1, 1, ⟨0, 0, false⟩⟩
    let s := { uploading with payment := { uploading.payment with store := e :: List.replicate 27 e } }
    s.hears .d ∧ s.payment.store = e :: List.replicate 27 e ∧ e.hubRef = num [0, 1] ∧ (List.replicate 27 e).length = 27 := by decide +kernel

theorem witness_PaymentSettings_policy :
    cab.takes fromD .policySet ∧ cab.shift.state ≠ .closed ∧ closedCab.takes fromD .policySet ∧ closedCab.shift.state = .closed
      ∧ 999999 < num [0, 15, 66, 64] ∧ num [0, 15, 66, 63] ≤ 999999 ∧ 9999999 < num [0, 152, 150, 128] ∧ num [0, 152, 150, 127] ≤ 9999999
      ∧ (9 : Byte).toNat < 10 ∧ 90 < (91 : Byte).toNat ∧ 10 ≤ (10 : Byte).toNat ∧ (90 : Byte).toNat ≤ 90 ∧ 100 < (101 : Byte).toNat
      ∧ (100 : Byte).toNat ≤ 100 := by decide

/-- The cab with a refusal list as given. -/
def listing (l : List (BitVec 64)) : State :=
  { cab with payment := { cab.payment with refusalList := l } }

theorem witness_PaymentSettings_list :
    cab.takes fromD .refusalListAdd ∧ (silentBytes 8).length = 8 ∧ BitVec.ofNat 64 (num (silentBytes 8)) ∈ (listing [0]).payment.refusalList
      ∧ BitVec.ofNat 64 (num (silentBytes 8)) ∉ cab.payment.refusalList ∧ cab.payment.refusalList.length < 64
      ∧ 64 ≤ (listing (List.replicate 64 1)).payment.refusalList.length ∧ (listing [0]).takes fromD .refusalListRemove
      ∧ cab.takes fromD .refusalListClear ∧ cab.takes fromC .payStatus := by decide +kernel

/-! #### The shift -/

theorem witness_ShiftRequests_open :
    cab.takes fromC .shiftOpen ∧ cab.shift.state ≠ .closed ∧ hubUp.takes fromC .shiftOpen ∧ hubUp.shift.state = .closed
      ∧ hubUp.setInForce = false ∧ closedCab.takes fromC .shiftOpen ∧ closedCab.setInForce = true ∧ 999999 < num [15, 66, 64]
      ∧ num [15, 66, 63] ≤ 999999 ∧ closedCab.shift.reports.length < 8
      ∧ 8 ≤ (List.replicate 8 closedCab.livePages).length := by decide +kernel

theorem witness_ShiftRequests_rest :
    cab.takes fromC .shiftBreak ∧ cab.shift.state = .opened ∧ cab.everyIdle = true ∧ (riding metering).everyIdle = false
      ∧ breakCab.takes fromC .shiftResume ∧ breakCab.shift.state = .onBreak ∧ cab.shift.state ≠ .onBreak ∧ cab.takes fromD .shiftClose
      ∧ closedCab.takes fromD .shiftClose ∧ closedCab.shift.state = .closed ∧ breakCab.shift.state ≠ .closed := by decide +kernel

/-- The cab with a snapshot held, pages 0 and 1 of it read, and one report. -/
def booked : State :=
  { cab with
    shift := { cab.shift with snapshot := some ⟨cab.livePages, true, true, false⟩, reports := [{ cab.livePages with state := .closed }] } }

theorem witness_TotalsAndReports :
    3 ≤ (3 : Byte).toNat ∧ (2 : Byte).toNat = (2 : Fin 3).val ∧ booked.takes fromC .totalsRead ∧ booked.shift.snapshot.isSome = true ∧ cab.shift.snapshot = none
      ∧ cab.shift.state ≠ .closed ∧ closedCab.shift.state = .closed ∧ booked.takes fromC .totalsThaw ∧ booked.takes fromD .reportRead
      ∧ (booked.shift.reports[(0 : Byte).toNat]?).isSome = true ∧ booked.shift.reports.length ≤ (1 : Byte).toNat ∧ 7 < (8 : Byte).toNat
      ∧ booked.takes fromD .reportDrop ∧ cab.shift.reports = [] ∧ cab.livePages.number = num [0, 1] ∧ cab.livePages.number ≠ num [0, 2] := by
  decide +kernel

/-! #### The sign -/

theorem witness_SignTables :
    cab.takes fromD .viewSet ∧ (7 : Byte).toNat ≤ 7 ∧ 7 < (8 : Byte).toNat ∧ cab.takes fromD .imageSet ∧ (silentBytes 80).length = 80
      ∧ 8 ≤ (8 : Byte).toNat ∧ cab.takes fromD .stripesSet ∧ (∀ x ∈ List.replicate 8 (⟨80, 1⟩ : Stripe), x.width ≤ 80)
      ∧ 8 < (List.replicate 9 (⟨0, 1⟩ : Stripe)).length ∧ [⟨80, 1⟩, ⟨81, 1⟩] = [⟨80, 1⟩] ++ (⟨81, 1⟩ : Stripe) :: [] ∧ 80 < 81
      ∧ cab.takes fromD .blockSet ∧ 1 ≤ (silentBytes 16).length ∧ (silentBytes 16).length ≤ 16 ∧ 16 < (silentBytes 17).length
      ∧ cab.takes fromC .signRead := by decide +kernel

theorem witness_SignModeRequests :
    cab.takes fromC .offDutyOverride ∧ cab.takes fromD .emergencyClear ∧ cab.sign.latch = false ∧ alarmed.takes fromD .emergencyClear
      ∧ alarmed.sign.latch = true ∧ alarmed.takes fromD .signStatus ∧ alarmed.takes fromC .signStatus ∧ fromS.port = .s ∧ cab.hears .s
      ∧ cab.link.telemetryRoutes.s.targets = 0 ∧ parkedCab.power.state ≠ .off ∧ parkedCab.isUp .s = true
      ∧ (parkedCab.port .s).shut = false := by decide +kernel

/-! #### Cadence -/

theorem witness_CadenceCounts_timers :
    (cab.cadence.timer .ct0).state = .stopped ∧ (ending.cadence.timer .ct0).state ≠ .stopped ∧ (ending.cadence.timer .ct0).count = 1
      ∧ 1 < { ending.cadence.ct0 with count := 2 }.count ∧ ending.power.state = .run ∧ ending.isUp .s = true := by decide +kernel

/-- A cadence unit with one comparator in use, and one with a pair. -/
def oneComparator (m : ComparatorMode) : CadenceUnit :=
  { ending.cadence with comparators := ending.cadence.comparators.set 4 ⟨.ct0, 2, m, 3, true⟩ }
def pairedComparators : CadenceUnit :=
  { oneComparator .pair with comparators := (oneComparator .pair).comparators.set 0 ⟨.ct0, 2, .toggle, 1, true⟩ }

theorem witness_CadenceCounts_comparators :
    (oneComparator .toggle).comparators[4].value ≠ 0 ∧ (∀ j : Fin 8, j ≠ 4 → (oneComparator .setClear).comparators[j].mode = .off)
      ∧ pairedComparators.comparators[0].mode = .toggle ∧ pairedComparators.comparators[4].mode = .pair
      ∧ pairedComparators.comparators[0].value ≠ 0 ∧ pairedComparators.comparators[4].value ≠ 0
      ∧ (∀ j : Fin 8, j.val ≠ 0 → j.val ≠ 4 → pairedComparators.comparators[j].mode = .off) := by decide +kernel

/-- The refresh count at 98 and at 99, the sign unchanged, and S DOWN. -/
theorem witness_CadenceCounts_refresh :
    ({ cab with sign := { cab.sign with refresh := 99 } }).composed = cab.sign.output ∧ cab.isUp .s = true ∧ State.reset.isUp .s = false
      ∧ State.reset.power.state = .run ∧ (98 : Nat) < 99 ∧ { cab.sign with refresh := 99 }.refresh = 99 := by decide +kernel

theorem witness_CadenceRequests :
    cab.takes fromD .timerSet ∧ cab.takes fromD .comparatorSet ∧ 8 ≤ (8 : Byte).toNat ∧ 16383 < num [0x40, 0] ∧ num [0x3F, 0xFF] ≤ 16383
      ∧ 4 ≤ (4 : Byte).toNat ∧ (3 : Byte).toNat < 4 ∧ (7 : Byte).toNat = (7 : Fin 8).val ∧ (3 : Byte).toNat = (3 : Fin 4).val
      ∧ cab.takes fromC .timerStart ∧ cab.takes fromC .timerStop ∧ cab.takes fromC .timerStopAtEnd ∧ cab.takes fromC .timerStatus
      ∧ cab.takes fromC .lampWrite := by decide

/-! #### The intercom -/

theorem witness_IntercomRequests :
    cab.takes fromC .answer ∧ cab.isUp .p = true ∧ cab.intercom.state = .quiet ∧ (talking .calling).takes fromC .answer
      ∧ (talking .calling).intercom.state = .calling ∧ (talking .opened).intercom.state = .opened
      ∧ (talking .announce).intercom.state = .announce ∧ (cab.setPort .p .reset).isUp .p = false ∧ (cab.setPort .p .reset).takes fromC .answer
      ∧ cab.takes fromC .hangup ∧ cab.takes fromC .gainsSet ∧ cab.takes fromD .chimeSet ∧ 2 ≤ (2 : Byte).toNat ∧ (80 : Byte).toNat ≤ 80
      ∧ (255 : Byte) ≠ 0 ∧ (1 : Byte).toNat < 2 ∧ 80 < (81 : Byte).toNat ∧ cab.takes fromC .chimeRead ∧ cab.takes fromC .intercomStatus
      ∧ cab.takes fromD .intercomStatus := by decide

/-- A cab whose players are on the last blocks of their chimes. -/
def chiming : State :=
  { cab with
    intercom := { cab.intercom with
      driverPlayer := some ⟨.call, ⟨10, 4000, 40, .none⟩, 1560, 39⟩, partitionPlayer := some ⟨.band, ⟨8, 3000, 20, .none⟩, 760, 19⟩ } }

theorem witness_AudioFrames :
    fromP.port = .p ∧ cab.hears .p ∧ (silentBytes 160).length = 160 ∧ fromC.port = .c ∧ cab.hears .c ∧ (silentBytes 80).length = 80
      ∧ chiming.hears .p ∧ chiming.isUp .c = true ∧ chiming.hears .c ∧ chiming.isUp .p = true
      ∧ chiming.intercom.driverPlayer = some ⟨.call, ⟨10, 4000, 40, .none⟩, 1560, 39⟩ ∧ 40 ≤ 39 + 1
      ∧ chiming.intercom.partitionPlayer = some ⟨.band, ⟨8, 3000, 20, .none⟩, 760, 19⟩ ∧ 20 ≤ 19 + 1
      ∧ (1 : Byte).getLsbD 0 = true ∧ (0 : Byte).getLsbD 0 = false ∧ showing.intercom.state = .quiet ∧ showing.intercom.seenLeft = false
      ∧ showing.intercom.chimes.call.duration ≤ 1 ∧ cab.intercom.driverPlayer = none ∧ cab.intercom.partitionPlayer = none
      ∧ (talking .calling).power.state = .run ∧ (talking .calling).intercom.callTimer.isSome = true := by decide +kernel

theorem witness_PinMuting :
    fromP.port = .p ∧ (paymentAt .pin).hears .p ∧ (paymentAt .pin).pinHead = some ⟨0, 350, .pin, none, none, none, none⟩
      ∧ (silentBytes 80).length = 80 ∧ (List.replicate 80 (1 : Byte)).length = 80 ∧ ((paymentAt .pin).party 0).station = .left := by
  decide +kernel

/-- The same with the paying party at RIGHT and at no station. -/
theorem witness_PinMuting_other_stations :
    (((paymentAt .pin).setParty 0 { paying with station := .right }).party 0).station = .right
      ∧ (((paymentAt .pin).setParty 0 { paying with station := .none }).party 0).station = .none := by decide +kernel

/-! #### Parking -/

theorem witness_ParkAndWake_park :
    leaving.powerSound = true ∧ leaving.linkSound = true ∧ leaving.accountsSound = true ∧ leaving.signTrue = true
      ∧ leaving.power.parkTimer.isSome = true := by decide +kernel

theorem witness_ParkAndWake_rest :
    parkedCab.power.state = .parked ∧ parkedCab.power.shutPending = true ∧ (parkedCab.port .s).general = []
      ∧ (parkedCab.port .s).sending = none ∧ parkedCab.isUp .d = true ∧ (parkedCab.port .d).shut = false
      ∧ (20 : Byte).toNat = (wakeCallBytes 0).length ∧ (wakeCallBytes 0).length ≤ 200
      ∧ (∃ pre post, wakeCallBytes 0 = pre ++ wakeCallBytes 0 ++ post) ∧ fromV.port = .v ∧ parkedCab.isUp .v = true
      ∧ (parkedCab.port .v).shut = false ∧ (1 : Byte).getLsbD 0 = true := by
  refine ⟨by decide, by decide, by decide, by decide, by decide, by decide, by decide +kernel, by decide +kernel, ⟨[], [], by simp⟩,
    by decide, by decide, by decide, by decide⟩

/-- A hub that wakes with an entry to send. -/
theorem witness_ParkAndWake_upload :
    let s := { parkedCab with payment := { uploading.payment with upload := .idle, uploadTimer := none } }
    s.power.state = .parked ∧ s.isUp .d = true ∧ (s.port .d).shut = false ∧ s.payment.store ≠ [] ∧ s.payment.upload = .idle := by
  decide +kernel

/-- A frame without a wake call, at a hub whose S is shut, and S with a frame yet to leave. -/
theorem witness_ParkAndWake_not :
    (¬ ∃ pre post, ([1, 2] : List Byte) = pre ++ wakeCallBytes 0 ++ post)
      ∧ ((parkedCab.setPort .s { portUp with sending := some (signFrame .dark) }).port .s).sending ≠ none
      ∧ ({ parkedCab with power := { parkedCab.power with shutPending := false } }).power.shutPending = false := by
  refine ⟨?_, by decide +kernel, rfl⟩
  rintro ⟨pre, post, h⟩
  have hl := congrArg List.length h
  have h20 : (wakeCallBytes 0).length = 20 := by decide +kernel
  rw [List.length_append, List.length_append, h20] at hl
  have h2 : ([1, 2] : List Byte).length = 2 := rfl
  omega

end Sys2Proof.Tests
end

