-- ==== Sys2Proof/Proofs/StepArithmetic.lean ====
section
/-! PROOFS. Step processing (R38 to R42): what the processing of one accumulator comes to, what it comes to for a party under each
method, and the statement `StepArithmetic`. -/

namespace Sys2Proof.Machine

/-! ### One accumulator (R39) -/

/-- Stages 1 and 2 of R39 in the manual's order: a zero allowance ends at once, an allowance reached is taken off. -/
theorem Accumulator.endAllowance_eq (x : Accumulator) (t : Thresholds) :
    x.endAllowance t =
      if x.phase = .allowance ∧ t.allowance = 0 then ⟨.stepping, x.value⟩
      else if x.phase = .allowance ∧ t.allowance ≤ x.value then ⟨.stepping, x.value - t.allowance⟩ else x := by
  unfold endAllowance
  by_cases hp : x.phase = .allowance <;> by_cases ha : t.allowance = 0 <;> simp [hp, ha]

/-- Below the stepping threshold no step is counted, so the count may ask for the threshold first (R39). -/
theorem Accumulator.steps_eq (x : Accumulator) (t : Thresholds) :
    x.steps t = if x.phase = .stepping ∧ t.step ≠ 0 ∧ t.step ≤ x.value then x.value / t.step else 0 := by
  unfold steps
  by_cases hv : t.step ≤ x.value
  · simp [hv]
  · simp [hv, Nat.div_eq_of_lt (Nat.lt_of_not_le hv)]

theorem Thresholds.current_eq (t : Thresholds) (p : Phase) : t.current p = if p = .allowance then t.allowance else t.step := by
  cases p <;> rfl

@[simp] theorem Accumulator.takeSteps_phase (x : Accumulator) (t : Thresholds) : (x.takeSteps t).phase = x.phase := rfl

theorem Accumulator.endAllowance_of_stepping (x : Accumulator) (t : Thresholds) (h : x.phase = .stepping) : x.endAllowance t = x := by
  simp [endAllowance, h]

/-- An allowance still running after stages 1 and 2 is not reached. -/
theorem Accumulator.endAllowance_below (x : Accumulator) (t : Thresholds) (h : (x.endAllowance t).phase = .allowance) :
    (x.endAllowance t).value < t.allowance := by
  unfold endAllowance at h ⊢
  split at h
  · cases h
  · rename_i hn
    rw [if_neg hn]
    exact Nat.lt_of_not_le fun hle => hn ⟨h, hle⟩

/-- Steps leave the remainder of a stepping threshold (R39). -/
theorem Accumulator.takeSteps_of_stepping (x : Accumulator) (t : Thresholds) (h : x.phase = .stepping) (ht : 0 < t.step) :
    (x.takeSteps t).value = x.value % t.step := by
  have hne : t.step ≠ 0 := Nat.ne_of_gt ht
  simp only [takeSteps, steps, h, Thresholds.current, hne, ne_eq, not_false_eq_true, and_self, if_true, if_false]
  have := Nat.div_add_mod' x.value t.step
  omega

/-- An accumulator `y` that step processing may leave of `x`: below its current threshold or at 0, and in STEPPING if `x` was (R39, R40). -/
def Accumulator.SettledFrom (x : Accumulator) (t : Thresholds) (y : Accumulator) : Prop :=
  (y.value < t.current y.phase ∨ y.value = 0) ∧ (x.phase = .stepping → y.phase = .stepping)

/-- The value that clearing under DOUBLE leaves (R40). -/
theorem Accumulator.settledFrom_cleared (x : Accumulator) (t : Thresholds) : x.SettledFrom t ⟨.stepping, 0⟩ :=
  ⟨.inr rfl, fun _ => rfl⟩

theorem Accumulator.settledFrom_process (x : Accumulator) (t : Thresholds) : x.SettledFrom t (x.process t).1 := by
  refine ⟨?_, fun h => by simp [process, endAllowance_of_stepping x t h, h]⟩
  show ((x.endAllowance t).takeSteps t).value < t.current (x.endAllowance t).phase ∨ ((x.endAllowance t).takeSteps t).value = 0
  cases hp : (x.endAllowance t).phase with
  | allowance =>
    have hv := endAllowance_below x t hp
    left
    have hs : (x.endAllowance t).steps t = 0 := by simp [steps, hp]
    simp only [takeSteps, hs, hp, Thresholds.current]
    split <;> omega
  | stepping =>
    rcases Nat.eq_zero_or_pos t.step with h0 | hpos
    · right
      simp [takeSteps, hp, Thresholds.current, h0]
    · left
      rw [takeSteps_of_stepping _ t hp hpos]
      exact Nat.mod_lt _ hpos

/-- A cleared accumulator charges nothing and ends nothing. -/
theorem Accumulator.process_cleared (t : Thresholds) : (⟨.stepping, 0⟩ : Accumulator).process t = (⟨.stepping, 0⟩, 0, false) := by
  simp [process, endAllowance, steps, takeSteps]

/-- An accumulator that neither ended its allowance nor charged has no steps to charge. -/
theorem Accumulator.process_steps_of_quiet (x : Accumulator) (t : Thresholds) (h : (x.process t).2.2 = false) : (x.process t).2.1 = 0 := by
  simp only [process, Bool.or_eq_false_iff, bne_eq_false_iff_eq] at h
  exact h.2

/-! ### Charging (R42) -/

/-- Two charges one after the other come to one charge of their sum. -/
theorem Party.charge_charge (p : Party) (a b : Nat) : (p.charge a).charge b = p.charge (a + b) := by
  have hf : min Config.fareCap (min Config.fareCap (p.fare + a) + b) = min Config.fareCap (p.fare + (a + b)) := by omega
  have hc : (decide (Config.fareCap < p.fare + a) || decide (Config.fareCap < min Config.fareCap (p.fare + a) + b)) =
      decide (Config.fareCap < p.fare + (a + b)) := by
    rw [← Bool.decide_or, decide_eq_decide]
    omega
  show ({ p with
    fare := min Config.fareCap (min Config.fareCap (p.fare + a) + b)
    capped := (p.capped || decide (Config.fareCap < p.fare + a))
      || decide (Config.fareCap < min Config.fareCap (p.fare + a) + b) } : Party) = p.charge (a + b)
  rw [hf, Bool.or_assoc, hc]
  rfl

/-! ### A party (R39 to R42) -/

/-- A party with its two accumulators replaced. -/
def Party.withAccumulators (p : Party) (distance time : Accumulator) : Party :=
  { p with phaseD := distance.phase, accD := distance.value, phaseT := time.phase, accT := time.value }

/-- A party's distance accumulator. -/
def Party.distance (p : Party) : Accumulator := ⟨p.phaseD, p.accD⟩

/-- A party's time accumulator. -/
def Party.time (p : Party) : Accumulator := ⟨p.phaseT, p.accT⟩

/-- Step processing with the two charges added up. -/
theorem Party.step_eq (p : Party) (t : Tariff) (k : Nat) :
    let d := p.distance.process (t.distance k)
    let m := (if t.method = .double ∧ d.2.2 then ⟨.stepping, 0⟩ else p.time : Accumulator).process t.time
    p.step t k =
      (p.withAccumulators (if t.method = .double ∧ m.2.2 then ⟨.stepping, 0⟩ else d.1) m.1).charge
        ((d.2.1 + m.2.1) * t.stepAmount) := by
  intro d m
  rw [Nat.add_mul, ← Party.charge_charge]
  rfl

/-- Under SINGLE each accumulator is processed by itself (R41). -/
theorem Party.step_single (p : Party) (t : Tariff) (k : Nat) (h : t.method = .single) :
    p.step t k =
      (p.withAccumulators (p.distance.process (t.distance k)).1 (p.time.process t.time).1).charge
        (((p.distance.process (t.distance k)).2.1 + (p.time.process t.time).2.1) * t.stepAmount) := by
  simp [Party.step_eq, h]

/-- Under SINGLE a distance accumulator in STEPPING keeps the remainder of its threshold (R39, R41). -/
theorem Party.step_single_remainder (p : Party) (t : Tariff) (k : Nat) (h : t.method = .single) (hp : p.phaseD = .stepping)
    (hpos : 0 < (t.distance k).step) : (p.step t k).accD = p.accD % (t.distance k).step := by
  have hd : p.distance.endAllowance (t.distance k) = p.distance := Accumulator.endAllowance_of_stepping _ _ hp
  calc (p.step t k).accD
    _ = (p.distance.takeSteps (t.distance k)).value := by rw [step_single p t k h, Accumulator.process, hd]; rfl
    _ = p.accD % (t.distance k).step := Accumulator.takeSteps_of_stepping _ _ hp hpos

/-- Under DOUBLE a distance accumulator that ends its allowance or charges clears the time accumulator (R40). -/
theorem Party.step_double_distance (p : Party) (t : Tariff) (k : Nat) (h : t.method = .double)
    (hd : (p.distance.process (t.distance k)).2.2 = true) :
    p.step t k =
      (p.withAccumulators (p.distance.process (t.distance k)).1 ⟨.stepping, 0⟩).charge
        ((p.distance.process (t.distance k)).2.1 * t.stepAmount) := by
  simp [Party.step_eq, h, hd, Accumulator.process_cleared]

/-- Under DOUBLE a time accumulator that ends its allowance or charges, the distance accumulator doing neither, clears that (R40). -/
theorem Party.step_double_time (p : Party) (t : Tariff) (k : Nat) (h : t.method = .double)
    (hd : (p.distance.process (t.distance k)).2.2 = false) (hm : (p.time.process t.time).2.2 = true) :
    p.step t k = (p.withAccumulators ⟨.stepping, 0⟩ (p.time.process t.time).1).charge ((p.time.process t.time).2.1 * t.stepAmount) := by
  simp [Party.step_eq, h, hd, hm, Accumulator.process_steps_of_quiet _ _ hd]

/-- Under DOUBLE with neither doing so nothing is charged (R40). -/
theorem Party.step_double_quiet (p : Party) (t : Tariff) (k : Nat) (h : t.method = .double)
    (hd : (p.distance.process (t.distance k)).2.2 = false) (hm : (p.time.process t.time).2.2 = false) :
    p.step t k =
      (p.withAccumulators (p.distance.process (t.distance k)).1 (p.time.process t.time).1).charge (0 * t.stepAmount) := by
  simp [Party.step_eq, h, hd, hm, Accumulator.process_steps_of_quiet _ _ hd, Accumulator.process_steps_of_quiet _ _ hm]

/-- All that step processing can do to a party: both accumulators are left as step processing may leave them, and some steps are
charged. -/
theorem Party.step_cases (p : Party) (t : Tariff) (k : Nat) :
    ∃ (distance time : Accumulator) (steps : Nat), p.step t k = (p.withAccumulators distance time).charge (steps * t.stepAmount)
      ∧ p.distance.SettledFrom (t.distance k) distance ∧ p.time.SettledFrom t.time time := by
  have hd := Accumulator.settledFrom_process p.distance (t.distance k)
  have hm := Accumulator.settledFrom_process p.time t.time
  cases h : t.method with
  | single => exact ⟨_, _, _, step_single p t k h, hd, hm⟩
  | double =>
    cases hdq : (p.distance.process (t.distance k)).2.2 with
    | true => exact ⟨_, _, _, step_double_distance p t k h hdq, hd, Accumulator.settledFrom_cleared _ _⟩
    | false =>
      cases hmq : (p.time.process t.time).2.2 with
      | true => exact ⟨_, _, _, step_double_time p t k h hdq hmq, Accumulator.settledFrom_cleared _ _, hm⟩
      | false => exact ⟨_, _, _, step_double_quiet p t k h hdq hmq, hd, hm⟩

/-- Step processing of one accumulator in closed form (R39). -/
theorem Accumulator.process_eq (x : Accumulator) (t : Thresholds) :
    let begun : Accumulator :=
      if x.phase = .allowance ∧ t.allowance = 0 then ⟨.stepping, x.value⟩
      else if x.phase = .allowance ∧ t.allowance ≤ x.value then ⟨.stepping, x.value - t.allowance⟩ else x
    let steps := if begun.phase = .stepping ∧ t.step ≠ 0 ∧ t.step ≤ begun.value then begun.value / t.step else 0
    let threshold := if begun.phase = .allowance then t.allowance else t.step
    x.process t =
      (⟨begun.phase, if threshold = 0 then 0 else begun.value - steps * t.step⟩, steps, decide (begun.phase ≠ x.phase ∨ 1 ≤ steps)) := by
  have hflag : ∀ (a b : Phase) (n : Nat), (a != b || n != 0) = decide (a ≠ b ∨ 1 ≤ n) := by
    intro a b n
    rw [Bool.eq_iff_iff]
    simp only [Bool.or_eq_true, bne_iff_ne, decide_eq_true_eq, Nat.one_le_iff_ne_zero]
  intro begun steps threshold
  have hb : x.endAllowance t = begun := endAllowance_eq x t
  have hs : begun.steps t = steps := steps_eq begun t
  have ht : t.current begun.phase = threshold := Thresholds.current_eq t _
  simp only [process, takeSteps, hb, hs, ht, hflag]

/-- Settles O38, by the closed form of one accumulator and by what each method's step processing comes to. -/
theorem stepArithmetic : Obligations.StepArithmetic := by
  unfold Obligations.StepArithmetic
  refine ⟨Accumulator.process_eq, fun p t k => ?_⟩
  intro q d m charged distance time
  obtain ⟨x, y, n, hq, ⟨hx, hxs⟩, hy, hys⟩ := Party.step_cases p t k
  replace hq : q = _ := hq
  have hfare : p.fare ≤ 9999999 → p.fare ≤ q.fare ∧ q.fare ≤ 9999999 := by
    intro h
    have : q.fare = min 9999999 (p.fare + n * t.stepAmount) := by rw [hq]; rfl
    omega
  have hframe : q =
      { p with phaseD := q.phaseD, accD := q.accD, phaseT := q.phaseT, accT := q.accT, fare := q.fare, capped := q.capped } := by
    rw [hq]; rfl
  refine ⟨by rw [hq]; exact hx, by rw [hq]; exact hy, fun h => by rw [hq]; exact hxs h, fun h => by rw [hq]; exact hys h, hfare, ?single,
    ?byDistance, ?byTime, ?quiet, hframe, ?remainder⟩
  case single =>
    intro h
    simp only [distance, time, charged, q, Party.step_single p t k h]
    exact ⟨⟨rfl, rfl⟩, ⟨rfl, rfl⟩, rfl, rfl⟩
  case byDistance =>
    intro h hd
    simp only [distance, charged, q, Party.step_double_distance p t k h hd]
    exact ⟨⟨rfl, rfl⟩, rfl, rfl, rfl, rfl⟩
  case byTime =>
    intro h hd hm
    simp only [time, charged, q, Party.step_double_time p t k h hd hm]
    exact ⟨⟨rfl, rfl⟩, rfl, rfl, rfl, rfl⟩
  case quiet =>
    intro h hd hm
    simp only [distance, time, charged, q, Party.step_double_quiet p t k h hd hm]
    exact ⟨⟨rfl, rfl⟩, ⟨rfl, rfl⟩, rfl, rfl⟩
  case remainder =>
    intro hp _ hpos
    cases h : t.method with
    | single => exact .inl (Party.step_single_remainder p t k h hp hpos)
    | double => exact .inr rfl

end Sys2Proof.Machine
end

