-- ==== Sys2Proof/Proofs/TotalEndsMetering.lean ====
section
/-! PROOFS. Requests that name a slot, what the hand-offs of a slot's change of state leave as it was, and the statement
`TotalEndsMetering`. -/

namespace Sys2Proof.Machine

/-! ### Naming a slot (R21) -/

/-- An index of a table is read back from its byte. -/
theorem index_byte {n : Nat} (hn : n ≤ 256) (i : Fin n) : index n (byte i.val) = some i := by
  have hv : (byte i.val).toNat = i.val := by
    rw [BitVec.toNat_ofNat]
    exact Nat.mod_eq_of_lt (by omega)
  simp [index, hv]

/-- A request that names a slot whose state takes it is carried out there. -/
theorem onSlot_of_takes (i : Fin 4) (takes : PartyState → Bool) (act : Fin 4 → State → State × Result) (s : State)
    (h : takes (s.party i).state = true) : onSlot (byte i.val) takes act s = act i s := by
  simp [onSlot, index_byte, h]

/-! ### The hand-offs of R21 -/

/-- A delivery to the power unit does not change its state. -/
theorem PowerUnit.takeAllIdle_state (x : PowerUnit) (all : Bool) : (x.takeAllIdle all).state = x.state := by
  unfold takeAllIdle judge
  split_ifs <;> rfl

@[simp] theorem handOff_power_state (i : Fin 4) (trip : Nat) (s : State) : (handOff i trip s).power.state = s.power.state := by
  unfold handOff
  dsimp only
  split
  · simp
  · simp [PowerUnit.takeAllIdle_state]

@[simp] theorem moveParty_power_state (i : Fin 4) (p : Party) (s : State) : (moveParty i p s).power.state = s.power.state := by
  simp [moveParty]

@[simp] theorem moveParty_fare (i : Fin 4) (p : Party) (s : State) : (moveParty i p s).fare = s.fare.withParty i p := by
  simp [moveParty, State.setParty, FareEngine.withParty]

@[simp] theorem FareEngine.withParty_getElem (x : FareEngine) (i : Fin 4) (p : Party) : (x.withParty i p).parties[i] = p := by
  simp [withParty]

/-- Putting a party in a state, and showing it, reaches the request unit, the fare engine, the sign and the power unit alone. -/
theorem changesOnly_showChanges_moveParty (before s : State) (i : Fin 4) (p : Party) :
    s.changesOnly (showChanges before (moveParty i p s)) [.request, .fare, .sign, .power] := by
  simp [State.changesOnly]

/-! ### TOTAL (R24) -/

/-- SETTLED with a due of 0, HOLD with one above it (R24). -/
theorem Party.standing_eq (p : Party) : p.standing = if 0 < p.due then .hold else .settled := by
  unfold standing
  split_ifs with h0 hpos hpos
  · omega
  · rfl
  · rfl
  · omega

theorem Party.standing_ne_metering (p : Party) : p.standing ≠ .metering := by
  unfold standing
  split <;> simp

/-- What meters passes over a party that is not METERING. -/
theorem meterParty_of_not_metering (q : Quantity) (grow : Party → Party) (s : State) (i : Fin 4) (h : (s.party i).state ≠ .metering) :
    meterParty q grow s i = s := by
  simp [meterParty, h]

/-- The party that TOTAL leaves (R24). -/
def Party.totalled (p : Party) : Party :=
  { p with state := p.standing }

/-- TOTAL at a METERING party. -/
theorem actTotal_of_metering (i : Fin 4) (s : State) (h : (s.party i).state = .metering) :
    actTotal (byte i.val) s =
      (showChanges s (moveParty i (s.party i).totalled s),
        .ok (enc PartyState.all (s.party i).standing :: be 4 (s.party i).fare ++ be 4 (s.party i).extras ++ be 4 (s.party i).due)) := by
  rw [actTotal, onSlot_of_takes _ _ _ _ (by simp [h])]
  rfl

/-- Settles O34, by the one path of TOTAL and by what it leaves of the party. -/
theorem totalEndsMetering : Obligations.TotalEndsMetering := by
  unfold Obligations.TotalEndsMetering
  intro a s i htakes hmet p st
  have hst : p.standing = st := Party.standing_eq p
  have hact := actTotal_of_metering i (s.heard a) hmet
  have hrun : (actTotal (byte i.val) (s.heard a)).1.power.state = .run := by
    rw [hact]
    simpa using htakes.1.1
  have hexec := request_read .total a [byte i.val] (actTotal (byte i.val)) s htakes.1 (by simp) htakes.2 rfl hrun
  have hfare : (showChanges (s.heard a) (moveParty i p.totalled (s.heard a))).fare = s.fare.withParty i { p with state := st } := by
    simp [Party.totalled, hst]
  refine ⟨showChanges (s.heard a) (moveParty i p.totalled (s.heard a)), ?_, hfare,
    changesOnly_showChanges_moveParty _ _ _ _, fun q grow => meterParty_of_not_metering _ _ _ _ ?_⟩
  · rw [hact] at hexec
    rw [← hst]
    exact hexec
  · rw [State.party, hfare, FareEngine.withParty_getElem, ← hst]
    exact p.standing_ne_metering

end Sys2Proof.Machine
end

