-- ==== Sys2Proof/Proofs/MilestonePass.lean ====
section
/-! PROOFS. The displays at the end of an event, the firing of a milestone entry in closed form, a pass as a fold over states, and the
statement `PassLeavesNothingDue`. -/

namespace Sys2Proof.Machine

/-! ### State updates -/

@[simp] theorem State.setParty_self (s : State) (i : Fin 4) : s.setParty i (s.party i) = s := by
  simp [State.setParty, State.party]

/-- A cell of the armed matrix other than the one replaced is kept. -/
theorem State.armed_setArmed_other (s : State) (e e' : Fin 12) (i j : Fin 4) (a : Armed) (h : e' ≠ e ∨ j ≠ i) :
    (s.setArmed e i a).armed e' j = s.armed e' j := by
  by_cases he : e' = e
  · subst he
    have hj : j ≠ i := h.resolve_left fun hn => hn rfl
    simp only [State.armed, State.setArmed, Fin.getElem_fin, Vector.getElem_set_self]
    exact Vector.getElem_set_ne _ _ fun hv => hj (Fin.ext hv.symm)
  · exact congrArg (fun row : Vector Armed 4 => row[j]) (Vector.getElem_set_ne e.isLt e'.isLt fun hv => he (Fin.ext hv.symm))

theorem emit_port_same (q : Port) (f : Frame) (s : State) : (emit q f s).port q = (s.port q).placed f := by
  simp [emit, PortState.placed]

theorem emit_port_other (q r : Port) (f : Frame) (s : State) (h : r ≠ q) : (emit q f s).port r = s.port r := by
  simp [emit, State.port_setPort_other _ _ _ _ h]

theorem notifyC_port_c (n : Notice) (fields : List Byte) (s : State) :
    (notifyC n fields s).port .c = (s.port .c).placed (noticeFrame s.request.seqC n fields) :=
  emit_port_same _ _ _

theorem notifyC_port_other (n : Notice) (fields : List Byte) (s : State) (r : Port) (h : r ≠ .c) :
    (notifyC n fields s).port r = s.port r :=
  emit_port_other _ _ _ _ h

/-- A notice takes one number toward C (R181). -/
theorem notifyC_request (n : Notice) (fields : List Byte) (s : State) :
    (notifyC n fields s).request = { s.request with seqC := nextSeq s.request.seqC } := rfl

/-! ### Displays (R47, R48) -/

/-- The passenger's records are the fare engine's. -/
theorem passengerRecords_congr (s t : State) (h : s.fare = t.fare) : passengerRecords s = passengerRecords t := by
  simp only [passengerRecords, passengerRecord, State.slotAt, State.party, h]

/-- What C is shown at the end of an event is told by the fare engine before and after it. -/
theorem PortState.shownConsole_congr (x : PortState) (s s' t t' : State) (hs : s.fare = s'.fare) (ht : t.fare = t'.fare) :
    x.shownConsole s t = x.shownConsole s' t' := by
  have hparty : s.party = s'.party ∧ t.party = t'.party := by
    constructor <;> funext i <;> simp only [State.party, hs, ht]
  obtain ⟨hsp, htp⟩ := hparty
  rw [shownConsole, shownConsole, consoleRecords, consoleRecords, hsp, htp]

/-- What P is shown at the end of an event is told by the fare engine before and after it. -/
theorem PortState.shownPassenger_congr (x : PortState) (s s' t t' : State) (hs : s.fare = s'.fare) (ht : t.fare = t'.fare) :
    x.shownPassenger s t = x.shownPassenger s' t' := by
  simp only [shownPassenger, passengerRecords_congr _ _ hs, passengerRecords_congr _ _ ht]

/-- An event that changed no display shows nothing. -/
@[simp] theorem showChanges_self (s : State) : showChanges s s = s := by
  simp [showChanges, displaysDiffer, showViews]

theorem showConsole_port_c (s : State) :
    (showConsole s).port .c = if s.isUp .c then (s.port .c).placed (plainFrame .fareView (4 :: consoleRecords s)) else s.port .c := by
  unfold showConsole
  split
  · exact emit_port_same _ _ _
  · rfl

theorem showConsole_port_other (s : State) (r : Port) (h : r ≠ .c) : (showConsole s).port r = s.port r := by
  unfold showConsole
  split
  · exact emit_port_other _ _ _ _ h
  · rfl

theorem showPassenger_port_p (s : State) :
    (showPassenger s).port .p =
      if s.isUp .p then (s.port .p).placed (plainFrame .fareView (2 :: passengerRecords s)) else s.port .p := by
  unfold showPassenger
  split
  · exact emit_port_same _ _ _
  · rfl

theorem showPassenger_port_other (s : State) (r : Port) (h : r ≠ .p) : (showPassenger s).port r = s.port r := by
  unfold showPassenger
  split
  · exact emit_port_other _ _ _ _ h
  · rfl

/-- Port C at the end of an event of the fare engine. -/
theorem showChanges_port_c (before s : State) : (showChanges before s).port .c = (s.port .c).shownConsole before s := by
  have hview : ∀ b : Bool, (showViews (displaysDiffer before s) b s).port .c =
      (if displaysDiffer before s then showConsole s else s).port .c := by
    intro b
    cases b
    · rfl
    · exact showPassenger_port_other _ _ (by decide)
  rw [showChanges, hview, PortState.shownConsole]
  change _ = if (s.isUp .c && displaysDiffer before s) = true then _ else _
  by_cases hd : displaysDiffer before s = true
  · simp [hd, showConsole_port_c]
  · simp [hd]

/-- Port P at the end of an event of the fare engine. -/
theorem showChanges_port_p (before s : State) : (showChanges before s).port .p = (s.port .p).shownPassenger before s := by
  have hport : ∀ c : Bool, (if c then showConsole s else s).port .p = s.port .p := by
    intro c
    cases c
    · rfl
    · exact showConsole_port_other _ _ (by decide)
  have hrec : ∀ c : Bool, passengerRecords (if c then showConsole s else s) = passengerRecords s := by
    intro c
    cases c
    · rfl
    · exact passengerRecords_congr _ _ (showConsole_fare s)
  simp only [showChanges, showViews, PortState.shownPassenger]
  by_cases hd : (passengerRecords before != passengerRecords s) = true
  · simp only [hd, if_true, showPassenger_port_p, State.isUp, hport, hrec, Bool.and_true]
  · simp only [hd, if_false, hport, Bool.and_false, Bool.false_eq_true]

/-! ### An action in closed form (R57 to R59) -/

/-- What an action leaves of the party it is for, and its outcome. -/
def State.afterAction (s : State) (m : Milestone) (p : Party) : Party × FiringOutcome :=
  match m.action with
  | .notify => (p, .notified)
  | .switchTariff => if s.tariffAt m.argument = none then (p, .skipped) else (s.retariffed p m.argument .fixed, .switched)
  | .addExtra =>
    match index 8 (byte m.argument), s.extraAt m.argument with
    | some x, some y => if p.atLimit x y then (p, .limit) else (p.withExtra x y.amount, .added)
    | _, _ => (p, .limit)

/-- An action touches its party alone, and shows the change (R44, R47, R48). -/
theorem fireAction_eq (i : Fin 4) (m : Milestone) (s : State) :
    fireAction i m s = (showChanges s (s.setParty i (s.afterAction m (s.party i)).1), (s.afterAction m (s.party i)).2) := by
  unfold fireAction State.afterAction
  cases m.action with
  | notify => simp
  | switchTariff =>
    cases h : s.tariffAt m.argument <;> simp [switchTariff, h]
  | addExtra =>
    simp only [milestoneExtra]
    cases index 8 (byte m.argument) <;> cases s.extraAt m.argument <;> simp
    split <;> simp

theorem State.stepped_pulses (s : State) (p : Party) : (s.stepped p).pulses = p.pulses := by
  unfold stepped
  split <;> rfl

theorem State.stepped_ticks (s : State) (p : Party) : (s.stepped p).ticks = p.ticks := by
  unfold stepped
  split <;> rfl

theorem State.retariffed_pulses (s : State) (p : Party) (t : Nat) (l : Lock) : (s.retariffed p t l).pulses = p.pulses := by
  unfold retariffed
  dsimp only
  split
  · rw [stepped_pulses]
  · rfl

theorem State.retariffed_ticks (s : State) (p : Party) (t : Nat) (l : Lock) : (s.retariffed p t l).ticks = p.ticks := by
  unfold retariffed
  dsimp only
  split
  · rw [stepped_ticks]
  · rfl

/-- All that an action can do to its party: nothing, the tariff change of a SWITCH_TARIFF, or an extra. -/
theorem State.afterAction_cases (s : State) (m : Milestone) (p : Party) :
    (s.afterAction m p).1 = p
    ∨ (m.action = .switchTariff ∧ (s.afterAction m p).1 = s.retariffed p m.argument .fixed)
    ∨ ∃ (x : Fin 8) (amount : Nat), (s.afterAction m p).1 = p.withExtra x amount := by
  unfold afterAction
  cases m.action with
  | notify => exact .inl rfl
  | switchTariff =>
    dsimp only
    split
    · exact .inl rfl
    · exact .inr (.inl ⟨rfl, rfl⟩)
  | addExtra =>
    dsimp only
    split
    · split
      · exact .inl rfl
      · exact .inr (.inr ⟨_, _, rfl⟩)
    · exact .inl rfl

/-- No action drives a party: its distance and its time stay. -/
theorem State.quantityOf_afterAction (s : State) (q : Quantity) (m : Milestone) (p : Party) (hq : q ≠ .fare) :
    s.quantityOf q (s.afterAction m p).1 = s.quantityOf q p := by
  have hkeeps : (s.afterAction m p).1.pulses = p.pulses ∧ (s.afterAction m p).1.ticks = p.ticks := by
    rcases s.afterAction_cases m p with h | ⟨-, h⟩ | ⟨x, n, h⟩
    · simp [h]
    · simp [h, retariffed_pulses, retariffed_ticks]
    · simp [h, Party.withExtra]
  obtain ⟨hpulses, hticks⟩ := hkeeps
  cases q with
  | distance => simp [quantityOf, tripMetres, hpulses]
  | time => simp [quantityOf, hticks]
  | fare => exact absurd rfl hq

/-- An action other than SWITCH_TARIFF leaves the fare and the tariff. -/
theorem State.afterAction_keeps (s : State) (m : Milestone) (p : Party) (h : m.action ≠ .switchTariff) :
    (s.afterAction m p).1.fare = p.fare ∧ (s.afterAction m p).1.tariff = p.tariff := by
  rcases s.afterAction_cases m p with he | ⟨hm, -⟩ | ⟨x, n, he⟩
  · simp [he]
  · exact absurd hm h
  · simp [he, Party.withExtra]

/-! ### The outcomes of each action (R57 to R59) -/

section
variable (s : State) (m : Milestone) (p : Party)

theorem State.afterAction_notify (h : m.action = .notify) : s.afterAction m p = (p, .notified) := by
  simp [afterAction, h]

theorem State.afterAction_switch_absent (h : m.action = .switchTariff) (ht : s.tariffAt m.argument = none) :
    s.afterAction m p = (p, .skipped) := by
  simp [afterAction, h, ht]

theorem State.afterAction_switch_present (h : m.action = .switchTariff) (ht : s.tariffAt m.argument ≠ none) :
    s.afterAction m p = (s.retariffed p m.argument .fixed, .switched) := by
  simp [afterAction, h, ht]

theorem State.afterAction_extra_absent (h : m.action = .addExtra) (x : Fin 8) (hx : m.argument = x.val) (hy : s.extraAt x.val = none) :
    s.afterAction m p = (p, .limit) := by
  simp [afterAction, h, hx, hy]

/-- An extra of the set in force is added unless the party has used it as often as its limit allows (R29, R59). -/
theorem State.afterAction_extra_present (h : m.action = .addExtra) (x : Fin 8) (hx : m.argument = x.val) (y : Extra)
    (hy : s.extraAt x.val = some y) :
    s.afterAction m p = if p.atLimit x y then (p, .limit) else (p.withExtra x y.amount, .added) := by
  have hi : index 8 (byte x.val) = some x := index_byte (by decide) x
  simp [afterAction, h, hx, hy, hi]

theorem Party.atLimit_iff (x : Fin 8) (y : Extra) : p.atLimit x y = true ↔ y.limit ≠ 0 ∧ y.limit ≤ p.uses[x] := by
  simp [atLimit]

end

/-! ### A firing (R55) -/

/-- The state after a firing of entry `e` for slot `i` at a value of its quantity: the mark, the action, the MILESTONE notice. -/
def firingTold (i : Fin 4) (e : Fin 12) (value : Nat) (s : State) : State :=
  let m := s.milestone.table[e]
  let r := fireAction i m (s.setArmed e i ((s.armed e i).afterFiring m value))
  notifyC .milestone [byte i.val, byte e.val, enc FiringOutcome.all r.2] r.1

section
variable (i : Fin 4) (e : Fin 12) (value : Nat) (s : State)

/-- The mark of a firing is no part of what an action reads. -/
theorem firingTold_eq :
    firingTold i e value s =
      let r := s.afterAction s.milestone.table[e] (s.party i)
      let marked := s.setArmed e i ((s.armed e i).afterFiring s.milestone.table[e] value)
      notifyC .milestone [byte i.val, byte e.val, enc FiringOutcome.all r.2] (showChanges marked (marked.setParty i r.1)) := by
  unfold firingTold
  simp only [fireAction_eq]
  rfl

@[simp] theorem firingTold_fare :
    (firingTold i e value s).fare = s.fare.withParty i (s.afterAction s.milestone.table[e] (s.party i)).1 := by
  rw [firingTold_eq, notifyC_fare, showChanges_fare]
  rfl

@[simp] theorem firingTold_party : (firingTold i e value s).party i = (s.afterAction s.milestone.table[e] (s.party i)).1 := by
  simp [State.party, FareEngine.withParty]

@[simp] theorem firingTold_tariff : (firingTold i e value s).tariff = s.tariff := by
  simp [firingTold]

theorem firingTold_milestone :
    (firingTold i e value s).milestone = (s.setArmed e i ((s.armed e i).afterFiring s.milestone.table[e] value)).milestone := by
  simp [firingTold]

@[simp] theorem firingTold_table : (firingTold i e value s).milestone.table = s.milestone.table := by
  rw [firingTold_milestone]
  rfl

theorem firingTold_armed_same : (firingTold i e value s).armed e i = (s.armed e i).afterFiring s.milestone.table[e] value := by
  rw [State.armed, firingTold_milestone]
  exact State.armed_setArmed_same _ _ _ _

theorem firingTold_armed_other (e' : Fin 12) (j : Fin 4) (h : e' ≠ e ∨ j ≠ i) : (firingTold i e value s).armed e' j = s.armed e' j := by
  rw [State.armed, firingTold_milestone]
  exact State.armed_setArmed_other _ _ _ _ _ _ h

theorem firingTold_request : (firingTold i e value s).request = { s.request with seqC := nextSeq s.request.seqC } := by
  rw [firingTold_eq, notifyC_request, showChanges_request]
  rfl

/-- The MILESTONE notice stands behind the displays of the action. -/
theorem firingTold_port_c :
    (firingTold i e value s).port .c =
      ((s.port .c).shownConsole s (firingTold i e value s)).placed
        (noticeFrame s.request.seqC .milestone
          [byte i.val, byte e.val, enc FiringOutcome.all (s.afterAction s.milestone.table[e] (s.party i)).2]) := by
  refine (congrArg (fun t : State => t.port .c) (firingTold_eq i e value s)).trans ?_
  dsimp only
  rw [notifyC_port_c, showChanges_port_c, showChanges_request]
  exact congrArg (fun x => PortState.placed x _) (PortState.shownConsole_congr _ _ _ _ _ rfl (firingTold_fare i e value s).symm)

theorem firingTold_port_p :
    (firingTold i e value s).port .p = (s.port .p).shownPassenger s (firingTold i e value s) := by
  refine (congrArg (fun t : State => t.port .p) (firingTold_eq i e value s)).trans ?_
  dsimp only
  rw [notifyC_port_other _ _ _ _ (by decide), showChanges_port_p]
  exact PortState.shownPassenger_congr _ _ _ _ _ rfl (firingTold_fare i e value s).symm

theorem firingTold_changesOnly : s.changesOnly (firingTold i e value s) [.request, .fare, .milestone] := by
  simp [State.changesOnly, firingTold]

end

/-! ### A pass as a fold over states (R55, R56) -/

/-- Entry `e` is due for slot `i`: it takes part and its level is reached, by the party's fare, distance, time and tariff as they stand. -/
def State.dueFor (s : State) (i : Fin 4) (q : Quantity) (e : Fin 12) : Bool :=
  takesPart s.milestone.table[e] (s.armed e i) q (s.party i).tariff
    && decide ((s.armed e i).level * s.milestone.table[e].threshold ≤ s.quantityOf q (s.party i))

theorem State.dueFor_eq_false_iff (s : State) (i : Fin 4) (q : Quantity) (e : Fin 12) :
    s.dueFor i q e = false ↔
      (takesPart s.milestone.table[e] (s.armed e i) q (s.party i).tariff = true →
        s.quantityOf q (s.party i) < (s.armed e i).level * s.milestone.table[e].threshold) := by
  cases h : takesPart s.milestone.table[e] (s.armed e i) q (s.party i).tariff <;> simp [dueFor, h, -Fin.getElem_fin]

/-- What is due is told by the party, its tariff store, the entry and its cell. -/
theorem State.dueFor_congr (s t : State) (i : Fin 4) (q : Quantity) (e : Fin 12) (htable : t.milestone.table = s.milestone.table)
    (harmed : t.armed e i = s.armed e i) (hq : t.quantityOf q (t.party i) = s.quantityOf q (s.party i))
    (ht : (t.party i).tariff = (s.party i).tariff) : t.dueFor i q e = s.dueFor i q e := by
  simp only [dueFor, htable, harmed, hq, ht]

/-- One entry of a pass, as a step of the state alone. -/
def passStep (i : Fin 4) (q : Quantity) (s : State) (e : Fin 12) : State :=
  if s.dueFor i q e then firingTold i e (s.quantityOf q (s.party i)) s else s

/-- A pass whose working value and tariff are those of the state's party. -/
def passAt (i : Fin 4) (q : Quantity) (s : State) : PassState :=
  ⟨s, s.quantityOf q (s.party i), (s.party i).tariff⟩

theorem passAt_state (i : Fin 4) (q : Quantity) (s : State) : (passAt i q s).state = s := rfl

/-- The quantity is the party's and the calibration's. -/
theorem State.quantityOf_of_tariff (s t : State) (q : Quantity) (p : Party) (h : t.tariff = s.tariff) :
    t.quantityOf q p = s.quantityOf q p := by
  cases q <;> simp only [quantityOf, tripMetres, calibration, h]

/-- A firing's new quantity, where the action cannot have changed it. -/
theorem quantityOf_firingTold (i : Fin 4) (e : Fin 12) (value : Nat) (q : Quantity) (s : State)
    (h : q ≠ .fare ∨ s.milestone.table[e].action ≠ .switchTariff) :
    (firingTold i e value s).quantityOf q ((firingTold i e value s).party i) = s.quantityOf q (s.party i) := by
  rw [State.quantityOf_of_tariff _ _ _ _ (firingTold_tariff i e value s), firingTold_party]
  by_cases hq : q = .fare
  · subst hq
    exact (s.afterAction_keeps _ (s.party i) (h.resolve_left fun hn => hn rfl)).1
  · exact s.quantityOf_afterAction q _ _ hq

/-- A due entry of a pass: the working value and tariff are read again behind an action other than NOTIFY (R56). -/
theorem passEntry_of_due (i : Fin 4) (q : Quantity) (s : State) (e : Fin 12) (h : s.dueFor i q e = true) :
    passEntry i q (passAt i q s) e =
      let t := firingTold i e (s.quantityOf q (s.party i)) s
      if s.milestone.table[e].action = .notify then { passAt i q s with state := t }
      else ⟨t, if q = .fare then (t.party i).fare else s.quantityOf q (s.party i), (t.party i).tariff⟩ :=
  if_pos h

/-- A pass never parts from the fare and the tariff that its actions leave (R55, R56). -/
theorem passEntry_passAt (i : Fin 4) (q : Quantity) (s : State) (e : Fin 12) :
    passEntry i q (passAt i q s) e = passAt i q (passStep i q s e) := by
  by_cases hdue : s.dueFor i q e = true
  · rw [passStep, if_pos hdue, passEntry_of_due i q s e hdue]
    generalize hvalue : s.quantityOf q (s.party i) = value
    dsimp only
    split_ifs with hnotify hfare
    · have hm : s.milestone.table[e].action ≠ .switchTariff := fun h => nomatch hnotify.symm.trans h
      rw [passAt, passAt, quantityOf_firingTold i e value q s (.inr hm), firingTold_party, (s.afterAction_keeps _ _ hm).2]
    · subst hfare
      rfl
    · rw [passAt, quantityOf_firingTold i e value q s (.inl hfare), hvalue]
  · rw [passStep, if_neg hdue]
    exact if_neg hdue

theorem foldl_passEntry (i : Fin 4) (q : Quantity) (es : List (Fin 12)) (s : State) :
    es.foldl (passEntry i q) (passAt i q s) = passAt i q (es.foldl (passStep i q) s) := by
  induction es generalizing s with
  | nil => rfl
  | cons e es ih => rw [List.foldl_cons, List.foldl_cons, passEntry_passAt, ih]

theorem runPass_eq (i : Fin 4) (q : Quantity) (s : State) : runPass i q s = entries.foldl (passStep i q) s := by
  show (entries.foldl (passEntry i q) (passAt i q s)).state = _
  rw [foldl_passEntry, passAt_state]

/-- The entries before and behind one of them. -/
theorem entries_split (e : Fin 12) :
    ∃ before behind, entries = before ++ e :: behind ∧ (∀ e' ∈ before, e' < e) ∧ ∀ e' ∈ behind, e < e' := by
  have hsorted : entries.Pairwise (· < ·) := by decide
  have hmem : ∀ e : Fin 12, e ∈ entries := by decide
  obtain ⟨before, behind, hsplit⟩ := List.append_of_mem (hmem e)
  rw [hsplit, List.pairwise_append, List.pairwise_cons] at hsorted
  obtain ⟨-, ⟨hbehind, -⟩, hbefore⟩ := hsorted
  exact ⟨before, behind, hsplit, fun e' h => hbefore e' h e (by simp), hbehind⟩

/-! ### What one entry of a pass leaves -/

section
variable (i : Fin 4) (q : Quantity) (s : State) (e : Fin 12)

@[simp] theorem passStep_table : (passStep i q s e).milestone.table = s.milestone.table := by
  unfold passStep
  split <;> simp

theorem passStep_armed_other (e' : Fin 12) (j : Fin 4) (h : e' ≠ e ∨ j ≠ i) : (passStep i q s e).armed e' j = s.armed e' j := by
  unfold passStep
  split
  · exact firingTold_armed_other i e _ s e' j h
  · rfl

theorem passStep_of_disabled (h : s.milestone.table[e].enabled = false) : passStep i q s e = s := by
  simp [passStep, State.dueFor, takesPart, h, -Fin.getElem_fin]

/-- A firing of NOTIFY is told and changes no party (R57). -/
theorem passStep_fare_of_notify (h : s.milestone.table[e].action = .notify) : (passStep i q s e).fare = s.fare := by
  unfold passStep
  split
  · rw [firingTold_fare, s.afterAction_notify _ _ h]
    exact congrArg State.fare (s.setParty_self i)
  · rfl

/-- An entry other than SWITCH_TARIFF leaves the quantity and the tariff the pass goes by. -/
theorem passStep_keeps_values (h : s.milestone.table[e].action ≠ .switchTariff) :
    (passStep i q s e).quantityOf q ((passStep i q s e).party i) = s.quantityOf q (s.party i)
      ∧ ((passStep i q s e).party i).tariff = (s.party i).tariff := by
  unfold passStep
  split
  · exact ⟨quantityOf_firingTold i e _ q s (.inr h), by rw [firingTold_party, (s.afterAction_keeps _ _ h).2]⟩
  · exact ⟨rfl, rfl⟩

/-- Behind an entry other than SWITCH_TARIFF that entry is not due: an EVERY level passes the value, a ONCE mark is set (R55). -/
theorem passStep_not_due (ht : 0 < s.milestone.table[e].threshold) (h : s.milestone.table[e].action ≠ .switchTariff) :
    (passStep i q s e).dueFor i q e = false := by
  by_cases hdue : s.dueFor i q e = true
  · have hstep : passStep i q s e = firingTold i e (s.quantityOf q (s.party i)) s := if_pos hdue
    rw [State.dueFor_eq_false_iff, passStep_table, (passStep_keeps_values i q s e h).1, hstep, firingTold_armed_same]
    intro htakes
    cases hr : s.milestone.table[e].repetition with
    | every =>
      simp only [Armed.afterFiring, hr]
      rw [Nat.mul_comm]
      exact Nat.lt_mul_div_succ _ ht
    | once => simp [takesPart, Armed.afterFiring, hr, -Fin.getElem_fin] at htakes
  · have hstep : passStep i q s e = s := if_neg hdue
    rw [hstep]
    simpa using hdue

/-- An entry that is not due stays so while later entries other than SWITCH_TARIFF are taken. -/
theorem passStep_keeps_not_due (e' : Fin 12) (hne : e ≠ e') (h : s.milestone.table[e'].action ≠ .switchTariff)
    (hdue : s.dueFor i q e = false) : (passStep i q s e').dueFor i q e = false := by
  obtain ⟨hvalue, htariff⟩ := passStep_keeps_values i q s e' h
  rw [State.dueFor_congr s _ i q e (passStep_table i q s e') (passStep_armed_other i q s e' e i (.inl hne)) hvalue htariff, hdue]

end

/-! ### What a pass leaves -/

section
variable (i : Fin 4) (q : Quantity)

@[simp] theorem foldl_passStep_table (es : List (Fin 12)) (s : State) :
    (es.foldl (passStep i q) s).milestone.table = s.milestone.table :=
  foldl_keeps (fun s : State => s.milestone.table) _ (passStep_table i q) es s

@[simp] theorem runPass_table (s : State) : (runPass i q s).milestone.table = s.milestone.table := by
  rw [runPass_eq, foldl_passStep_table]

/-- A pass leaves the other slots' cells. -/
theorem runPass_armed_other (s : State) (e : Fin 12) (j : Fin 4) (h : j ≠ i) : (runPass i q s).armed e j = s.armed e j := by
  rw [runPass_eq]
  exact foldl_keeps (fun s : State => s.armed e j) _ (fun s e' => passStep_armed_other i q s e' e j (.inr h)) entries s

theorem foldl_passStep_of_disabled (es : List (Fin 12)) (s : State) (h : ∀ e ∈ es, s.milestone.table[e].enabled = false) :
    es.foldl (passStep i q) s = s := by
  induction es with
  | nil => rfl
  | cons e es ih =>
    rw [List.foldl_cons, passStep_of_disabled i q s e (h e (by simp))]
    exact ih fun e' he => h e' (by simp [he])

/-- A pass over NOTIFY entries touches no party (R57). -/
theorem foldl_passStep_fare_of_notify (es : List (Fin 12)) (s : State) (h : ∀ e : Fin 12, s.milestone.table[e].action = .notify) :
    (es.foldl (passStep i q) s).fare = s.fare := by
  induction es generalizing s with
  | nil => rfl
  | cons e es ih =>
    rw [List.foldl_cons, ih _ fun e' => by rw [passStep_table]; exact h e', passStep_fare_of_notify i q s e (h e)]

theorem foldl_passStep_not_due (es : List (Fin 12)) (s : State) (e : Fin 12) (hne : ∀ e' ∈ es, e ≠ e')
    (h : ∀ e' ∈ es, s.milestone.table[e'].action ≠ .switchTariff) (hdue : s.dueFor i q e = false) :
    (es.foldl (passStep i q) s).dueFor i q e = false := by
  induction es generalizing s with
  | nil => exact hdue
  | cons e' es ih =>
    rw [List.foldl_cons]
    refine ih _ (fun x hx => hne x (by simp [hx])) (fun x hx => ?_) ?_
    · rw [passStep_table]
      exact h x (by simp [hx])
    · exact passStep_keeps_not_due i q s e e' (hne e' (by simp)) (h e' (by simp)) hdue

/-- From the last SWITCH_TARIFF entry on a pass leaves nothing due (R55, R56). -/
theorem runPass_not_due (s : State) (e : Fin 12) (ht : 0 < s.milestone.table[e].threshold)
    (h : ∀ e' : Fin 12, e ≤ e' → s.milestone.table[e'].action ≠ .switchTariff) : (runPass i q s).dueFor i q e = false := by
  obtain ⟨before, behind, hsplit, -, hbehind⟩ := entries_split e
  rw [runPass_eq, hsplit, List.foldl_append, List.foldl_cons]
  refine foldl_passStep_not_due i q behind _ e (fun e' he => ne_of_lt (hbehind e' he)) (fun e' he => ?_) ?_
  · simpa using h e' (le_of_lt (hbehind e' he))
  · exact passStep_not_due i q _ e (by simpa using ht) (by simpa using h e (le_refl e))

/-- Where one entry alone is enabled, and due, its firing is the whole pass. -/
theorem runPass_of_alone (s : State) (e : Fin 12) (h : ∀ e' : Fin 12, e' ≠ e → s.milestone.table[e'].enabled = false)
    (hdue : s.dueFor i q e = true) : runPass i q s = firingTold i e (s.quantityOf q (s.party i)) s := by
  obtain ⟨before, behind, hsplit, hbefore, hbehind⟩ := entries_split e
  have hstep : passStep i q s e = firingTold i e (s.quantityOf q (s.party i)) s := if_pos hdue
  rw [runPass_eq, hsplit, List.foldl_append, List.foldl_cons,
    foldl_passStep_of_disabled i q before s fun e' he => h e' (ne_of_lt (hbefore e' he)), hstep]
  refine foldl_passStep_of_disabled i q behind _ fun e' he => ?_
  rw [firingTold_table]
  exact h e' (ne_of_gt (hbehind e' he))

end

/-- Settles O44: a pass as a fold over states leaves nothing due behind each entry, and where one entry alone can fire it is that firing. -/
theorem passLeavesNothingDue : Obligations.PassLeavesNothingDue := by
  unfold Obligations.PassLeavesNothingDue
  refine ⟨fun i q s hnotify => ?_, fun i q s e => ?_, fun i q s e => ?_⟩
  · refine ⟨?_, runPass_table i q s, fun e j hj => runPass_armed_other i q s e j hj, fun e => ?_⟩
    · rw [runPass_eq]
      exact foldl_passStep_fare_of_notify i q entries s fun e => (hnotify e).1
    · rw [← State.dueFor_eq_false_iff]
      exact runPass_not_due i q s e (hnotify e).2 fun e' _ h => nomatch (hnotify e').1.symm.trans h
  · intro u m ht hswitch
    have hdue := (State.dueFor_eq_false_iff _ i q e).mp (runPass_not_due i q s e ht hswitch)
    rwa [runPass_table] at hdue
  · intro m p halone htakes hlevel fires
    have hdue : s.dueFor i q e = true := by
      simp only [State.dueFor, Bool.and_eq_true, decide_eq_true_eq]
      exact ⟨htakes, hlevel⟩
    have hpass := runPass_of_alone i q s e halone hdue
    have fires_of : ∀ (p' : Party) (outcome : FiringOutcome), s.afterAction m p = (p', outcome) → fires p' outcome := by
      intro p' outcome hact
      have hmark : (s.armed e i).afterFiring m (s.quantityOf q p) = (match m.repetition with
          | .every => { s.armed e i with level := s.quantityOf q p / m.threshold + 1 }
          | .once => { s.armed e i with fired := true }) := rfl
      have hfare := firingTold_fare i e (s.quantityOf q p) s
      have hportC := firingTold_port_c i e (s.quantityOf q p) s
      rw [hact] at hfare hportC
      simp only [fires, hpass]
      exact ⟨hfare, firingTold_table i e _ s, (firingTold_armed_same i e _ s).trans hmark, firingTold_armed_other i e _ s, hportC,
        firingTold_port_p i e _ s, firingTold_request i e _ s, firingTold_changesOnly i e _ s⟩
    refine ⟨fun h => fires_of _ _ (s.afterAction_notify m p h), fun h => ⟨fun ht => ?_, fun ht => ?_⟩,
      fun h x hx => ⟨fun hy => ?_, fun y hy => ⟨fun hlimit => ?_, fun hlimit => ?_⟩⟩⟩
    · exact fires_of _ _ (s.afterAction_switch_absent m p h ht)
    · exact fires_of _ _ (s.afterAction_switch_present m p h ht)
    · exact fires_of _ _ (s.afterAction_extra_absent m p h x hx hy)
    · refine fires_of _ _ ?_
      rw [s.afterAction_extra_present m p h x hx y hy, if_pos ((p.atLimit_iff x y).mpr hlimit)]
    · refine fires_of _ _ ?_
      have hfree : ¬ p.atLimit x y = true := fun hat => by
        obtain ⟨hne, hle⟩ := (p.atLimit_iff x y).mp hat
        omega
      rw [s.afterAction_extra_present m p h x hx y hy, if_neg hfree]
      rfl

end Sys2Proof.Machine
end

