-- ==== Sys2Proof/Proofs/RequestActions.lean ====
section
/-! PROOFS. What a request does once its arguments are read, and the blocks it reaches. -/
namespace Sys2Proof.Machine

/-- `r.Does port act`: a request `r` from `port` that is read does `act`, for some arguments of its layout. -/
inductive RequestName.Does (port : Port) : RequestName → Action → Prop where
  | loadBegin : Does port .loadBegin actLoadBegin
  | loadPart (part : StagedPart) : Does port .loadPart (actLoadPart part)
  | loadCommit (check : BitVec 16) : Does port .loadCommit (actLoadCommit check)
  | tariffRead (x : TariffSource) (t : TariffTable) (n : Byte) : Does port .tariffRead (actTariffRead x t n)
  | tariffStatus : Does port .tariffStatus actTariffStatus
  | setClock (day ds : Nat) : Does port .setClock (actSetClock day ds)
  | setCabId (n : BitVec 32) : Does port .setCabId (actSetCabId n)
  | hire (t : TariffArg) (st : Station) : Does port .hire (actHire t st)
  | total (n : Byte) : Does port .total (actTotal n)
  | resume (n : Byte) : Does port .resume (actResume n)
  | void (n : Byte) : Does port .void (actVoid n)
  | payCash (n : Byte) (amount : Nat) : Does port .payCash (actPayCash n amount)
  | closeTrip (n : Byte) : Does port .closeTrip (actCloseTrip n)
  | addExtra (n x : Byte) (amount : Nat) : Does port .addExtra (actAddExtra n x amount)
  | setTariff (n : Byte) (t : TariffArg) : Does port .setTariff (actSetTariff n t)
  | setStation (n : Byte) (st : Station) : Does port .setStation (actSetStation n st)
  | share (on : Bool) : Does port .share (actShare on)
  | partyRead (n : Byte) : Does port .partyRead (actPartyRead n)
  | milestoneSet (n : Byte) (m : Milestone) : Does port .milestoneSet (actMilestoneSet n m)
  | milestoneRead (n : Byte) : Does port .milestoneRead (actMilestoneRead n)
  | offerCard (n : Byte) (amount : Nat) : Does port .offerCard (actOfferCard n amount)
  | cancelCard (n : Byte) : Does port .cancelCard (actCancelCard n)
  | policySet (p : Policy) : Does port .policySet (actPolicySet p)
  | refusalListAdd (x : BitVec 64) : Does port .refusalListAdd (actRefusalAdd x)
  | refusalListRemove (x : BitVec 64) : Does port .refusalListRemove (actRefusalRemove x)
  | refusalListClear : Does port .refusalListClear actRefusalClear
  | payStatus (clear : Bool) : Does port .payStatus (actPayStatus clear)
  | shiftOpen (driver : Nat) : Does port .shiftOpen (actShiftOpen driver)
  | shiftBreak : Does port .shiftBreak actShiftBreak
  | shiftResume : Does port .shiftResume actShiftResume
  | shiftClose : Does port .shiftClose actShiftClose
  | totalsRead (page : Byte) (freeze : Bool) : Does port .totalsRead (actTotalsRead page freeze)
  | totalsThaw : Does port .totalsThaw actTotalsThaw
  | reportRead (n page : Byte) : Does port .reportRead (actReportRead n page)
  | reportDrop (number : Nat) : Does port .reportDrop (actReportDrop number)
  | offDutyOverride (on : Bool) : Does port .offDutyOverride (actOffDutyOverride on)
  | emergencyClear : Does port .emergencyClear actEmergencyClear
  | viewSet (mode : SignMode) (source : PanelSource) (base : Nat) (animation : Animation) (timer : TimerId) (indexed : Bool) (lamps : Vector LampProgram 4) : Does port .viewSet (actViewSet mode source base animation timer indexed lamps)
  | imageSet (n : Byte) (columns : List Byte) : Does port .imageSet (actImageSet n columns)
  | stripesSet (pairs : List Stripe) : Does port .stripesSet (actStripesSet pairs)
  | blockSet (bytes : List Byte) : Does port .blockSet (actBlockSet bytes)
  | signStatus : Does port .signStatus (actSignStatus port)
  | signRead (table : SignTable) (n : Byte) : Does port .signRead (actSignRead table n)
  | timerSet (t : TimerId) (period : Nat) (mode : TimerMode) : Does port .timerSet (actTimerSet t period mode)
  | comparatorSet (n : Byte) (timer : TimerId) (value : Nat) (mode : ComparatorMode) (lamp : Byte) : Does port .comparatorSet (actComparatorSet n timer value mode lamp)
  | timerStart (t : TimerId) : Does port .timerStart (actTimerStart t)
  | timerStop (t : TimerId) : Does port .timerStop (actTimerStop t)
  | timerStopAtEnd (t : TimerId) : Does port .timerStopAtEnd (actTimerStopAtEnd t)
  | timerStatus : Does port .timerStatus actTimerStatus
  | lampWrite (lamp : Byte) (value : Bool) : Does port .lampWrite (actLampWrite lamp value)
  | answer (stations : AnswerStations) : Does port .answer (actAnswer stations)
  | hangup : Does port .hangup actHangup
  | gainsSet (gL gR hL hR : Nat) : Does port .gainsSet (actGainsSet gL gR hL hR)
  | intercomStatus : Does port .intercomStatus (actIntercomStatus port)
  | chimeRead (c : ChimeId) : Does port .chimeRead (actChimeRead c)
  | chimeSet (c : ChimeId) (half amplitude duration : Nat) (gate : Gate) : Does port .chimeSet (actChimeSet c half amplitude duration gate)
  | routeSet (q : Byte) (c : RouteClass) (e : Route) : Does port .routeSet (actRouteSet q c e)
  | routeRead (q : Byte) (c : RouteClass) : Does port .routeRead (actRouteRead q c)
  | portStatus (clear : Bool) : Does port .portStatus (actPortStatus port clear)

/-- The blocks a request may change, the link switch's lanes apart. -/
def RequestName.reach : RequestName → List Block
| .loadBegin | .loadPart | .setCabId => [.tariff]
| .loadCommit | .setClock => [.request, .tariff, .fare, .milestone, .intercom]
| .tariffRead | .tariffStatus | .partyRead | .milestoneRead | .reportRead | .signStatus | .signRead | .intercomStatus | .chimeRead |
    .routeRead => []
| .hire => [.request, .tariff, .fare, .milestone, .shift, .sign, .intercom, .power]
| .total | .payCash => [.request, .fare, .sign, .power]
| .resume => [.request, .fare, .milestone, .sign, .power]
| .void => [.request, .fare, .shift, .sign, .power]
| .closeTrip => [.request, .fare, .shift, .sign, .intercom, .power]
| .addExtra | .setStation => [.fare]
| .setTariff => [.request, .fare, .milestone]
| .share => [.fare, .sign]
| .milestoneSet => [.milestone]
| .offerCard | .cancelCard => [.request, .fare, .payment, .sign, .power]
| .policySet => [.payment, .intercom]
| .refusalListAdd | .refusalListRemove | .refusalListClear | .payStatus => [.payment]
| .shiftOpen => [.request, .shift, .sign]
| .shiftBreak | .shiftResume => [.shift, .sign]
| .shiftClose => [.request, .fare, .shift, .sign]
| .totalsRead | .totalsThaw | .reportDrop => [.shift]
| .offDutyOverride | .viewSet | .imageSet | .stripesSet | .blockSet => [.sign]
| .emergencyClear => [.request, .sign, .intercom, .power]
| .timerSet | .comparatorSet | .timerStart | .timerStop | .timerStopAtEnd | .timerStatus | .lampWrite => [.cadence]
| .answer | .hangup | .gainsSet | .chimeSet => [.intercom]
| .routeSet | .portStatus => [.link]

/-- LOAD_PART is read as one entry of one table. -/
theorem readLoadPart_some {args : List Byte} {act : Action} (h : readLoadPart args = some act) : ∃ part, act = actLoadPart part := by
  unfold readLoadPart at h
  split at h
  · split at h <;> simp only [Option.map_eq_some_iff, reduceCtorEq] at h
    all_goals
      obtain ⟨e, -, rfl⟩ := h
      exact ⟨_, rfl⟩
  · simp at h

/-- A request whose arguments are read does what its name says. -/
theorem RequestName.does_of_read {r : RequestName} {port : Port} {args : List Byte} {act : Action} (h : r.read port args = some act) :
    r.Does port act := by
  cases r <;> simp only [RequestName.read] at h
  case loadPart =>
    obtain ⟨part, rfl⟩ := readLoadPart_some h
    exact .loadPart part
  all_goals
    revert h
    simp only [readNothing, readByte, readFlag, readCode, readLoadCommit, readTariffRead, readSetClock, readSetCabId, readHire,
      readSlotAmount, readAddExtra, readSetTariff, readSetStation, readMilestoneSet, readPolicySet, readPrefix, readShiftOpen,
      readTotalsRead, readReportRead, readReportDrop, readViewSet, readImageSet, readStripesSet, readBlockSet, readSignRead, readTimerSet,
      readComparatorSet, readLampWrite, readGainsSet, readChimeSet, readRouteSet, readRouteRead]
    (repeat' split) <;> simp only [Option.map_eq_some_iff, Option.some.injEq, reduceCtorEq, IsEmpty.forall_iff]
    all_goals
      rintro ⟨_, -, ⟨⟩⟩
      constructor

end Sys2Proof.Machine
end

