-- ==== Sys2Proof/Proofs/RequestReach.lean ====
section
/-! PROOFS. A request leaves every block beyond its reach. -/
namespace Sys2Proof.Machine

theorem RequestName.Does.changesOnly {r : RequestName} {port : Port} {act : Action} (h : r.Does port act) (s : State) :
    s.changesOnly (act s).1 r.reach := by
  cases h
  all_goals
    simp only [actLoadBegin, actLoadPart, actLoadCommit, actTariffRead, actTariffStatus, actSetClock, actSetCabId, actHire, actTotal,
      actResume, actVoid, actPayCash, actCloseTrip, actAddExtra, actSetTariff, actSetStation, actShare, actPartyRead, actMilestoneSet,
      actMilestoneRead, actOfferCard, actCancelCard, actPolicySet, actRefusalAdd, actRefusalRemove, actRefusalClear, actPayStatus,
      actShiftOpen, actShiftBreak, actShiftResume, actShiftClose, actTotalsRead, actTotalsThaw, actReportRead, actReportDrop,
      actOffDutyOverride, actEmergencyClear, actViewSet, actImageSet, actStripesSet, actBlockSet, actSignStatus, actSignRead, actTimerSet,
      actComparatorSet, actTimerStart, actTimerStop, actTimerStopAtEnd, actTimerStatus, actLampWrite, actAnswer, actHangup, actGainsSet,
      actIntercomStatus, actChimeRead, actChimeSet, actRouteSet, actRouteRead, actPortStatus, withList, installSet, onSlot]
    repeat' split
    all_goals simp [State.changesOnly, reach]

end Sys2Proof.Machine
end

