-- ==== Sys2Proof/Proofs/EventRules.lean ====
section
/-! PROOFS. The induction over a step: what an event can do, one rule for each, and what a step then gives. -/
namespace Sys2Proof.Machine

@[simp] theorem changeLatch_power_state (b : Bool) (s : State) : (changeLatch b s).power.state = s.power.state := by
  simp only [changeLatch, notifyEmergency_power, PowerUnit.takeLatch, PowerUnit.judge, deliverEmergency_power, deriveSign_power]
  repeat' split
  all_goals rfl

@[simp] theorem showChanges_power_state (b s : State) : (showChanges b s).power.state = s.power.state := by simp

theorem RequestName.Does.power_state {r : RequestName} {port : Port} {act : Action} (h : r.Does port act) (s : State) :
    (act s).1.power.state = s.power.state := by
  by_cases hr : .power ∈ r.reach
  · cases h <;> simp only [reach, List.mem_cons, reduceCtorEq, List.not_mem_nil, or_false, or_self, or_true] at hr
    all_goals
      simp only [actHire, actTotal, actResume, actVoid, actPayCash, actCloseTrip, actOfferCard, actCancelCard, actEmergencyClear, onSlot,
        vacate, offerTaken, paymentReleased, cancelRecord]
      repeat' split
      all_goals simp
  · have := h.changesOnly s
    simp only [State.changesOnly, hr, false_or] at this
    rw [this.2.2.2.2.2.2.2.2.2.2.2]

theorem request_done {r : RequestName} {a : Arrival} {args : List Byte} {act : Action} {s : State} (h : s.takes a r)
    (hl : args.length < 200) (hr : r.read a.port args = some act) :
    request r a args s = .next (emit a.port (replyFrame a.tag r.code (act (s.heard a)).2) (act (s.heard a)).1) :=
  request_read r a args act s h.1 hl h.2 hr (((RequestName.does_of_read hr).power_state _).trans h.1.1)

theorem exec_command (r : RequestName) (a : Arrival) (args : List Byte) (s : State) : exec (r.command a args) s = request r a args s := by
  cases r <;> rfl

/-- What the frames that the link switch hands on keep, one rule for each thing a frame can do: `P` before and after it, `Q` after a reply. -/
structure FrameRules (P Q : State → Prop) : Prop where
  weaken : ∀ s, P s → Q s
  reply : ∀ q f s, Q s → Q (emit q f s)
  action : ∀ (r : RequestName) q act s, r.Does q act → P s → Q (act s).1
  discard : ∀ q reason f parked s, P s → P (discardAtIngress q reason f parked s)
  copies : ∀ q f parked s, P s → P (copyTelemetry q f parked s)
  pass : ∀ q f parked s, P s → P (routePass q f parked s)
  wake : ∀ s, s.parked = true → P s → P (wakeHub s)
  ignition : ∀ on s, P s → P (takeIgnitionFlag on s)
  alarm : ∀ on s, P s → P (takeAlarm on s)
  count : ∀ n s, P s → P (takeCount n s)
  signStat : ∀ payload s, P s → P (takeSignStat payload s)
  audioP : ∀ payload s, P s → P (takeAudioP payload s)
  audioC : ∀ payload s, P s → P (takeAudioC payload s)
  cardStage : ∀ fields s, P s → P (takeCardStage fields s)
  authAsk : ∀ fields s, P s → P (takeAuthAsk fields s)
  authAnswer : ∀ fields s, P s → P (takeAuthAnswer fields s)
  uploadAck : ∀ fields s, P s → P (takeUploadAck fields s)

namespace FrameRules

variable {P Q : State → Prop} (rules : FrameRules P Q)
include rules

theorem takeMotion (o : Order) (payload : List Byte) (s : State) (h : P s) : P (takeMotion o payload s) := by
  unfold Machine.takeMotion takeFlags
  split
  · split
    · exact rules.count _ _ (rules.alarm _ _ (rules.ignition _ _ h))
    · exact rules.alarm _ _ (rules.ignition _ _ (rules.count _ _ h))
  · exact h

theorem takePay (payload : List Byte) (s : State) (h : P s) : P (takePay payload s) := by
  unfold Machine.takePay
  split
  · exact h
  · split
    · exact rules.cardStage _ _ h
    · exact rules.authAsk _ _ h
    · exact rules.authAnswer _ _ h
    · exact rules.uploadAck _ _ h
    · exact h

theorem takeRequest (q : Port) (tag : Byte) (payload : List Byte) (s : State) (h : P s) : Q (takeRequest q tag payload s) := by
  unfold Machine.takeRequest
  split
  · exact rules.reply _ _ _ (rules.weaken _ h)
  · split
    · exact rules.reply _ _ _ (rules.weaken _ h)
    · split
      · exact rules.reply _ _ _ (rules.weaken _ h)
      · split
        · exact rules.reply _ _ _ (rules.weaken _ h)
        · exact rules.reply _ _ _ (rules.action _ _ _ _ (RequestName.does_of_read ‹_›) h)

theorem handAndCopy (q : Port) (f : Frame) (o : Order) (parked : Bool) (block : State → State) (hb : ∀ s, P s → P (block s)) (s : State)
    (h : P s) : P (handAndCopy q f o parked block s) := by
  unfold Machine.handAndCopy
  split
  · exact hb _ (rules.copies _ _ _ _ h)
  · exact rules.copies _ _ _ _ (hb _ h)

theorem handOn (q : Port) (f : Frame) (o : Order) (parked : Bool) (s : State) (h : P s) : Q (handOn q f o parked s) := by
  unfold Machine.handOn
  split
  · exact rules.weaken _ (rules.handAndCopy q f o parked _ (rules.takeMotion o f.payload) s h)
  · exact rules.weaken _ (rules.handAndCopy q f o parked _ (rules.signStat f.payload) s h)
  · split
    · exact rules.weaken _ (rules.audioP _ _ h)
    · exact rules.weaken _ (rules.audioC _ _ h)
  · exact rules.weaken _ (rules.takePay _ _ h)
  · exact rules.takeRequest _ _ _ _ h
  · exact rules.weaken _ (rules.pass _ _ _ _ h)
  · exact rules.weaken _ h

theorem takeGood (q : Port) (f : Frame) (o : Order) (s : State) (h : P s) : Q (takeGood q f o s) := by
  unfold Machine.takeGood
  split
  · rename_i hparked
    split
    · unfold examineForWake
      split
      · exact rules.weaken _ (rules.wake _ hparked.1 h)
      · exact rules.weaken _ h
    · exact rules.weaken _ (rules.discard _ _ _ _ _ h)
  · split
    · exact rules.weaken _ (rules.discard _ _ _ _ _ h)
    · exact rules.handOn _ _ _ _ _ h

end FrameRules

structure EventRules (P Q : State → Prop) : Prop where
  weaken : ∀ s, P s → Q s
  settle : ∀ s, Q s → Q (settleSign s)
  reply : ∀ q f s, Q s → Q (emit q f s)
  action : ∀ (r : RequestName) q act s, r.Does q act → P s → Q (act s).1
  restart : ∀ q s, (s.port q).shut = false → P s → P (restartSilence q s)
  bringUp : ∀ q s, (s.port q).shut = false → P s → P (s.setPort q { s.port q with bringUp := true })
  goUp : ∀ q o s, (s.port q).shut = false → s.isUp q = false → P s → P (goUp q o s)
  checkError : ∀ q s, (s.port q).shut = false → P s → P (failCheck q s)
  discard : ∀ q reason f parked s, P s → P (discardAtIngress q reason f parked s)
  copies : ∀ q f parked s, P s → P (copyTelemetry q f parked s)
  pass : ∀ q f parked s, P s → P (routePass q f parked s)
  wake : ∀ s, s.parked = true → P s → P (wakeHub s)
  ignition : ∀ on s, P s → P (takeIgnitionFlag on s)
  alarm : ∀ on s, P s → P (takeAlarm on s)
  count : ∀ n s, P s → P (takeCount n s)
  signStat : ∀ payload s, P s → P (takeSignStat payload s)
  audioP : ∀ payload s, P s → P (takeAudioP payload s)
  audioC : ∀ payload s, P s → P (takeAudioC payload s)
  cardStage : ∀ fields s, P s → P (takeCardStage fields s)
  authAsk : ∀ fields s, P s → P (takeAuthAsk fields s)
  authAnswer : ∀ fields s, P s → P (takeAuthAnswer fields s)
  uploadAck : ∀ fields s, P s → P (takeUploadAck fields s)
  tick : ∀ b s, P s → P (takeTick b s)
  cadence : ∀ b s, P s → P (takeCadence b s)
  offer : ∀ s, P s → P (offerExpiry s)
  answer : ∀ s, P s → P (answerExpiry s)
  upload : ∀ s, P s → P (uploadExpiry s)
  call : ∀ s, P s → P (callExpiry s)
  park : ∀ s, s.running = true → P s → P (parkHub s)
  silence : ∀ q s, P s → P (silenceExpiry q s)
  quiet : ∀ q s, P s → P (s.setPort q (s.port q).quietExpiry)
  complete : ∀ q s, P s → P (s.setPort q (s.port q).complete)

namespace EventRules

variable {P Q : State → Prop} (rules : EventRules P Q)
include rules

theorem frame : FrameRules P Q where
  weaken := rules.weaken
  reply := rules.reply
  action := rules.action
  discard := rules.discard
  copies := rules.copies
  pass := rules.pass
  wake := rules.wake
  ignition := rules.ignition
  alarm := rules.alarm
  count := rules.count
  signStat := rules.signStat
  audioP := rules.audioP
  audioC := rules.audioC
  cardStage := rules.cardStage
  authAsk := rules.authAsk
  authAnswer := rules.authAnswer
  uploadAck := rules.uploadAck

theorem takeGood (q : Port) (f : Frame) (o : Order) (s : State) (h : P s) : Q (takeGood q f o s) := rules.frame.takeGood q f o s h

theorem receive (q : Port) (f : Frame) (o : Order) (s : State) (h : P s) : Q (receive q f o s) := by
  unfold Machine.receive
  split
  · exact rules.weaken _ h
  · rename_i hopen
    have hshut : (s.port q).shut = false := by simpa using hopen
    have hrestarted := rules.restart q s hshut h
    have hshut' : ((restartSilence q s).port q).shut = false := by simpa [restartSilence] using hshut
    dsimp only
    split
    · exact rules.takeGood _ _ _ _ hrestarted
    · rename_i hdown
      split
      · exact rules.takeGood _ _ _ _ (rules.goUp q o _ hshut' (by simpa using hdown) hrestarted)
      · exact rules.weaken _ (rules.bringUp q _ hshut' hrestarted)

theorem failCheck (q : Port) (s : State) (h : P s) : P (failCheck q s) := by
  by_cases hshut : (s.port q).shut = true
  · simpa [Machine.failCheck, hshut] using h
  · exact rules.checkError q s (by simpa using hshut) h

theorem receiveBytes (q : Port) (bytes : List Byte) (low : Bool) (o : Order) (s : State) (h : P s) : Q (receiveBytes q bytes low o s) := by
  unfold Machine.receiveBytes
  split
  · split
    · exact rules.receive _ _ _ _ h
    · exact rules.weaken _ (rules.failCheck _ _ h)
  · exact rules.weaken _ (rules.failCheck _ _ h)

theorem event (f : State → State) (s t : State) (hf : P s → Q (f s)) (h : P s) (ht : event f s = .next t) : Q t := by
  simp only [Machine.event, Host.Outcome.next.injEq] at ht
  subst ht
  split
  · exact rules.weaken _ h
  · exact rules.settle _ (hf h)

theorem exec (c : Instr) (s t : State) (hreset : c ≠ .powerOnReset) (hlost : c ≠ .backupSupplyLost) (h : P s) (ht : exec c s = .next t) :
    Q t := by
  have harrive : ∀ a kind payload, Q (arrive a kind payload s) := fun a kind payload => rules.receive _ _ _ _ h
  have hcadence : ∀ b, Q (takeCadence b s) := fun b => rules.weaken _ (rules.cadence b s h)
  cases c
  case powerOnReset => exact absurd rfl hreset
  case backupSupplyLost => exact absurd rfl hlost
  case checkError q bytes low o => exact rules.event _ s t (rules.receiveBytes q bytes low o s) h ht
  case goodFrameOnDownPort q f o => exact rules.event _ s t (rules.receive q f o s) h ht
  case frameDiscardedAtIngress q f o => exact rules.event _ s t (rules.receive q f o s) h ht
  case wakeCall f o => exact rules.event _ s t (rules.receive .d f o s) h ht
  case decisecondTick b => exact rules.event _ s t (fun h => rules.weaken _ (rules.tick b s h)) h ht
  case cadenceCount b => exact rules.event _ s t (fun _ => hcadence b) h ht
  case terminalCount timer b =>
    refine rules.event _ s t (fun h => ?_) h ht
    split
    · exact hcadence b
    · exact rules.weaken _ h
  case signRefresh b =>
    refine rules.event _ s t (fun h => ?_) h ht
    split
    · exact hcadence b
    · exact rules.weaken _ h
  case chimeEnd player a payload =>
    refine rules.event _ s t (fun h => ?_) h ht
    split
    · exact harrive _ _ _
    · exact rules.weaken _ h
  case offerTimerExpiry => exact rules.event _ s t (fun h => rules.weaken _ (rules.offer s h)) h ht
  case answerTimerExpiry => exact rules.event _ s t (fun h => rules.weaken _ (rules.answer s h)) h ht
  case uploadTimerExpiry => exact rules.event _ s t (fun h => rules.weaken _ (rules.upload s h)) h ht
  case callTimerExpiry =>
    refine rules.event _ s t (fun h => ?_) h ht
    split
    · exact rules.weaken _ (rules.call s h)
    · exact rules.weaken _ h
  case park =>
    refine rules.event _ s t (fun h => ?_) h ht
    unfold parkExpiry
    split
    · exact rules.weaken _ (rules.park s (by simp_all) h)
    · exact rules.weaken _ h
  case silenceTimerExpiry q => exact rules.event _ s t (fun h => rules.weaken _ (rules.silence q s h)) h ht
  case quietTimerExpiry q => exact rules.event (fun s => s.setPort q (s.port q).quietExpiry) s t (fun h => rules.weaken _ (rules.quiet q s h)) h ht
  case transmitComplete q => exact rules.event (fun s => s.setPort q (s.port q).complete) s t (fun h => rules.weaken _ (rules.complete q s h)) h ht
  case sShut =>
    simp only [Machine.exec, execSShut, Machine.event, Host.Outcome.next.injEq] at ht
    subst ht
    split
    · exact rules.weaken _ h
    · exact rules.settle _ (rules.settle _ (rules.weaken _ h))
  all_goals exact rules.event _ s t (fun _ => harrive _ _ _) h ht

end EventRules

/-- A step gives what the rules give, power-on reset and the loss of supply apart. -/
theorem step_gives {P Q : State → Prop} (rules : EventRules P Q) (hreset : Q .reset) (hoff : Q .off)
    (hP : ∀ s p, P s → P { s with pending := p }) (hQ : ∀ s p, Q s → Q { s with pending := p }) (s t : State) (h : P s)
    (hs : step s = .next t) : Q t := by
  unfold step at hs
  split at hs
  · cases hs
    exact rules.weaken _ h
  · rename_i c rest _
    have h' := hP s rest h
    by_cases hr : c = .powerOnReset
    · subst hr
      simp only [exec, execPowerOnReset, Host.Outcome.next.injEq] at hs
      subst hs
      split
      · exact hQ _ _ hreset
      · exact rules.weaken _ h'
    · by_cases hl : c = .backupSupplyLost
      · subst hl
        simp only [exec, execBackupSupplyLost, Host.Outcome.next.injEq] at hs
        subst hs
        exact hQ _ _ hoff
      · exact rules.exec c _ t hr hl h' hs

theorem step_keeps {I : State → Prop} (rules : EventRules I I) (hreset : I .reset) (hoff : I .off)
    (hpending : ∀ s p, I s → I { s with pending := p }) (s t : State) (h : I s) (hs : step s = .next t) : I t :=
  step_gives rules hreset hoff hpending hpending s t h hs

end Sys2Proof.Machine
end

