-- ==== Sys2Proof/Proofs/TariffSet.lean ====
section
/-! PROOFS. The tariff store: what a commit alone writes, and the refusal classes of a commit as conditions on the set. -/
namespace Sys2Proof.Machine

@[simp] theorem changeBand_tariff (b : Option Nat) (s : State) : (changeBand b s).tariff = { s.tariff with band := b } := by
  unfold changeBand
  cases b <;> dsimp only <;> split <;> simp

@[simp] theorem evaluateBand_tariff (s : State) :
    (evaluateBand s).tariff = { s.tariff with band := bandAt s.tariff.inForce s.tariff.clock } := by
  unfold evaluateBand
  dsimp only
  split
  · rename_i h
    rw [h]
  · simp

/-- The part of the tariff store that a commit alone writes. -/
def TariffStore.standing (x : TariffStore) : TariffSet × Nat × Nat :=
  (x.inForce, x.setId, x.changes)

@[simp] theorem minuteBoundary_standing (s : State) : (minuteBoundary s).tariff.standing = s.tariff.standing := by
  unfold minuteBoundary
  split
  · rw [evaluateBand_tariff]; rfl
  · rfl

@[simp] theorem takeTick_standing (b : Bool) (s : State) : (takeTick b s).tariff.standing = s.tariff.standing := by
  unfold takeTick
  dsimp only
  split
  · simp only [State.setTotals_tariff, fareTick_tariff, minuteBoundary_standing]; rfl
  · simp only [State.setTotals_tariff, minuteBoundary_standing, fareTick_tariff]; rfl

@[simp] theorem parkHub_standing (s : State) : (parkHub s).tariff.standing = s.tariff.standing := by
  unfold parkHub
  dsimp only [parkBlocks]
  simp
  rfl

/-- Of the requests, LOAD_COMMIT alone writes that part. -/
theorem RequestName.Does.standing {r : RequestName} {port : Port} {act : Action} (h : r.Does port act) (s : State) (hr : r ≠ .loadCommit) :
    (act s).1.tariff.standing = s.tariff.standing := by
  by_cases ht : .tariff ∈ r.reach
  · cases h <;> simp only [reach, List.mem_cons, reduceCtorEq, List.not_mem_nil, or_false, or_self, or_true, ne_eq, not_true_eq_false] at ht hr
    case loadBegin => rfl
    case loadPart part =>
      unfold actLoadPart
      repeat' split
      all_goals rfl
    case setClock day ds =>
      unfold actSetClock
      split
      · rfl
      · simp only [evaluateBand_tariff]; rfl
    case setCabId n =>
      unfold actSetCabId
      split <;> rfl
    case hire t st =>
      unfold actHire
      repeat' split
      · rfl
      · rfl
      · simp; rfl
  · have hc := h.changesOnly s
    simp only [State.changesOnly, ht, false_or] at hc
    obtain ⟨-, -, -, htariff, -⟩ := hc
    rw [htariff]

/-! ### The refusal classes of a commit -/

theorem firstFailing_eq_none_iff {α : Type} (ok : α → Bool) (table : List (Option α)) :
    firstFailing ok table = none ↔ ∀ x, some x ∈ table → ok x = true := by
  unfold firstFailing
  rw [List.findIdx?_eq_none_iff]
  constructor
  · intro h x hx
    simpa using h (some x) hx
  · intro h e he
    cases e with
    | none => rfl
    | some x => simpa using h x he

/-- The schedule has no conflict where no two of its entries do. -/
theorem conflictFault_eq_none_iff (x : TariffSet) :
    x.conflictFault = none ↔ x.schedule.toList.Pairwise fun e f => agreeable e f = true := by
  have hbelow : ∀ n : Nat, conflictsBelow x.schedule.toList n = false ↔
      ∀ m (hm : m < n) (hn : n < x.schedule.toList.length), agreeable (x.schedule.toList[m]'(Nat.lt_trans hm hn)) x.schedule.toList[n] = true := by
    intro n
    unfold conflictsBelow
    by_cases hn : n < x.schedule.toList.length
    · rw [List.getElem?_eq_getElem hn]
      cases hy : x.schedule.toList[n] with
      | none =>
        simp only [Option.join_some, true_iff]
        intro m hm hn'
        simp [agreeable, hy]
      | some y =>
        simp only [Option.join_some, List.any_eq_false]
        constructor
        · intro h m hm hn'
          have := h _ (List.mem_take_iff_getElem.mpr ⟨m, lt_min hm (Nat.lt_trans hm hn'), rfl⟩)
          revert this
          cases x.schedule.toList[m] <;> simp [agreeable, hy]
        · intro h e he
          obtain ⟨m, hm, rfl⟩ := List.mem_take_iff_getElem.mp he
          have := h m (by omega) hn
          revert this
          cases x.schedule.toList[m] <;> simp [agreeable, hy]
    · rw [List.getElem?_eq_none (by omega)]
      simp only [Option.join_none, true_iff]
      intro m _ hn'
      exact absurd hn' hn
  have hlen : x.schedule.toList.length = 16 := by simp
  unfold TariffSet.conflictFault
  rw [Option.map_eq_none_iff, List.find?_eq_none, List.pairwise_iff_getElem]
  constructor
  · intro h m n hm hn hmn
    have hn16 : n < 16 := hlen ▸ hn
    exact (hbelow n).mp (by simpa using h n (by simpa using hn16)) m hmn hn
  · intro h n _
    simpa using (hbelow n).mpr fun m hmn hn => h m n (Nat.lt_trans hmn hn) hn hmn

/-- What R7 asks of a set, class by class. -/
theorem TariffSet.valid_iff (x : TariffSet) :
    x.valid = true ↔
      (∃ p, x.params = some p ∧ p.inRange = true ∧ x.names p.defaultTariff = true)
        ∧ (∀ t, some t ∈ x.tariffs.toList → t.inRange = true)
        ∧ (∀ y, some y ∈ x.schedule.toList → y.inRange = true ∧ x.names y.tariff = true)
        ∧ (∀ y, some y ∈ x.extras.toList → y.inRange = true)
        ∧ x.schedule.toList.Pairwise fun e f => agreeable e f = true := by
  unfold TariffSet.valid
  simp only [Bool.and_eq_true, decide_eq_true_eq, Vector.all_eq_true_iff_forall_mem, and_assoc, ← Vector.mem_toList_iff]
  refine and_congr ?_ (and_congr ?_ (and_congr ?_ (and_congr ?_ Iff.rfl)))
  · cases x.params with
    | none => simp
    | some p => simp [TariffSet.names]
  all_goals
    constructor
    · intro h y hy
      simpa [TariffSet.names] using h (some y) hy
    · intro h e he
      cases e with
      | none => rfl
      | some y => simpa [TariffSet.names] using h y he

/-- A tariff that is named is there. -/
theorem TariffSet.some_tariff_of_names (x : TariffSet) (n : Nat) (h : x.names n = true) : x.tariffs.toList.all Option.isNone = false := by
  rw [List.all_eq_false]
  obtain ⟨t, ht⟩ := Option.isSome_iff_exists.mp h
  have hmem : some t ∈ x.tariffs := Vector.mem_of_getElem? (Option.join_eq_some_iff.mp ht)
  exact ⟨some t, by simpa using hmem, by simp⟩

theorem TariffSet.rangeFault_eq_none_iff (x : TariffSet) :
    x.rangeFault = none ↔
      (∀ p, x.params = some p → p.inRange = true) ∧ (∀ t, some t ∈ x.tariffs.toList → t.inRange = true)
        ∧ (∀ y, some y ∈ x.schedule.toList → y.inRange = true) ∧ ∀ y, some y ∈ x.extras.toList → y.inRange = true := by
  simp only [← firstFailing_eq_none_iff]
  unfold TariffSet.rangeFault
  cases x.params <;> cases firstFailing Tariff.inRange x.tariffs.toList <;> cases firstFailing Schedule.inRange x.schedule.toList <;>
    simp <;> split_ifs <;> simp_all

theorem TariffSet.referenceFault_eq_none_iff (x : TariffSet) :
    x.referenceFault = none ↔
      (∀ p, x.params = some p → x.names p.defaultTariff = true) ∧ ∀ y, some y ∈ x.schedule.toList → x.names y.tariff = true := by
  rw [← firstFailing_eq_none_iff fun y : Schedule => x.names y.tariff]
  unfold TariffSet.referenceFault
  cases x.params
  · simp
  · simp only [Option.some.injEq, forall_eq']
    split_ifs <;> simp_all

/-- A commit is accepted exactly in the shift CLOSED, under the check of the staged set, for a set that may be in force (R7). -/
theorem commitFault_eq_none_iff (shift : ShiftState) (x : TariffSet) (check : BitVec 16) :
    commitFault shift x check = none ↔ shift = .closed ∧ crc16 x.serialize = check ∧ x.valid = true := by
  have hclasses : commitFault shift x check = none ↔
      shift = .closed ∧ crc16 x.serialize = check ∧ x.params.isNone = false ∧ x.tariffs.toList.all Option.isNone = false
        ∧ x.rangeFault = none ∧ x.referenceFault = none ∧ x.conflictFault = none := by
    unfold commitFault
    cases x.rangeFault <;> cases x.referenceFault <;> split_ifs <;> simp_all [Option.isSome_iff_ne_none]
  rw [hclasses, x.rangeFault_eq_none_iff, x.referenceFault_eq_none_iff, conflictFault_eq_none_iff, x.valid_iff]
  constructor
  · rintro ⟨hs, hc, hp, -, ⟨hpr, htr, hsr, hxr⟩, ⟨hpn, hsn⟩, hpw⟩
    cases hx : x.params with
    | none => simp [hx] at hp
    | some p => exact ⟨hs, hc, ⟨p, rfl, hpr p hx, hpn p hx⟩, htr, fun y hy => ⟨hsr y hy, hsn y hy⟩, hxr, hpw⟩
  · rintro ⟨hs, hc, ⟨p, hp, hpr, hpn⟩, htr, hsy, hxr, hpw⟩
    refine ⟨hs, hc, by simp [hp], x.some_tariff_of_names _ hpn, ⟨?_, htr, fun y hy => (hsy y hy).1, hxr⟩,
      ⟨?_, fun y hy => (hsy y hy).2⟩, hpw⟩
    · rintro q hq
      rw [hp] at hq; cases hq; exact hpr
    · rintro q hq
      rw [hp] at hq; cases hq; exact hpn

/-! ### The invariant -/

theorem State.tariffSound_congr {s t : State} (h : t.tariff.standing = s.tariff.standing) : t.tariffSound = s.tariffSound := by
  simp only [TariffStore.standing, Prod.mk.injEq] at h
  obtain ⟨hset, hid, hchanges⟩ := h
  simp [State.tariffSound, hset, hid, hchanges]

theorem actLoadCommit_tariffSound (check : BitVec 16) (s : State) (h : s.tariffSound = true) :
    (actLoadCommit check s).1.tariffSound = true := by
  unfold actLoadCommit
  split
  · exact h
  · rename_i x _
    split
    · exact h
    · rename_i hfault
      obtain ⟨-, -, hvalid⟩ := (commitFault_eq_none_iff _ _ _).mp hfault
      obtain ⟨⟨p, hp, -⟩, -⟩ := x.valid_iff.mp hvalid
      simp [State.tariffSound, installSet, hvalid, hp, saturate]

theorem tariffSound_rules : EventRules (fun s => s.tariffSound = true) (fun s => s.tariffSound = true) := by
  have keep : ∀ {s t : State}, t.tariff = s.tariff → s.tariffSound = true → t.tariffSound = true := fun h hs => by
    rwa [State.tariffSound_congr (congrArg TariffStore.standing h)]
  constructor
  case action =>
    intro r q act s hdoes h
    by_cases hr : r = .loadCommit
    · subst hr
      cases hdoes
      exact actLoadCommit_tariffSound _ s h
    · exact (State.tariffSound_congr (hdoes.standing s hr)).trans h
  case tick => exact fun b s h => (State.tariffSound_congr (takeTick_standing b s)).trans h
  case park => exact fun s _ h => (State.tariffSound_congr (parkHub_standing s)).trans h
  all_goals intros
  case weaken => assumption
  all_goals refine keep ?_ ‹_›
  case checkError => unfold failCheck; split <;> rfl
  all_goals simp
end Sys2Proof.Machine
end

