-- ==== Sys2Proof/Proofs/StandingWhileOpen.lean ====
section
/-! PROOFS. The statement `TariffSoundKept`, and what leaves the payment policy and the state of the shift, with the statement `SetAndPolicyStandWhileOpen`. -/
namespace Sys2Proof.Machine

/-- Settles O6: the set in force changes at an accepted commit alone, which R7 lets pass for valid sets only. -/
theorem tariffSoundKept : Obligations.TariffSoundKept := by
  unfold Obligations.TariffSoundKept
  exact step_keeps tariffSound_rules (by decide) (by decide) fun s p h => h

/-! ### The policy -/

@[simp] theorem State.setHead_policy (s : State) (r : Record) : (s.setHead r).payment.policy = s.payment.policy := rfl
@[simp] theorem idleUpload_policy (s : State) : (idleUpload s).payment.policy = s.payment.policy := rfl
@[simp] theorem countUnmatched_policy (s : State) : (countUnmatched s).payment.policy = s.payment.policy := rfl
@[simp] theorem promote_policy (s : State) : (promote s).payment.policy = s.payment.policy := by
  unfold promote; split <;> rfl
@[simp] theorem removeHead_policy (s : State) : (removeHead s).payment.policy = s.payment.policy := by
  simp [removeHead]
@[simp] theorem cancelRecord_policy (i : Fin 4) (c : CancelCause) (s : State) : (cancelRecord i c s).payment.policy = s.payment.policy := by
  unfold cancelRecord; dsimp only; split <;> split <;> simp
@[simp] theorem uploadHead_policy (s : State) : (uploadHead s).payment.policy = s.payment.policy := by
  unfold uploadHead; split <;> rfl
@[simp] theorem sendUpload_policy (s : State) : (sendUpload s).payment.policy = s.payment.policy := by
  unfold sendUpload; split <;> simp
@[simp] theorem appendEntry_policy (e : StoreEntry) (s : State) : (appendEntry e s).payment.policy = s.payment.policy := by
  unfold appendEntry; dsimp only; split <;> simp [notifyStore]
@[simp] theorem takeStage_policy (x : CardStage) (r : Record) (s : State) : (takeStage x r s).payment.policy = s.payment.policy := by
  unfold takeStage; split <;> simp
@[simp] theorem takeCardStage_policy (fields : List Byte) (s : State) : (takeCardStage fields s).payment.policy = s.payment.policy := by
  unfold takeCardStage; repeat' split
  all_goals simp
@[simp] theorem takeUploadAck_policy (fields : List Byte) (s : State) : (takeUploadAck fields s).payment.policy = s.payment.policy := by
  unfold takeUploadAck; repeat' split
  all_goals simp [notifyStore]
@[simp] theorem decideOffline_policy (r : Record) (x : Ask) (s : State) : (decideOffline r x s).payment.policy = s.payment.policy := by
  unfold decideOffline; split <;> simp [approveOffline, refuseOffline]
@[simp] theorem takeAuthAsk_policy (fields : List Byte) (s : State) : (takeAuthAsk fields s).payment.policy = s.payment.policy := by
  simp only [takeAuthAsk]; repeat' split
  all_goals simp [forwardAsk]
@[simp] theorem takeAuthAnswer_policy (fields : List Byte) (s : State) : (takeAuthAnswer fields s).payment.policy = s.payment.policy := by
  unfold takeAuthAnswer; repeat' split
  all_goals simp [answerApproved, answerDeclined]
@[simp] theorem offerExpiry_policy (s : State) : (offerExpiry s).payment.policy = s.payment.policy := by
  unfold offerExpiry; repeat' split
  all_goals simp
@[simp] theorem answerExpiry_policy (s : State) : (answerExpiry s).payment.policy = s.payment.policy := by
  unfold answerExpiry; repeat' split
  all_goals simp [answerTimedOut]
@[simp] theorem uploadExpiry_policy (s : State) : (uploadExpiry s).payment.policy = s.payment.policy := by
  unfold uploadExpiry; split <;> simp
@[simp] theorem cardLinkDown_policy (s : State) : (cardLinkDown s).payment.policy = s.payment.policy :=
  foldl_keeps (fun s : State => s.payment.policy) (fun s (r : Record) => cancelRecord r.slot .link s)
    (fun b a => cancelRecord_policy a.slot .link b) _ s
@[simp] theorem deliverUp_policy (q : Port) (o : Order) (s : State) : (deliverUp q o s).payment.policy = s.payment.policy := by
  unfold deliverUp; repeat' split
  all_goals simp
@[simp] theorem deliverDown_policy (q : Port) (s : State) : (deliverDown q s).payment.policy = s.payment.policy := by
  unfold deliverDown; split <;> simp
@[simp] theorem goUp_policy (q : Port) (o : Order) (s : State) : (goUp q o s).payment.policy = s.payment.policy := by
  simp [goUp, notifyLink]
@[simp] theorem goDown_policy (q : Port) (s : State) : (goDown q s).payment.policy = s.payment.policy := by
  simp [goDown, notifyLink]
@[simp] theorem shutPort_policy (q : Port) (s : State) : (shutPort q s).payment.policy = s.payment.policy := by
  unfold shutPort; dsimp only; split <;> simp
@[simp] theorem silenceExpiry_policy (q : Port) (s : State) : (silenceExpiry q s).payment.policy = s.payment.policy := by
  unfold silenceExpiry; repeat' split
  all_goals simp
@[simp] theorem settleSign_policy (s : State) : (settleSign s).payment.policy = s.payment.policy := by
  unfold settleSign; split <;> simp
@[simp] theorem wakeHub_policy (s : State) : (wakeHub s).payment.policy = s.payment.policy := by
  simp [wakeHub]
@[simp] theorem takeIgnitionFlag_policy (on : Bool) (s : State) : (takeIgnitionFlag on s).payment.policy = s.payment.policy := by
  unfold takeIgnitionFlag; dsimp only; split <;> simp
@[simp] theorem parkHub_policy (s : State) : (parkHub s).payment.policy = s.payment.policy := by
  unfold parkHub parkSignPort parkBlocks; dsimp only; split <;> simp

/-! ### The state of the shift -/

@[simp] theorem whileLive_shift_state (f : Totals → Totals) (s : State) : (whileLive f s).shift.state = s.shift.state := by
  unfold whileLive; split <;> rfl
@[simp] theorem State.setTotals_shift_state (s : State) (x : Totals) : (s.setTotals x).shift.state = s.shift.state := rfl
@[simp] theorem appendEntry_shift_state (e : StoreEntry) (s : State) : (appendEntry e s).shift.state = s.shift.state := by
  unfold appendEntry; dsimp only; split <;> simp [notifyStore]
@[simp] theorem takeUploadAck_shift_state (fields : List Byte) (s : State) : (takeUploadAck fields s).shift.state = s.shift.state := by
  simp
@[simp] theorem decideOffline_shift_state (r : Record) (x : Ask) (s : State) : (decideOffline r x s).shift.state = s.shift.state := by
  unfold decideOffline; split <;> simp [approveOffline]
@[simp] theorem takeAuthAsk_shift_state (fields : List Byte) (s : State) : (takeAuthAsk fields s).shift.state = s.shift.state := by
  simp only [takeAuthAsk]; repeat' split
  all_goals simp
@[simp] theorem answerExpiry_shift_state (s : State) : (answerExpiry s).shift.state = s.shift.state := by
  unfold answerExpiry; repeat' split
  all_goals simp [answerTimedOut]
@[simp] theorem takeCount_shift_state (n : Nat) (s : State) : (takeCount n s).shift.state = s.shift.state := by
  unfold takeCount dropDelta applyDelta handPulses; dsimp only; repeat' split
  all_goals simp [notifyMotion]
@[simp] theorem takeSignStat_shift_state (payload : List Byte) (s : State) : (takeSignStat payload s).shift.state = s.shift.state := by
  unfold takeSignStat takeHealth; dsimp only; repeat' split
  all_goals simp
@[simp] theorem takeTick_shift_state (b : Bool) (s : State) : (takeTick b s).shift.state = s.shift.state := by
  unfold takeTick; dsimp only; split <;> simp
@[simp] theorem parkHub_shift_state (s : State) : (parkHub s).shift.state = s.shift.state := by
  simp [parkHub, parkBlocks]

/-! ### What stands while the shift is open -/

/-- What no command changes while the shift is OPEN or on BREAK (R8, R85). -/
def State.standing (s : State) : (TariffSet × Nat × Nat) × Policy :=
  (s.tariff.standing, s.payment.policy)

theorem RequestName.Does.policy {r : RequestName} {port : Port} {act : Action} (h : r.Does port act) (s : State) (hr : r ≠ .policySet) :
    (act s).1.payment.policy = s.payment.policy := by
  by_cases hp : .payment ∈ r.reach
  · cases h <;> simp only [reach, List.mem_cons, reduceCtorEq, List.not_mem_nil, or_false, or_self, or_true, ne_eq, not_true_eq_false] at hp hr
    all_goals
      simp only [actOfferCard, actCancelCard, actRefusalAdd, actRefusalRemove, actRefusalClear, actPayStatus, withList, onSlot]
      repeat' split
      all_goals simp [offerTaken]
  · have hc := h.changesOnly s
    simp only [State.changesOnly, hp, false_or] at hc
    obtain ⟨-, -, -, -, -, -, hpayment, -⟩ := hc
    rw [hpayment]

/-- With the shift OPEN or on BREAK a commit and a new policy are refused (R7, R85). -/
theorem RequestName.Does.state_standing {r : RequestName} {port : Port} {act : Action} (h : r.Does port act) (s : State)
    (hs : s.shift.state ≠ .closed) : (act s).1.standing = s.standing := by
  unfold State.standing
  by_cases hc : r = .loadCommit
  · subst hc
    rw [h.policy s (by simp)]
    cases h
    unfold actLoadCommit
    split
    · rfl
    · split
      · rfl
      · rename_i hfault
        exact absurd ((commitFault_eq_none_iff _ _ _).mp hfault).1 hs
  · rw [h.standing s hc]
    by_cases hp : r = .policySet
    · subst hp
      cases h
      simp [actPolicySet, hs]
    · rw [h.policy s hp]

theorem standing_rules (x : (TariffSet × Nat × Nat) × Policy) :
    EventRules (fun s => s.standing = x ∧ s.shift.state ≠ .closed) (fun s => s.standing = x) := by
  constructor
  case weaken => exact fun s h => h.1
  case action => exact fun r q act s hdoes h => (hdoes.state_standing s h.2).trans h.1
  all_goals intros
  case settle h => simpa [State.standing] using h
  case reply h => simpa [State.standing] using h
  case checkError h => unfold failCheck; split <;> simpa [State.standing] using h
  all_goals simpa [State.standing]

/-- Settles O14: the set is written by a commit and the policy by POLICY_SET alone, and an open shift refuses both. -/
theorem setAndPolicyStandWhileOpen : Obligations.SetAndPolicyStandWhileOpen := by
  unfold Obligations.SetAndPolicyStandWhileOpen
  intro c s t hs hreset hlost ht
  have h := (standing_rules s.standing).exec c s t hreset hlost ⟨rfl, hs⟩ ht
  simp only [State.standing, TariffStore.standing, Prod.mk.injEq] at h
  obtain ⟨⟨hset, hid, hchanges⟩, hpolicy⟩ := h
  exact ⟨hset, hid, hchanges, hpolicy⟩

end Sys2Proof.Machine
end

