-- ==== Sys2Proof/Proofs/PortProperties.lean ====
section
/-! PROOFS. Properties of the ports that placing frames keeps, through every event that does no more to the link switch than that. -/
set_option Elab.async false
namespace Sys2Proof.Machine

/-- A property of the ports that placing a frame in a general lane, a counted discard and the emptying of a voice lane keep. -/
structure SendClosed (I : Port → PortState → Prop) : Prop where
  place : ∀ q x f, I q x → I q (x.placeGeneral f).1
  discard : ∀ q x, I q x → I q x.countDiscard
  purge : ∀ q x, I q x → I q { x with voice := [] }

/-- A property of the ports that placing a frame in the voice lane of a listed port keeps. -/
def VoiceClosed (qs : List Port) (I : Port → PortState → Prop) : Prop :=
  ∀ q ∈ qs, ∀ x f, I q x → I q (x.placeVoice f)

/-- Every port has a property that placing frames keeps. -/
structure State.Ports (s : State) (I : Port → PortState → Prop) : Prop where
  closed : SendClosed I
  holds : ∀ q, I q (s.port q)

theorem foldl_preserves {α β : Type} (P : β → Prop) (f : β → α → β) (h : ∀ b a, P b → P (f b a)) (xs : List α) (b : β) (hb : P b) :
    P (xs.foldl f b) := by
  induction xs generalizing b with
  | nil => exact hb
  | cons x xs ih => exact ih _ (h _ _ hb)

namespace State.Ports

variable {I : Port → PortState → Prop} {s s' : State} (h : s.Ports I)

theorem ite {c : Prop} [Decidable c] (h : s.Ports I) (h' : s'.Ports I) : (if c then s else s').Ports I := by
  split
  · exact h
  · exact h'

include h

/-- The ports are those of the link switch. -/
theorem same {t : State} (hl : t.link = s.link := by rfl) : t.Ports I where
  closed := h.closed
  holds q := by
    have hp : t.port q = s.port q := congrArg (fun x : LinkSwitch => x.ports.get q) hl
    exact hp ▸ h.holds q

theorem setPayment {x : PaymentUnit} : (s.setPayment x).Ports I := h.same
theorem setIntercom {x : IntercomUnit} : (s.setIntercom x).Ports I := h.same
theorem setTotals {x : Totals} : (s.setTotals x).Ports I := h.same
theorem markMotionLost : (markMotionLost s).Ports I := h.same
theorem setLastCount {n : Nat} : (setLastCount n s).Ports I := h.same

theorem setPort {q : Port} {x : PortState} (hx : I q x) : (s.setPort q x).Ports I where
  closed := h.closed
  holds r := by
    by_cases hr : r = q
    · subst hr
      simpa using hx
    · exact (State.port_setPort_other s q r x hr).symm ▸ h.holds r

/-! ### Lanes and notices -/

theorem emit {q : Port} {f : Frame} : (emit q f s).Ports I := h.setPort (h.closed.place _ _ _ (h.holds q))
theorem emitVoice {q : Port} {f : Frame} {qs : List Port} (hv : VoiceClosed qs I) (hq : q ∈ qs) : (emitVoice q f s).Ports I :=
  h.setPort (hv q hq _ _ (h.holds q))
theorem purgeVoice {q : Port} : (purgeVoice q s).Ports I := h.setPort (h.closed.purge _ _ (h.holds q))
theorem countDiscard {q : Port} : (countDiscard q s).Ports I := h.setPort (h.closed.discard _ _ (h.holds q))
theorem notifyC {n : Notice} {fields : List Byte} : (notifyC n fields s).Ports I :=
  (h.emit (q := .c) (f := noticeFrame s.request.seqC n fields)).same
theorem notifyD {n : Notice} {fields : List Byte} : (notifyD n fields s).Ports I :=
  (h.emit (q := .d) (f := noticeFrame s.request.seqD n fields)).same
theorem notifyBoth {n : Notice} {fields : List Byte} : (notifyBoth n fields s).Ports I := h.notifyC.notifyD
theorem reportDiscard {q : Port} {r : DiscardReason} {n : Option Port} {k : Byte} {b c : Bool} :
    (reportDiscard q r n k b c s).Ports I := .ite h.notifyC h
theorem discardAtIngress {q : Port} {r : DiscardReason} {f : Frame} {b : Bool} : (discardAtIngress q r f b s).Ports I :=
  h.countDiscard.reportDiscard
theorem placeCopy {i q : Port} {f : Frame} {b c : Bool} : (placeCopy i q f b c s).Ports I := by
  have hplaced := h.emit (q := q) (f := f)
  unfold Machine.placeCopy
  dsimp only
  split
  · exact hplaced
  · exact hplaced.reportDiscard

/-! ### Sign -/

theorem repaintSign : (repaintSign s).Ports I := (h.emit (q := .s) (f := signFrame s.sign.output)).same
theorem compose : (compose s).Ports I := .ite h (.ite (.repaintSign h.same) h.same)
theorem signCount : (signCount s).Ports I := .ite h (.ite (.ite h.compose.same h.compose.repaintSign) h.compose)
theorem deriveSign : (deriveSign s).Ports I := .compose h.same
theorem deliverParties : (deliverParties s).Ports I := .deriveSign h.same
theorem deliverShift : (deliverShift s).Ports I := .deriveSign h.same
theorem signLinkUp : (signLinkUp s).Ports I := .ite h h.repaintSign
theorem parkSign : (parkSign s).Ports I := by
  have hdark : (if s.isUp .s then Machine.emit .s (signFrame .dark) s else s).Ports I := .ite h.emit h
  exact hdark.same

/-! ### Fare engine -/

theorem showConsole : (showConsole s).Ports I := .ite h.emit h
theorem showPassenger : (showPassenger s).Ports I := .ite h.emit h
theorem showViews {c p : Bool} : (showViews c p s).Ports I := by
  have hc : (if c then Machine.showConsole s else s).Ports I := .ite h.showConsole h
  exact .ite hc.showPassenger hc
theorem showChanges {before : State} : (showChanges before s).Ports I := h.showViews
theorem handOff {i : Fin 4} {n : Nat} : (handOff i n s).Ports I := .ite h.notifyC.deliverParties h.notifyC.deliverParties.same
theorem moveParty {i : Fin 4} {p : Party} : (moveParty i p s).Ports I := .handOff h.same
theorem offerTaken {i : Fin 4} : (offerTaken i s).Ports I := h.moveParty.showChanges
theorem paymentReleased {i : Fin 4} : (paymentReleased i s).Ports I := h.moveParty.showChanges
theorem postedOnline {i : Fin 4} {base tip : Nat} : (postedOnline i base tip s).Ports I := h.moveParty.showChanges
theorem postedOffline {i : Fin 4} {base tip : Nat} : (postedOffline i base tip s).Ports I := h.moveParty.showChanges

/-! ### Milestones -/

theorem switchTariff {i : Fin 4} {t : Nat} : (switchTariff i t s).1.Ports I := by
  unfold Machine.switchTariff
  split
  · exact h
  · exact .showChanges h.same
theorem milestoneExtra {i : Fin 4} {x : Nat} : (milestoneExtra i x s).1.Ports I := by
  unfold Machine.milestoneExtra
  split
  · split
    · exact h
    · exact .showChanges h.same
  · exact h
theorem fireAction {i : Fin 4} {m : Milestone} : (fireAction i m s).1.Ports I := by
  unfold Machine.fireAction
  split
  · exact h
  · exact h.switchTariff
  · exact h.milestoneExtra
theorem runPass {i : Fin 4} {q : Quantity} : (runPass i q s).Ports I := by
  rw [runPass_eq]
  exact foldl_preserves (fun s : State => s.Ports I) (passStep i q) (fun s e h => .ite (.notifyC (.fireAction h.same)) h) entries s h
theorem fareChange {i : Fin 4} {f : Nat} : (fareChange i f s).Ports I := .ite h h.runPass
theorem retariffAuto {t : Nat} {i : Fin 4} : (retariffAuto t s i).Ports I := .ite (.ite (.fareChange h.same) h.same) h
theorem tariffChange {t : Nat} : (tariffChange t s).Ports I :=
  .showChanges (foldl_preserves (fun s : State => s.Ports I) _ (fun _ _ h => h.retariffAuto) slots s h)

/-! ### Chimes and the band -/

theorem triggerChime {c : ChimeId} : (triggerChime c s).Ports I := .ite h.same h
theorem changeBand {b : Option Nat} : (changeBand b s).Ports I := by
  have hnotice : (Machine.notifyC .band [bandByte b] (s.setTariff { s.tariff with band := b })).Ports I := .notifyC h.same
  unfold Machine.changeBand
  cases b
  · exact .ite hnotice.triggerChime hnotice
  · exact .ite hnotice.tariffChange.triggerChime hnotice.tariffChange
theorem evaluateBand : (evaluateBand s).Ports I := .ite h h.changeBand
theorem minuteBoundary : (minuteBoundary s).Ports I := .ite h.evaluateBand h

/-! ### Trips -/

theorem whileLive {f : Totals → Totals} : (whileLive f s).Ports I := .ite h.same h
theorem vacate {i : Fin 4} : (vacate i s).Ports I := .handOff h.same
theorem openTrip {i : Fin 4} {t : TariffArg} {st : Station} : (openTrip i t st s).Ports I := by
  have hshared : (if (s.stepped (newParty s t st)).shared then markShared s else s).Ports I := .ite h.same h
  exact .runPass hshared.same
theorem meterParty {q : Quantity} {g : Party → Party} {i : Fin 4} : (meterParty q g s i).Ports I :=
  .ite (.ite (.runPass h.same) (.runPass (.runPass h.same))) h
theorem meterEach {q : Quantity} {g : State → Party → Party} {c p : Bool} (is : List (Fin 4)) :
    (meterEach q g is (s, c, p)).1.Ports I := by
  induction is generalizing s c p with
  | nil => exact h
  | cons i is ih => exact ih h.meterParty
theorem meterAll {q : Quantity} {g : State → Party → Party} : (meterAll q g s).Ports I := .showViews (.meterEach h slots)
theorem fareTick : (fareTick s).Ports I := h.meterAll
theorem resync {n : Nat} : (resync n s).Ports I := .showChanges (.markMotionLost (.notifyBoth h.setLastCount))
theorem dropDelta {n : Nat} : (dropDelta n s).Ports I := .showChanges (.markMotionLost (.whileLive (.notifyBoth h.setLastCount)))
theorem applyDelta {n d : Nat} : (applyDelta n d s).Ports I := .ite h.same (.whileLive (.meterAll h.same))
theorem takeCount {n : Nat} : (takeCount n s).Ports I := .ite h.resync (.ite h.dropDelta h.applyDelta)
theorem takeTick {b : Bool} : (takeTick b s).Ports I := by
  unfold Machine.takeTick
  exact .setTotals (.ite (.fareTick (.minuteBoundary h.same)) (.minuteBoundary (.fareTick h.same)))

/-! ### The payment unit -/

theorem notifyPay {i : Fin 4} {r : PayResult} {c : Byte} {u : Bool} : (notifyPay i r c u s).Ports I := h.notifyC
theorem promote : (promote s).Ports I := by
  unfold Machine.promote
  split
  · exact h
  · exact State.Ports.same (.emit (q := .k) h.same)
theorem removeHead : (removeHead s).Ports I := .promote h.same
theorem cancelRecord {i : Fin 4} {c : CancelCause} : (cancelRecord i c s).Ports I := by
  have hreleased := h.paymentReleased (i := i)
  have htold : (Machine.notifyPay i .cancelled (causeCode c) false
      (if s.headAt i = true ∧ c ≠ .link then Machine.emit .k (payFrame .chargeWithdraw [byte i.val]) (Machine.paymentReleased i s)
        else Machine.paymentReleased i s)).Ports I := .notifyPay (.ite hreleased.emit hreleased)
  exact .ite (.removeHead htold.same) htold.same
theorem takeStage {x : CardStage} {r : Record} : (takeStage x r s).Ports I := by
  unfold Machine.takeStage pinStarted
  split
  · exact .purgeVoice (.purgeVoice h.same)
  · exact h.same
  · exact h.cancelRecord
  · exact h.cancelRecord
  · exact h
theorem takeCardStage {fields : List Byte} : (takeCardStage fields s).Ports I := by
  unfold Machine.takeCardStage
  split
  · split
    · exact .ite h.takeStage h
    · exact h
  · exact h
theorem offerExpiry : (offerExpiry s).Ports I := by
  unfold Machine.offerExpiry
  split
  · exact .ite h.cancelRecord h
  · exact h
theorem uploadHead : (uploadHead s).Ports I := by
  unfold Machine.uploadHead
  split
  · exact h
  · exact State.Ports.same (h.emit (q := .d))
theorem sendUpload : (sendUpload s).Ports I := .ite h.uploadHead h
theorem appendEntry {e : StoreEntry} : (appendEntry e s).Ports I := .sendUpload (.ite (.notifyD h.same) h.same)
theorem takeUploadAck {fields : List Byte} : (takeUploadAck fields s).Ports I := by
  unfold Machine.takeUploadAck
  split
  · exact h.same
  · exact .ite (.sendUpload (.ite (.notifyD h.same) h.same)) h.same
theorem uploadExpiry : (uploadExpiry s).Ports I := by
  unfold Machine.uploadExpiry
  split
  · exact h.uploadHead
  · exact h
theorem authResult {n : Byte} {r : AuthResult} {c : Byte} {t : BitVec 32} {x y : Nat} : (authResult n r c t x y s).Ports I := h.emit
theorem forwardAsk {r : Record} {x : Ask} : (forwardAsk r x s).Ports I := by
  unfold Machine.forwardAsk
  exact State.Ports.same (.emit (q := .d) h.same)
theorem approveOffline {r : Record} {x : Ask} : (approveOffline r x s).Ports I :=
  .removeHead (.notifyPay (.triggerChime (.authResult (.postedOffline (.setTotals (.appendEntry h.setPayment))))))
theorem refuseOffline {r : Record} {x : Ask} {c : OfflineReason} : (refuseOffline r x c s).Ports I :=
  .removeHead (.notifyPay (.paymentReleased (.authResult h.same)))
theorem decideOffline {r : Record} {x : Ask} : (decideOffline r x s).Ports I := by
  unfold Machine.decideOffline
  split
  · exact h.refuseOffline
  · exact h.approveOffline
theorem takeAuthAsk {fields : List Byte} : (takeAuthAsk fields s).Ports I := by
  unfold Machine.takeAuthAsk
  split
  · exact h
  · split
    · exact h.authResult
    · exact .ite h.authResult (.ite h.authResult (.ite h.forwardAsk h.decideOffline))
theorem answerApproved {r : Record} : (answerApproved r s).Ports I :=
  .removeHead (.notifyPay (.triggerChime (.authResult (.postedOnline h.same))))
theorem answerDeclined {r : Record} : (answerDeclined r s).Ports I :=
  .removeHead (.notifyPay (.authResult (.paymentReleased h.same)))
theorem takeAuthAnswer {fields : List Byte} : (takeAuthAnswer fields s).Ports I := by
  unfold Machine.takeAuthAnswer
  split
  · split
    · exact h.answerApproved
    · exact h.answerDeclined
    · exact h.same
  · exact h
theorem answerTimedOut {r : Record} : (answerTimedOut r s).Ports I :=
  .removeHead (.notifyPay (.paymentReleased (.appendEntry (.authResult h.same))))
theorem answerExpiry : (answerExpiry s).Ports I := by
  unfold Machine.answerExpiry
  split
  · exact .ite h.answerTimedOut h
  · exact h
theorem cardLinkDown : (cardLinkDown s).Ports I :=
  foldl_preserves (fun s : State => s.Ports I) (fun s (r : Record) => Machine.cancelRecord r.slot .link s)
    (fun _ _ h => h.cancelRecord) _ s h

/-! ### The intercom unit -/

theorem callRise {st : Station} : (callRise st s).Ports I := by
  unfold Machine.callRise
  dsimp only
  split
  · exact .setIntercom (.notifyC (.triggerChime h.same))
  · exact .ite h (.setIntercom (.notifyC (.triggerChime h.same)))
  · exact .ite h (.notifyC (.triggerChime h.same))
  · exact .ite h (.notifyC h.same)
theorem talkRise : (talkRise s).Ports I := by
  unfold Machine.talkRise
  dsimp only
  split <;> exact h.same
theorem talkFall : (talkFall s).Ports I := by
  unfold Machine.talkFall
  dsimp only
  split
  · exact .ite h.same (.triggerChime h.same)
  · exact h
theorem notifyMissed {x : StationSet} : (notifyMissed x s).Ports I := by
  have hleft : (if x.left then Machine.notifyC .missed [enc Station.all .left] s else s).Ports I := .ite h.notifyC h
  exact .ite hleft.notifyC hleft
theorem callExpiry : (callExpiry s).Ports I := .ite (.notifyMissed h.same) h
theorem tripClosedAt {st : Station} : (tripClosedAt st s).Ports I := .ite (.ite h.same h.same) h
theorem intercomPartitionDown : (intercomPartitionDown s).Ports I := h.notifyMissed.same
theorem intercomConsoleDown : (intercomConsoleDown s).Ports I := h.talkFall.same
theorem takeButtons {x y : Bool} : (takeButtons x y s).Ports I := by
  have hleft : (if x && !s.intercom.seenLeft then Machine.callRise .left s else s).Ports I := .ite h.callRise h
  exact State.Ports.same (State.Ports.ite (s := Machine.callRise .right (if x && !s.intercom.seenLeft then Machine.callRise .left s else s))
    hleft.callRise hleft)
theorem takeTalkKey {x : Bool} : (takeTalkKey x s).Ports I :=
  (State.Ports.ite h.talkRise (.ite h.talkFall h)).same
theorem formDriverBlock {l r : List Int} (hv : VoiceClosed [.c] I) : (formDriverBlock l r s).Ports I :=
  .ite ((h.emitVoice (q := .c) hv (by simp)).same) h
theorem formPartitionBlock {d : List Int} (hv : VoiceClosed [.p] I) : (formPartitionBlock d s).Ports I :=
  .ite ((h.emitVoice (q := .p) hv (by simp)).same) h
theorem formListenBlock {l r : List Int} (hv : VoiceClosed [.d] I) : (formListenBlock l r s).Ports I :=
  .ite ((h.emitVoice (q := .d) hv (by simp)).same) h
theorem takeAudioC {payload : List Byte} (hv : VoiceClosed [.p] I) : (takeAudioC payload s).Ports I := by
  unfold Machine.takeAudioC
  split
  · exact h
  · exact h.takeTalkKey.formPartitionBlock hv
theorem deliverEmergency {b : Bool} : (deliverEmergency b s).Ports I := .ite h.same (.purgeVoice h.same)

/-! ### The emergency latch, links and copies -/

theorem notifyEmergency {b : Bool} : (notifyEmergency b s).Ports I := .ite h.notifyD h
theorem changeLatch {b : Bool} : (changeLatch b s).Ports I :=
  .notifyEmergency (.same (.deliverEmergency (b := b) (.deriveSign (h.same (t := { s with sign := { s.sign with latch := b } })))))
theorem takeAlarm {b : Bool} : (takeAlarm b s).Ports I := .ite (.changeLatch h.same) h.same
theorem emergencyLinkUp : (emergencyLinkUp s).Ports I := .ite h.notifyEmergency h
theorem notifyLink {q : Port} {b : Bool} : (notifyLink q b s).Ports I := h.notifyBoth
theorem deliverUp {q : Port} {o : Order} : (deliverUp q o s).Ports I := by
  cases q
  · exact .ite h.emergencyLinkUp.sendUpload h.sendUpload.emergencyLinkUp
  · exact h.showConsole
  · exact h.showPassenger
  · exact h
  · exact h.signLinkUp
  · exact h
theorem deliverDown {q : Port} : (deliverDown q s).Ports I := by
  cases q
  · exact h.same
  · exact h.intercomConsoleDown
  · exact h.intercomPartitionDown
  · exact h.cardLinkDown
  · exact h
  · exact h
theorem placeCopies {i : Port} {t : PortSet} {f : Port → Frame} {report parked : Bool} : (placeCopies i t f report parked s).Ports I :=
  foldl_preserves (fun s : State => s.Ports I) _ (fun _ _ h => .ite h.placeCopy h) Port.all s h
theorem copyTelemetry {q : Port} {f : Frame} {parked : Bool} : (copyTelemetry q f parked s).Ports I := h.placeCopies
theorem routePass {q : Port} {f : Frame} {parked : Bool} : (routePass q f parked s).Ports I := by
  unfold Machine.routePass
  dsimp only
  split
  · exact h.discardAtIngress
  · exact h.placeCopies
theorem takeSignStat {payload : List Byte} : (takeSignStat payload s).Ports I := by
  unfold Machine.takeSignStat takeHealth
  split
  · split
    · exact .ite h (.ite (.whileLive (.notifyBoth h.same)) (.notifyBoth h.same))
    · exact h
  · exact h
theorem takeCadence {b : Bool} : (takeCadence b s).Ports I := by
  have hcount : (if b then countCadence (Machine.signCount s) else Machine.signCount (countCadence s)).Ports I :=
    .ite h.signCount.same (.signCount h.same)
  exact .ite hcount.same hcount

/-! ### Requests -/

theorem onSlot {n : Byte} {takes : PartyState → Bool} {act : Fin 4 → Action} (hact : ∀ i, (act i s).1.Ports I) :
    (onSlot n takes act s).1.Ports I := by
  unfold Machine.onSlot
  repeat' split
  · exact h
  · exact hact _
  · exact h

/-- A request that does not write the link switch itself does no more to it than place frames. -/
theorem does {r : RequestName} {port : Port} {act : Action} (hr : r.Does port act) (hl : .link ∉ r.reach) : (act s).1.Ports I := by
  cases hr
  case routeSet => simp [RequestName.reach] at hl
  case portStatus => simp [RequestName.reach] at hl
  case loadCommit =>
    unfold actLoadCommit
    repeat' split
    · exact h
    · exact h.same
    · exact .evaluateBand h.same
  case setClock =>
    unfold actSetClock
    split
    · exact h
    · exact .evaluateBand h.same
  case hire =>
    unfold actHire
    repeat' split
    · exact h
    · exact h
    · exact .showChanges (.handOff h.evaluateBand.openTrip)
  case total => exact h.onSlot fun i => .showChanges (.moveParty h)
  case resume =>
    refine h.onSlot fun i => ?_
    dsimp only
    split
    · exact h
    · exact .showChanges (.handOff (.fareChange h.same))
  case void =>
    refine h.onSlot fun i => ?_
    dsimp only
    split
    · exact .showChanges (.vacate h.setTotals)
    · exact h
  case payCash =>
    refine h.onSlot fun i => ?_
    dsimp only
    split
    · exact h
    · exact .showChanges (.ite h.moveParty h.same)
  case closeTrip => exact h.onSlot fun i => .showChanges (.vacate (.tripClosedAt h.setTotals))
  case addExtra =>
    refine h.onSlot fun i => ?_
    dsimp only
    repeat' split
    · exact h
    · exact h
    · exact h
    · exact h
    · exact .showChanges h.same
    · exact .showChanges h.same
  case setTariff =>
    refine h.onSlot fun i => ?_
    dsimp only
    repeat' split
    · exact h
    · exact .showChanges (.fareChange h.same)
    · exact .showChanges h.same
  case setStation =>
    refine h.onSlot fun i => ?_
    dsimp only
    repeat' split
    · exact h
    · exact h
    · exact .showChanges h.same
  case share =>
    unfold actShare
    split
    · exact h
    · exact .ite h (.deliverParties h.same)
  case offerCard =>
    refine h.onSlot fun i => ?_
    dsimp only
    split
    · exact h
    · split
      · exact h
      · exact .ite (.promote (.setPayment h.offerTaken)) (.setPayment h.offerTaken)
  case cancelCard =>
    refine h.onSlot fun i => ?_
    repeat' split
    · exact h
    · exact h
    · exact h.cancelRecord
  case shiftOpen =>
    unfold actShiftOpen
    repeat' split
    · exact h
    · exact h
    · exact h
    · exact h
    · exact .notifyBoth (.deliverShift h.same)
  case shiftBreak =>
    unfold actShiftBreak
    repeat' split
    · exact h
    · exact h
    · exact .deliverShift h.same
  case shiftResume =>
    unfold actShiftResume
    split
    · exact h
    · exact .deliverShift h.same
  case shiftClose =>
    unfold actShiftClose
    repeat' split
    · exact h
    · exact h
    · exact .notifyBoth (.deriveSign h.same)
  case offDutyOverride => exact .deriveSign h.same
  case emergencyClear =>
    unfold actEmergencyClear
    split
    · exact h.changeLatch
    · exact h
  all_goals
    refine h.same ?_
    simp only [actLoadBegin, actLoadPart, actTariffRead, actTariffStatus, actSetCabId, actPartyRead, actMilestoneSet, actMilestoneRead,
      actPolicySet, actRefusalAdd, actRefusalRemove, actRefusalClear, actPayStatus, actTotalsRead, actTotalsThaw, actReportRead,
      actReportDrop, actViewSet, actImageSet, actStripesSet, actBlockSet, actSignStatus, actSignRead, actTimerSet,
      actComparatorSet, actTimerStart, actTimerStop, actTimerStopAtEnd, actTimerStatus, actLampWrite, actAnswer, actHangup, actGainsSet,
      actIntercomStatus, actChimeRead, actChimeSet, actRouteRead, withList, Machine.onSlot]
    repeat' split
    all_goals simp

end State.Ports
end Sys2Proof.Machine
end

