-- ==== Sys2Proof/Proofs/LinkSound.lean ====
section
/-! PROOFS. What a sound port is, the changes that keep it so, and the statement `LinkSoundKept`. -/
namespace Sys2Proof.Machine

/-! ### One port -/

theorem PortState.sound_iff (x : PortState) :
    x.sound = true ↔
      x.voice.length ≤ 4 ∧ x.general.length ≤ 16 ∧ x.checkErrors ≤ 65535 ∧ x.discards ≤ 65535
        ∧ (x.up = false → x.voice = [] ∧ x.general = []) ∧ (x.sending = none → x.voice = [] ∧ x.general = [])
        ∧ (x.shut = true → x.up = false ∧ x.bringUp = false ∧ x.sending = none ∧ x.silence = none ∧ x.quiet = none) := by
  simp only [sound, Config.voiceCapacity, Config.generalCapacity, Config.counterMax, Bool.and_eq_true, and_assoc, Bool.or_eq_true, List.isEmpty_iff, Bool.not_eq_true', Option.isSome_iff_ne_none, Option.isNone_iff_eq_none]
  grind

theorem PortState.sound_arbitrate (x : PortState) (hv : x.voice.length ≤ 4) (hg : x.general.length ≤ 16) (hc : x.checkErrors ≤ 65535)
    (hd : x.discards ≤ 65535) (hup : x.up = false → x.voice = [] ∧ x.general = [])
    (hshut : x.shut = true → x.up = false ∧ x.bringUp = false ∧ x.sending = none ∧ x.silence = none ∧ x.quiet = none) :
    x.arbitrate.sound = true := by
  rw [PortState.sound_iff]
  obtain ⟨up, shut, bringUp, silence, quiet, voice, general, sending, checkErrors, discards⟩ := x
  cases sending <;> cases voice <;> cases general <;> simp_all [arbitrate] <;> omega

theorem PortState.sound_countDiscard (x : PortState) (h : x.sound = true) : x.countDiscard.sound = true := by
  rw [PortState.sound_iff] at h ⊢
  simp only [countDiscard, saturate, Config.counterMax]
  grind

theorem PortState.sound_placeGeneral (x : PortState) (f : Frame) (h : x.sound = true) : (x.placeGeneral f).1.sound = true := by
  unfold placeGeneral
  split
  · exact x.sound_countDiscard h
  · split
    · exact x.sound_countDiscard h
    · rw [PortState.sound_iff] at h
      simp only [Config.generalCapacity] at *
      exact PortState.sound_arbitrate _ (by grind) (by grind) (by grind) (by grind) (by grind) (by grind)

theorem PortState.sound_placeVoice (x : PortState) (f : Frame) (h : x.sound = true) : (x.placeVoice f).sound = true := by
  have hc := (PortState.sound_iff _).mp (x.sound_countDiscard h)
  unfold placeVoice
  split
  · exact x.sound_countDiscard h
  · rw [PortState.sound_iff] at h
    simp only [countDiscard] at hc
    split
    · simp only [Config.voiceCapacity, countDiscard] at *
      exact PortState.sound_arbitrate _ (by grind) (by grind) (by grind) (by grind) (by grind) (by grind)
    · simp only [Config.voiceCapacity] at *
      exact PortState.sound_arbitrate _ (by grind) (by grind) (by grind) (by grind) (by grind) (by grind)

theorem PortState.sound_quietExpiry (x : PortState) (h : x.sound = true) : x.quietExpiry.sound = true := by
  rw [PortState.sound_iff] at h ⊢
  unfold quietExpiry
  split <;> grind

theorem PortState.sound_complete (x : PortState) (h : x.sound = true) : x.complete.sound = true := by
  rw [PortState.sound_iff] at h
  unfold complete
  split
  · exact (PortState.sound_iff x).mpr h
  · exact PortState.sound_arbitrate _ (by grind) (by grind) (by grind) (by grind) (by grind) (by grind)

theorem PortState.sound_down (x : PortState) (h : x.checkErrors ≤ 65535 ∧ x.discards ≤ 65535)
    (hs : x.shut = true → x.sending = none ∧ x.quiet = none) : x.down.sound = true := by
  rw [PortState.sound_iff]
  unfold down abandon
  split <;> grind

theorem PortState.sound_opened (x : PortState) (h : x.sound = true) (hs : x.shut = true) : x.opened.sound = true := by
  rw [PortState.sound_iff] at h ⊢
  unfold opened
  grind

theorem PortState.sound_clearCounters (x : PortState) (h : x.sound = true) : x.clearCounters.sound = true := by
  rw [PortState.sound_iff] at h ⊢
  unfold clearCounters
  grind

/-! ### Every port -/

theorem State.linkSound_iff (s : State) : s.linkSound = true ↔ ∀ q, (s.port q).sound = true := by
  simp only [State.linkSound, allPorts, Port.all, List.all_cons, List.all_nil, Bool.and_true, Bool.and_eq_true]
  exact ⟨fun h q => by cases q <;> simp [h], fun h => by simp [h]⟩

theorem sound_sendClosed : SendClosed fun _ x => x.sound = true where
  place _ := PortState.sound_placeGeneral
  discard _ := PortState.sound_countDiscard
  purge _ x h := by
    rw [PortState.sound_iff] at h ⊢
    grind

theorem sound_voiceClosed (qs : List Port) : VoiceClosed qs fun _ x => x.sound = true :=
  fun _ _ => PortState.sound_placeVoice

theorem State.linkSound_iff_ports (s : State) : s.linkSound = true ↔ s.Ports fun _ x => x.sound = true :=
  s.linkSound_iff.trans ⟨fun h => ⟨sound_sendClosed, h⟩, fun h => h.holds⟩

theorem State.setPort_setPort (s : State) (q : Port) (x y : PortState) : (s.setPort q x).setPort q y = s.setPort q y := by
  cases q <;> rfl

/-- A port that was closed goes DOWN from the state before. -/
theorem goDown_setPort (q : Port) (x : PortState) (s : State) :
    goDown q (s.setPort q x) = deliverDown q (notifyLink q false (s.setPort q x.down)) := by
  rw [goDown, State.port_setPort_same, State.setPort_setPort]

namespace State.Ports

variable {s : State} (h : s.Ports fun _ x => x.sound = true)
include h

theorem goUp_sound {q : Port} {o : Order} (hshut : (s.port q).shut = false) : (goUp q o s).Ports fun _ x => x.sound = true := by
  refine State.Ports.deliverUp (.notifyLink (h.setPort ?_))
  have hq := h.holds q
  rw [PortState.sound_iff] at hq ⊢
  grind

theorem goDown_sound {q : Port} : (goDown q s).Ports fun _ x => x.sound = true := by
  refine State.Ports.deliverDown (.notifyLink (h.setPort (PortState.sound_down _ ?_ ?_)))
  all_goals
    have hq := h.holds q
    rw [PortState.sound_iff] at hq
    grind

/-- A shut port is sound once it is DOWN. -/
theorem shutPort_sound {q : Port} : (shutPort q s).Ports fun _ x => x.sound = true := by
  have hq := (PortState.sound_iff _).mp (h.holds q)
  obtain ⟨-, -, hchecks, hdiscards, -⟩ := id hq
  unfold shutPort
  dsimp only
  split
  · have hdown : (s.port q).closed.down.sound = true := PortState.sound_down _ ⟨hchecks, hdiscards⟩ fun _ => ⟨rfl, rfl⟩
    rw [goDown_setPort]
    exact .deliverDown (.notifyLink (h.setPort hdown))
  · refine h.setPort ?_
    rw [PortState.sound_iff]
    simp only [State.isUp] at *
    unfold PortState.closed
    grind

theorem openPort_sound {q : Port} : (openPort q s).Ports fun _ x => x.sound = true := by
  unfold openPort
  split
  · exact h.setPort (PortState.sound_opened _ (h.holds q) ‹_›)
  · exact h

theorem settleSign_sound : (settleSign s).Ports fun _ x => x.sound = true := .ite h.shutPort_sound.same h

theorem wakeHub_sound : (wakeHub s).Ports fun _ x => x.sound = true :=
  .sendUpload (.same (openPort_sound (openPort_sound (openPort_sound (openPort_sound (q := .c) (h.same (t := { s with power := s.power.wake })))))))

theorem parkHub_sound : (parkHub s).Ports fun _ x => x.sound = true := by
  have htold : (Machine.notifyD .parking [] { s with power := s.power.park }).Ports fun _ x => x.sound = true := .notifyD h.same
  have hports := (htold.parkSign.setIntercom
    (x := (Machine.parkSign (Machine.notifyD .parking [] { s with power := s.power.park })).intercom.park)).shutPort_sound (q := .c)
      |>.shutPort_sound (q := .p) |>.shutPort_sound (q := .k)
  exact .ite hports.same (shutPort_sound hports.same)

end State.Ports

theorem actPortStatus_port_of_clear (asker q : Port) (s : State) : (actPortStatus asker true s).1.port q = (s.port q).clearCounters := by
  cases q <;> rfl

theorem linkSound_rules : EventRules (fun s => s.linkSound = true) (fun s => s.linkSound = true) := by
  simp only [State.linkSound_iff_ports]
  constructor
  case weaken => exact fun _ h => h
  case settle => exact fun _ h => h.settleSign_sound
  case reply => exact fun _ _ _ h => h.emit
  case action =>
    intro r q act s hdoes h
    by_cases hr : .link ∈ r.reach
    · cases hdoes <;> simp [RequestName.reach] at hr
      case routeSet n c e =>
        unfold actRouteSet
        split
        · exact h
        · refine ⟨h.closed, fun q => ?_⟩
          cases c <;> exact h.holds q
      case portStatus clear =>
        unfold actPortStatus
        cases clear
        · exact h
        · refine ⟨h.closed, fun q' => ?_⟩
          exact (actPortStatus_port_of_clear q q' s).symm ▸ PortState.sound_clearCounters _ (h.holds q')
    · exact h.does hdoes hr
  case restart =>
    intro q s hshut h
    refine h.setPort ?_
    have hq := h.holds q
    rw [PortState.sound_iff] at hq ⊢
    grind
  case bringUp =>
    intro q s hshut h
    refine h.setPort ?_
    have hq := h.holds q
    rw [PortState.sound_iff] at hq ⊢
    grind
  case goUp => exact fun q o s hshut _ h => h.goUp_sound hshut
  case checkError =>
    intro q s hshut h
    unfold failCheck
    refine .ite h (h.setPort ?_)
    have hq := h.holds q
    rw [PortState.sound_iff] at hq ⊢
    simp only [saturate, Config.counterMax]
    grind
  case discard => exact fun _ _ _ _ _ h => h.discardAtIngress
  case copies => exact fun _ _ _ _ h => h.copyTelemetry
  case pass => exact fun _ _ _ _ h => h.routePass
  case wake => exact fun _ _ h => h.wakeHub_sound
  case ignition => exact fun on s h => .ite (State.Ports.wakeHub_sound h.same) h.same
  case alarm => exact fun _ _ h => h.takeAlarm
  case count => exact fun _ _ h => h.takeCount
  case signStat => exact fun _ _ h => h.takeSignStat
  case audioP =>
    intro payload s h
    unfold takeAudioP
    split
    · exact h
    · exact (h.takeButtons.formDriverBlock (sound_voiceClosed _)).formListenBlock (sound_voiceClosed _)
  case audioC => exact fun _ _ h => h.takeAudioC (sound_voiceClosed _)
  case cardStage => exact fun _ _ h => h.takeCardStage
  case authAsk => exact fun _ _ h => h.takeAuthAsk
  case authAnswer => exact fun _ _ h => h.takeAuthAnswer
  case uploadAck => exact fun _ _ h => h.takeUploadAck
  case tick => exact fun _ _ h => h.takeTick
  case cadence => exact fun _ _ h => h.takeCadence
  case offer => exact fun _ h => h.offerExpiry
  case answer => exact fun _ h => h.answerExpiry
  case upload => exact fun _ h => h.uploadExpiry
  case call => exact fun _ h => h.callExpiry
  case park => exact fun _ _ h => h.parkHub_sound
  case silence =>
    intro q s h
    unfold silenceExpiry
    split
    · exact h
    · refine .ite h.goDown_sound (h.setPort ?_)
      have hq := h.holds q
      rw [PortState.sound_iff] at hq ⊢
      grind
  case quiet => exact fun q _ h => h.setPort (PortState.sound_quietExpiry _ (h.holds q))
  case complete => exact fun q _ h => h.setPort (PortState.sound_complete _ (h.holds q))

/-- Settles O5: placing keeps a port sound, and so does each change of its link state. -/
theorem linkSoundKept : Obligations.LinkSoundKept := by
  unfold Obligations.LinkSoundKept
  exact step_keeps linkSound_rules (by decide) (by decide) fun s p h => h

end Sys2Proof.Machine
end

