-- ==== Sys2Proof/Proofs/PartiesFollow.lean ====
section
/-! PROOFS. What metering, tariff changes and extras do to a party, and the events of which every party follows. -/
set_option Elab.async false
namespace Sys2Proof.Machine

/-! ### One party -/

/-- What metering, tariff changes and extras do to a party: its state and its payments stay, the fare and extras of a METERING one grow within
their caps, and those of any other stay. -/
structure Party.Follows (p q : Party) : Prop where
  state : q.state = p.state
  cash : q.cash = p.cash
  cardOnline : q.cardOnline = p.cardOnline
  cardOffline : q.cardOffline = p.cardOffline
  fare : p.fare ≤ Config.fareCap → p.fare ≤ q.fare ∧ q.fare ≤ Config.fareCap
  extras : p.extras ≤ Config.extrasCap → p.extras ≤ q.extras ∧ q.extras ≤ Config.extrasCap
  standing : p.state ≠ .metering → q.fare = p.fare ∧ q.extras = p.extras
  idle : p.state = .idle → q = p

theorem Party.Follows.refl (p : Party) : p.Follows p :=
  ⟨rfl, rfl, rfl, rfl, fun h => ⟨le_rfl, h⟩, fun h => ⟨le_rfl, h⟩, fun _ => ⟨rfl, rfl⟩, fun _ => rfl⟩

theorem Party.Follows.trans {p q r : Party} (h : p.Follows q) (h' : q.Follows r) : p.Follows r where
  state := h'.state.trans h.state
  cash := h'.cash.trans h.cash
  cardOnline := h'.cardOnline.trans h.cardOnline
  cardOffline := h'.cardOffline.trans h.cardOffline
  fare hp := ⟨(h.fare hp).1.trans (h'.fare (h.fare hp).2).1, (h'.fare (h.fare hp).2).2⟩
  extras hp := ⟨(h.extras hp).1.trans (h'.extras (h.extras hp).2).1, (h'.extras (h.extras hp).2).2⟩
  standing hp := by
    obtain ⟨hfare, hextras⟩ := h.standing hp
    obtain ⟨hfare', hextras'⟩ := h'.standing (h.state.symm ▸ hp)
    exact ⟨hfare'.trans hfare, hextras'.trans hextras⟩
  idle hp := (h'.idle (h.state.trans hp)).trans (h.idle hp)

/-- A riding party whose money stays. -/
theorem Party.Follows.of_same_money {p q : Party} (hr : p.state ≠ .idle) (hs : q.state = p.state := by rfl) (hc : q.cash = p.cash := by rfl)
    (ho : q.cardOnline = p.cardOnline := by rfl) (hf : q.cardOffline = p.cardOffline := by rfl) (hfare : q.fare = p.fare := by rfl)
    (hx : q.extras = p.extras := by rfl) : p.Follows q :=
  ⟨hs, hc, ho, hf, fun h => ⟨hfare.ge, hfare ▸ h⟩, fun h => ⟨hx.ge, hx ▸ h⟩, fun _ => ⟨hfare, hx⟩, fun h => absurd h hr⟩

theorem PartyState.ne_idle_of_metering {x : PartyState} (h : x = .metering) : x ≠ .idle := by
  rw [h]
  decide

theorem Party.follows_charge (p : Party) (n : Nat) (hm : p.state = .metering) : p.Follows (p.charge n) :=
  ⟨rfl, rfl, rfl, rfl, fun h => ⟨le_min h (Nat.le_add_right _ _), min_le_left _ _⟩, fun h => ⟨le_rfl, h⟩, fun h => absurd hm h,
    fun h => absurd h (PartyState.ne_idle_of_metering hm)⟩

theorem Party.follows_step (p : Party) (t : Tariff) (k : Nat) (hm : p.state = .metering) : p.Follows (p.step t k) := by
  rw [Party.step_eq]
  exact (Party.Follows.of_same_money (q := p.withAccumulators _ _) (PartyState.ne_idle_of_metering hm)).trans (Party.follows_charge _ _ hm)

theorem State.follows_stepped (s : State) (p : Party) (hm : p.state = .metering) : p.Follows (s.stepped p) := by
  unfold State.stepped
  split
  · exact p.follows_step _ _ hm
  · exact .refl p

theorem State.follows_retariffed (s : State) (p : Party) (t : Nat) (l : Lock) (hr : p.state ≠ .idle) : p.Follows (s.retariffed p t l) := by
  have hnamed : p.Follows { p with tariff := t, lock := l } := .of_same_money hr
  unfold State.retariffed
  dsimp only
  split
  · rename_i hm
    exact hnamed.trans (s.follows_stepped _ hm)
  · exact hnamed

theorem Party.follows_withExtra (p : Party) (e : Fin 8) (n : Nat) (hm : p.state = .metering) : p.Follows (p.withExtra e n) :=
  ⟨rfl, rfl, rfl, rfl, fun h => ⟨le_rfl, h⟩, fun h => ⟨le_min h (Nat.le_add_right _ _), min_le_left _ _⟩, fun h => absurd hm h,
    fun h => absurd h (PartyState.ne_idle_of_metering hm)⟩

theorem State.follows_afterAction (s : State) (m : Milestone) (p : Party) (hm : p.state = .metering) : p.Follows (s.afterAction m p).1 := by
  rcases s.afterAction_cases m p with h | ⟨-, h⟩ | ⟨x, n, h⟩ <;> rw [h]
  · exact .refl p
  · exact s.follows_retariffed p _ _ (PartyState.ne_idle_of_metering hm)
  · exact p.follows_withExtra x n hm

/-! ### The parties -/

/-- From `s` to `t` every party has followed, and the share flag has stayed. -/
structure State.Follows (s t : State) : Prop where
  share : t.fare.share = s.fare.share
  party : ∀ i, (s.party i).Follows (t.party i)

namespace State.Follows

variable {s t u : State}

theorem of_fare (h : t.fare = s.fare := by simp) : s.Follows t where
  share := congrArg FareEngine.share h
  party i := by
    have hp : t.party i = s.party i := congrArg (fun x : FareEngine => x.parties[i]) h
    rw [hp]
    exact .refl _

theorem refl (s : State) : s.Follows s := of_fare rfl

theorem trans (h : s.Follows t) (h' : t.Follows u) : s.Follows u :=
  ⟨h'.share.trans h.share, fun i => (h.party i).trans (h'.party i)⟩

theorem setParty {i : Fin 4} {p : Party} (h : (s.party i).Follows p) : s.Follows (s.setParty i p) where
  share := rfl
  party j := by
    by_cases hj : j = i
    · subst hj
      simpa using h
    · rw [State.party_setParty_other s i j p hj]
      exact .refl _

theorem of_setParty {i : Fin 4} {p : Party} (h : (s.party i).Follows p) (ht : t.fare = (s.setParty i p).fare := by simp) : s.Follows t :=
  (setParty h).trans (of_fare ht)

theorem ite {c : Prop} [Decidable c] (ht : c → s.Follows t) (hu : ¬ c → s.Follows u) : s.Follows (if c then t else u) := by
  split
  · exact ht ‹_›
  · exact hu ‹_›

theorem foldl {α : Type} (f : State → α → State) (h : ∀ (s : State) a, s.Follows (f s a)) (xs : List α) (s : State) : s.Follows (xs.foldl f s) := by
  induction xs generalizing s with
  | nil => exact refl s
  | cons x xs ih => exact (h s x).trans (ih _)

theorem meters {i : Fin 4} (h : s.Follows t) (hm : (s.party i).state = .metering) : (t.party i).state = .metering :=
  (h.party i).state.trans hm

/-! ### Milestones and tariff changes -/

theorem passStep {i : Fin 4} {q : Quantity} {e : Fin 12} (hm : (s.party i).state = .metering) : s.Follows (passStep i q s e) :=
  ite (fun _ => of_setParty (s.follows_afterAction s.milestone.table[e] (s.party i) hm) (by rw [firingTold_fare]; rfl)) fun _ => refl s

theorem runPass {i : Fin 4} {q : Quantity} (hm : (s.party i).state = .metering) : s.Follows (runPass i q s) := by
  rw [runPass_eq]
  generalize entries = es
  induction es generalizing s with
  | nil => exact refl s
  | cons e es ih =>
    have hstep := passStep (q := q) (e := e) hm
    exact hstep.trans (ih (hstep.meters hm))

theorem fareChange {i : Fin 4} {f : Nat} (hm : (s.party i).state = .metering) : s.Follows (fareChange i f s) :=
  ite (fun _ => refl s) fun _ => runPass hm

theorem retariffAuto (n : Nat) (s : State) (i : Fin 4) : s.Follows (retariffAuto n s i) := by
  refine ite (fun h => ?_) fun _ => refl s
  have hr : (s.party i).state ≠ .idle := by simpa [Party.riding] using h.1
  have hset := setParty (s.follows_retariffed (s.party i) n .auto hr)
  exact ite (fun hm => hset.trans (fareChange (hset.meters hm))) fun _ => hset

theorem tariffChange (n : Nat) (s : State) : s.Follows (tariffChange n s) := by
  unfold Machine.tariffChange
  exact (foldl _ (retariffAuto n) slots s).trans of_fare

theorem triggerChime (c : ChimeId) (s : State) : s.Follows (triggerChime c s) := of_fare

theorem changeBand (b : Option Nat) (s : State) : s.Follows (changeBand b s) := by
  have hnotice : s.Follows (notifyC .band [bandByte b] (s.setTariff { s.tariff with band := b })) := of_fare
  unfold Machine.changeBand
  cases b with
  | none => exact ite (fun _ => hnotice.trans (triggerChime _ _)) fun _ => hnotice
  | some n => exact ite (fun _ => (hnotice.trans (tariffChange n _)).trans (triggerChime _ _)) fun _ => hnotice.trans (tariffChange n _)

theorem evaluateBand (s : State) : s.Follows (evaluateBand s) := ite (fun _ => refl s) fun _ => changeBand _ s

theorem minuteBoundary (s : State) : s.Follows (minuteBoundary s) := ite (fun _ => evaluateBand s) fun _ => refl s

/-! ### Motion and time -/

theorem meterParty {q : Quantity} {grow : Party → Party} (hg : ∀ p : Party, p.state = .metering → p.Follows (grow p)) (s : State) (i : Fin 4) :
    s.Follows (meterParty q grow s i) := by
  unfold Machine.meterParty
  refine ite (fun hm => ?_) fun _ => refl s
  have hgrown := hg _ hm
  have hset : s.Follows (s.setParty i (s.stepped (grow (s.party i)))) := setParty (hgrown.trans (s.follows_stepped _ (hgrown.state.trans hm)))
  have hpass := hset.trans (runPass (q := q) (hset.meters hm))
  exact ite (fun _ => hpass) fun _ => hpass.trans (runPass (hpass.meters hm))

theorem meterEach {q : Quantity} {grow : State → Party → Party} (hg : ∀ (s : State) (p : Party), p.state = .metering → p.Follows (grow s p)) (is : List (Fin 4))
    (r : State × Bool × Bool) : r.1.Follows (meterEach q grow is r).1 := by
  induction is generalizing r with
  | nil => exact refl _
  | cons i is ih => exact (meterParty (hg r.1) r.1 i).trans (ih (Machine.meterParty q (grow r.1) r.1 i, _, _))

theorem meterAll {q : Quantity} {grow : State → Party → Party} (hg : ∀ (s : State) (p : Party), p.state = .metering → p.Follows (grow s p)) (s : State) :
    s.Follows (meterAll q grow s) := by
  unfold Machine.meterAll
  exact (meterEach (q := q) hg slots (s, false, false)).trans of_fare

theorem fareTick (s : State) : s.Follows (fareTick s) := meterAll (fun _ _ hm => .of_same_money (PartyState.ne_idle_of_metering hm)) s

theorem markMotionLost (s : State) : s.Follows (markMotionLost s) where
  share := rfl
  party i := by
    have hp : (Machine.markMotionLost s).party i = if (s.party i).state = .metering then { s.party i with motionLost := true } else s.party i := by
      simp only [State.party, Machine.markMotionLost, Fin.getElem_fin, Vector.getElem_map]
      rfl
    rw [hp]
    split
    · rename_i hm
      exact .of_same_money (PartyState.ne_idle_of_metering hm)
    · exact .refl _

theorem setLastCount (n : Nat) (s : State) : s.Follows (setLastCount n s) := ⟨rfl, fun _ => .refl _⟩

theorem forgetCount (s : State) : s.Follows (forgetCount s) := ⟨rfl, fun _ => .refl _⟩

theorem whileLive (f : Totals → Totals) (s : State) : s.Follows (whileLive f s) := of_fare

theorem notifyMotion (b : Bool) (s : State) : s.Follows (notifyMotion b s) := of_fare (notifyBoth_fare _ _ _)

theorem resync (n : Nat) (s : State) : s.Follows (resync n s) := by
  unfold Machine.resync
  exact (((setLastCount n s).trans (notifyMotion true _)).trans (markMotionLost _)).trans of_fare

theorem dropDelta (n : Nat) (s : State) : s.Follows (dropDelta n s) := by
  unfold Machine.dropDelta
  exact ((((setLastCount n s).trans (notifyMotion false _)).trans (whileLive Totals.countImplausible _)).trans (markMotionLost _)).trans of_fare

theorem applyDelta (n d : Nat) (s : State) : s.Follows (applyDelta n d s) := by
  unfold Machine.applyDelta
  exact ite (fun _ => setLastCount n s) fun _ => ((setLastCount n s).trans (meterAll (grow := Party.grownBy d) (fun _ _ hm => .of_same_money (PartyState.ne_idle_of_metering hm)) _)).trans
    (whileLive _ _)

theorem takeCount (n : Nat) (s : State) : s.Follows (takeCount n s) :=
  ite (fun _ => resync n s) fun _ => ite (fun _ => dropDelta n s) fun _ => applyDelta n _ s

theorem takeTick (b : Bool) (s : State) : s.Follows (takeTick b s) := by
  have hclock : s.Follows (s.setTariff { s.tariff with clock := s.tariff.clock.advance }) := of_fare
  unfold Machine.takeTick
  exact hclock.trans ((ite (c := b) (fun _ => (minuteBoundary _).trans (fareTick _)) fun _ => (fareTick _).trans (minuteBoundary _)).trans of_fare)

end State.Follows
end Sys2Proof.Machine
end

