-- ==== Sys2Proof/Proofs/CadenceUnitSound.lean ====
section
/-! PROOFS. The soundness of the cadence unit through every event. -/
set_option Elab.async false
namespace Sys2Proof.Machine

/-! ### One timer -/

theorem CadenceTimer.sound_iff (t : CadenceTimer) :
    t.sound = true ↔
      2 ≤ t.programmed ∧ t.programmed ≤ 16383 ∧ 2 ≤ t.current ∧ t.current ≤ 16383
        ∧ (t.state = .stopped → t.count = 0) ∧ (t.state ≠ .stopped → 1 ≤ t.count ∧ t.count ≤ t.current) := by
  unfold sound
  split <;> simp [*, and_assoc]

theorem CadenceTimer.sound_stop (t : CadenceTimer) (h : t.sound = true) : t.stop.sound = true := by
  rw [sound_iff] at h ⊢
  simp only [stop]
  grind

theorem CadenceTimer.sound_tick (t : CadenceTimer) (h : t.sound = true) : t.tick.1.sound = true := by
  rw [sound_iff] at h ⊢
  unfold tick load stop
  split_ifs <;> grind

/-! ### The unit -/

theorem CadenceUnit.sound_iff (x : CadenceUnit) :
    x.sound = true ↔
      (∀ t, (x.timer t).sound = true) ∧ (∀ i : Fin 8, x.comparators[i].value ≤ 16383) ∧ ∀ i : Fin 4, (x.comparators[i.val]).mode ≠ .pair := by
  have htimers : (∀ t, (x.timer t).sound = true) ↔ x.ct0.sound = true ∧ x.ct1.sound = true :=
    ⟨fun h => ⟨h .ct0, h .ct1⟩, fun h t => by cases t; exacts [h.1, h.2]⟩
  simp only [sound, htimers, Bool.and_eq_true, List.all_eq_true, List.mem_finRange, true_imp_iff, bne_iff_ne, ne_eq, and_assoc,
    Vector.all_eq_true, decide_eq_true_eq]
  refine and_congr_right fun _ => and_congr_right fun _ => and_congr ⟨fun h i => h i i.isLt, fun h i hi => h ⟨i, hi⟩⟩ Iff.rfl

/-- Comparators written with their values and modes. -/
theorem CadenceUnit.sound_of_comparators {x y : CadenceUnit} (h : x.sound = true) (ht : ∀ t, (y.timer t).sound = true)
    (hc : ∀ i : Fin 8, (y.comparators[i]).value = (x.comparators[i]).value ∧ (y.comparators[i]).mode = (x.comparators[i]).mode) :
    y.sound = true := by
  rw [sound_iff] at h ⊢
  obtain ⟨-, hvalue, hmode⟩ := h
  refine ⟨ht, fun i => (hc i).1 ▸ hvalue i, fun i => ?_⟩
  have := (hc (i.castLE (by decide))).2
  exact fun hp => hmode i (this.symm.trans hp)

theorem Comparator.rearm_fields (y : Comparator) (e : CadenceEvent) : (y.rearm e).value = y.value ∧ (y.rearm e).mode = y.mode := by
  unfold rearm
  split <;> exact ⟨rfl, rfl⟩

theorem Comparator.spend_fields (y : Comparator) (e : CadenceEvent) : (y.spend e).value = y.value ∧ (y.spend e).mode = y.mode := by
  unfold spend
  split <;> exact ⟨rfl, rfl⟩

theorem CadenceUnit.sound_compare (x : CadenceUnit) (e : CadenceEvent) (h : x.sound = true) : (x.compare e).sound = true := by
  refine sound_of_comparators h (fun t => by cases t; exacts [(sound_iff x |>.mp h).1 .ct0, (sound_iff x |>.mp h).1 .ct1]) fun i => ?_
  have hi : (x.compare e).comparators[i] = ((x.comparators[i]).rearm e).spend e := by simp [compare]
  rw [hi]
  exact ⟨(Comparator.spend_fields _ e).1.trans (Comparator.rearm_fields _ e).1, (Comparator.spend_fields _ e).2.trans (Comparator.rearm_fields _ e).2⟩

theorem CadenceUnit.sound_setTimer (x : CadenceUnit) (t : TimerId) (y : CadenceTimer) (h : x.sound = true) (hy : y.sound = true) :
    (x.setTimer t y).sound = true := by
  refine sound_of_comparators h (fun u => ?_) fun i => by cases t <;> exact ⟨rfl, rfl⟩
  have hx := ((sound_iff x).mp h).1
  cases t <;> cases u
  exacts [hy, hx .ct1, hx .ct0, hy]

theorem CadenceUnit.sound_count (x : CadenceUnit) (h : x.sound = true) : x.count.sound = true := by
  have hx := ((sound_iff x).mp h).1
  refine sound_compare _ _ (sound_of_comparators h (fun t => ?_) fun _ => ⟨rfl, rfl⟩)
  cases t
  exacts [CadenceTimer.sound_tick _ (hx .ct0), CadenceTimer.sound_tick _ (hx .ct1)]

theorem CadenceUnit.sound_park (x : CadenceUnit) (h : x.sound = true) : x.park.sound = true := by
  have hx := ((sound_iff x).mp h).1
  refine sound_of_comparators h (fun t => ?_) fun i => by simp [park]
  cases t
  exacts [CadenceTimer.sound_stop _ (hx .ct0), CadenceTimer.sound_stop _ (hx .ct1)]

theorem CadenceUnit.sound_start (x : CadenceUnit) (t : TimerId) (h : x.sound = true) : (x.start t).sound = true := by
  refine sound_compare _ _ (sound_setTimer x t _ h ?_)
  have ht := ((sound_iff x).mp h).1 t
  rw [CadenceTimer.sound_iff] at ht ⊢
  simp only [CadenceTimer.load]
  grind

/-! ### The requests of the cadence unit -/

theorem RequestName.Does.cadence_sound {r : RequestName} {port : Port} {act : Action} (hr : r.Does port act) (s : State)
    (h : s.cadence.sound = true) : (act s).1.cadence.sound = true := by
  have htimer := ((CadenceUnit.sound_iff _).mp h).1
  by_cases hc : .cadence ∈ r.reach
  · cases hr <;> simp [reach] at hc
    case timerSet t period mode =>
      refine CadenceUnit.sound_setTimer _ t _ h ?_
      have ht := htimer t
      rw [CadenceTimer.sound_iff] at ht ⊢
      grind
    case comparatorSet n timer value mode lamp =>
      unfold actComparatorSet
      repeat' split
      · exact h
      · exact h
      · rename_i i l _ _ hv hm
        rw [CadenceUnit.sound_iff] at h ⊢
        obtain ⟨ht, hvalue, hmode⟩ := h
        refine ⟨fun t => by cases t; exacts [ht .ct0, ht .ct1], fun j => ?_, fun j => ?_⟩
        · simp only [Fin.getElem_fin, Vector.getElem_set]
          split
          · exact Nat.le_of_not_lt hv
          · exact hvalue j
        · simp only [Fin.getElem_fin, Vector.getElem_set]
          split
          · rename_i hij
            exact fun hp => hm ⟨hp, hij ▸ j.isLt⟩
          · exact hmode j
      · exact h
    case timerStart t => exact CadenceUnit.sound_start _ t h
    case timerStop t =>
      refine CadenceUnit.sound_setTimer _ t _ h ?_
      split
      · exact CadenceTimer.sound_stop _ (htimer t)
      · exact htimer t
    case timerStopAtEnd t =>
      refine CadenceUnit.sound_setTimer _ t _ h ?_
      have ht := htimer t
      rw [CadenceTimer.sound_iff] at ht ⊢
      split <;> grind
    case timerStatus =>
      refine CadenceUnit.sound_of_comparators h (fun t => ?_) fun _ => ⟨rfl, rfl⟩
      cases t
      exacts [htimer .ct0, htimer .ct1]
    case lampWrite lamp value =>
      unfold actLampWrite
      split <;> exact h
  · have hchange := hr.changesOnly s
    simp only [State.changesOnly, hc, false_or] at hchange
    obtain ⟨-, -, -, -, -, -, -, -, -, hcadence, -⟩ := hchange
    rwa [hcadence]

theorem cadenceSound_rules : EventRules (fun s => s.cadence.sound = true) (fun s => s.cadence.sound = true) := by
  constructor
  case action => exact fun r q act s hdoes h => hdoes.cadence_sound s h
  case cadence =>
    intro b s h
    unfold takeCadence
    rw [countCall_cadence]
    split
    · exact CadenceUnit.sound_count _ (by simpa using h)
    · rw [signCount_cadence]
      exact CadenceUnit.sound_count _ h
  case park =>
    intro s _ h
    have hp : (parkHub s).cadence = s.cadence.park := by simp [parkHub, parkBlocks]
    rw [hp]
    exact CadenceUnit.sound_park _ h
  case checkError => intro q s _ h; unfold failCheck; split <;> exact h
  all_goals intros
  case weaken => assumption
  all_goals simpa

end Sys2Proof.Machine
end

