-- ==== Sys2Proof/Proofs/PaymentTold.lean ====
section
/-! PROOFS. What an event of the payment unit comes to: the party it moves and what is told of it, the queue, the offer timer and port K
behind a removed head, and the store with port D. -/
set_option Elab.async false
namespace Sys2Proof.Machine

/-! ### A party moved and shown -/

theorem compose_port_other (s : State) (r : Port) (h : r ≠ .s) : (compose s).port r = s.port r := by
  unfold compose repaintSign
  dsimp only
  split_ifs
  · rfl
  · exact emit_port_other .s r _ _ h
  · rfl

theorem deriveSign_port_other (s : State) (r : Port) (h : r ≠ .s) : (deriveSign s).port r = s.port r := compose_port_other _ r h

theorem deliverParties_port_other (s : State) (r : Port) (h : r ≠ .s) : (deliverParties s).port r = s.port r := deriveSign_port_other _ r h

theorem handOff_link (i : Fin 4) (trip : Nat) (s : State) :
    (handOff i trip s).link = (deliverParties (notifyC .trip ([byte i.val, enc PartyState.all (s.party i).state] ++ be 4 trip) s)).link := by
  unfold handOff
  dsimp only
  split <;> rfl

theorem handOff_request (i : Fin 4) (trip : Nat) (s : State) :
    (handOff i trip s).request = { s.request with seqC := nextSeq s.request.seqC } := by
  unfold handOff
  dsimp only
  split <;> simp [notifyC_request]

theorem State.port_of_link {s t : State} (h : s.link = t.link) (q : Port) : s.port q = t.port q := by
  simp only [State.port, h]

theorem handOff_port_c (i : Fin 4) (trip : Nat) (s : State) :
    (handOff i trip s).port .c =
      (s.port .c).placed (noticeFrame s.request.seqC .trip (byte i.val :: enc PartyState.all (s.party i).state :: be 4 trip)) := by
  rw [State.port_of_link (handOff_link i trip s), deliverParties_port_other _ _ (by decide), notifyC_port_c]
  rfl

theorem handOff_port_other (i : Fin 4) (trip : Nat) (s : State) (r : Port) (hc : r ≠ .c) (hs : r ≠ .s) : (handOff i trip s).port r = s.port r := by
  rw [State.port_of_link (handOff_link i trip s), deliverParties_port_other _ _ hs, notifyC_port_other _ _ _ _ hc]

theorem showChanges_port_other (b s : State) (r : Port) (hc : r ≠ .c) (hp : r ≠ .p) : (showChanges b s).port r = s.port r := by
  unfold showChanges showViews
  dsimp only
  split
  · split
    · rw [showPassenger_port_other _ _ hp, showConsole_port_other _ _ hc]
    · rw [showPassenger_port_other _ _ hp]
  · split
    · rw [showConsole_port_other _ _ hc]
    · rfl

/-- The state with a party put in a state, the hand-offs made and the change shown (R21, R47, R48). -/
def partyMoved (i : Fin 4) (p : Party) (s : State) : State :=
  showChanges s (moveParty i p s)

theorem offerTaken_eq (i : Fin 4) (s : State) : offerTaken i s = partyMoved i { s.party i with state := .paying } s := rfl

theorem paymentReleased_eq (i : Fin 4) (s : State) : paymentReleased i s = partyMoved i { s.party i with state := .hold } s := rfl

/-- A party after a payment posted online (R32). -/
def Party.paidOnline (p : Party) (base tip : Nat) : Party :=
  let q := { p with cardOnline := p.cardOnline + base, tipsOnline := p.tipsOnline + tip }
  { q with state := q.standing }

/-- A party after a payment posted offline (R32). -/
def Party.paidOffline (p : Party) (base tip : Nat) : Party :=
  let q := { p with cardOffline := p.cardOffline + base, tipsOffline := p.tipsOffline + tip }
  { q with state := q.standing }

theorem postedOnline_eq (i : Fin 4) (base tip : Nat) (s : State) :
    postedOnline i base tip s = partyMoved i ((s.party i).paidOnline base tip) s := rfl

theorem postedOffline_eq (i : Fin 4) (base tip : Nat) (s : State) :
    postedOffline i base tip s = partyMoved i ((s.party i).paidOffline base tip) s := rfl

section partyMoved
variable (i : Fin 4) (p : Party) (s : State)

@[simp] theorem partyMoved_fare : (partyMoved i p s).fare = s.fare.withParty i p := by simp [partyMoved]

@[simp] theorem partyMoved_request : (partyMoved i p s).request = { s.request with seqC := nextSeq s.request.seqC } := by
  simp [partyMoved, moveParty, handOff_request, State.setParty]

@[simp] theorem partyMoved_face : (partyMoved i p s).link.face = s.link.face := by simp [partyMoved]
@[simp] theorem partyMoved_pending : (partyMoved i p s).pending = s.pending := by simp [partyMoved]
@[simp] theorem partyMoved_tariff : (partyMoved i p s).tariff = s.tariff := by simp [partyMoved]
@[simp] theorem partyMoved_milestone : (partyMoved i p s).milestone = s.milestone := by simp [partyMoved]
@[simp] theorem partyMoved_payment : (partyMoved i p s).payment = s.payment := by simp [partyMoved]
@[simp] theorem partyMoved_shift : (partyMoved i p s).shift = s.shift := by simp [partyMoved]
@[simp] theorem partyMoved_cadence : (partyMoved i p s).cadence = s.cadence := by simp [partyMoved]
@[simp] theorem partyMoved_intercom : (partyMoved i p s).intercom = s.intercom := by simp [partyMoved]
@[simp] theorem partyMoved_power_state : (partyMoved i p s).power.state = s.power.state := by simp [partyMoved]

theorem partyMoved_port_other (r : Port) (hc : r ≠ .c) (hp : r ≠ .p) (hs : r ≠ .s) : (partyMoved i p s).port r = s.port r := by
  rw [partyMoved, showChanges_port_other _ _ _ hc hp, moveParty, handOff_port_other _ _ _ _ hc hs]
  rfl

/-- A party moved is told of by a TRIP notice and the displays. -/
theorem tripTold_partyMoved : s.tripTold (partyMoved i p s) i p.trip := by
  have hfare : (moveParty i p s).fare = (partyMoved i p s).fare := by simp
  have hparty : (partyMoved i p s).party i = p := by
    rw [State.party, partyMoved_fare, FareEngine.withParty_getElem]
  have hset : (s.setParty i p).party i = p := by simp
  refine ⟨partyMoved_request i p s, ?_, ?_⟩
  · refine (showChanges_port_c s (moveParty i p s)).trans ?_
    rw [moveParty, handOff_port_c, hset, PortState.tripShown, hparty]
    exact PortState.shownConsole_congr _ _ _ _ _ rfl hfare
  · refine (showChanges_port_p s (moveParty i p s)).trans ?_
    rw [moveParty, handOff_port_other _ _ _ _ (by decide) (by decide)]
    exact PortState.shownPassenger_congr _ _ _ _ _ rfl hfare

end partyMoved

/-! ### What is told beside the displays -/

/-- From `s` to `t` no party has changed and nothing has been told toward C and P. -/
structure State.Beside (s t : State) : Prop where
  fare : t.fare = s.fare
  seqC : t.request.seqC = s.request.seqC
  portC : t.port .c = s.port .c
  portP : t.port .p = s.port .p

namespace State.Beside

variable {s t u : State}

theorem refl (s : State) : s.Beside s := ⟨rfl, rfl, rfl, rfl⟩

theorem trans (h : s.Beside t) (h' : t.Beside u) : s.Beside u :=
  ⟨h'.fare.trans h.fare, h'.seqC.trans h.seqC, h'.portC.trans h.portC, h'.portP.trans h.portP⟩

/-- A frame toward another port than C and P. -/
theorem emit (q : Port) (f : Frame) (s : State) (hc : .c ≠ q) (hp : .p ≠ q) : s.Beside (emit q f s) :=
  ⟨rfl, rfl, emit_port_other q .c f s hc, emit_port_other q .p f s hp⟩

theorem authResult (slot : Byte) (result : AuthResult) (reason : Byte) (ref : BitVec 32) (amount tip : Nat) (s : State) :
    s.Beside (authResult slot result reason ref amount tip s) :=
  emit .k _ s (by decide) (by decide)

theorem setPayment (x : PaymentUnit) (s : State) : s.Beside (s.setPayment x) := ⟨rfl, rfl, rfl, rfl⟩

theorem setTotals (x : Totals) (s : State) : s.Beside (s.setTotals x) := ⟨rfl, rfl, rfl, rfl⟩

theorem notifyD (n : Notice) (fields : List Byte) (s : State) : s.Beside (notifyD n fields s) :=
  ⟨rfl, rfl, emit_port_other .d .c _ _ (by decide), emit_port_other .d .p _ _ (by decide)⟩

theorem triggerChime (c : ChimeId) (s : State) : s.Beside (triggerChime c s) :=
  ⟨by simp, by simp, port_of_link (by simp) _, port_of_link (by simp) _⟩

theorem ite {c : Prop} [Decidable c] (ht : s.Beside t) (hu : s.Beside u) : s.Beside (if c then t else u) := by
  split <;> assumption

theorem promote (s : State) : s.Beside (promote s) := by
  unfold Machine.promote
  split
  · exact refl s
  · exact ((setPayment _ s).trans (emit .k _ _ (by decide) (by decide))).trans (setPayment _ _)

theorem removeHead (s : State) : s.Beside (removeHead s) := (setPayment _ s).trans (promote _)

theorem uploadHead (s : State) : s.Beside (uploadHead s) := by
  unfold Machine.uploadHead
  split
  · exact refl s
  · exact (emit .d _ s (by decide) (by decide)).trans (setPayment _ _)

theorem sendUpload (s : State) : s.Beside (sendUpload s) := ite (uploadHead s) (refl s)

theorem appendEntry (e : StoreEntry) (s : State) : s.Beside (appendEntry e s) := by
  unfold Machine.appendEntry
  exact (((setPayment _ s).trans (setTotals _ _)).trans (ite (notifyD _ _ _) (refl _))).trans (sendUpload _)

end State.Beside

theorem PortState.tripShown_congr (x : PortState) {s s' t t' : State} (i : Fin 4) (trip : Nat) (hs : s'.fare = s.fare)
    (hq : s'.request.seqC = s.request.seqC) (ht : t'.fare = t.fare) : x.tripShown s' t' i trip = x.tripShown s t i trip := by
  have hparty : t'.party i = t.party i := congrArg (fun y : FareEngine => y.parties[i]) ht
  rw [tripShown, tripShown, hparty, hq]
  exact shownConsole_congr _ _ _ _ _ hs ht

/-- A payment record's end: the party moved and shown, and behind that the PAY notice, whatever else is done beside them. -/
theorem payTold_of_partyMoved {b v w u : State} {i : Fin 4} {p : Party} {result : PayResult} {cause : Byte} {undelivered : Bool}
    (hv : b.Beside v) (hw : (partyMoved i p v).Beside w) (hu : (notifyPay i result cause undelivered w).Beside u) :
    b.payTold u i p.trip (enc PayResult.all result) cause (flag undelivered) := by
  obtain ⟨hrequest, hportC, hportP⟩ := tripTold_partyMoved i p v
  have hfare : u.fare = (partyMoved i p v).fare := hu.fare.trans hw.fare
  have hseq : w.request.seqC = nextSeq b.request.seqC := by rw [hw.seqC, hrequest, hv.seqC]
  refine ⟨hu.seqC.trans (congrArg nextSeq hseq), ?_, ?_⟩
  · rw [hu.portC, notifyPay, notifyC_port_c, hw.portC, hportC, hseq, hv.portC]
    rw [PortState.tripShown_congr _ i p.trip hv.fare.symm hv.seqC.symm hfare]
  · rw [hu.portP, notifyPay, notifyC_port_other _ _ _ _ (by decide), hw.portP, hportP, hv.portP]
    exact PortState.shownPassenger_congr _ _ _ _ _ hv.fare hfare.symm

/-! ### The queue behind a removed head -/

theorem removeHead_payment (s : State) :
    (removeHead s).payment = { s.payment with
      queue := promotedQueue (s.payment.queue.drop 1),
      offerTimer := if s.payment.queue.drop 1 = [] then s.payment.offerTimer else some 120000 } := by
  unfold removeHead promote
  simp only [State.setPayment]
  cases s.payment.queue.drop 1 with
  | nil => rfl
  | cons r rest => simp [promotedQueue, Config.offerPeriod]

theorem removeHead_port_k (s : State) :
    (removeHead s).port .k = (s.port .k).offeredNext s.payment.policy.tipPercent (s.payment.queue.drop 1) := by
  unfold removeHead promote
  simp only [State.setPayment]
  cases s.payment.queue.drop 1 with
  | nil => rfl
  | cons r rest => exact emit_port_same .k _ _

theorem removeHead_port_other (s : State) (r : Port) (h : r ≠ .k) : (removeHead s).port r = s.port r := by
  unfold removeHead promote
  split
  · rfl
  · exact emit_port_other .k r _ _ h

theorem promotedTimer_eq (rs : List Record) : (if rs = [] then none else some 120000) = promotedTimer rs := by
  cases rs <;> rfl

end Sys2Proof.Machine
end

