-- ==== Sys2Proof/Proofs/PaymentOutcomes.lean ====
section
/-! PROOFS. The outcome of each event of the payment unit: a cancellation, an answer, a timeout and an offline decision, block by block. -/
set_option Elab.async false
namespace Sys2Proof.Machine

@[simp] theorem State.setPayment_port (s : State) (x : PaymentUnit) (q : Port) : (s.setPayment x).port q = s.port q := rfl

@[simp] theorem State.setTotals_port (s : State) (x : Totals) (q : Port) : (s.setTotals x).port q = s.port q := rfl

theorem notifyPay_request (i : Fin 4) (r : PayResult) (c : Byte) (u : Bool) (s : State) :
    (notifyPay i r c u s).request = { s.request with seqC := nextSeq s.request.seqC } := rfl

theorem notifyPay_port_other (i : Fin 4) (r : PayResult) (c : Byte) (u : Bool) (s : State) (q : Port) (h : q ≠ .c) :
    (notifyPay i r c u s).port q = s.port q := notifyC_port_other _ _ _ _ h

theorem authResult_port_k (slot : Byte) (result : AuthResult) (reason : Byte) (ref : BitVec 32) (amount tip : Nat) (s : State) :
    (authResult slot result reason ref amount tip s).port .k =
      (s.port .k).placed (payFrame .authResult ([slot, enc AuthResult.all result, reason] ++ be 4 ref.toNat ++ be 4 amount ++ be 4 tip)) :=
  emit_port_same _ _ _

theorem authResult_port_other (slot : Byte) (result : AuthResult) (reason : Byte) (ref : BitVec 32) (amount tip : Nat) (s : State) (q : Port)
    (h : q ≠ .k) : (authResult slot result reason ref amount tip s).port q = s.port q := emit_port_other _ _ _ _ h

theorem triggerChime_port (c : ChimeId) (s : State) (q : Port) : (triggerChime c s).port q = s.port q :=
  State.port_of_link (triggerChime_link c s) q

theorem triggerChime_paid_intercom (s : State) : (triggerChime .paid s).intercom = s.paidChimed := by
  simp only [triggerChime, State.paidChimed]
  change (if s.isUp .p then _ else s).intercom = _
  split <;> rfl

theorem State.paidChimed_congr {s t : State} (hu : t.isUp .p = s.isUp .p) (hi : t.intercom = s.intercom) : t.paidChimed = s.paidChimed := by
  rw [paidChimed, paidChimed, hu, hi]

/-! ### Cancellations (R65) -/

section cancel
variable (i : Fin 4) (c : CancelCause) (s : State)

/-- The state of a cancellation up to its PAY notice. -/
def withdrawn (i : Fin 4) (c : CancelCause) (s : State) : State :=
  if s.headAt i ∧ c ≠ .link then emit .k (payFrame .chargeWithdraw [byte i.val]) (paymentReleased i s) else paymentReleased i s

/-- What a cancellation leaves of the queue: the head is removed, a later record taken out. -/
theorem cancelRecord_eq :
    cancelRecord i c s =
      let t := notifyPay i .cancelled (causeCode c) false (withdrawn i c s)
      if s.headAt i then removeHead (t.setPayment { s.payment with offerTimer := none })
      else t.setPayment { s.payment with queue := s.payment.queue.filter fun r => r.slot != i } := by
  have hp : (withdrawn i c s).payment = s.payment := by
    unfold withdrawn
    split <;> simp
  have heq : ∀ x : PaymentUnit, (notifyPay i .cancelled (causeCode c) false (withdrawn i c s)).payment = x → cancelRecord i c s =
      if s.headAt i then removeHead ((notifyPay i .cancelled (causeCode c) false (withdrawn i c s)).setPayment { x with offerTimer := none })
      else (notifyPay i .cancelled (causeCode c) false (withdrawn i c s)).setPayment { x with queue := x.queue.filter fun r => r.slot != i } := by
    rintro _ rfl
    rfl
  exact heq _ (by simp [hp])

@[simp] theorem cancelRecord_fare : (cancelRecord i c s).fare = s.fare.withParty i { s.party i with state := .hold } := by
  simp only [cancelRecord_eq, withdrawn, paymentReleased_eq]
  split_ifs <;> simp [State.setPayment]

theorem cancelRecord_seqD : (cancelRecord i c s).request.seqD = s.request.seqD := by
  simp only [cancelRecord_eq, withdrawn, paymentReleased_eq]
  split_ifs <;> simp [State.setPayment, notifyPay_request]

theorem cancelRecord_payTold :
    s.payTold (cancelRecord i c s) i (s.party i).trip (enc PayResult.all .cancelled) (causeCode c) 0 := by
  have hw : (partyMoved i { s.party i with state := .hold } s).Beside (withdrawn i c s) :=
    .ite (.emit .k _ _ (by decide) (by decide)) (.refl _)
  have hu : (notifyPay i .cancelled (causeCode c) false (withdrawn i c s)).Beside (cancelRecord i c s) := by
    rw [cancelRecord_eq]
    exact .ite ((State.Beside.setPayment _ _).trans (.removeHead _)) (.setPayment _ _)
  exact payTold_of_partyMoved (p := { s.party i with state := .hold }) (.refl s) hw hu

theorem cancelRecord_changesOnly : s.changesOnly (cancelRecord i c s) [.request, .fare, .payment, .sign, .power] := by
  simp [State.changesOnly]

theorem cancelRecord_port_d : (cancelRecord i c s).port .d = s.port .d := by
  simp only [cancelRecord_eq, withdrawn, paymentReleased_eq]
  split_ifs <;> simp [removeHead_port_other, notifyPay_port_other, emit_port_other, partyMoved_port_other]

end cancel

section head
variable {r : Record} {rest : List Record} {s : State} (hq : s.payment.queue = r :: rest)
include hq

theorem State.headAt_of_queue (i : Fin 4) : s.headAt i = (r.slot == i) := by
  simp [headAt, hq]

theorem cancelRecord_head_payment (c : CancelCause) :
    (cancelRecord r.slot c s).payment = { s.payment with queue := promotedQueue rest, offerTimer := promotedTimer rest } := by
  simp only [cancelRecord_eq, State.headAt_of_queue hq, beq_self_eq_true, if_true, removeHead_payment]
  simp [State.setPayment, hq, promotedTimer_eq]

theorem cancelRecord_head_port_k (c : CancelCause) (hc : c ≠ .link) :
    (cancelRecord r.slot c s).port .k =
      ((s.port .k).placed (payFrame .chargeWithdraw [byte r.slot.val])).offeredNext s.payment.policy.tipPercent rest := by
  have hw : (withdrawn r.slot c s).port .k = (s.port .k).placed (payFrame .chargeWithdraw [byte r.slot.val]) := by
    rw [withdrawn, if_pos ⟨by simp [State.headAt_of_queue hq], hc⟩, emit_port_same, paymentReleased_eq,
      partyMoved_port_other _ _ _ _ (by decide) (by decide) (by decide)]
  simp only [cancelRecord_eq, State.headAt_of_queue hq, beq_self_eq_true, if_true, removeHead_port_k]
  simp only [State.setPayment, hq, List.drop_one, List.tail_cons]
  rw [← hw]
  exact congrArg (PortState.offeredNext · _ rest) (notifyPay_port_other _ _ _ _ _ .k (by decide))

theorem cancelRecord_later_payment (i : Fin 4) (c : CancelCause) (hi : i ≠ r.slot) :
    (cancelRecord i c s).payment = { s.payment with queue := s.payment.queue.filter fun x => x.slot != i } := by
  have hne : (r.slot == i) = false := by simpa using hi.symm
  simp only [cancelRecord_eq, State.headAt_of_queue hq, hne]
  rfl

theorem cancelRecord_later_port_k (i : Fin 4) (c : CancelCause) (hi : i ≠ r.slot) : (cancelRecord i c s).port .k = s.port .k := by
  have hne : (r.slot == i) = false := by simpa using hi.symm
  have hw : (withdrawn i c s).port .k = s.port .k := by
    rw [withdrawn, if_neg (by simp [State.headAt_of_queue hq, hne]), paymentReleased_eq,
      partyMoved_port_other _ _ _ _ (by decide) (by decide) (by decide)]
  simp only [cancelRecord_eq, State.headAt_of_queue hq, hne]
  exact (notifyPay_port_other _ _ _ _ _ .k (by decide)).trans hw

end head

/-! ### The end of the head record -/

section ended
variable {r : Record} {rest : List Record} {s : State}

/-- What removing the head leaves of a payment unit whose offer timer is stopped. -/
def PaymentUnit.behind (x : PaymentUnit) (rest : List Record) : PaymentUnit :=
  { x with queue := promotedQueue rest, offerTimer := promotedTimer rest }

theorem removeHead_payment_of_queue (hq : s.payment.queue = r :: rest) (ht : s.payment.offerTimer = none) :
    (removeHead s).payment = s.payment.behind rest := by
  simp only [removeHead_payment, hq, List.drop_one, List.tail_cons, ht, promotedTimer_eq, PaymentUnit.behind]

theorem removeHead_port_k_of_queue (hq : s.payment.queue = r :: rest) :
    (removeHead s).port .k = (s.port .k).offeredNext s.payment.policy.tipPercent rest := by
  simp only [removeHead_port_k, hq, List.drop_one, List.tail_cons]

/-! ### Answers (R71, R72) -/

@[simp] theorem answerApproved_fare : (answerApproved r s).fare =
    s.fare.withParty r.slot ((s.party r.slot).paidOnline (r.amountAsked.getD 0) (r.tipAsked.getD 0)) := by
  simp only [answerApproved, removeHead_fare, notifyPay_fare, triggerChime_fare, authResult_fare, postedOnline_eq, partyMoved_fare]
  rfl

theorem answerApproved_payment (hq : s.payment.queue = r :: rest) (ht : s.payment.offerTimer = none) :
    (answerApproved r s).payment = { s.payment with answerTimer := none }.behind rest := by
  rw [answerApproved, removeHead_payment_of_queue (r := r) (rest := rest)] <;> simp [hq, ht]

theorem answerApproved_port_k (hq : s.payment.queue = r :: rest) :
    (answerApproved r s).port .k = ((s.port .k).placed (payFrame .authResult ([byte r.slot.val, enc AuthResult.all .approved, 0]
      ++ be 4 (r.terminalRef.getD 0).toNat ++ be 4 (r.amountAsked.getD 0) ++ be 4 (r.tipAsked.getD 0)))).offeredNext s.payment.policy.tipPercent rest := by
  rw [answerApproved, removeHead_port_k_of_queue (r := r) (rest := rest) (by simp [hq]), notifyPay_port_other _ _ _ _ _ _ (by decide), triggerChime_port,
    authResult_port_k, postedOnline_eq, partyMoved_port_other _ _ _ _ (by decide) (by decide) (by decide)]
  simp

theorem answerApproved_intercom : (answerApproved r s).intercom = s.paidChimed := by
  simp only [answerApproved, removeHead_intercom, notifyPay_intercom, triggerChime_paid_intercom]
  exact State.paidChimed_congr (isUp_of_face _ _ (by simp) _) (by simp)

theorem answerApproved_seqD : (answerApproved r s).request.seqD = s.request.seqD := by
  simp [answerApproved, notifyPay_request, postedOnline_eq]

theorem answerApproved_port_d : (answerApproved r s).port .d = s.port .d := by
  simp [answerApproved, postedOnline_eq, removeHead_port_other, notifyPay_port_other, triggerChime_port, authResult_port_other, partyMoved_port_other]

theorem answerApproved_payTold :
    s.payTold (answerApproved r s) r.slot (s.party r.slot).trip (enc PayResult.all .approved) 0 (flag (!s.isUp .k)) := by
  have hk : (postedOnline r.slot (r.amountAsked.getD 0) (r.tipAsked.getD 0) (s.setPayment { s.payment with answerTimer := none })).isUp .k = s.isUp .k :=
    isUp_of_face _ _ (by simp) _
  rw [answerApproved, hk]
  exact payTold_of_partyMoved (p := (s.party r.slot).paidOnline (r.amountAsked.getD 0) (r.tipAsked.getD 0)) (.setPayment _ s)
    (.trans (.authResult ..) (.triggerChime ..)) (.removeHead _)

@[simp] theorem answerDeclined_fare : (answerDeclined r s).fare = s.fare.withParty r.slot { s.party r.slot with state := .hold } := by
  simp only [answerDeclined, removeHead_fare, notifyPay_fare, authResult_fare, paymentReleased_eq, partyMoved_fare]
  rfl

theorem answerDeclined_payment (hq : s.payment.queue = r :: rest) (ht : s.payment.offerTimer = none) :
    (answerDeclined r s).payment = { s.payment with answerTimer := none }.behind rest := by
  rw [answerDeclined, removeHead_payment_of_queue (r := r) (rest := rest)] <;> simp [hq, ht]

theorem answerDeclined_port_k (hq : s.payment.queue = r :: rest) :
    (answerDeclined r s).port .k = ((s.port .k).placed (payFrame .authResult ([byte r.slot.val, enc AuthResult.all .declined, 0]
      ++ be 4 (r.terminalRef.getD 0).toNat ++ be 4 0 ++ be 4 0))).offeredNext s.payment.policy.tipPercent rest := by
  rw [answerDeclined, removeHead_port_k_of_queue (r := r) (rest := rest) (by simp [hq]), notifyPay_port_other _ _ _ _ _ _ (by decide),
    authResult_port_k, paymentReleased_eq, partyMoved_port_other _ _ _ _ (by decide) (by decide) (by decide)]
  simp

theorem answerDeclined_seqD : (answerDeclined r s).request.seqD = s.request.seqD := by
  simp [answerDeclined, notifyPay_request, paymentReleased_eq]

theorem answerDeclined_port_d : (answerDeclined r s).port .d = s.port .d := by
  simp [answerDeclined, paymentReleased_eq, removeHead_port_other, notifyPay_port_other, authResult_port_other, partyMoved_port_other]

theorem answerDeclined_payTold :
    s.payTold (answerDeclined r s) r.slot (s.party r.slot).trip (enc PayResult.all .declined) 0 (flag (!s.isUp .k)) := by
  have hk : (paymentReleased r.slot (s.setPayment { s.payment with answerTimer := none })).isUp .k = s.isUp .k := isUp_of_face _ _ (by simp) _
  rw [← hk]
  exact payTold_of_partyMoved (p := { s.party r.slot with state := .hold }) (.setPayment _ s) (.authResult ..) (.removeHead _)

/-! ### An entry appended (R78 to R80) -/

/-- The payment unit with an entry appended to its store. -/
def PaymentUnit.append (x : PaymentUnit) (e : StoreEntry) : PaymentUnit :=
  { x with store := x.store ++ [e] }

theorem uploadHead_payment (s : State) :
    (uploadHead s).payment = if s.payment.store = [] then s.payment else { s.payment with upload := .awaiting, uploadTimer := some 20000 } := by
  unfold uploadHead
  cases s.payment.store <;> rfl

theorem uploadHead_port_other (s : State) (q : Port) (h : q ≠ .d) : (uploadHead s).port q = s.port q := by
  unfold uploadHead
  split
  · rfl
  · exact emit_port_other _ _ _ _ h

theorem sendUpload_port_other (s : State) (q : Port) (h : q ≠ .d) : (sendUpload s).port q = s.port q := by
  unfold sendUpload
  split
  · exact uploadHead_port_other s q h
  · rfl

/-- Whether an event may start the upload: in RUN, with D UP (R80). -/
def State.uploads (s : State) : Bool := s.running && s.isUp .d

theorem State.uploads_of_run {s : State} (h : s.power.state = .run) : s.uploads = s.isUp .d := by simp [uploads, running, h]

theorem sendUpload_payment (s : State) : (sendUpload s).payment = s.payment.uploading s.uploads := by
  unfold sendUpload PaymentUnit.uploading State.uploads
  by_cases h : s.running = true ∧ s.isUp .d = true ∧ s.payment.upload = .idle
  · obtain ⟨hrun, hup, hidle⟩ := h
    rw [if_pos ⟨hrun, hup, hidle⟩, uploadHead_payment]
    cases hs : s.payment.store <;> simp [hs, hrun, hup, hidle]
  · rw [if_neg h, if_neg (fun hc => h (by simpa [and_assoc] using (Bool.and_eq_true_iff.mp hc).1))]

theorem sendUpload_port_d (s : State) (h : s.power.state = .run) :
    (sendUpload s).port .d = (s.port .d).uploaded s.payment s.tariff.cabNumber := by
  rw [sendUpload_eq s h, State.setPayment_port, State.port_setPort_same]

theorem notifyStore_port_d (s : State) :
    (notifyStore s).port .d = (s.port .d).placed (noticeFrame s.request.seqD .store [byte s.payment.store.length]) :=
  emit_port_same _ _ _

theorem notifyStore_seqD (s : State) : (notifyStore s).request.seqD = nextSeq s.request.seqD := rfl

variable (e : StoreEntry) (s)

theorem appendEntry_port_other (q : Port) (h : q ≠ .d) : (appendEntry e s).port q = s.port q := by
  have hnotice : ∀ t : State, (notifyStore t).port q = t.port q := fun t => emit_port_other _ _ _ _ h
  unfold appendEntry
  dsimp only
  rw [sendUpload_port_other _ _ h]
  split
  · rw [hnotice]
    rfl
  · rfl

/-- The state with the entry stored, counted and noticed, before the upload. -/
def stored (e : StoreEntry) (s : State) : State :=
  let t := (s.setPayment (s.payment.append e)).setTotals (s.shift.totals.countEntry e.kind)
  if t.payment.store.length = 28 then notifyStore t else t

theorem appendEntry_eq : appendEntry e s = sendUpload (stored e s) := rfl

@[simp] theorem stored_power : (stored e s).power = s.power := by unfold stored; dsimp only; split <;> rfl
@[simp] theorem stored_tariff : (stored e s).tariff = s.tariff := by unfold stored; dsimp only; split <;> rfl
@[simp] theorem stored_payment : (stored e s).payment = s.payment.append e := by unfold stored; dsimp only; split <;> rfl
@[simp] theorem stored_shift : (stored e s).shift = { s.shift with totals := s.shift.totals.countEntry e.kind } := by
  unfold stored; dsimp only; split <;> rfl
@[simp] theorem stored_isUp (q : Port) : (stored e s).isUp q = s.isUp q := by
  refine isUp_of_face _ _ ?_ q
  unfold stored
  dsimp only
  split <;> simp [notifyStore]

theorem stored_port_d : (stored e s).port .d = (s.port .d).storeTold s.request.seqD (s.payment.append e).store.length := by
  have hlen : (((s.setPayment (s.payment.append e)).setTotals (s.shift.totals.countEntry e.kind)).payment.store.length)
    = (s.payment.append e).store.length := rfl
  unfold stored PortState.storeTold
  dsimp only
  rw [hlen]
  split
  · rename_i h28
    rw [notifyStore_port_d, hlen, h28]
    rfl
  · rfl

theorem stored_seqD : (stored e s).request.seqD = storeSeq s.request.seqD (s.payment.append e).store.length := by
  unfold stored storeSeq
  dsimp only
  change (if (s.payment.append e).store.length = 28 then _ else _ : State).request.seqD = _
  split <;> rfl

theorem appendEntry_shift : (appendEntry e s).shift = { s.shift with totals := s.shift.totals.countEntry e.kind } := by
  rw [appendEntry_eq, sendUpload_shift, stored_shift]

theorem appendEntry_seqD : (appendEntry e s).request.seqD = storeSeq s.request.seqD (s.payment.append e).store.length := by
  rw [appendEntry_eq, sendUpload_request, stored_seqD]

theorem appendEntry_payment : (appendEntry e s).payment = (s.payment.append e).uploading s.uploads := by
  rw [appendEntry_eq, sendUpload_payment, stored_payment, State.uploads, State.uploads, stored_isUp, State.running, stored_power]
  rfl

theorem appendEntry_port_d (h : s.power.state = .run) :
    (appendEntry e s).port .d =
      ((s.port .d).storeTold s.request.seqD (s.payment.append e).store.length).uploaded (s.payment.append e) s.tariff.cabNumber := by
  rw [appendEntry_eq, sendUpload_port_d _ (by simpa using h), stored_payment, stored_port_d, stored_tariff]

end ended

end Sys2Proof.Machine
end

