-- ==== Sys2Proof/Proofs/AskOutcomes.lean ====
section
/-! PROOFS. The timeout of an answer, the two paths of an authorization ask, and the reference an allocation gives. -/
set_option Elab.async false
namespace Sys2Proof.Machine

/-! ### Hub references (R69) -/

theorem nextRef_eq {n : Nat} (h : n ≤ 65535) : nextRef n = n % 65535 + 1 := by
  unfold nextRef
  split <;> omega

theorem nextRef_bounds {n : Nat} (h : n ≤ 65535) : 1 ≤ nextRef n ∧ nextRef n ≤ 65535 := by
  rw [nextRef_eq h]
  omega

/-- The values after a counter value, in closed form. -/
theorem iterate_nextRef {n : Nat} (h : n ≤ 65535) (k : Nat) : nextRef^[k + 1] n = (n + k) % 65535 + 1 := by
  induction k with
  | zero => simpa using nextRef_eq h
  | succ k ih =>
    rw [Function.iterate_succ_apply', ih, nextRef_eq (by omega)]
    omega

theorem freeRef_bounds (store : List StoreEntry) (tries n : Nat) (h : n ≤ 65535) :
    1 ≤ freeRef store tries n ∧ freeRef store tries n ≤ 65535 := by
  induction tries generalizing n with
  | zero => exact nextRef_bounds h
  | succ tries ih =>
    unfold freeRef
    split
    · exact ih _ (nextRef_bounds h).2
    · exact nextRef_bounds h

/-- Where the reference found is held by an entry, so is every one tried. -/
theorem iterate_nextRef_mem_of_freeRef_mem (store : List StoreEntry) (tries n : Nat) (h : freeRef store tries n ∈ store.map StoreEntry.hubRef)
    (k : Nat) (hk : k ≤ tries) : nextRef^[k + 1] n ∈ store.map StoreEntry.hubRef := by
  induction tries generalizing n k with
  | zero =>
    obtain rfl : k = 0 := by omega
    exact h
  | succ tries ih =>
    unfold freeRef at h
    split at h
    · rename_i hheld
      cases k with
      | zero => simpa using hheld
      | succ k => exact ih _ h k (by omega)
    · rename_i hfree
      exact absurd h (by simpa using hfree)

/-- A reference allocated is held by no entry: among one more distinct values than there are entries one is free. -/
theorem allocate_not_mem (x : PaymentUnit) (hc : x.refCounter ≤ 65535) (hs : x.store.length < 65535) :
    x.allocate ∉ x.store.map StoreEntry.hubRef := by
  intro h
  have htried := iterate_nextRef_mem_of_freeRef_mem x.store x.store.length x.refCounter h
  have hnodup : ((List.range (x.store.length + 1)).map fun k => nextRef^[k + 1] x.refCounter).Nodup := by
    refine List.Nodup.map_on (fun j hj k hk hjk => ?_) List.nodup_range
    simp only [List.mem_range, iterate_nextRef hc] at hj hk hjk
    omega
  have hsub : ((List.range (x.store.length + 1)).map fun k => nextRef^[k + 1] x.refCounter) ⊆ x.store.map StoreEntry.hubRef := by
    intro n hn
    obtain ⟨k, hk, rfl⟩ := List.mem_map.mp hn
    exact htried k (by simpa [Nat.lt_succ_iff] using hk)
  have hlen := (hnodup.subperm hsub).length_le
  simp at hlen

theorem allocate_bounds (x : PaymentUnit) (hc : x.refCounter ≤ 65535) : 1 ≤ x.allocate ∧ x.allocate ≤ 65535 := freeRef_bounds _ _ _ hc

/-! ### The timeout (R74) -/

theorem PaymentUnit.uploading_behind (x : PaymentUnit) (b : Bool) (rest : List Record) : (x.uploading b).behind rest = (x.behind rest).uploading b := by
  unfold uploading behind
  dsimp only
  split <;> rfl

theorem PaymentUnit.uploading_queue (x : PaymentUnit) (b : Bool) : (x.uploading b).queue = x.queue := by
  unfold uploading
  split <;> rfl

theorem PaymentUnit.uploading_offerTimer (x : PaymentUnit) (b : Bool) : (x.uploading b).offerTimer = x.offerTimer := by
  unfold uploading
  split <;> rfl

theorem PaymentUnit.uploading_policy (x : PaymentUnit) (b : Bool) : (x.uploading b).policy = x.policy := by
  unfold uploading
  split <;> rfl

section timeout
variable (r : Record) (rest : List Record) (s : State)

/-- The entry a timeout stores (R74). -/
def State.reversalOf (s : State) (r : Record) : StoreEntry :=
  ⟨.reversal, r.hubRef.getD 0, r.slot, (s.party r.slot).trip, s.shift.number, s.tariff.clock⟩

/-- The state of a timeout in which its entry is appended. -/
def timedOut (r : Record) (s : State) : State :=
  authResult (byte r.slot.val) .timeout 0 (r.terminalRef.getD 0) 0 0 (s.setPayment { s.payment with answerTimer := none })

theorem answerTimedOut_eq : answerTimedOut r s =
    removeHead (notifyPay r.slot .timeout 0 (!s.isUp .k) (partyMoved r.slot { s.party r.slot with state := .hold }
      (appendEntry (s.reversalOf r) (timedOut r s)))) := by
  have hparty : (appendEntry (s.reversalOf r) (timedOut r s)).party r.slot = s.party r.slot :=
    congrArg (fun x : FareEngine => x.parties[r.slot]) (by simp [timedOut] : (appendEntry (s.reversalOf r) (timedOut r s)).fare = s.fare)
  rw [← hparty]
  rfl

@[simp] theorem answerTimedOut_fare : (answerTimedOut r s).fare = s.fare.withParty r.slot { s.party r.slot with state := .hold } := by
  simp [answerTimedOut_eq, timedOut]

theorem answerTimedOut_payTold :
    s.payTold (answerTimedOut r s) r.slot (s.party r.slot).trip (enc PayResult.all .timeout) 0 (flag (!s.isUp .k)) := by
  rw [answerTimedOut_eq]
  exact payTold_of_partyMoved (p := { s.party r.slot with state := .hold })
    (((State.Beside.setPayment _ s).trans (.authResult ..)).trans (.appendEntry ..)) (.refl _) (.removeHead _)

theorem answerTimedOut_shift : (answerTimedOut r s).shift = { s.shift with totals := s.shift.totals.countReversal } := by
  simp only [answerTimedOut_eq, removeHead_shift, notifyPay_shift, partyMoved_shift, appendEntry_shift]
  rfl

variable {r rest s}

theorem answerTimedOut_payment (hq : s.payment.queue = r :: rest) (ht : s.payment.offerTimer = none) :
    (answerTimedOut r s).payment =
      (({ s.payment with answerTimer := none }.append (s.reversalOf r)).behind rest).uploading s.uploads := by
  have happend : (appendEntry (s.reversalOf r) (timedOut r s)).payment =
      ({ s.payment with answerTimer := none }.append (s.reversalOf r)).uploading s.uploads :=
    appendEntry_payment (timedOut r s) (s.reversalOf r)
  rw [answerTimedOut_eq, removeHead_payment_of_queue (r := r) (rest := rest)]
  · rw [← PaymentUnit.uploading_behind, ← happend]
    simp
  · simp only [notifyPay_payment, partyMoved_payment, happend, PaymentUnit.uploading_queue]
    exact hq
  · simp only [notifyPay_payment, partyMoved_payment, happend, PaymentUnit.uploading_offerTimer]
    exact ht

theorem timedOut_port_d : (timedOut r s).port .d = s.port .d := authResult_port_other _ _ _ _ _ _ _ .d (by decide)

theorem answerTimedOut_port_d (hrun : s.power.state = .run) :
    (answerTimedOut r s).port .d =
      ((s.port .d).storeTold s.request.seqD (s.payment.append (s.reversalOf r)).store.length).uploaded (s.payment.append (s.reversalOf r))
        s.tariff.cabNumber := by
  rw [answerTimedOut_eq, removeHead_port_other _ _ (by decide), notifyPay_port_other _ _ _ _ _ _ (by decide),
    partyMoved_port_other _ _ _ _ (by decide) (by decide) (by decide)]
  exact (appendEntry_port_d (timedOut r s) (s.reversalOf r) hrun).trans (by rw [timedOut_port_d]; rfl)

theorem answerTimedOut_seqD : (answerTimedOut r s).request.seqD = storeSeq s.request.seqD (s.payment.append (s.reversalOf r)).store.length := by
  simp only [answerTimedOut_eq, removeHead_request, notifyPay_request, partyMoved_request, appendEntry_seqD]
  rfl

theorem answerTimedOut_port_k (hq : s.payment.queue = r :: rest) :
    (answerTimedOut r s).port .k = ((s.port .k).placed (payFrame .authResult ([byte r.slot.val, enc AuthResult.all .timeout, 0]
      ++ be 4 (r.terminalRef.getD 0).toNat ++ be 4 0 ++ be 4 0))).offeredNext s.payment.policy.tipPercent rest := by
  have happend : (appendEntry (s.reversalOf r) (timedOut r s)).payment =
      ({ s.payment with answerTimer := none }.append (s.reversalOf r)).uploading s.uploads :=
    appendEntry_payment (timedOut r s) (s.reversalOf r)
  rw [answerTimedOut_eq, removeHead_port_k_of_queue (r := r) (rest := rest), notifyPay_port_other _ _ _ _ _ _ (by decide),
    partyMoved_port_other _ _ _ _ (by decide) (by decide) (by decide), appendEntry_port_other _ _ _ (by decide)]
  · simp only [notifyPay_payment, partyMoved_payment, happend, PaymentUnit.uploading_policy]
    exact congrArg (PortState.offeredNext · _ rest) (authResult_port_k ..)
  · simp only [notifyPay_payment, partyMoved_payment, happend, PaymentUnit.uploading_queue]
    exact hq

end timeout

/-! ### The offline decision (R75 to R77) -/

section offline
variable {r : Record} {rest : List Record} {s : State} {x : Ask} {reason : OfflineReason}

@[simp] theorem refuseOffline_fare : (refuseOffline r x reason s).fare = s.fare.withParty r.slot { s.party r.slot with state := .hold } := by
  simp only [refuseOffline, removeHead_fare, notifyPay_fare, paymentReleased_eq, partyMoved_fare]
  rfl

theorem refuseOffline_payment (hq : s.payment.queue = r :: rest) :
    (refuseOffline r x reason s).payment = s.payment.behind rest := by
  rw [refuseOffline, removeHead_payment_of_queue (r := r) (rest := rest)] <;> simp [hq, PaymentUnit.behind]

theorem refuseOffline_port_k (hq : s.payment.queue = r :: rest) :
    (refuseOffline r x reason s).port .k = ((s.port .k).placed (payFrame .authResult ([byte r.slot.val, enc AuthResult.all .offlineRefused,
      offlineCode reason] ++ be 4 x.terminalRef.toNat ++ be 4 0 ++ be 4 0))).offeredNext s.payment.policy.tipPercent rest := by
  rw [refuseOffline, removeHead_port_k_of_queue (r := r) (rest := rest) (by simp [hq]), notifyPay_port_other _ _ _ _ _ _ (by decide),
    paymentReleased_eq, partyMoved_port_other _ _ _ _ (by decide) (by decide) (by decide), authResult_port_k]
  simp

theorem refuseOffline_seqD : (refuseOffline r x reason s).request.seqD = s.request.seqD := by
  simp [refuseOffline, notifyPay_request, paymentReleased_eq]

theorem refuseOffline_port_d : (refuseOffline r x reason s).port .d = s.port .d := by
  simp [refuseOffline, paymentReleased_eq, removeHead_port_other, notifyPay_port_other, authResult_port_other, partyMoved_port_other]

theorem refuseOffline_payTold :
    s.payTold (refuseOffline r x reason s) r.slot (s.party r.slot).trip (enc PayResult.all .offlineRefused) (offlineCode reason)
      (flag (!s.isUp .k)) :=
  payTold_of_partyMoved (p := { s.party r.slot with state := .hold }) ((State.Beside.setPayment _ s).trans (.authResult ..)) (.refl _)
    (.removeHead _)

/-- The entry an approved offline ask stores (R76). -/
def State.saleOf (s : State) (r : Record) (x : Ask) : StoreEntry :=
  ⟨.sale x.amount x.tip x.token, s.payment.allocate, r.slot, (s.party r.slot).trip, s.shift.number, s.tariff.clock⟩

/-- The state of an approved offline ask in which its party is moved: the reference taken, the entry appended, the amount committed. -/
def committed (r : Record) (x : Ask) (s : State) : State :=
  let t := appendEntry (s.saleOf r x) (s.setPayment { s.payment with refCounter := s.payment.allocate, offerTimer := none })
  t.setTotals (t.shift.totals.commit (x.amount + x.tip))

theorem approveOffline_eq : approveOffline r x s =
    let t := partyMoved r.slot ((s.party r.slot).paidOffline x.amount x.tip) (committed r x s)
    removeHead (notifyPay r.slot .offlineApproved 0 (!s.isUp .k)
      (triggerChime .paid (authResult (byte r.slot.val) .offlineApproved 0 x.terminalRef x.amount x.tip t))) := by
  have hparty : (committed r x s).party r.slot = s.party r.slot :=
    congrArg (fun y : FareEngine => y.parties[r.slot]) (by simp [committed] : (committed r x s).fare = s.fare)
  have hk : (partyMoved r.slot ((s.party r.slot).paidOffline x.amount x.tip) (committed r x s)).isUp .k = s.isUp .k :=
    isUp_of_face _ _ (by simp [committed]) _
  rw [← hk, ← hparty]
  rfl

@[simp] theorem approveOffline_fare : (approveOffline r x s).fare = s.fare.withParty r.slot ((s.party r.slot).paidOffline x.amount x.tip) := by
  simp [approveOffline_eq, committed]

theorem approveOffline_payTold :
    s.payTold (approveOffline r x s) r.slot (s.party r.slot).trip (enc PayResult.all .offlineApproved) 0 (flag (!s.isUp .k)) := by
  rw [approveOffline_eq]
  exact payTold_of_partyMoved (p := (s.party r.slot).paidOffline x.amount x.tip)
    (((State.Beside.setPayment _ s).trans (.appendEntry ..)).trans (.setTotals ..))
    ((State.Beside.authResult ..).trans (.triggerChime ..)) (.removeHead _)

theorem approveOffline_shift :
    (approveOffline r x s).shift = { s.shift with totals := s.shift.totals.countSale.commit (x.amount + x.tip) } := by
  simp only [approveOffline_eq, removeHead_shift, notifyPay_shift, triggerChime_shift, authResult_shift, partyMoved_shift, committed, State.setTotals,
    appendEntry_shift]
  rfl

theorem approveOffline_intercom : (approveOffline r x s).intercom = s.paidChimed := by
  simp only [approveOffline_eq, removeHead_intercom, notifyPay_intercom, triggerChime_paid_intercom]
  exact State.paidChimed_congr (isUp_of_face _ _ (by simp [committed]) _) (by simp [committed])

theorem committed_payment :
    (committed r x s).payment =
      ({ s.payment with refCounter := s.payment.allocate, offerTimer := none }.append (s.saleOf r x)).uploading s.uploads :=
  appendEntry_payment _ _

theorem approveOffline_payment (hq : s.payment.queue = r :: rest) :
    (approveOffline r x s).payment =
      (({ s.payment with refCounter := s.payment.allocate }.append (s.saleOf r x)).behind rest).uploading s.uploads := by
  simp only [approveOffline_eq]
  rw [removeHead_payment_of_queue (r := r) (rest := rest)]
  · simp only [notifyPay_payment, triggerChime_payment, authResult_payment, partyMoved_payment, committed_payment,
      PaymentUnit.uploading_behind]
    rfl
  · simpa [committed_payment, PaymentUnit.uploading_queue, PaymentUnit.append] using hq
  · simp [committed_payment, PaymentUnit.uploading_offerTimer, PaymentUnit.append]

theorem approveOffline_port_k (hq : s.payment.queue = r :: rest) :
    (approveOffline r x s).port .k = ((s.port .k).placed (payFrame .authResult ([byte r.slot.val, enc AuthResult.all .offlineApproved, 0]
      ++ be 4 x.terminalRef.toNat ++ be 4 x.amount ++ be 4 x.tip))).offeredNext s.payment.policy.tipPercent rest := by
  have hk : (committed r x s).port .k = s.port .k := appendEntry_port_other _ _ .k (by decide)
  simp only [approveOffline_eq]
  rw [removeHead_port_k_of_queue (r := r) (rest := rest), notifyPay_port_other _ _ _ _ _ _ (by decide), triggerChime_port, authResult_port_k,
    partyMoved_port_other _ _ _ _ (by decide) (by decide) (by decide), hk]
  · simp [committed_payment, PaymentUnit.uploading_policy, PaymentUnit.append]
  · simpa [committed_payment, PaymentUnit.uploading_queue, PaymentUnit.append] using hq

theorem approveOffline_port_d (hrun : s.power.state = .run) :
    (approveOffline r x s).port .d =
      ((s.port .d).storeTold s.request.seqD (s.payment.append (s.saleOf r x)).store.length).uploaded (s.payment.append (s.saleOf r x))
        s.tariff.cabNumber := by
  simp only [approveOffline_eq]
  rw [removeHead_port_other _ _ (by decide), notifyPay_port_other _ _ _ _ _ _ (by decide), triggerChime_port, authResult_port_other _ _ _ _ _ _ _ _ (by decide),
    partyMoved_port_other _ _ _ _ (by decide) (by decide) (by decide)]
  exact appendEntry_port_d _ _ hrun

theorem approveOffline_seqD : (approveOffline r x s).request.seqD = storeSeq s.request.seqD (s.payment.append (s.saleOf r x)).store.length := by
  simp only [approveOffline_eq, removeHead_request, notifyPay_request, triggerChime_request, authResult_request, partyMoved_request]
  exact appendEntry_seqD _ _

end offline

end Sys2Proof.Machine
end

