-- ==== Sys2Proof/Proofs/Accounts.lean ====
section
/-! PROOFS. The money of the parties: what keeps the accounts sound, for the parties and the amounts offered of them. -/
set_option Elab.async false
namespace Sys2Proof.Machine

/-! ### Sound parties -/

/-- A sound party, as propositions. -/
structure Party.Sound (p : Party) : Prop where
  fare : p.fare ≤ Config.fareCap
  extras : p.extras ≤ Config.extrasCap
  paid : p.cash + p.cardOnline + p.cardOffline ≤ p.fare + p.extras
  hold : p.state = .hold → 1 ≤ p.due
  settled : p.state = .settled → p.due = 0
  idle : p.state = .idle → p = .vacant

theorem Party.sound_iff (p : Party) : p.sound = true ↔ p.Sound := by
  unfold sound
  simp only [Bool.and_eq_true, Bool.or_eq_true, decide_eq_true_eq, bne_iff_ne, beq_iff_eq, ← imp_iff_not_or]
  constructor
  · rintro ⟨⟨⟨⟨⟨h1, h2⟩, h3⟩, h4⟩, h5⟩, h6⟩
    exact ⟨h1, h2, h3, h4, h5, h6⟩
  · rintro ⟨h1, h2, h3, h4, h5, h6⟩
    exact ⟨⟨⟨⟨⟨h1, h2⟩, h3⟩, h4⟩, h5⟩, h6⟩

theorem Party.Sound.vacant : Party.vacant.Sound := (Party.sound_iff _).mp (by decide)

theorem Party.Sound.follow {p q : Party} (h : p.Sound) (hpq : p.Follows q) : q.Sound := by
  obtain ⟨hstate, hcash, honline, hoffline, hfare, hextras, hstanding, hidle⟩ := hpq
  obtain ⟨hfare, hfareCap⟩ := hfare h.fare
  obtain ⟨hextras, hextrasCap⟩ := hextras h.extras
  have hpaid := h.paid
  refine ⟨hfareCap, hextrasCap, by omega, fun hq => ?_, fun hq => ?_, fun hq => ?_⟩
  · have := h.hold (hstate ▸ hq)
    simp only [Party.due] at this ⊢
    omega
  · have hp : p.state = .settled := hstate ▸ hq
    have := h.settled hp
    obtain ⟨hf, hx⟩ := hstanding (by simp [hp])
    simp only [Party.due] at this ⊢
    omega
  · have hp : p.state = .idle := hstate ▸ hq
    rw [hidle hp]
    exact h.idle hp

/-- The due of a party that follows grows. -/
theorem Party.Follows.due_le {p q : Party} (h : p.Follows q) (hs : p.Sound) : p.due ≤ q.due := by
  obtain ⟨-, hcash, honline, hoffline, hfare, hextras, -, -⟩ := h
  have := (hfare hs.fare).1
  have := (hextras hs.extras).1
  simp only [Party.due]
  omega

/-- Money that fits a party's fare and extras leaves it sound in the state that its due gives (R24, R27, R32). -/
theorem Party.Sound.standing {p : Party} (hf : p.fare ≤ Config.fareCap) (hx : p.extras ≤ Config.extrasCap)
    (hp : p.cash + p.cardOnline + p.cardOffline ≤ p.fare + p.extras) : { p with state := p.standing }.Sound := by
  refine ⟨hf, hx, hp, fun h => ?_, fun h => ?_, fun h => ?_⟩ <;> simp only [standing_eq] at h <;> split at h
  case refine_1.isTrue hd => exact hd
  case refine_2.isFalse hd => exact Nat.eq_zero_of_not_pos hd
  all_goals exact absurd h (by simp)

/-- A party put in METERING or PAYING. -/
theorem Party.Sound.put {p : Party} (h : p.Sound) (x : PartyState) (hx : x = .metering ∨ x = .paying) : { p with state := x }.Sound := by
  rcases hx with rfl | rfl <;> exact ⟨h.fare, h.extras, h.paid, by simp, by simp, by simp⟩

theorem Party.Sound.toHold {p : Party} (h : p.Sound) (hd : 1 ≤ p.due) : { p with state := .hold }.Sound :=
  ⟨h.fare, h.extras, h.paid, fun _ => hd, by simp, by simp⟩

theorem Party.Sound.paidOnline {p : Party} (h : p.Sound) {n tip : Nat} (hn : n ≤ p.due) : (p.paidOnline n tip).Sound := by
  have := h.paid
  simp only [Party.due] at hn
  exact Party.Sound.standing (p := { p with cardOnline := p.cardOnline + n, tipsOnline := p.tipsOnline + tip }) h.fare h.extras
    (show p.cash + (p.cardOnline + n) + p.cardOffline ≤ p.fare + p.extras by omega)

theorem Party.Sound.paidOffline {p : Party} (h : p.Sound) {n tip : Nat} (hn : n ≤ p.due) : (p.paidOffline n tip).Sound := by
  have := h.paid
  simp only [Party.due] at hn
  exact Party.Sound.standing (p := { p with cardOffline := p.cardOffline + n, tipsOffline := p.tipsOffline + tip }) h.fare h.extras
    (show p.cash + p.cardOnline + (p.cardOffline + n) ≤ p.fare + p.extras by omega)

/-! ### The amounts offered -/

/-- What a payment record says of its party: the slot, the amount offered and the amount asked. -/
structure Offer where
  slot : Fin 4
  offered : Nat
  asked : Option Nat

def Record.offer (r : Record) : Offer := ⟨r.slot, r.offered, r.amountAsked⟩

/-- The offers of the payment queue. -/
def State.offers (s : State) : List Offer := s.payment.queue.map Record.offer

/-- An offer is sound for a party (R62, R64, R68). -/
structure Offer.Sound (o : Offer) (p : Party) : Prop where
  paying : p.state = .paying
  least : 1 ≤ o.offered
  due : o.offered ≤ p.due
  asked : ∀ n, o.asked = some n → n ≤ o.offered

theorem Record.sound_iff (s : State) (r : Record) : Record.sound s r = true ↔ r.offer.Sound (s.party r.slot) := by
  unfold Record.sound
  simp only [Bool.and_eq_true, beq_iff_eq, decide_eq_true_eq]
  constructor
  · rintro ⟨⟨⟨h1, h2⟩, h3⟩, h4⟩
    refine ⟨h1, h2, h3, fun n hn => ?_⟩
    have hn : r.amountAsked = some n := hn
    simp only [hn, decide_eq_true_eq] at h4
    exact h4
  · rintro ⟨h1, h2, h3, h4⟩
    refine ⟨⟨⟨h1, h2⟩, h3⟩, ?_⟩
    split
    · rename_i n hn
      exact decide_eq_true (h4 n hn)
    · rfl

/-- The accounts of the parties of the four slots and of the offers made of them. -/
structure Accounts (parties : Fin 4 → Party) (offers : List Offer) : Prop where
  party : ∀ i, (parties i).Sound
  offer : ∀ o ∈ offers, o.Sound (parties o.slot)
  distinct : (offers.map Offer.slot).Nodup

theorem allSlots_iff (f : Fin 4 → Bool) : allSlots f = true ↔ ∀ i, f i = true := by
  simp [allSlots, slots, Fin.forall_fin_succ]

theorem State.accountsSound_iff (s : State) : s.accountsSound = true ↔ Accounts s.party s.offers := by
  have hslots : s.payment.queue.map Record.slot = s.offers.map Offer.slot := by simp [offers, Record.offer, Function.comp_def]
  unfold accountsSound
  simp only [Bool.and_eq_true, allSlots_iff, Party.sound_iff, List.all_eq_true, Record.sound_iff, decide_eq_true_eq, hslots]
  constructor
  · rintro ⟨⟨h1, h2⟩, h3⟩
    exact ⟨h1, List.forall_mem_map.mpr h2, h3⟩
  · rintro ⟨h1, h2, h3⟩
    exact ⟨⟨h1, List.forall_mem_map.mp h2⟩, h3⟩

namespace Accounts

variable {party party' : Fin 4 → Party} {offers offers' : List Offer}

theorem follow (h : Accounts party offers) (hf : ∀ i, (party i).Follows (party' i)) : Accounts party' offers where
  party i := (h.party i).follow (hf i)
  offer o ho := by
    obtain ⟨hpaying, hleast, hdue, hasked⟩ := h.offer o ho
    exact ⟨(hf o.slot).state.trans hpaying, hleast, hdue.trans ((hf o.slot).due_le (h.party o.slot)), hasked⟩
  distinct := h.distinct

theorem sublist (h : Accounts party offers) (hs : offers'.Sublist offers) : Accounts party offers' where
  party := h.party
  offer o ho := h.offer o (hs.subset ho)
  distinct := h.distinct.sublist (hs.map _)

/-- A party replaced by a sound one where no offer is of its slot. -/
theorem put (h : Accounts party offers) {i : Fin 4} {p : Party} (hp : p.Sound) (hi : ∀ o ∈ offers, o.slot ≠ i) :
    Accounts (Function.update party i p) offers where
  party j := by
    by_cases hj : j = i
    · subst hj
      simpa using hp
    · simpa [hj] using h.party j
  offer o ho := by
    rw [Function.update_of_ne (hi o ho)]
    exact h.offer o ho
  distinct := h.distinct

/-- A slot whose party is not PAYING has no offer. -/
theorem slot_ne (h : Accounts party offers) {i : Fin 4} (hi : (party i).state ≠ .paying) : ∀ o ∈ offers, o.slot ≠ i := by
  rintro o ho rfl
  exact hi (h.offer o ho).paying

theorem putIdle (h : Accounts party offers) {i : Fin 4} {p : Party} (hp : p.Sound) (hi : (party i).state ≠ .paying) :
    Accounts (Function.update party i p) offers := h.put hp (h.slot_ne hi)

theorem slot_ne_of_cons {o : Offer} (h : Accounts party (o :: offers)) : ∀ x ∈ offers, x.slot ≠ o.slot := by
  have hd := h.distinct
  simp only [List.map_cons, List.nodup_cons, List.mem_map, not_exists, not_and] at hd
  exact hd.1

/-- The head offer ended, its party left sound. -/
theorem endHead {o : Offer} (h : Accounts party (o :: offers)) {p : Party} (hp : p.Sound) : Accounts (Function.update party o.slot p) offers :=
  (h.sublist (List.sublist_cons_self o offers)).put hp h.slot_ne_of_cons

/-- The offer of a slot withdrawn, its party left sound. -/
theorem withdraw (h : Accounts party offers) (i : Fin 4) {p : Party} (hp : p.Sound) :
    Accounts (Function.update party i p) (offers.filter fun o => o.slot != i) :=
  (h.sublist List.filter_sublist).put hp fun o ho => by simpa using (List.mem_filter.mp ho).2

/-- A party taken to PAYING with an offer of it. -/
theorem offerOf (h : Accounts party offers) {i : Fin 4} {n : Nat} (hi : (party i).state ≠ .paying) (hn : 1 ≤ n) (hd : n ≤ (party i).due) :
    Accounts (Function.update party i { party i with state := .paying }) (offers ++ [⟨i, n, none⟩]) where
  party := (h.putIdle ((h.party i).put .paying (.inr rfl)) hi).party
  offer o ho := by
    rcases List.mem_append.mp ho with ho | ho
    · exact (h.putIdle ((h.party i).put .paying (.inr rfl)) hi).offer o ho
    · obtain rfl : o = ⟨i, n, none⟩ := by simpa using ho
      exact ⟨by simp, hn, by simpa [Party.due] using hd, by simp⟩
  distinct := by
    simp only [List.map_append, List.map_cons, List.map_nil]
    refine List.Nodup.append h.distinct (List.nodup_singleton i) fun j hj hji => ?_
    obtain ⟨o, ho, rfl⟩ := List.mem_map.mp hj
    exact h.slot_ne hi o ho (by simpa using hji)

theorem askOf {o : Offer} (h : Accounts party (o :: offers)) (n : Nat) (hn : n ≤ o.offered) : Accounts party ({ o with asked := some n } :: offers) where
  party := h.party
  offer x hx := by
    rcases List.mem_cons.mp hx with rfl | hx
    · obtain ⟨h1, h2, h3, -⟩ := h.offer o (by simp)
      exact ⟨h1, h2, h3, by simpa using hn⟩
    · exact h.offer x (by simp [hx])
  distinct := by simpa using h.distinct

end Accounts

/-! ### Parties and offers after an operation -/

theorem State.party_of_fare {s t : State} (h : t.fare = s.fare) : t.party = s.party := by
  funext i
  simp only [State.party, h]

theorem State.party_of_withParty {s t : State} {i : Fin 4} {p : Party} (h : t.fare = s.fare.withParty i p) :
    t.party = Function.update s.party i p := by
  funext j
  have ht : t.party j = (s.setParty i p).party j := congrArg (fun x : FareEngine => x.parties[j]) h
  rw [ht]
  by_cases hj : j = i
  · subst hj
    simp
  · rw [State.party_setParty_other _ _ _ _ hj, Function.update_of_ne hj]

theorem offers_promotedQueue (rs : List Record) : (promotedQueue rs).map Record.offer = rs.map Record.offer := by
  cases rs <;> rfl

theorem State.offers_of_payment {s t : State} (h : t.payment = s.payment) : t.offers = s.offers := by
  simp only [offers, h]

theorem State.offers_setPayment (s : State) (x : PaymentUnit) : (s.setPayment x).offers = x.queue.map Record.offer := rfl

theorem removeHead_offers (s : State) : (removeHead s).offers = s.offers.drop 1 := by
  simp only [State.offers, removeHead_payment, offers_promotedQueue, List.map_drop]

theorem appendEntry_queue (e : StoreEntry) (s : State) : (appendEntry e s).payment.queue = s.payment.queue := by
  have hupload : ∀ t : State, (sendUpload t).payment.queue = t.payment.queue := by
    intro t
    unfold sendUpload
    split
    · rw [uploadHead_payment]
      split <;> rfl
    · rfl
  rw [appendEntry_eq, hupload, stored_payment]
  rfl

end Sys2Proof.Machine
end

