-- ==== Sys2Proof/Proofs/AccountEvents.lean ====
section
/-! PROOFS. The money of the parties through every event of the hub but the requests. -/
set_option Elab.async false
namespace Sys2Proof.Machine

/-! ### The queue beside the uploads -/

@[simp] theorem uploadHead_queue (s : State) : (uploadHead s).payment.queue = s.payment.queue := by
  rw [uploadHead_payment]
  split <;> rfl

@[simp] theorem sendUpload_queue (s : State) : (sendUpload s).payment.queue = s.payment.queue := by
  unfold sendUpload
  split
  · simp
  · rfl

@[simp] theorem wakeHub_queue (s : State) : (wakeHub s).payment.queue = s.payment.queue := by simp [wakeHub]

@[simp] theorem uploadExpiry_queue (s : State) : (uploadExpiry s).payment.queue = s.payment.queue := by
  unfold uploadExpiry
  split <;> simp

@[simp] theorem takeUploadAck_queue (fields : List Byte) (s : State) : (takeUploadAck fields s).payment.queue = s.payment.queue := by
  unfold takeUploadAck
  split
  · rfl
  · split
    · dsimp only
      rw [sendUpload_queue]
      split <;> rfl
    · rfl

@[simp] theorem goUp_queue (q : Port) (o : Order) (s : State) : (goUp q o s).payment.queue = s.payment.queue := by
  have hlatch : ∀ t : State, (emergencyLinkUp t).payment = t.payment := fun t => by simp
  unfold goUp deliverUp
  cases q <;> dsimp only
  case d => split <;> simp [notifyLink]
  case s => unfold signLinkUp; split <;> simp [notifyLink, repaintSign]
  all_goals simp [notifyLink]

theorem State.offers_of_queue {s t : State} (h : t.payment.queue = s.payment.queue) : t.offers = s.offers := by
  simp only [offers, h]

/-! ### Sound accounts over an event -/

theorem State.accountsSound_of_follows {s t : State} (h : s.accountsSound = true) (hf : s.Follows t) (hq : t.payment.queue = s.payment.queue) :
    t.accountsSound = true := by
  rw [State.accountsSound_iff] at h ⊢
  exact State.offers_of_queue hq ▸ h.follow hf.party

theorem State.accountsSound_of_same {s t : State} (h : s.accountsSound = true) (hf : t.fare = s.fare) (hq : t.payment.queue = s.payment.queue) :
    t.accountsSound = true := State.accountsSound_of_follows h (.of_fare hf) hq

/-- The accounts where one party has been replaced. -/
theorem State.accountsSound_withParty {s t : State} {i : Fin 4} {p : Party} {offers : List Offer} (hf : t.fare = s.fare.withParty i p)
    (ho : t.offers = offers) (h : Accounts (Function.update s.party i p) offers) : t.accountsSound = true := by
  rw [State.accountsSound_iff, State.party_of_withParty hf, ho]
  exact h

section head
variable {s : State} {r : Record} {rest : List Record} (hq : s.payment.queue = r :: rest)
include hq

theorem State.offers_cons : s.offers = r.offer :: rest.map Record.offer := by simp [offers, hq]

theorem State.setHead_offers (r' : Record) : (s.setHead r').offers = r'.offer :: rest.map Record.offer := by
  simp [setHead, offers, hq]

/-- The head record's party is PAYING, and owes what is offered of it. -/
theorem State.head_offer (h : s.accountsSound = true) : r.offer.Sound (s.party r.slot) := by
  rw [accountsSound_iff, offers_cons hq] at h
  exact h.offer r.offer (by simp)

/-- A head record ended with its party left sound. -/
theorem State.accountsSound_endHead {t : State} (h : s.accountsSound = true) {p : Party} (hp : p.Sound) (hf : t.fare = s.fare.withParty r.slot p)
    (ho : t.offers = s.offers.drop 1) : t.accountsSound = true := by
  rw [accountsSound_iff, offers_cons hq] at h
  rw [offers_cons hq] at ho
  exact accountsSound_withParty hf ho (h.endHead hp)

theorem State.head_held (h : s.accountsSound = true) : { s.party r.slot with state := .hold }.Sound := by
  obtain ⟨-, hleast, hdue, -⟩ := State.head_offer hq h
  exact Party.Sound.toHold (((State.accountsSound_iff s).mp h).party r.slot) (hleast.trans hdue)

end head

/-! ### Cancellations and terminal stages -/

theorem cancelRecord_offers (i : Fin 4) (c : CancelCause) (s : State) :
    (cancelRecord i c s).offers = if s.headAt i then s.offers.drop 1 else s.offers.filter fun o => o.slot != i := by
  have hw : (withdrawn i c s).payment = s.payment := by
    unfold withdrawn
    split <;> simp
  simp only [cancelRecord_eq]
  split
  · rw [removeHead_offers]
    rfl
  · simp [State.offers, State.setPayment, List.filter_map, Function.comp_def, Record.offer]

theorem cancelRecord_accountsSound (i : Fin 4) (c : CancelCause) (s : State) (hi : ∃ o ∈ s.offers, o.slot = i) (h : s.accountsSound = true) :
    (cancelRecord i c s).accountsSound = true := by
  have hs := (State.accountsSound_iff s).mp h
  have hp : { s.party i with state := .hold }.Sound := by
    obtain ⟨o, ho, rfl⟩ := hi
    obtain ⟨-, hleast, hdue, -⟩ := hs.offer o ho
    exact Party.Sound.toHold (hs.party o.slot) (hleast.trans hdue)
  have hoffers := cancelRecord_offers i c s
  split at hoffers
  · rename_i hhead
    unfold State.headAt at hhead
    split at hhead
    · rename_i r rest hq
      obtain rfl : r.slot = i := by simpa using hhead
      exact State.accountsSound_endHead hq h hp (cancelRecord_fare ..) hoffers
    · simp at hhead
  · exact State.accountsSound_withParty (cancelRecord_fare ..) hoffers (hs.withdraw i hp)

theorem cancelRecord_head_accountsSound {r : Record} {rest : List Record} {s : State} (hq : s.payment.queue = r :: rest) (c : CancelCause)
    (h : s.accountsSound = true) : (cancelRecord r.slot c s).accountsSound = true :=
  cancelRecord_accountsSound _ c s ⟨r.offer, by simp [State.offers_cons hq], rfl⟩ h

/-- The records of a list of distinct slots cancelled in turn: each is of a slot that has an offer still. -/
theorem foldl_cancelRecord_keeps {C : State → Prop} (c : CancelCause) (rs : List Record)
    (hC : ∀ t, ∀ r ∈ rs, t.accountsSound = true → (∃ o ∈ t.offers, o.slot = r.slot) → C t → C (cancelRecord r.slot c t)) (s : State)
    (hd : (rs.map Record.slot).Nodup) (hr : ∀ r ∈ rs, ∃ o ∈ s.offers, o.slot = r.slot) (h : s.accountsSound = true) (hs : C s) :
    (rs.foldl (fun s r => cancelRecord r.slot c s) s).accountsSound = true ∧ C (rs.foldl (fun s r => cancelRecord r.slot c s) s) := by
  induction rs generalizing s with
  | nil => exact ⟨h, hs⟩
  | cons r rs ih =>
    simp only [List.map_cons, List.nodup_cons] at hd
    have hhas := hr r (by simp)
    refine ih (fun t x hx => hC t x (by simp [hx])) _ hd.2 (fun x hx => ?_) (cancelRecord_accountsSound _ c s hhas h) (hC s r (by simp) h hhas hs)
    have hne : x.slot ≠ r.slot := fun heq => hd.1 (heq ▸ List.mem_map_of_mem hx)
    obtain ⟨o, ho, hslot⟩ := hr x (by simp [hx])
    refine ⟨o, ?_, hslot⟩
    rw [cancelRecord_offers]
    split
    · rename_i hhead
      unfold State.headAt at hhead
      split at hhead
      · rename_i r' rest hq
        rw [State.offers_cons hq] at ho ⊢
        rcases List.mem_cons.mp ho with rfl | ho
        · have hheadSlot : r'.slot = r.slot := by simpa using hhead
          exact absurd (hslot.symm.trans hheadSlot) hne
        · simpa using ho
      · simp at hhead
    · exact List.mem_filter.mpr ⟨ho, by simpa [hslot] using hne⟩

/-- K going DOWN is a run of cancellations, each of a slot that has an offer (R87). -/
theorem cardLinkDown_keeps {C : State → Prop} (s : State)
    (hC : ∀ t, ∀ r ∈ s.payment.queue, r.state ≠ .authorizing → t.accountsSound = true → (∃ o ∈ t.offers, o.slot = r.slot) → C t →
      C (cancelRecord r.slot .link t))
    (h : s.accountsSound = true) (hs : C s) : (cardLinkDown s).accountsSound = true ∧ C (cardLinkDown s) := by
  have hd := ((State.accountsSound_iff s).mp h).distinct
  have hslots : s.payment.queue.map Record.slot = s.offers.map Offer.slot := by simp [State.offers, Record.offer, Function.comp_def]
  refine foldl_cancelRecord_keeps .link _ (fun t r hr => hC t r (List.mem_of_mem_filter hr) (by simpa using (List.mem_filter.mp hr).2)) s ?_ (fun r hr => ?_) h hs
  · exact (hslots ▸ hd).sublist (List.filter_sublist.map _)
  · exact ⟨r.offer, List.mem_map_of_mem (List.mem_of_mem_filter hr), rfl⟩

theorem cardLinkDown_accountsSound (s : State) (h : s.accountsSound = true) : (cardLinkDown s).accountsSound = true :=
  (cardLinkDown_keeps (C := fun _ => True) s (fun _ _ _ _ _ _ _ => trivial) h trivial).1

theorem State.setHead_accountsSound {s : State} {r : Record} {rest : List Record} (hq : s.payment.queue = r :: rest) (r' : Record)
    (hr : r'.offer = r.offer) (h : s.accountsSound = true) : (s.setHead r').accountsSound = true := by
  rw [accountsSound_iff, offers_cons hq] at h
  rw [accountsSound_iff, setHead_offers hq, hr]
  exact h

theorem takeStage_accountsSound {s : State} {r : Record} {rest : List Record} (hq : s.payment.queue = r :: rest) (stage : CardStage)
    (h : s.accountsSound = true) : (takeStage stage r s).accountsSound = true := by
  unfold takeStage
  split
  · exact State.accountsSound_of_same (State.setHead_accountsSound hq { r with state := .pin } rfl h) rfl rfl
  · exact State.accountsSound_of_same (State.setHead_accountsSound hq { r with state := .offered } rfl h) rfl rfl
  · exact cancelRecord_head_accountsSound hq _ h
  · exact cancelRecord_head_accountsSound hq _ h
  · exact h

theorem takeCardStage_accountsSound (fields : List Byte) (s : State) (h : s.accountsSound = true) :
    (takeCardStage fields s).accountsSound = true := by
  unfold takeCardStage
  split
  · rename_i hq
    split
    · split
      · exact takeStage_accountsSound hq _ h
      · exact h
    · exact h
  · exact h

theorem offerExpiry_accountsSound (s : State) (h : s.accountsSound = true) : (offerExpiry s).accountsSound = true := by
  unfold offerExpiry
  split
  · rename_i hq
    split
    · exact cancelRecord_head_accountsSound hq _ h
    · exact h
  · exact h

/-! ### Asks and answers -/

section head
variable {s : State} {r : Record} {rest : List Record} (hq : s.payment.queue = r :: rest) (h : s.accountsSound = true)
include hq h

theorem refuseOffline_accountsSound (x : Ask) (reason : OfflineReason) : (refuseOffline r x reason s).accountsSound = true := by
  refine State.accountsSound_endHead hq h (State.head_held hq h) refuseOffline_fare ?_
  simp [State.offers, refuseOffline_payment hq, PaymentUnit.behind, offers_promotedQueue, hq]

theorem approveOffline_accountsSound (x : Ask) (hx : x.amount ≤ r.offered) : (approveOffline r x s).accountsSound = true := by
  have hp := Party.Sound.paidOffline (tip := x.tip) (((State.accountsSound_iff s).mp h).party r.slot) (hx.trans (State.head_offer hq h).due)
  refine State.accountsSound_endHead hq h hp approveOffline_fare ?_
  simp only [approveOffline_eq, removeHead_offers]
  refine congrArg (List.drop 1) (State.offers_of_queue ?_)
  simp [committed, appendEntry_queue]

theorem decideOffline_accountsSound (x : Ask) (hx : x.amount ≤ r.offered) : (decideOffline r x s).accountsSound = true := by
  unfold decideOffline
  split
  · exact refuseOffline_accountsSound hq h x _
  · exact approveOffline_accountsSound hq h x hx

theorem forwardAsk_accountsSound (x : Ask) (hx : x.amount ≤ r.offered) : (forwardAsk r x s).accountsSound = true := by
  have hs := h
  rw [State.accountsSound_iff, State.offers_cons hq] at hs
  have hoffers : (forwardAsk r x s).offers = { r.offer with asked := some x.amount } :: rest.map Record.offer := by
    simp [forwardAsk, State.offers, State.setHead, hq, Record.offer]
  rw [State.accountsSound_iff, hoffers]
  exact hs.askOf x.amount hx

theorem answerApproved_accountsSound : (answerApproved r s).accountsSound = true := by
  obtain ⟨-, -, hdue, hasked⟩ := State.head_offer hq h
  have hn : r.amountAsked.getD 0 ≤ (s.party r.slot).due := by
    cases ha : r.amountAsked with
    | none => simp
    | some n => exact (hasked n ha).trans hdue
  have hp := Party.Sound.paidOnline (tip := r.tipAsked.getD 0) (((State.accountsSound_iff s).mp h).party r.slot) hn
  refine State.accountsSound_endHead hq h hp answerApproved_fare ?_
  rw [answerApproved, removeHead_offers]
  exact congrArg (List.drop 1) (State.offers_of_queue (by simp))

theorem answerDeclined_accountsSound : (answerDeclined r s).accountsSound = true := by
  refine State.accountsSound_endHead hq h (State.head_held hq h) answerDeclined_fare ?_
  rw [answerDeclined, removeHead_offers]
  exact congrArg (List.drop 1) (State.offers_of_queue (by simp))

theorem answerTimedOut_accountsSound : (answerTimedOut r s).accountsSound = true := by
  refine State.accountsSound_endHead hq h (State.head_held hq h) (answerTimedOut_fare r s) ?_
  rw [answerTimedOut_eq, removeHead_offers]
  exact congrArg (List.drop 1) (State.offers_of_queue (by simp [appendEntry_queue, timedOut]))

end head

theorem authResult_accountsSound (n : Byte) (result : AuthResult) (c : Byte) (t : BitVec 32) (x y : Nat) (s : State) (h : s.accountsSound = true) :
    (authResult n result c t x y s).accountsSound = true := State.accountsSound_of_same h rfl rfl

/-- All that an authorization ask can do: nothing, a REFUSED answer, or one of its two paths for a head that passes the checks (R68). -/
theorem takeAuthAsk_cases (fields : List Byte) (s : State) :
    takeAuthAsk fields s = s
    ∨ (∃ slot result ref, takeAuthAsk fields s = authResult slot result 0 ref 0 0 s)
    ∨ ∃ r rest x, s.payment.queue = r :: rest ∧ r.asks = true ∧ x.passes r.offered s.payment.policy.tipPercent = true
        ∧ takeAuthAsk fields s = if s.online then forwardAsk r x s else decideOffline r x s := by
  cases fields with
  | nil => exact .inl rfl
  | cons slot fields =>
    simp only [takeAuthAsk]
    generalize askOf fields = x
    cases hq : s.payment.queue with
    | nil => exact .inr (.inl ⟨_, _, _, rfl⟩)
    | cons r rest =>
      dsimp only
      by_cases hslot : r.slot.val ≠ slot.toNat ∨ (!r.asks) = true
      · exact .inr (.inl ⟨_, _, _, if_pos hslot⟩)
      · by_cases hx : (!x.passes r.offered s.payment.policy.tipPercent) = true
        · exact .inr (.inl ⟨_, _, _, (if_neg hslot).trans (if_pos hx)⟩)
        · refine .inr (.inr ⟨r, rest, x, rfl, ?_, by simpa using hx, (if_neg hslot).trans (if_neg hx)⟩)
          simp only [not_or, Bool.not_eq_true', Bool.not_eq_false] at hslot
          exact hslot.2

theorem Ask.passes_iff (x : Ask) (offered percent : Nat) :
    x.passes offered percent = true ↔ 1 ≤ x.amount ∧ x.amount ≤ offered ∧ x.tip ≤ x.amount * percent / 100 := by
  simp [passes, and_assoc]

theorem takeAuthAsk_accountsSound (fields : List Byte) (s : State) (h : s.accountsSound = true) : (takeAuthAsk fields s).accountsSound = true := by
  obtain hf | ⟨slot, result, ref, hf⟩ | ⟨r, rest, x, hq, -, hx, hf⟩ := takeAuthAsk_cases fields s <;> rw [hf]
  · exact h
  · exact authResult_accountsSound _ _ _ _ _ _ s h
  · obtain ⟨-, hamount, -⟩ := (x.passes_iff _ _).mp hx
    split
    · exact forwardAsk_accountsSound hq h x hamount
    · exact decideOffline_accountsSound hq h x hamount

/-- The AUTHORIZING record of a reference is the head. -/
theorem State.queue_of_authorizing {s : State} {ref : Nat} {r : Record} (h : s.authorizing ref = some r) :
    ∃ rest, s.payment.queue = r :: rest ∧ r.state = .authorizing ∧ r.hubRef = some ref := by
  unfold authorizing at h
  split at h
  · rename_i x rest hq
    split at h
    · rename_i hx
      obtain rfl : x = r := by simpa using h
      exact ⟨rest, hq, hx⟩
    · simp at h
  · simp at h

theorem takeAuthAnswer_accountsSound (fields : List Byte) (s : State) (h : s.accountsSound = true) :
    (takeAuthAnswer fields s).accountsSound = true := by
  unfold takeAuthAnswer
  split
  · split
    · rename_i ha
      obtain ⟨rest, hq, -⟩ := State.queue_of_authorizing ha
      exact answerApproved_accountsSound hq h
    · rename_i ha
      obtain ⟨rest, hq, -⟩ := State.queue_of_authorizing ha
      exact answerDeclined_accountsSound hq h
    · exact State.accountsSound_of_same h rfl rfl
  · exact h

theorem answerExpiry_accountsSound (s : State) (h : s.accountsSound = true) : (answerExpiry s).accountsSound = true := by
  unfold answerExpiry
  split
  · rename_i hq
    split
    · exact answerTimedOut_accountsSound hq h
    · exact h
  · exact h

/-! ### The link and the power unit -/

theorem deliverDown_accountsSound (q : Port) (s : State) (h : s.accountsSound = true) : (deliverDown q s).accountsSound = true := by
  cases q
  case k => exact cardLinkDown_accountsSound s h
  case d => exact State.accountsSound_of_same h rfl rfl
  case c => exact State.accountsSound_of_same h (by simp [deliverDown]) (by simp [deliverDown])
  case p => exact State.accountsSound_of_same h (by simp [deliverDown]) (by simp [deliverDown])
  case s => exact h
  case v => exact h

theorem goDown_accountsSound (q : Port) (s : State) (h : s.accountsSound = true) : (goDown q s).accountsSound = true :=
  deliverDown_accountsSound q _ (State.accountsSound_of_same h (by simp [notifyLink]) (by simp [notifyLink]))

theorem shutPort_accountsSound (q : Port) (s : State) (h : s.accountsSound = true) : (shutPort q s).accountsSound = true := by
  unfold shutPort
  dsimp only
  split
  · exact goDown_accountsSound q _ (State.accountsSound_of_same h rfl rfl)
  · exact State.accountsSound_of_same h rfl rfl

theorem silenceExpiry_accountsSound (q : Port) (s : State) (h : s.accountsSound = true) : (silenceExpiry q s).accountsSound = true := by
  unfold silenceExpiry
  split
  · exact h
  · split
    · exact goDown_accountsSound q s h
    · exact State.accountsSound_of_same h rfl rfl

theorem parkHub_accountsSound (s : State) (h : s.accountsSound = true) : (parkHub s).accountsSound = true := by
  have hblocks : ∀ t : State, t.accountsSound = true → (parkBlocks t).accountsSound = true := fun t ht =>
    State.accountsSound_of_follows ht ⟨rfl, fun _ => .refl _⟩ rfl
  unfold parkHub
  refine (fun t ht => ?_ : ∀ t : State, t.accountsSound = true → (parkSignPort t).accountsSound = true) _ (hblocks _ ?_)
  · unfold parkSignPort
    split
    · exact State.accountsSound_of_same ht rfl rfl
    · exact shutPort_accountsSound .s t ht
  · refine State.accountsSound_of_same (shutPort_accountsSound .k _ (shutPort_accountsSound .p _ (shutPort_accountsSound .c _ ?_))) rfl rfl
    exact State.accountsSound_of_same h (by simp) (by simp)

theorem wakeHub_accountsSound (s : State) (h : s.accountsSound = true) : (wakeHub s).accountsSound = true :=
  State.accountsSound_of_follows h ⟨by simp [wakeHub, forgetCount], fun i => by
    have hf : (wakeHub s).party i = s.party i := by simp [wakeHub, forgetCount, State.party]
    rw [hf]
    exact .refl _⟩ (wakeHub_queue s)

theorem takeIgnitionFlag_accountsSound (on : Bool) (s : State) (h : s.accountsSound = true) : (takeIgnitionFlag on s).accountsSound = true := by
  unfold takeIgnitionFlag
  dsimp only
  split
  · exact wakeHub_accountsSound _ (State.accountsSound_of_same h rfl rfl)
  · exact State.accountsSound_of_same h rfl rfl

/-- The accounts stay sound through every event of the hub; what the requests do is left open. -/
theorem accountsSound_events : EventRules (fun s => s.accountsSound = true) fun _ => True := by
  constructor
  case count => exact fun n s h => State.accountsSound_of_follows h (.takeCount n s) (by simp)
  case tick => exact fun b s h => State.accountsSound_of_follows h (.takeTick b s) (by simp)
  case cardStage => exact takeCardStage_accountsSound
  case authAsk => exact takeAuthAsk_accountsSound
  case authAnswer => exact takeAuthAnswer_accountsSound
  case offer => exact offerExpiry_accountsSound
  case answer => exact answerExpiry_accountsSound
  case silence => exact silenceExpiry_accountsSound
  case park => exact fun s _ h => parkHub_accountsSound s h
  case wake => exact fun s _ h => wakeHub_accountsSound s h
  case ignition => exact takeIgnitionFlag_accountsSound
  case checkError => intro q s _ h; unfold failCheck; split <;> exact State.accountsSound_of_same h rfl rfl
  all_goals intros
  case weaken | settle | reply | action => trivial
  all_goals refine State.accountsSound_of_same ‹_› ?_ ?_
  all_goals simp

end Sys2Proof.Machine
end

