-- ==== Sys2Proof/Proofs/AccountRequests.lean ====
section
/-! PROOFS. The money of the parties through the requests, and the statement `AccountsSoundKept`. -/
set_option Elab.async false
namespace Sys2Proof.Machine

/-- A request that names a slot changes the state by its action on a slot it takes, or not at all. -/
theorem onSlot_keeps {C : State → Prop} {n : Byte} {takes : PartyState → Bool} {act : Fin 4 → State → State × Result} {s : State} (hs : C s)
    (hact : ∀ i, takes (s.party i).state = true → C (act i s).1) : C (onSlot n takes act s).1 := by
  unfold onSlot
  split
  · exact hs
  · split
    · exact hact _ ‹_›
    · exact hs

/-! ### Changes of the record of one slot -/

theorem Party.withExtra_sound {p : Party} (h : p.Sound) (hs : p.state = .metering ∨ p.state = .hold) (e : Fin 8) (n : Nat) : (p.withExtra e n).Sound := by
  have hpaid := h.paid
  have hextras := h.extras
  have hgrow : p.extras ≤ (p.withExtra e n).extras := le_min hextras (Nat.le_add_right _ _)
  have hstate : (p.withExtra e n).state = p.state := rfl
  refine ⟨h.fare, min_le_left _ _, ?_, fun hh => ?_, fun hh => ?_, fun hh => ?_⟩
  · show p.cash + p.cardOnline + p.cardOffline ≤ p.fare + (p.withExtra e n).extras
    omega
  · have := h.hold (hstate ▸ hh)
    show 1 ≤ p.fare + (p.withExtra e n).extras - (p.cash + p.cardOnline + p.cardOffline)
    simp only [Party.due] at this
    omega
  · rw [hstate] at hh
    rcases hs with hs | hs <;> simp [hs] at hh
  · rw [hstate] at hh
    rcases hs with hs | hs <;> simp [hs] at hh

theorem Party.totalled_sound {p : Party} (h : p.Sound) : p.totalled.Sound := Party.Sound.standing h.fare h.extras h.paid

section slot
variable {s : State} (h : s.accountsSound = true) {i : Fin 4}
include h

theorem State.accountsSound_party (i : Fin 4) : (s.party i).Sound := ((accountsSound_iff s).mp h).party i

/-- A party that is not PAYING put in another sound record, after which the parties follow. -/
theorem State.accountsSound_putParty {t : State} {p : Party} (hi : (s.party i).state ≠ .paying) (hp : p.Sound) (hf : (s.setParty i p).Follows t)
    (hq : t.payment.queue = s.payment.queue) : t.accountsSound = true := by
  have hset : (s.setParty i p).accountsSound = true :=
    State.accountsSound_withParty (s := s) (i := i) (p := p) rfl rfl (((accountsSound_iff s).mp h).putIdle hp hi)
  exact State.accountsSound_of_follows hset hf hq

end slot

theorem Party.follows_station (p : Party) (st : Station) (hr : p.state ≠ .idle) : p.Follows { p with station := st } := .of_same_money hr

theorem actSetTariff_follows (s : State) (n : Byte) (t : TariffArg) : s.Follows (actSetTariff n t s).1 := by
  refine onSlot_keeps (.refl s) fun i hi => ?_
  have hr : (s.party i).state ≠ .idle := by rintro hidle; simp [hidle] at hi
  split
  · exact .refl s
  · have hset := State.Follows.setParty (s.follows_retariffed (s.party i) (s.tariffChosen t).1 (s.tariffChosen t).2 hr)
    exact (State.Follows.ite (fun hm => hset.trans (.fareChange (i := i) (hset.meters hm))) fun _ => hset).trans (.of_fare (showChanges_fare _ _))

theorem actSetStation_follows (s : State) (n : Byte) (st : Station) : s.Follows (actSetStation n st s).1 := by
  refine onSlot_keeps (.refl s) fun i hi => ?_
  split
  · exact .refl s
  · split
    · exact .refl s
    · exact .of_setParty (Party.follows_station _ st (by simpa using hi))

/-! ### The requests -/

section requests
variable (s : State) (h : s.accountsSound = true)
include h

theorem actTotal_accountsSound (n : Byte) : (actTotal n s).1.accountsSound = true := by
  refine onSlot_keeps (C := fun t : State => t.accountsSound = true) h fun i hi => ?_
  have hi : (s.party i).state = .metering := by simpa using hi
  exact State.accountsSound_putParty h (i := i) (p := (s.party i).totalled) (by simp [hi]) (Party.totalled_sound (State.accountsSound_party h i))
    (.of_fare (by simp [State.setParty, FareEngine.withParty]; rfl)) (by simp)

theorem actResume_accountsSound (n : Byte) : (actResume n s).1.accountsSound = true := by
  refine onSlot_keeps (C := fun t : State => t.accountsSound = true) h fun i hi => ?_
  have hi : (s.party i).state = .hold := by simpa using hi
  dsimp only
  split
  · exact h
  · have hp : Party.Sound { s.party i with state := .metering } := (State.accountsSound_party h i).put .metering (.inl rfl)
    have hstep : ({ s.party i with state := .metering } : Party).Follows { s.stepped (s.party i) with state := .metering } := by
      have hf := s.follows_stepped { s.party i with state := .metering } rfl
      have heq : s.stepped { s.party i with state := .metering } = { s.stepped (s.party i) with state := .metering } := by
        unfold State.stepped
        dsimp only
        split <;> rfl
      exact heq ▸ hf
    have hpass := State.Follows.fareChange (i := i) (f := (s.party i).fare) (s := s.setParty i { s.stepped (s.party i) with state := .metering }) (by simp)
    exact State.accountsSound_putParty h (i := i) (by simp [hi]) (hp.follow hstep)
      (hpass.trans (.of_fare ((showChanges_fare _ _).trans (handOff_fare _ _ _)))) (by simp)

theorem vacate_accountsSound (i : Fin 4) (hi : (s.party i).state ≠ .paying) : (vacate i s).accountsSound = true :=
  State.accountsSound_putParty h (i := i) (p := .vacant) hi .vacant (.of_fare (by simp [vacate])) (by simp)

theorem actVoid_accountsSound (n : Byte) : (actVoid n s).1.accountsSound = true := by
  refine onSlot_keeps (C := fun t : State => t.accountsSound = true) h fun i hi => ?_
  have hi : (s.party i).state = .metering := by simpa using hi
  dsimp only
  split
  · have hv := vacate_accountsSound (s.setTotals s.shift.totals.countVoided) (State.accountsSound_of_same h rfl rfl) i
      (by rw [show (s.setTotals s.shift.totals.countVoided).party i = s.party i from rfl, hi]; decide)
    exact State.accountsSound_of_same hv (by simp) (by simp)
  · exact h

theorem actPayCash_accountsSound (n : Byte) (amount : Nat) : (actPayCash n amount s).1.accountsSound = true := by
  refine onSlot_keeps (C := fun t : State => t.accountsSound = true) h fun i hi => ?_
  have hi : (s.party i).state = .hold := by simpa using hi
  have hp := State.accountsSound_party h i
  dsimp only
  split
  · exact h
  · have hpaid := hp.paid
    have hcash : Party.Sound { s.party i with
        cash := (s.party i).cash + min amount (s.party i).due,
        state := Party.standing { s.party i with cash := (s.party i).cash + min amount (s.party i).due } } :=
      Party.Sound.standing (p := { s.party i with cash := (s.party i).cash + min amount (s.party i).due }) hp.fare hp.extras
        (show (s.party i).cash + min amount (s.party i).due + (s.party i).cardOnline + (s.party i).cardOffline
            ≤ (s.party i).fare + (s.party i).extras by unfold Party.due; omega)
    refine State.accountsSound_putParty h (i := i) (by simp [hi]) hcash (.of_fare ?_) ?_
    · dsimp only
      split <;> simp [State.setParty, FareEngine.withParty]
    · dsimp only
      split <;> simp

theorem actCloseTrip_accountsSound (n : Byte) : (actCloseTrip n s).1.accountsSound = true := by
  refine onSlot_keeps (C := fun t : State => t.accountsSound = true) h fun i hi => ?_
  have hi : (s.party i).state = .settled := by simpa using hi
  have ht : (tripClosedAt (s.party i).station (s.setTotals (s.shift.totals.post (s.party i)))).accountsSound = true :=
    State.accountsSound_of_same h (by simp) (by simp)
  refine State.accountsSound_of_same (vacate_accountsSound _ ht i ?_) (by simp) (by simp)
  have hparty : (tripClosedAt (s.party i).station (s.setTotals (s.shift.totals.post (s.party i)))).party i = s.party i :=
    congrFun (State.party_of_fare (by simp)) i
  rw [hparty, hi]
  decide

theorem actAddExtra_accountsSound (n extra : Byte) (amount : Nat) : (actAddExtra n extra amount s).1.accountsSound = true := by
  refine onSlot_keeps (C := fun t : State => t.accountsSound = true) h fun i hi => ?_
  have hi : (s.party i).state = .metering ∨ (s.party i).state = .hold := by simpa using hi
  split
  · exact h
  · split
    · exact h
    · dsimp only
      split_ifs
      · exact h
      · exact h
      · refine State.accountsSound_putParty h (i := i) ?_ (Party.withExtra_sound (State.accountsSound_party h i) hi _ _) (.of_fare (showChanges_fare _ _))
          (by simp)
        rcases hi with hi | hi <;> simp [hi]

theorem actShare_accountsSound (on : Bool) : (actShare on s).1.accountsSound = true := by
  unfold actShare
  dsimp only
  split_ifs
  · exact h
  · exact h
  · exact State.accountsSound_of_same (s := { s with fare := { s.fare with share := on } }) h (by simp) (by simp)

theorem actShiftClose_accountsSound : (actShiftClose s).1.accountsSound = true := by
  have hparty : (actShiftClose s).1.party = s.party := by
    unfold actShiftClose
    dsimp only
    split_ifs
    · rfl
    · rfl
    · refine (State.party_of_fare (s := { s with fare := { s.fare with share := false } }) ?_)
      simp
  rw [State.accountsSound_iff] at h ⊢
  have hqueue : (actShiftClose s).1.payment = s.payment := by
    unfold actShiftClose
    dsimp only
    split_ifs
    · rfl
    · rfl
    · simp
  rw [hparty, State.offers_of_payment hqueue]
  exact h

theorem actOfferCard_accountsSound (n : Byte) (amount : Nat) : (actOfferCard n amount s).1.accountsSound = true := by
  refine onSlot_keeps (C := fun t : State => t.accountsSound = true) h fun i hi => ?_
  have hi : (s.party i).state = .hold := by simpa using hi
  have hleast := (State.accountsSound_party h i).hold hi
  dsimp only
  split
  · exact h
  · split
    · exact h
    · rename_i hamount
      have hs := ((State.accountsSound_iff s).mp h).offerOf (i := i) (n := if amount = 0 then (s.party i).due else amount) (by simp [hi])
        (by split <;> omega) (by split <;> omega)
      refine State.accountsSound_withParty (s := s) (i := i) ?_ ?_ hs
      · dsimp only
        split <;> simp [offerTaken_eq]
      · have hpromote : ∀ t : State, (promote t).offers = t.offers := by
          intro t
          unfold promote State.offers
          split
          · rfl
          · rename_i hq
            simp [hq, State.setPayment, Record.offer]
        dsimp only
        split
        · rw [hpromote]
          simp [State.offers, State.setPayment, offerTaken_eq, Record.offer]
        · simp [State.offers, State.setPayment, offerTaken_eq, Record.offer]

theorem actCancelCard_accountsSound (n : Byte) : (actCancelCard n s).1.accountsSound = true := by
  refine onSlot_keeps (C := fun t : State => t.accountsSound = true) h fun i hi => ?_
  split
  · exact h
  · rename_i r hr
    split
    · exact h
    · refine cancelRecord_accountsSound i _ s ⟨r.offer, List.mem_map_of_mem (List.mem_of_find?_eq_some hr), ?_⟩ h
      have hslot : r.slot = i := by simpa using List.find?_some hr
      exact hslot

end requests

/-! ### HIRE (R22, R23) -/

/-- The state of a HIRE before its step processing: the party in its slot. -/
theorem actHire_cases (t : TariffArg) (st : Station) (s : State) :
    (actHire t st s).1 = s
    ∨ ∃ i, hireFault t st s = none ∧ s.lowestIdle = some i
        ∧ (actHire t st s).1 = showChanges (evaluateBand s) (handOff i ((openTrip i t st (evaluateBand s)).party i).trip (openTrip i t st (evaluateBand s))) := by
  unfold actHire
  split
  · exact .inl rfl
  · rename_i hfault
    split
    · exact .inl rfl
    · rename_i i hi
      exact .inr ⟨i, hfault, hi, rfl⟩

theorem markShared_follows (s : State) : s.Follows (markShared s) where
  share := rfl
  party i := by
    have hp : (markShared s).party i = if (s.party i).riding then { s.party i with shared := true } else s.party i := by
      simp only [State.party, markShared, Fin.getElem_fin, Vector.getElem_map]
      rfl
    rw [hp]
    split
    · rename_i hr
      exact .of_same_money (by simpa [Party.riding] using hr)
    · exact .refl _

theorem newParty_metering (s : State) (t : TariffArg) (st : Station) : (newParty s t st).state = .metering := rfl

/-- A hire puts the new party in its slot, and from there the parties follow. -/
theorem openTrip_follows (i : Fin 4) (t : TariffArg) (st : Station) (s : State) (hi : (s.party i).state = .idle) :
    (s.setParty i (newParty s t st)).Follows (openTrip i t st s) := by
  have hp : (newParty s t st).Follows (s.stepped (newParty s t st)) := s.follows_stepped _ rfl
  have hstate : (s.stepped (newParty s t st)).state = .metering := hp.state
  have hmark : ∀ v : State, s.Follows v → (s.setParty i (newParty s t st)).Follows (v.setParty i (s.stepped (newParty s t st))) := by
    intro v hv
    refine ⟨hv.share, fun j => ?_⟩
    by_cases hj : j = i
    · subst hj
      simpa using hp
    · rw [State.party_setParty_other _ _ _ _ hj, State.party_setParty_other _ _ _ _ hj]
      exact hv.party j
  unfold openTrip
  dsimp only
  refine State.Follows.trans (t := armSlot i (((if (s.stepped (newParty s t st)).shared = true then markShared s else s).setParty i
    (s.stepped (newParty s t st))).setTotals s.shift.totals.countStarted)) ?_ (.runPass ?_)
  · refine (hmark _ ?_).trans ⟨rfl, fun _ => .refl _⟩
    split
    · exact markShared_follows s
    · exact .refl s
  · exact (congrArg Party.state (State.party_setParty_same _ i _)).trans hstate

theorem State.lowestIdle_idle {s : State} {i : Fin 4} (h : s.lowestIdle = some i) : (s.party i).state = .idle := by
  have := List.find?_some h
  simpa [Party.riding] using this

theorem State.flagFall_le {s : State} (h : s.tariffSound = true) (n : Nat) (x : Tariff) (hx : s.tariffAt n = some x) : x.flagFall ≤ 99999 := by
  have hmem : some x ∈ s.tariff.inForce.tariffs.toList := by
    simp only [tariffAt, Option.join_eq_some_iff] at hx
    exact Vector.mem_toList_iff.mpr (Vector.mem_of_getElem? hx)
  simp only [tariffSound, Bool.and_eq_true, Bool.or_eq_true, beq_iff_eq] at h
  obtain ⟨hset, -⟩ := h
  rcases hset with hempty | ⟨hvalid, -⟩
  · rw [hempty] at hmem
    simp [TariffSet.empty] at hmem
  · obtain ⟨-, htariffs, -⟩ := (TariffSet.valid_iff _).mp hvalid
    have hr := htariffs x hmem
    simp only [Tariff.inRange, Bool.and_eq_true, decide_eq_true_eq] at hr
    exact hr.1.1.1.1.1

theorem newParty_sound (s : State) (t : TariffArg) (st : Station) (h : s.tariffSound = true) : (newParty s t st).Sound := by
  refine ⟨?_, Nat.zero_le _, Nat.zero_le _, fun hs => ?_, fun hs => ?_, fun hs => ?_⟩
  · show (match s.tariffAt (s.tariffChosen t).1 with | some x => x.flagFall | none => 0) ≤ Config.fareCap
    split
    · rename_i x hx
      exact (State.flagFall_le h _ x hx).trans (by decide)
    · exact Nat.zero_le _
  all_goals exact absurd hs (by simp [newParty_metering])

theorem actHire_accountsSound (t : TariffArg) (st : Station) (s : State) (h : s.accountsSound = true) (ht : s.tariffSound = true) :
    (actHire t st s).1.accountsSound = true := by
  obtain hs | ⟨i, -, hi, hs⟩ := actHire_cases t st s <;> rw [hs]
  · exact h
  · have hband : (evaluateBand s).accountsSound = true := State.accountsSound_of_follows h (.evaluateBand s) (by simp)
    have hidle : ((evaluateBand s).party i).state = .idle := ((State.Follows.evaluateBand s).party i).state.trans (State.lowestIdle_idle hi)
    have htariff : (evaluateBand s).tariffSound = true := 
      (State.tariffSound_congr (s := s) (t := evaluateBand s) (by simp [TariffStore.standing])).trans ht
    refine State.accountsSound_putParty hband (i := i) (p := newParty (evaluateBand s) t st) (by simp [hidle]) (newParty_sound _ t st htariff)
      ((openTrip_follows i t st _ hidle).trans (.of_fare ((showChanges_fare _ _).trans (handOff_fare _ _ _)))) (by simp)

/-! ### All requests -/

theorem State.follows_evaluateBand_setTariff (s : State) (x : TariffStore) : s.Follows (evaluateBand (s.setTariff x)) :=
  (State.Follows.of_fare rfl : s.Follows (s.setTariff x)).trans (.evaluateBand _)

theorem actSetClock_follows (day ds : Nat) (s : State) : s.Follows (actSetClock day ds s).1 := by
  unfold actSetClock
  split
  · exact .refl s
  · exact s.follows_evaluateBand_setTariff _

theorem actLoadCommit_follows (check : BitVec 16) (s : State) : s.Follows (actLoadCommit check s).1 := by
  unfold actLoadCommit installSet
  split
  · exact .refl s
  · split
    · exact ⟨rfl, fun _ => .refl _⟩
    · exact s.follows_evaluateBand_setTariff _

/-- The payment queue is changed by OFFER_CARD and CANCEL_CARD alone. -/
theorem RequestName.Does.queue {r : RequestName} {q : Port} {act : Action} (hr : r.Does q act) (s : State) (hoffer : r ≠ .offerCard)
    (hcancel : r ≠ .cancelCard) : (act s).1.payment.queue = s.payment.queue := by
  by_cases hc : .payment ∈ r.reach
  · cases hr <;> simp only [RequestName.reach, List.mem_cons, List.not_mem_nil, reduceCtorEq, or_false, or_self] at hc
    case offerCard => exact absurd rfl hoffer
    case cancelCard => exact absurd rfl hcancel
    case policySet p =>
      unfold actPolicySet
      split_ifs
      · rfl
      · split <;> rfl
    case refusalListAdd x => unfold actRefusalAdd; dsimp only; split_ifs <;> rfl
    case refusalListRemove x => unfold actRefusalRemove; dsimp only; split_ifs <;> rfl
    case refusalListClear => rfl
    case payStatus clear => unfold actPayStatus; dsimp only; split_ifs <;> rfl
  · have hchange := hr.changesOnly s
    simp only [State.changesOnly, hc, false_or] at hchange
    obtain ⟨-, -, -, -, -, -, hpayment, -⟩ := hchange
    rw [hpayment]

theorem RequestName.Does.accountsSound {r : RequestName} {q : Port} {act : Action} (hr : r.Does q act) (s : State) (h : s.accountsSound = true)
    (ht : s.tariffSound = true) : (act s).1.accountsSound = true := by
  have hqueue := hr.queue s
  by_cases hc : .fare ∈ r.reach
  · cases hr <;> simp only [RequestName.reach, List.mem_cons, List.not_mem_nil, reduceCtorEq, or_false, or_self] at hc
    case loadCommit check => exact State.accountsSound_of_follows h (actLoadCommit_follows check s) (hqueue (by decide) (by decide))
    case setClock day ds => exact State.accountsSound_of_follows h (actSetClock_follows day ds s) (hqueue (by decide) (by decide))
    case hire t st => exact actHire_accountsSound t st s h ht
    case total n => exact actTotal_accountsSound s h n
    case resume n => exact actResume_accountsSound s h n
    case void n => exact actVoid_accountsSound s h n
    case payCash n amount => exact actPayCash_accountsSound s h n amount
    case closeTrip n => exact actCloseTrip_accountsSound s h n
    case addExtra n x amount => exact actAddExtra_accountsSound s h n x amount
    case setTariff n t => exact State.accountsSound_of_follows h (actSetTariff_follows s n t) (hqueue (by decide) (by decide))
    case setStation n st => exact State.accountsSound_of_follows h (actSetStation_follows s n st) (hqueue (by decide) (by decide))
    case share on => exact actShare_accountsSound s h on
    case offerCard n amount => exact actOfferCard_accountsSound s h n amount
    case cancelCard n => exact actCancelCard_accountsSound s h n
    case shiftClose => exact actShiftClose_accountsSound s h
  · have hchange := hr.changesOnly s
    simp only [State.changesOnly, hc, false_or] at hchange
    obtain ⟨-, -, -, -, hfare, -⟩ := hchange
    refine State.accountsSound_of_same h hfare (hqueue ?_ ?_)
    all_goals rintro rfl; exact hc (by decide)

end Sys2Proof.Machine
end

