-- ==== Sys2Proof/Proofs/InvariantRules.lean ====
section
/-! PROOFS. Invariants proved together, and the statement `AccountsSoundKept`. -/
namespace Sys2Proof.Machine

/-- Two invariants kept by the same events are kept together. -/
theorem EventRules.and {P Q P' Q' : State → Prop} (h : EventRules P Q) (h' : EventRules P' Q') :
    EventRules (fun s => P s ∧ P' s) fun s => Q s ∧ Q' s where
  weaken s hs := ⟨h.weaken s hs.1, h'.weaken s hs.2⟩
  settle s hs := ⟨h.settle s hs.1, h'.settle s hs.2⟩
  reply q f s hs := ⟨h.reply q f s hs.1, h'.reply q f s hs.2⟩
  action r q act s hr hs := ⟨h.action r q act s hr hs.1, h'.action r q act s hr hs.2⟩
  restart q s hq hs := ⟨h.restart q s hq hs.1, h'.restart q s hq hs.2⟩
  bringUp q s hq hs := ⟨h.bringUp q s hq hs.1, h'.bringUp q s hq hs.2⟩
  goUp q o s hq hu hs := ⟨h.goUp q o s hq hu hs.1, h'.goUp q o s hq hu hs.2⟩
  checkError q s hq hs := ⟨h.checkError q s hq hs.1, h'.checkError q s hq hs.2⟩
  discard q reason f parked s hs := ⟨h.discard q reason f parked s hs.1, h'.discard q reason f parked s hs.2⟩
  copies q f parked s hs := ⟨h.copies q f parked s hs.1, h'.copies q f parked s hs.2⟩
  pass q f parked s hs := ⟨h.pass q f parked s hs.1, h'.pass q f parked s hs.2⟩
  wake s hp hs := ⟨h.wake s hp hs.1, h'.wake s hp hs.2⟩
  ignition on s hs := ⟨h.ignition on s hs.1, h'.ignition on s hs.2⟩
  alarm on s hs := ⟨h.alarm on s hs.1, h'.alarm on s hs.2⟩
  count n s hs := ⟨h.count n s hs.1, h'.count n s hs.2⟩
  signStat payload s hs := ⟨h.signStat payload s hs.1, h'.signStat payload s hs.2⟩
  audioP payload s hs := ⟨h.audioP payload s hs.1, h'.audioP payload s hs.2⟩
  audioC payload s hs := ⟨h.audioC payload s hs.1, h'.audioC payload s hs.2⟩
  cardStage fields s hs := ⟨h.cardStage fields s hs.1, h'.cardStage fields s hs.2⟩
  authAsk fields s hs := ⟨h.authAsk fields s hs.1, h'.authAsk fields s hs.2⟩
  authAnswer fields s hs := ⟨h.authAnswer fields s hs.1, h'.authAnswer fields s hs.2⟩
  uploadAck fields s hs := ⟨h.uploadAck fields s hs.1, h'.uploadAck fields s hs.2⟩
  tick b s hs := ⟨h.tick b s hs.1, h'.tick b s hs.2⟩
  cadence b s hs := ⟨h.cadence b s hs.1, h'.cadence b s hs.2⟩
  offer s hs := ⟨h.offer s hs.1, h'.offer s hs.2⟩
  answer s hs := ⟨h.answer s hs.1, h'.answer s hs.2⟩
  upload s hs := ⟨h.upload s hs.1, h'.upload s hs.2⟩
  call s hs := ⟨h.call s hs.1, h'.call s hs.2⟩
  park s hr hs := ⟨h.park s hr hs.1, h'.park s hr hs.2⟩
  silence q s hs := ⟨h.silence q s hs.1, h'.silence q s hs.2⟩
  quiet q s hs := ⟨h.quiet q s hs.1, h'.quiet q s hs.2⟩
  complete q s hs := ⟨h.complete q s hs.1, h'.complete q s hs.2⟩

/-- What the requests and the end of an event are to give may be stated apart from what the other events keep. -/
theorem EventRules.withAction {P Q Q' : State → Prop} (h : EventRules P Q) (weaken : ∀ s, P s → Q' s) (settle : ∀ s, Q' s → Q' (settleSign s))
    (reply : ∀ q f s, Q' s → Q' (emit q f s)) (action : ∀ (r : RequestName) q act s, r.Does q act → P s → Q' (act s).1) : EventRules P Q' :=
  { h with weaken, settle, reply, action }

theorem settleSign_fare (s : State) : (settleSign s).fare = s.fare ∧ (settleSign s).payment = s.payment := by
  unfold settleSign shutPort goDown deliverDown
  dsimp only
  split_ifs <;> simp [notifyLink]

theorem accountsSound_rules : EventRules (fun s => s.accountsSound = true ∧ s.tariffSound = true) fun s => s.accountsSound = true :=
  (accountsSound_events.and tariffSound_rules).withAction (fun _ h => h.1)
    (fun s h => State.accountsSound_of_same h (settleSign_fare s).1 (by rw [(settleSign_fare s).2]))
    (fun _ _ _ h => State.accountsSound_of_same h rfl rfl) fun _ _ _ s hr h => hr.accountsSound s h.1 h.2

/-- Settles O7, by what each request and each event does to the parties and the offers made of them. -/
theorem accountsSoundKept : Obligations.AccountsSoundKept := by
  unfold Obligations.AccountsSoundKept
  exact fun s t htariff h => step_gives accountsSound_rules (by decide) (by decide) (fun _ _ h => h) (fun _ _ h => h) s t ⟨h, htariff⟩

end Sys2Proof.Machine
end

