-- ==== Sys2Proof/Proofs/ShiftBooks.lean ====
section
/-! PROOFS. The books of the shift: what every event but the requests leaves of them, what the requests do to them, and the statement
`BooksBalanceKept`. -/
set_option Elab.async false
namespace Sys2Proof.Machine

/-! ### The books -/

theorem Totals.balanced_iff (t : Totals) :
    t.balanced = true ↔ (t.saturated = false → t.cash + t.cardOnline + t.cardOffline = t.fares + t.extras + t.tips) := by
  cases hs : t.saturated <;> simp [balanced, hs]

theorem addTotal_of_not_saturates {n k : Nat} (h : saturates n k = false) : addTotal n k = n + k := by
  simp only [saturates, addTotal, saturate, Bool.or_eq_false_iff, decide_eq_false_iff_not] at *
  omega

/-- A posting of a party that owes nothing keeps the books (R102). -/
theorem Totals.balanced_post (t : Totals) (p : Party) (h : t.balanced = true) (hp : p.cash + p.cardOnline + p.cardOffline = p.fare + p.extras) :
    (t.post p).balanced = true := by
  rw [Totals.balanced_iff] at h ⊢
  intro hs
  simp only [Totals.post, Bool.or_eq_false_iff] at hs
  obtain ⟨⟨⟨⟨⟨⟨⟨⟨⟨hs, -⟩, -⟩, -⟩, hfares⟩, hextras⟩, htips⟩, hcash⟩, honline⟩, hoffline⟩ := hs
  simp only [Totals.post, addTotal_of_not_saturates hfares, addTotal_of_not_saturates hextras, addTotal_of_not_saturates htips,
    addTotal_of_not_saturates hcash, addTotal_of_not_saturates honline, addTotal_of_not_saturates hoffline]
  have := h hs
  omega

/-! ### Events beside the books -/

/-- From `t` to `u` the money has not changed. -/
structure Totals.SameMoney (t u : Totals) : Prop where
  paid : u.cash = t.cash ∧ u.cardOnline = t.cardOnline ∧ u.cardOffline = t.cardOffline
  owed : u.fares = t.fares ∧ u.extras = t.extras ∧ u.tips = t.tips
  saturated : t.saturated = true → u.saturated = true

theorem Totals.SameMoney.balanced {t u : Totals} (h : t.SameMoney u) (hb : t.balanced = true) : u.balanced = true := by
  obtain ⟨⟨hcash, honline, hoffline⟩, ⟨hfares, hextras, htips⟩, hsaturated⟩ := h
  rw [Totals.balanced_iff] at hb ⊢
  intro hu
  rw [hcash, honline, hoffline, hfares, hextras, htips]
  exact hb (Bool.eq_false_iff.mpr fun ht => by simp [hsaturated ht] at hu)

/-- A count added to, with the saturation flag set where it saturates. -/
theorem Totals.SameMoney.counted {t u : Totals} (b : Bool) (hs : u.saturated = (t.saturated || b))
    (hp : u.cash = t.cash ∧ u.cardOnline = t.cardOnline ∧ u.cardOffline = t.cardOffline := by exact ⟨rfl, rfl, rfl⟩)
    (ho : u.fares = t.fares ∧ u.extras = t.extras ∧ u.tips = t.tips := by exact ⟨rfl, rfl, rfl⟩) : t.SameMoney u :=
  ⟨hp, ho, fun h => by rw [hs, h, Bool.true_or]⟩

/-- From `t` to `u` neither the money nor the counts of trips have changed. -/
structure Totals.SameBooks (t u : Totals) : Prop where
  money : t.SameMoney u
  trips : u.started = t.started ∧ u.closed = t.closed ∧ u.voided = t.voided

theorem Totals.SameBooks.refl (t : Totals) : t.SameBooks t := ⟨⟨⟨rfl, rfl, rfl⟩, ⟨rfl, rfl, rfl⟩, id⟩, ⟨rfl, rfl, rfl⟩⟩

/-- Another count than those of trips added to. -/
theorem Totals.SameBooks.counted {t u : Totals} (b : Bool) (hs : u.saturated = (t.saturated || b))
    (hp : u.cash = t.cash ∧ u.cardOnline = t.cardOnline ∧ u.cardOffline = t.cardOffline := by exact ⟨rfl, rfl, rfl⟩)
    (ho : u.fares = t.fares ∧ u.extras = t.extras ∧ u.tips = t.tips := by exact ⟨rfl, rfl, rfl⟩)
    (ht : u.started = t.started ∧ u.closed = t.closed ∧ u.voided = t.voided := by exact ⟨rfl, rfl, rfl⟩) : t.SameBooks u :=
  ⟨.counted b hs hp ho, ht⟩

/-- From `s` to `t` the shift has kept its state and its books; a snapshot may have been released. -/
structure State.SameBooks (s t : State) : Prop where
  state : t.shift.state = s.shift.state
  totals : s.shift.totals.SameBooks t.shift.totals
  snapshot : t.shift.snapshot = s.shift.snapshot ∨ t.shift.snapshot = none
  reports : t.shift.reports = s.shift.reports

namespace State.SameBooks

variable {s t u : State}

theorem of_shift (h : t.shift = s.shift := by simp) : s.SameBooks t := by
  refine ⟨?_, ?_, .inl ?_, ?_⟩ <;> rw [h]
  exact .refl _

theorem of_totals {x : Totals} (h : t.shift = { s.shift with totals := x }) (hx : s.shift.totals.SameBooks x) : s.SameBooks t := by
  refine ⟨?_, ?_, .inl ?_, ?_⟩ <;> rw [h]
  exact hx

theorem whileLive (f : Totals → Totals) (hf : ∀ t : Totals, t.SameBooks (f t)) (hs : t.shift = s.shift) : s.SameBooks (whileLive f t) := by
  unfold Machine.whileLive
  split
  · exact of_totals (x := f s.shift.totals) (by simp [State.setTotals, hs]) (hf _)
  · exact of_shift hs

theorem takeCount (n : Nat) (s : State) : s.SameBooks (takeCount n s) := by
  unfold Machine.takeCount
  split
  · exact of_shift (by simp [resync, Machine.setLastCount])
  · split
    · have h := whileLive (t := notifyMotion false (Machine.setLastCount n s)) Totals.countImplausible (fun t => .counted _ rfl) rfl
      unfold dropDelta
      dsimp only
      generalize Machine.whileLive Totals.countImplausible _ = v at h ⊢
      obtain ⟨hstate, htotals, hsnapshot, hreports⟩ := h
      exact ⟨by simpa using hstate, by simpa using htotals, by simpa using hsnapshot, by simpa using hreports⟩
    · unfold applyDelta
      dsimp only
      split
      · exact of_shift rfl
      · refine whileLive _ (fun t => ?_) (by simp [Machine.setLastCount])
        split
        · exact .counted _ rfl
        · exact .counted _ rfl

theorem takeTick (b : Bool) (s : State) : s.SameBooks (takeTick b s) := by
  have h : ∀ v : State, v.shift = s.shift → s.SameBooks (v.setTotals (v.shift.totals.tick v.shift.state v.anyMetering)) := fun v hv =>
    of_totals (x := s.shift.totals.tick s.shift.state v.anyMetering) (by simp [State.setTotals, hv])
      (.counted ((s.shift.state != .closed && saturates s.shift.totals.shiftTicks 1)
          || ((s.shift.state == .onBreak && saturates s.shift.totals.breakTicks 1) || (v.anyMetering && saturates s.shift.totals.hiredTicks 1)))
        (by simp only [Totals.tick, Bool.or_assoc]))
  unfold Machine.takeTick
  exact h _ (by split <;> simp)

theorem takeSignStat (payload : List Byte) (s : State) : s.SameBooks (takeSignStat payload s) := by
  have h : ∀ lamps p, s.SameBooks (takeHealth lamps p s) := fun lamps p => by
    unfold takeHealth
    dsimp only
    split
    · exact of_shift rfl
    · split
      · exact whileLive _ (fun t => .counted _ rfl) rfl
      · exact of_shift rfl
  unfold Machine.takeSignStat
  split
  · split
    · exact h _ _
    · exact of_shift rfl
  · exact of_shift rfl

theorem countEntry (t : Totals) (k : StoreKind) : t.SameBooks (t.countEntry k) := by
  cases k <;> exact .counted _ rfl

theorem approveOffline (r : Record) (x : Ask) (s : State) : s.SameBooks (approveOffline r x s) :=
  of_totals approveOffline_shift (.counted (saturates s.shift.totals.offlineSales 1 || saturates s.shift.totals.committed (x.amount + x.tip))
    (by simp only [Totals.commit, Totals.countSale, Bool.or_assoc]))

theorem takeAuthAsk (fields : List Byte) (s : State) : s.SameBooks (takeAuthAsk fields s) := by
  obtain hf | ⟨slot, result, ref, hf⟩ | ⟨r, rest, x, -, -, -, hf⟩ := takeAuthAsk_cases fields s <;> rw [hf]
  · exact of_shift rfl
  · exact of_shift rfl
  · split
    · exact of_shift (by simp)
    · unfold decideOffline
      split
      · exact of_shift (by simp)
      · exact approveOffline r x s

theorem answerExpiry (s : State) : s.SameBooks (answerExpiry s) := by
  unfold Machine.answerExpiry
  split
  · split
    · exact of_totals (answerTimedOut_shift _ s) (.counted _ rfl)
    · exact of_shift rfl
  · exact of_shift rfl

theorem parkHub (s : State) : s.SameBooks (parkHub s) := by
  have h : (Machine.parkHub s).shift = { s.shift with snapshot := none } := by simp [Machine.parkHub, parkBlocks, State.setShift]
  refine ⟨?_, ?_, .inr ?_, ?_⟩ <;> rw [h]
  exact .refl _

end State.SameBooks

/-! ### The books of the shift -/

/-- The books balance in the live totals, in a held snapshot and in every report (R102). -/
structure ShiftUnit.Balanced (x : ShiftUnit) : Prop where
  totals : x.totals.balanced = true
  snapshot : ∀ y, x.snapshot = some y → y.pages.totals.balanced = true
  reports : ∀ p ∈ x.reports, p.totals.balanced = true

theorem State.booksBalance_iff (s : State) : s.booksBalance = true ↔ s.shift.Balanced := by
  unfold booksBalance
  simp only [Bool.and_eq_true, List.all_eq_true]
  constructor
  · rintro ⟨⟨h1, h2⟩, h3⟩
    refine ⟨h1, fun y hy => ?_, h3⟩
    simpa [hy] using h2
  · rintro ⟨h1, h2, h3⟩
    refine ⟨⟨h1, ?_⟩, h3⟩
    split
    · exact h2 _ ‹_›
    · rfl

theorem State.SameBooks.booksBalance {s t : State} (h : s.SameBooks t) (hs : s.booksBalance = true) : t.booksBalance = true := by
  rw [State.booksBalance_iff] at hs ⊢
  obtain ⟨-, htotals, hsnapshot, hreports⟩ := h
  refine ⟨htotals.money.balanced hs.totals, fun y hy => ?_, fun p hp => hs.reports p (hreports ▸ hp)⟩
  rcases hsnapshot with h | h
  · exact hs.snapshot y (h ▸ hy)
  · rw [h] at hy
    exact absurd hy (by simp)

/-- The books over a change of the live totals. -/
theorem State.booksBalance_of_totals {s t : State} {x : Totals} (hs : s.booksBalance = true) (ht : t.shift = { s.shift with totals := x })
    (hx : x.balanced = true) : t.booksBalance = true := by
  rw [State.booksBalance_iff] at hs ⊢
  rw [ht]
  exact ⟨hx, hs.snapshot, hs.reports⟩

theorem Snapshot.mark_pages {x y : Snapshot} {i : Fin 3} (h : x.mark i = some y) : y.pages = x.pages := by
  unfold mark at h
  dsimp only at h
  split at h
  all_goals
    split at h
    · exact absurd h (by simp)
    · rw [← Option.some.inj h]

section requests
variable (s : State) (h : s.booksBalance = true)
include h

theorem State.booksBalance_totals : s.shift.totals.balanced = true := ((booksBalance_iff s).mp h).totals

omit h in
theorem openTrip_shift (i : Fin 4) (t : TariffArg) (st : Station) (s : State) :
    (openTrip i t st s).shift = { s.shift with totals := s.shift.totals.countStarted } := by
  unfold openTrip
  dsimp only
  split <;> simp [State.setTotals]

theorem actHire_booksBalance (t : TariffArg) (st : Station) : (actHire t st s).1.booksBalance = true := by
  obtain hs | ⟨i, -, -, hs⟩ := actHire_cases t st s <;> rw [hs]
  · exact h
  · exact State.booksBalance_of_totals (x := s.shift.totals.countStarted) h (by simp [openTrip_shift])
      (Totals.SameMoney.balanced (.counted _ rfl) (State.booksBalance_totals s h))

theorem actVoid_booksBalance (n : Byte) : (actVoid n s).1.booksBalance = true := by
  refine onSlot_keeps (C := fun t : State => t.booksBalance = true) h fun i _ => ?_
  dsimp only
  split
  · exact State.booksBalance_of_totals (x := s.shift.totals.countVoided) h (by simp [State.setTotals, vacate])
      (Totals.SameMoney.balanced (.counted _ rfl) (State.booksBalance_totals s h))
  · exact h

/-- A closed trip is posted with nothing due. -/
theorem actCloseTrip_booksBalance (n : Byte) (ha : s.accountsSound = true) : (actCloseTrip n s).1.booksBalance = true := by
  refine onSlot_keeps (C := fun t : State => t.booksBalance = true) h fun i hi => ?_
  have hp := State.accountsSound_party ha i
  have hdue := hp.settled (by simpa using hi)
  have hpaid := hp.paid
  simp only [Party.due] at hdue
  exact State.booksBalance_of_totals (x := s.shift.totals.post (s.party i)) h (by simp [State.setTotals, vacate])
    (Totals.balanced_post _ _ (State.booksBalance_totals s h) (by omega))

theorem actShiftOpen_booksBalance (driver : Nat) : (actShiftOpen driver s).1.booksBalance = true := by
  unfold actShiftOpen
  split_ifs
  iterate 4 exact h
  have hb := (State.booksBalance_iff s).mp h
  rw [State.booksBalance_iff]
  simp only [notifyShift_shift, deliverShift_shift]
  exact ⟨(by decide : Totals.zero.balanced = true), hb.snapshot, hb.reports⟩

theorem State.booksBalance_of_state {t : State} {x : ShiftState} (ht : t.shift = { s.shift with state := x }) : t.booksBalance = true :=
  State.SameBooks.booksBalance (s := s.setShift { s.shift with state := x }) (.of_shift ht) h

theorem actShiftClose_booksBalance : (actShiftClose s).1.booksBalance = true := by
  unfold actShiftClose
  split_ifs
  · exact h
  · exact h
  · have hb := (State.booksBalance_iff s).mp h
    rw [State.booksBalance_iff]
    simp only [notifyShift_shift, deriveSign_shift]
    refine ⟨hb.totals, by simp, fun p hp => ?_⟩
    rcases List.mem_append.mp hp with hp | hp
    · exact hb.reports p hp
    · obtain rfl := List.mem_singleton.mp hp
      exact hb.totals

theorem actTotalsRead_booksBalance (page : Byte) (freeze : Bool) : (actTotalsRead page freeze s).1.booksBalance = true := by
  have hb := (State.booksBalance_iff s).mp h
  have hmark : ∀ (x : Snapshot) i, x.pages.totals.balanced = true → (s.setShift { s.shift with snapshot := x.mark i }).booksBalance = true := by
    intro x i hx
    rw [State.booksBalance_iff]
    exact ⟨hb.totals, fun y hy => by rw [Snapshot.mark_pages hy]; exact hx, hb.reports⟩
  unfold actTotalsRead
  split
  · exact h
  · split
    · exact hmark _ _ (hb.snapshot _ ‹_›)
    · split
      · exact hmark _ _ hb.totals
      · exact h

theorem RequestName.Does.booksBalance {r : RequestName} {q : Port} {act : Action} (hr : r.Does q act) (ha : s.accountsSound = true) :
    (act s).1.booksBalance = true := by
  have hb := (State.booksBalance_iff s).mp h
  by_cases hc : .shift ∈ r.reach
  · cases hr <;> simp only [RequestName.reach, List.mem_cons, List.not_mem_nil, reduceCtorEq, or_false, or_self] at hc
    case hire t st => exact actHire_booksBalance s h t st
    case void n => exact actVoid_booksBalance s h n
    case closeTrip n => exact actCloseTrip_booksBalance s h n ha
    case shiftOpen driver => exact actShiftOpen_booksBalance s h driver
    case shiftBreak =>
      unfold actShiftBreak
      split_ifs
      · exact h
      · exact h
      · exact State.booksBalance_of_state s h (x := .onBreak) (by simp [State.setShift])
    case shiftResume =>
      unfold actShiftResume
      split_ifs
      · exact h
      · exact State.booksBalance_of_state s h (x := .opened) (by simp [State.setShift])
    case shiftClose => exact actShiftClose_booksBalance s h
    case totalsRead page freeze => exact actTotalsRead_booksBalance s h page freeze
    case totalsThaw => exact (State.booksBalance_iff _).mpr ⟨hb.totals, by simp [actTotalsThaw, State.setShift], hb.reports⟩
    case reportDrop number =>
      unfold actReportDrop
      split
      · exact h
      · rename_i hreports
        split_ifs
        · exact h
        · exact (State.booksBalance_iff _).mpr ⟨hb.totals, hb.snapshot, fun p hp => hb.reports p (by rw [hreports]; exact List.mem_cons_of_mem _ hp)⟩
  · have hchange := hr.changesOnly s
    simp only [State.changesOnly, hc, false_or] at hchange
    obtain ⟨-, -, -, -, -, -, -, hshift, -⟩ := hchange
    exact State.SameBooks.booksBalance (.of_shift hshift) h

end requests

/-- The state and the books of the shift stay through every event of the hub, for whatever they give. -/
theorem EventRules.of_sameBooks {P : State → Prop} (hP : ∀ s t : State, s.SameBooks t → P s → P t) : EventRules P fun _ => True := by
  constructor
  case count => exact fun n s => hP _ _ (.takeCount n s)
  case tick => exact fun b s => hP _ _ (.takeTick b s)
  case signStat => exact fun payload s => hP _ _ (.takeSignStat payload s)
  case authAsk => exact fun fields s => hP _ _ (.takeAuthAsk fields s)
  case answer => exact fun s => hP _ _ (.answerExpiry s)
  case park => exact fun s _ => hP _ _ (.parkHub s)
  case checkError => intro q s _ h; unfold Machine.failCheck; split <;> exact hP s _ (.of_shift rfl) h
  all_goals intros
  case weaken | settle | reply | action => trivial
  all_goals
    refine hP _ _ (.of_shift ?_) ‹P _›
    simp

theorem booksBalance_rules : EventRules (fun s => s.accountsSound = true ∧ s.booksBalance = true) fun s => s.booksBalance = true :=
  (accountsSound_events.and (.of_sameBooks fun _ _ h => h.booksBalance)).withAction (fun _ h => h.2)
    (fun s => State.SameBooks.booksBalance (.of_shift (settleSign_shift s))) (fun _ _ _ => State.SameBooks.booksBalance (.of_shift rfl))
    fun _ _ _ s hr h => hr.booksBalance s h.2 h.1

/-- Settles O10: a party closed owes nothing, so its posting keeps the books, and no other event moves money in the totals. -/
theorem booksBalanceKept : Obligations.BooksBalanceKept := by
  unfold Obligations.BooksBalanceKept
  exact fun s t ha h => step_gives booksBalance_rules (by decide) (by decide) (fun _ _ h => h) (fun _ _ h => h) s t ⟨ha, h⟩

end Sys2Proof.Machine
end

