-- ==== Sys2Proof/Proofs/TripCounts.lean ====
section
/-! PROOFS. The count of trips: who rides before and after every event, and the statement `TripsBalanceKept`. -/
set_option Elab.async false
namespace Sys2Proof.Machine

/-! ### Events that end payments -/

/-- From `s` to `t` no party has changed but PAYING ones, and those ride still. -/
def State.Pays (s t : State) : Prop :=
  ∀ i, t.party i = s.party i ∨ (s.party i).state = .paying ∧ (t.party i).riding = true

namespace State.Pays

variable {s t u : State}

theorem of_fare (h : t.fare = s.fare := by simp) : s.Pays t := fun i => .inl (congrFun (State.party_of_fare h) i)

theorem refl (s : State) : s.Pays s := of_fare rfl

theorem trans (h : s.Pays t) (h' : t.Pays u) : s.Pays u := fun i => by
  rcases h i with hst | hst <;> rcases h' i with htu | htu
  · exact .inl (htu.trans hst)
  · exact .inr ⟨hst ▸ htu.1, htu.2⟩
  · exact .inr ⟨hst.1, htu ▸ hst.2⟩
  · exact .inr ⟨hst.1, htu.2⟩

theorem of_withParty {i : Fin 4} {p : Party} (hf : t.fare = s.fare.withParty i p) (hi : (s.party i).state = .paying) (hp : p.riding = true) :
    s.Pays t := fun j => by
  rw [State.party_of_withParty hf]
  by_cases hj : j = i
  · subst hj
    exact .inr ⟨hi, by simpa using hp⟩
  · exact .inl (by simp [hj])

end State.Pays

theorem Party.riding_of_standing (p : Party) : Party.riding { p with state := p.standing } = true := by
  unfold Party.riding Party.standing
  dsimp only
  split <;> rfl

theorem cancelRecord_pays (i : Fin 4) (c : CancelCause) (s : State) (hi : ∃ o ∈ s.offers, o.slot = i) (h : s.accountsSound = true) :
    s.Pays (cancelRecord i c s) := by
  obtain ⟨o, ho, rfl⟩ := hi
  exact .of_withParty (cancelRecord_fare ..) (((State.accountsSound_iff s).mp h).offer o ho).paying rfl

theorem cancelRecord_head_pays {r : Record} {rest : List Record} {s : State} (hq : s.payment.queue = r :: rest) (c : CancelCause)
    (h : s.accountsSound = true) : s.Pays (cancelRecord r.slot c s) :=
  cancelRecord_pays _ c s ⟨r.offer, by simp [State.offers_cons hq], rfl⟩ h

theorem cardLinkDown_pays (s : State) (h : s.accountsSound = true) : s.Pays (cardLinkDown s) :=
  (cardLinkDown_keeps (C := s.Pays) s (fun t r _ _ ht hi hs => hs.trans (cancelRecord_pays r.slot .link t hi ht)) h (.refl s)).2

theorem takeCardStage_pays (fields : List Byte) (s : State) (h : s.accountsSound = true) : s.Pays (takeCardStage fields s) := by
  have hstage : ∀ stage r rest, s.payment.queue = r :: rest → s.Pays (takeStage stage r s) := by
    intro stage r rest hq
    unfold takeStage
    split
    · exact .of_fare rfl
    · exact .of_fare rfl
    · exact cancelRecord_head_pays hq _ h
    · exact cancelRecord_head_pays hq _ h
    · exact .refl s
  unfold takeCardStage
  split
  · rename_i hq
    split
    · split
      · exact hstage _ _ _ hq
      · exact .refl s
    · exact .refl s
  · exact .refl s

theorem offerExpiry_pays (s : State) (h : s.accountsSound = true) : s.Pays (offerExpiry s) := by
  unfold offerExpiry
  split
  · rename_i hq
    split
    · exact cancelRecord_head_pays hq _ h
    · exact .refl s
  · exact .refl s

theorem takeAuthAsk_pays (fields : List Byte) (s : State) (h : s.accountsSound = true) : s.Pays (takeAuthAsk fields s) := by
  obtain hf | ⟨slot, result, ref, hf⟩ | ⟨r, rest, x, hq, -, -, hf⟩ := takeAuthAsk_cases fields s <;> rw [hf]
  · exact .refl s
  · exact .of_fare rfl
  · have hpaying := (State.head_offer hq h).paying
    split
    · exact .of_fare (by simp)
    · unfold decideOffline
      split
      · exact .of_withParty refuseOffline_fare hpaying rfl
      · exact .of_withParty approveOffline_fare hpaying (Party.riding_of_standing _)

theorem takeAuthAnswer_pays (fields : List Byte) (s : State) (h : s.accountsSound = true) : s.Pays (takeAuthAnswer fields s) := by
  unfold takeAuthAnswer
  split
  · split
    · rename_i ha
      obtain ⟨rest, hq, -⟩ := State.queue_of_authorizing ha
      exact .of_withParty answerApproved_fare (State.head_offer hq h).paying (Party.riding_of_standing _)
    · rename_i ha
      obtain ⟨rest, hq, -⟩ := State.queue_of_authorizing ha
      exact .of_withParty answerDeclined_fare (State.head_offer hq h).paying rfl
    · exact .of_fare rfl
  · exact .refl s

theorem answerExpiry_pays (s : State) (h : s.accountsSound = true) : s.Pays (answerExpiry s) := by
  unfold answerExpiry
  split
  · rename_i hq
    split
    · exact .of_withParty (answerTimedOut_fare _ s) (State.head_offer hq h).paying rfl
    · exact .refl s
  · exact .refl s

theorem goDown_pays (q : Port) (s : State) (h : s.accountsSound = true) : s.Pays (goDown q s) := by
  unfold goDown
  have hlink : ∀ t : State, t.fare = s.fare → t.payment.queue = s.payment.queue → s.Pays (deliverDown q t) := by
    intro t hf hq
    cases q
    case k => exact (State.Pays.of_fare hf).trans (cardLinkDown_pays t (State.accountsSound_of_same h hf hq))
    all_goals exact .of_fare (by simp [deliverDown, hf])
  exact hlink _ (by simp [notifyLink]) (by simp [notifyLink])

theorem shutPort_pays (q : Port) (s : State) (h : s.accountsSound = true) : s.Pays (shutPort q s) := by
  have hset : s.Pays (s.setPort q (s.port q).closed) := .of_fare rfl
  unfold shutPort
  dsimp only
  split
  · exact hset.trans (goDown_pays q _ (State.accountsSound_of_same h rfl rfl))
  · exact hset

theorem silenceExpiry_pays (q : Port) (s : State) (h : s.accountsSound = true) : s.Pays (silenceExpiry q s) := by
  unfold silenceExpiry
  split
  · exact .refl s
  · split
    · exact goDown_pays q s h
    · exact .of_fare rfl

theorem parkHub_pays (s : State) (h : s.accountsSound = true) : s.Pays (parkHub s) := by
  have hshut : ∀ t q, t.accountsSound = true ∧ s.Pays t → (shutPort q t).accountsSound = true ∧ s.Pays (shutPort q t) := fun t q ht =>
    ⟨shutPort_accountsSound q t ht.1, ht.2.trans (shutPort_pays q t ht.1)⟩
  have hlast : ∀ t, t.accountsSound = true ∧ s.Pays t → s.Pays (parkSignPort (parkBlocks { t with cadence := t.cadence.park })) := by
    intro t ht
    have hblocks : (parkBlocks { t with cadence := t.cadence.park }).accountsSound = true ∧ s.Pays (parkBlocks { t with cadence := t.cadence.park }) :=
      ⟨State.accountsSound_of_follows ht.1 ⟨rfl, fun _ => .refl _⟩ rfl, ht.2⟩
    unfold parkSignPort
    split
    · exact hblocks.2
    · exact (hshut _ .s hblocks).2
  unfold parkHub
  refine hlast _ (hshut _ .k (hshut _ .p (hshut _ .c ⟨State.accountsSound_of_same h ?_ ?_, .of_fare ?_⟩))) <;> simp

/-! ### Who rides -/

/-- From `s` to `t` the same slots ride. -/
def State.SameRiders (s t : State) : Prop :=
  ∀ i, (t.party i).riding = (s.party i).riding

theorem State.Pays.sameRiders {s t : State} (h : s.Pays t) : s.SameRiders t := fun i => by
  rcases h i with hi | ⟨hs, ht⟩
  · rw [hi]
  · rw [ht, Party.riding, hs]
    rfl

theorem State.Follows.sameRiders {s t : State} (h : s.Follows t) : s.SameRiders t := fun i => by
  simp only [Party.riding, (h.party i).state]

theorem State.SameRiders.of_fare {s t : State} (h : t.fare = s.fare := by simp) : s.SameRiders t := (State.Pays.of_fare h).sameRiders

theorem State.SameRiders.ridingCount {s t : State} (h : s.SameRiders t) : t.ridingCount = s.ridingCount := by
  simp only [State.ridingCount, h _]

theorem State.SameRiders.everyIdle {s t : State} (h : s.SameRiders t) : t.everyIdle = s.everyIdle := by
  simp only [State.everyIdle, h _]

/-- The riders, the state of the shift and its books stay through every event of the hub, for whatever they give. -/
theorem EventRules.of_sameRiders {P : State → Prop} (hP : ∀ s t : State, s.SameRiders t → s.SameBooks t → P s → P t) :
    EventRules (fun s => s.accountsSound = true ∧ P s) fun _ => True := by
  have hcards : ∀ s t : State, s.accountsSound = true ∧ P s → s.Pays t → s.SameBooks t → t.accountsSound = true → t.accountsSound = true ∧ P t :=
    fun s t h hp hb ha => ⟨ha, hP s t hp.sameRiders hb h.2⟩
  constructor
  case count => exact fun n s h => ⟨accountsSound_events.count n s h.1, hP _ _ (State.Follows.takeCount n s).sameRiders (.takeCount n s) h.2⟩
  case tick => exact fun b s h => ⟨accountsSound_events.tick b s h.1, hP _ _ (State.Follows.takeTick b s).sameRiders (.takeTick b s) h.2⟩
  case signStat => exact fun payload s h => ⟨accountsSound_events.signStat payload s h.1, hP _ _ .of_fare (.takeSignStat payload s) h.2⟩
  case cardStage => exact fun f s h => hcards _ _ h (takeCardStage_pays f s h.1) .of_shift (accountsSound_events.cardStage f s h.1)
  case authAsk => exact fun f s h => hcards _ _ h (takeAuthAsk_pays f s h.1) (.takeAuthAsk f s) (accountsSound_events.authAsk f s h.1)
  case authAnswer => exact fun f s h => hcards _ _ h (takeAuthAnswer_pays f s h.1) .of_shift (accountsSound_events.authAnswer f s h.1)
  case offer => exact fun s h => hcards _ _ h (offerExpiry_pays s h.1) .of_shift (accountsSound_events.offer s h.1)
  case answer => exact fun s h => hcards _ _ h (answerExpiry_pays s h.1) (.answerExpiry s) (accountsSound_events.answer s h.1)
  case silence => exact fun q s h => hcards _ _ h (silenceExpiry_pays q s h.1) .of_shift (accountsSound_events.silence q s h.1)
  case park => exact fun s hr h => hcards _ _ h (parkHub_pays s h.1) (.parkHub s) (accountsSound_events.park s hr h.1)
  case checkError =>
    intro q s hq h
    exact ⟨accountsSound_events.checkError q s hq h.1, by unfold Machine.failCheck; split <;> exact hP s _ (.of_fare rfl) (.of_shift rfl) h.2⟩
  case wake =>
    exact fun s hp h => ⟨accountsSound_events.wake s hp h.1, hP s _ (fun i => by simp [wakeHub, Machine.forgetCount, State.party]) .of_shift h.2⟩
  case ignition =>
    intro on s h
    refine ⟨accountsSound_events.ignition on s h.1, hP s _ (fun i => ?_) .of_shift h.2⟩
    unfold Machine.takeIgnitionFlag
    dsimp only
    split
    · simp [wakeHub, Machine.forgetCount, State.party]
    · rfl
  case goUp => exact fun q o s hs hu h => ⟨accountsSound_events.goUp q o s hs hu h.1, hP s _ .of_fare .of_shift h.2⟩
  all_goals intros
  case weaken | settle | reply | action => trivial
  all_goals
    rename_i h
    refine ⟨State.accountsSound_of_same h.1 ?_ ?_, hP _ _ (.of_fare ?_) (.of_shift ?_) h.2⟩
  all_goals simp

/-! ### Requests -/

section requests
variable (s : State)

theorem State.setParty_sameRiders {t : State} {i : Fin 4} {p : Party} (hp : p.riding = (s.party i).riding) (h : (s.setParty i p).SameRiders t) :
    s.SameRiders t := fun j => by
  rw [h j]
  by_cases hj : j = i
  · subst hj
    simpa using hp
  · rw [State.party_setParty_other _ _ _ _ hj]

theorem State.sameRiders_of_withParty {t : State} {i : Fin 4} {p : Party} (hf : t.fare = s.fare.withParty i p) (hi : (s.party i).riding = true)
    (hp : p.riding = true) : s.SameRiders t :=
  s.setParty_sameRiders (hp.trans hi.symm) (.of_fare hf)

theorem State.sameRiders_shown {i : Fin 4} {p : Party} (hp : p.riding = (s.party i).riding) : s.SameRiders (showChanges s (s.setParty i p)) :=
  s.setParty_sameRiders hp (.of_fare (showChanges_fare _ _))

theorem Party.riding_of_ne {p : Party} (h : p.state ≠ .idle) : p.riding = true := by simpa [Party.riding] using h

theorem actResume_sameRiders (n : Byte) : s.SameRiders (actResume n s).1 := by
  refine onSlot_keeps (C := s.SameRiders) (fun _ => rfl) fun i hi => ?_
  have hi : (s.party i).state = .hold := by simpa using hi
  dsimp only
  split
  · exact fun _ => rfl
  · have hpass := State.Follows.fareChange (i := i) (f := (s.party i).fare) (s := s.setParty i { s.stepped (s.party i) with state := .metering }) (by simp)
    refine s.setParty_sameRiders (i := i) (p := { s.stepped (s.party i) with state := .metering }) (Party.riding_of_ne (by simp [hi])).symm ?_
    exact (hpass.trans (.of_fare ((showChanges_fare _ _).trans (handOff_fare _ _ _)))).sameRiders

theorem actPayCash_sameRiders (n : Byte) (amount : Nat) : s.SameRiders (actPayCash n amount s).1 := by
  refine onSlot_keeps (C := s.SameRiders) (fun _ => rfl) fun i hi => ?_
  have hi : (s.party i).state = .hold := by simpa using hi
  dsimp only
  split
  · exact fun _ => rfl
  · refine s.sameRiders_of_withParty (i := i) (p := { s.party i with
        cash := (s.party i).cash + min amount (s.party i).due,
        state := Party.standing { s.party i with cash := (s.party i).cash + min amount (s.party i).due } }) ?_
      (Party.riding_of_ne (by simp [hi])) (Party.riding_of_standing _)
    dsimp only
    split <;> simp [State.setParty, FareEngine.withParty]

theorem actOfferCard_sameRiders (n : Byte) (amount : Nat) : s.SameRiders (actOfferCard n amount s).1 := by
  refine onSlot_keeps (C := s.SameRiders) (fun _ => rfl) fun i hi => ?_
  have hi : (s.party i).state = .hold := by simpa using hi
  dsimp only
  split
  · exact fun _ => rfl
  · split
    · exact fun _ => rfl
    · refine s.sameRiders_of_withParty (i := i) (p := { s.party i with state := .paying }) ?_ (Party.riding_of_ne (by simp [hi])) rfl
      split <;> simp [offerTaken_eq]

theorem actCancelCard_sameRiders (n : Byte) : s.SameRiders (actCancelCard n s).1 := by
  refine onSlot_keeps (C := s.SameRiders) (fun _ => rfl) fun i hi => ?_
  have hi : (s.party i).state = .paying := by simpa using hi
  split
  · exact fun _ => rfl
  · split
    · exact fun _ => rfl
    · exact s.sameRiders_of_withParty (cancelRecord_fare ..) (Party.riding_of_ne (by simp [hi])) rfl

theorem actAddExtra_sameRiders (n extra : Byte) (amount : Nat) : s.SameRiders (actAddExtra n extra amount s).1 := by
  refine onSlot_keeps (C := s.SameRiders) (fun _ => rfl) fun i hi => ?_
  split
  · exact fun _ => rfl
  · split
    · exact fun _ => rfl
    · dsimp only
      split_ifs
      · exact fun _ => rfl
      · exact fun _ => rfl
      · exact s.sameRiders_shown rfl

theorem actTotal_sameRiders (n : Byte) : s.SameRiders (actTotal n s).1 := by
  refine onSlot_keeps (C := s.SameRiders) (fun _ => rfl) fun i hi => ?_
  have hi : (s.party i).state = .metering := by simpa using hi
  exact s.sameRiders_of_withParty (i := i) (p := (s.party i).totalled) (by simp; rfl) (Party.riding_of_ne (by simp [hi]))
    (Party.riding_of_standing _)

/-- HIRE, VOID and CLOSE_TRIP alone change who rides. -/
theorem RequestName.Does.sameRiders {r : RequestName} {q : Port} {act : Action} (hr : r.Does q act) (hhire : r ≠ .hire) (hvoid : r ≠ .void)
    (hclose : r ≠ .closeTrip) : s.SameRiders (act s).1 := by
  by_cases hc : .fare ∈ r.reach
  · cases hr <;> simp only [RequestName.reach, List.mem_cons, List.not_mem_nil, reduceCtorEq, or_false, or_self] at hc
    case loadCommit check => exact (actLoadCommit_follows check s).sameRiders
    case setClock day ds => exact (actSetClock_follows day ds s).sameRiders
    case hire t st => exact absurd rfl hhire
    case total n => exact actTotal_sameRiders s n
    case resume n => exact actResume_sameRiders s n
    case void n => exact absurd rfl hvoid
    case payCash n amount => exact actPayCash_sameRiders s n amount
    case closeTrip n => exact absurd rfl hclose
    case addExtra n x amount => exact actAddExtra_sameRiders s n x amount
    case setTariff n t => exact (actSetTariff_follows s n t).sameRiders
    case setStation n st => exact (actSetStation_follows s n st).sameRiders
    case share on =>
      intro i
      unfold actShare
      dsimp only
      split_ifs <;> simp [State.party]
    case offerCard n amount => exact actOfferCard_sameRiders s n amount
    case cancelCard n => exact actCancelCard_sameRiders s n
    case shiftClose =>
      intro i
      unfold actShiftClose
      dsimp only
      split_ifs <;> simp [State.party]
  · have hchange := hr.changesOnly s
    simp only [State.changesOnly, hc, false_or] at hchange
    obtain ⟨-, -, -, -, hfare, -⟩ := hchange
    exact .of_fare hfare

end requests

/-! ### The count of riders -/

theorem State.ridingCount_eq_zero_iff (s : State) : s.ridingCount = 0 ↔ s.everyIdle = true := by
  simp [ridingCount, everyIdle, List.countP_eq_zero]

/-- A slot that begins to ride adds one. -/
theorem State.ridingCount_succ {s t : State} {i : Fin 4} (hs : (s.party i).riding = false) (ht : (t.party i).riding = true)
    (h : ∀ j, j ≠ i → (t.party j).riding = (s.party j).riding) : t.ridingCount = s.ridingCount + 1 := by
  simp only [ridingCount, slots, List.countP_cons, List.countP_nil]
  have h0 := h 0
  have h1 := h 1
  have h2 := h 2
  have h3 := h 3
  fin_cases i <;> simp_all <;> omega

/-- A hire puts a rider into an IDLE slot. -/
theorem openTrip_ridingCount {s : State} {i : Fin 4} (t : TariffArg) (st : Station) (hi : (s.party i).state = .idle) :
    (openTrip i t st s).ridingCount = s.ridingCount + 1 := by
  have hf := (openTrip_follows i t st s hi).sameRiders
  refine State.ridingCount_succ (i := i) (by simp [Party.riding, hi]) ?_ fun j hj => ?_
  · rw [hf i]
    simp [Party.riding, newParty_metering]
  · rw [hf j, State.party_setParty_other _ _ _ _ hj]

/-- A slot vacated loses its rider. -/
theorem vacate_ridingCount {s : State} {i : Fin 4} (hi : (s.party i).state ≠ .idle) : s.ridingCount = (vacate i s).ridingCount + 1 := by
  have hf : (s.setParty i .vacant).SameRiders (vacate i s) := .of_fare (by simp [vacate])
  refine State.ridingCount_succ (i := i) ?_ (Party.riding_of_ne hi) fun j hj => ?_
  · rw [hf i]
    simp [Party.riding, Party.vacant]
  · rw [hf j, State.party_setParty_other _ _ _ _ hj]

/-! ### The balance of trips -/

/-- Trips started are the ones closed, voided and riding, until the count saturates (R98). -/
def Totals.TripsBalance (t : Totals) (riding : Nat) : Prop :=
  Config.totalMax ≤ t.started ∨ t.started = t.closed + t.voided + riding

theorem State.tripsBalance_iff (s : State) :
    s.tripsBalance = true ↔ (s.everyIdle = true ∨ s.shift.state = .opened) ∧ s.shift.totals.TripsBalance s.ridingCount := by
  simp [tripsBalance, Totals.TripsBalance]

theorem State.tripsBalance_of_sameRiders {s t : State} (h : s.SameRiders t) (hb : s.SameBooks t) (hs : s.tripsBalance = true) :
    t.tripsBalance = true := by
  rw [State.tripsBalance_iff] at hs ⊢
  obtain ⟨hstarted, hclosed, hvoided⟩ := hb.totals.trips
  rw [h.everyIdle, hb.state, Totals.TripsBalance, hstarted, hclosed, hvoided, h.ridingCount]
  exact hs

/-- The balance hangs on the state of the shift, its totals and who rides. -/
theorem State.tripsBalance_of_shift {s t : State} (h : s.SameRiders t) (hstate : t.shift.state = s.shift.state)
    (htotals : t.shift.totals = s.shift.totals) (hs : s.tripsBalance = true) : t.tripsBalance = true := by
  rw [State.tripsBalance_iff] at hs ⊢
  rw [h.everyIdle, hstate, htotals, h.ridingCount]
  exact hs

theorem addTotal_eq (n k : Nat) : addTotal n k = min Config.totalMax (n + k) := rfl

theorem Totals.tripsBalance_countStarted {t : Totals} {n : Nat} (h : t.TripsBalance n) : t.countStarted.TripsBalance (n + 1) := by
  simp only [TripsBalance, countStarted, addTotal_eq] at *
  omega

theorem Totals.tripsBalance_countVoided {t : Totals} {n : Nat} (h : t.TripsBalance (n + 1)) : t.countVoided.TripsBalance n := by
  simp only [TripsBalance, countVoided, addTotal_eq] at *
  omega

theorem Totals.tripsBalance_post {t : Totals} {n : Nat} (p : Party) (h : t.TripsBalance (n + 1)) : (t.post p).TripsBalance n := by
  simp only [TripsBalance, post, addTotal_eq] at *
  omega

theorem hireFault_opened {t : TariffArg} {st : Station} {s : State} (h : hireFault t st s = none) : s.shift.state = .opened := by
  by_contra hopen
  by_cases hset : s.setInForce = true <;> simp [hireFault, hset, hopen] at h

section requests
variable (s : State) (h : s.tripsBalance = true)
include h

theorem actHire_tripsBalance (t : TariffArg) (st : Station) : (actHire t st s).1.tripsBalance = true := by
  obtain hs | ⟨i, hfault, hi, hs⟩ := actHire_cases t st s <;> rw [hs]
  · exact h
  · obtain ⟨-, hcount⟩ := s.tripsBalance_iff.mp h
    have hband := State.Follows.evaluateBand s
    have hidle : ((evaluateBand s).party i).state = .idle := (hband.party i).state.trans (State.lowestIdle_idle hi)
    have hopen : (openTrip i t st (evaluateBand s)).SameRiders
        (showChanges (evaluateBand s) (handOff i ((openTrip i t st (evaluateBand s)).party i).trip (openTrip i t st (evaluateBand s)))) := .of_fare
    rw [State.tripsBalance_iff, hopen.ridingCount, openTrip_ridingCount t st hidle, hband.sameRiders.ridingCount]
    have hshift : (showChanges (evaluateBand s) (handOff i ((openTrip i t st (evaluateBand s)).party i).trip (openTrip i t st (evaluateBand s)))).shift
        = { s.shift with totals := s.shift.totals.countStarted } := by simp [openTrip_shift]
    rw [hshift]
    exact ⟨.inr (hireFault_opened hfault), Totals.tripsBalance_countStarted hcount⟩

/-- A trip that ends, counted in `x`, its slot vacated. -/
theorem State.tripsBalance_vacate {v t : State} {i : Fin 4} {x : Totals} (hi : (s.party i).state ≠ .idle)
    (ht : t.fare = (vacate i v).fare) (hshift : t.shift = { s.shift with totals := x }) (hx : x.TripsBalance (vacate i v).ridingCount) :
    t.tripsBalance = true := by
  obtain ⟨hstate, -⟩ := s.tripsBalance_iff.mp h
  have hopened : s.shift.state = .opened := by
    rcases hstate with hidle | hopened
    · have hn := s.ridingCount_eq_zero_iff.mpr hidle
      have := vacate_ridingCount hi
      omega
    · exact hopened
  rw [State.tripsBalance_iff, (State.SameRiders.of_fare ht).ridingCount, hshift]
  exact ⟨.inr hopened, hx⟩

theorem actVoid_tripsBalance (n : Byte) : (actVoid n s).1.tripsBalance = true := by
  refine onSlot_keeps (C := fun t : State => t.tripsBalance = true) h fun i hi => ?_
  have hi : (s.party i).state ≠ .idle := PartyState.ne_idle_of_metering (by simpa using hi)
  dsimp only
  split
  · have hcount := vacate_ridingCount (s := s.setTotals s.shift.totals.countVoided) (i := i) hi
    refine s.tripsBalance_vacate h (v := s.setTotals s.shift.totals.countVoided) (x := s.shift.totals.countVoided) hi (showChanges_fare _ _)
      (by simp [vacate, State.setTotals]) (Totals.tripsBalance_countVoided ?_)
    rw [← hcount]
    exact (s.tripsBalance_iff.mp h).2
  · exact h

theorem actCloseTrip_tripsBalance (n : Byte) : (actCloseTrip n s).1.tripsBalance = true := by
  refine onSlot_keeps (C := fun t : State => t.tripsBalance = true) h fun i hi => ?_
  have hi : (s.party i).state ≠ .idle := by
    have hsettled : (s.party i).state = .settled := by simpa using hi
    simp [hsettled]
  have hv : (tripClosedAt (s.party i).station (s.setTotals (s.shift.totals.post (s.party i)))).fare = s.fare := by simp
  have hvi : ((tripClosedAt (s.party i).station (s.setTotals (s.shift.totals.post (s.party i)))).party i).state ≠ .idle := by
    rwa [State.party_of_fare hv]
  refine s.tripsBalance_vacate h (x := s.shift.totals.post (s.party i)) hi (showChanges_fare _ _)
    (by simp [vacate, State.setTotals]) (Totals.tripsBalance_post _ ?_)
  rw [← vacate_ridingCount hvi, (State.SameRiders.of_fare hv).ridingCount]
  exact (s.tripsBalance_iff.mp h).2

/-- With every slot IDLE the shift may change its state. -/
theorem State.tripsBalance_of_everyIdle {t : State} (hi : s.everyIdle = true) (hr : s.SameRiders t)
    (ht : t.shift.totals = s.shift.totals ∨ t.shift.totals = .zero) : t.tripsBalance = true := by
  have hzero : t.ridingCount = 0 := hr.ridingCount.trans (s.ridingCount_eq_zero_iff.mpr hi)
  rw [State.tripsBalance_iff, hr.everyIdle, hzero]
  refine ⟨.inl hi, ?_⟩
  rcases ht with ht | ht <;> rw [ht]
  · rw [← s.ridingCount_eq_zero_iff.mpr hi]
    exact (s.tripsBalance_iff.mp h).2
  · exact .inr rfl

theorem State.everyIdle_of_not_opened (ho : s.shift.state ≠ .opened) : s.everyIdle = true :=
  (s.tripsBalance_iff.mp h).1.resolve_right ho

theorem RequestName.Does.tripsBalance {r : RequestName} {q : Port} {act : Action} (hr : r.Does q act) : (act s).1.tripsBalance = true := by
  by_cases hends : r = .hire ∨ r = .void ∨ r = .closeTrip
  · cases hr <;> simp only [reduceCtorEq, or_self, or_false, or_true] at hends
    case hire t st => exact actHire_tripsBalance s h t st
    case void n => exact actVoid_tripsBalance s h n
    case closeTrip n => exact actCloseTrip_tripsBalance s h n
  · simp only [not_or] at hends
    obtain ⟨hhire, hvoid, hclose⟩ := hends
    have hriders := hr.sameRiders s hhire hvoid hclose
    have hkeep : (act s).1.shift = s.shift → (act s).1.tripsBalance = true := fun hshift =>
      State.tripsBalance_of_sameRiders hriders (.of_shift hshift) h
    by_cases hc : .shift ∈ r.reach
    · cases hr <;> simp only [RequestName.reach, List.mem_cons, List.not_mem_nil, reduceCtorEq, or_false, or_self, not_true_eq_false] at hc hhire hvoid hclose
      case shiftOpen driver =>
        revert hriders hkeep
        unfold actShiftOpen
        split_ifs with hopen
        iterate 4 exact fun _ hkeep => hkeep rfl
        exact fun hriders _ => s.tripsBalance_of_everyIdle h (s.everyIdle_of_not_opened h (by simp_all)) hriders (.inr (by simp [State.setShift]))
      case shiftBreak =>
        revert hriders hkeep
        unfold actShiftBreak
        split_ifs with hopen hidle
        iterate 2 exact fun _ hkeep => hkeep rfl
        exact fun hriders _ => s.tripsBalance_of_everyIdle h (by simpa using hidle) hriders (.inl (by simp [State.setShift]))
      case shiftResume =>
        revert hriders hkeep
        unfold actShiftResume
        split_ifs with hbreak
        · exact fun _ hkeep => hkeep rfl
        · exact fun hriders _ => s.tripsBalance_of_everyIdle h (s.everyIdle_of_not_opened h (by simp_all)) hriders (.inl (by simp [State.setShift]))
      case shiftClose =>
        revert hriders hkeep
        unfold actShiftClose
        split_ifs with hclosed hidle
        iterate 2 exact fun _ hkeep => hkeep rfl
        exact fun hriders _ => s.tripsBalance_of_everyIdle h (by simpa using hidle) hriders (.inl (by simp))
      case totalsRead page freeze =>
        have hlive : (actTotalsRead page freeze s).1.shift.state = s.shift.state ∧ (actTotalsRead page freeze s).1.shift.totals = s.shift.totals := by
          unfold actTotalsRead
          repeat' split
          all_goals exact ⟨rfl, rfl⟩
        exact State.tripsBalance_of_shift hriders hlive.1 hlive.2 h
      case totalsThaw => exact State.tripsBalance_of_shift hriders rfl rfl h
      case reportDrop number =>
        have hlive : (actReportDrop number s).1.shift.state = s.shift.state ∧ (actReportDrop number s).1.shift.totals = s.shift.totals := by
          unfold actReportDrop
          repeat' split
          all_goals exact ⟨rfl, rfl⟩
        exact State.tripsBalance_of_shift hriders hlive.1 hlive.2 h
    · have hchange := hr.changesOnly s
      simp only [State.changesOnly, hc, false_or] at hchange
      obtain ⟨-, -, -, -, -, -, -, hshift, -⟩ := hchange
      exact hkeep hshift

end requests

theorem tripsBalance_rules : EventRules (fun s => s.accountsSound = true ∧ s.tripsBalance = true) fun s => s.tripsBalance = true :=
  (EventRules.of_sameRiders fun _ _ hr hb => State.tripsBalance_of_sameRiders hr hb).withAction (fun _ h => h.2)
    (fun s => State.tripsBalance_of_shift (.of_fare (settleSign_fare s).1) (by simp) (by simp))
    (fun _ _ _ h => h) fun _ _ _ s hr h => hr.tripsBalance s h.2

/-- Settles O9: HIRE, VOID and CLOSE_TRIP alone change who rides, and each counts what it does. -/
theorem tripsBalanceKept : Obligations.TripsBalanceKept := by
  unfold Obligations.TripsBalanceKept
  exact fun s t ha h => step_gives tripsBalance_rules (by decide) (by decide) (fun _ _ h => h) (fun _ _ h => h) s t ⟨ha, h⟩

end Sys2Proof.Machine
end

