-- ==== Sys2Proof/Proofs/PaymentSound.lean ====
section
/-! PROOFS. The payment queue with its timers, the store with the references in use, and the statement `PaymentSoundKept`. -/
set_option Elab.async false
namespace Sys2Proof.Machine
namespace PaymentUnit

variable {x y : PaymentUnit} {r : Record} {rest : List Record}

/-! ### The queue -/

theorem queueSound_of_nil (hq : x.queue = []) : x.queueSound = true ↔ x.offerTimer = none ∧ x.answerTimer = none := by
  simp [queueSound, hq]

/-- What a sound head record and its timers say of each other (R62, R63, R69). -/
structure HeadSound (x : PaymentUnit) (r : Record) (rest : List Record) : Prop where
  head : r.state ≠ .queued
  later : ∀ y ∈ rest, y.state = .queued ∧ y.hubRef = none
  offer : x.offerTimer.isSome = true ↔ r.state = .offered
  answer : x.answerTimer.isSome = true ↔ r.state = .authorizing
  ref : r.hubRef.isSome = true ↔ r.state = .authorizing

theorem queueSound_of_cons (hq : x.queue = r :: rest) : x.queueSound = true ↔ x.HeadSound r rest := by
  have hbeq : ∀ (a : Bool) (b c : RecordState), (a == (b == c)) = true ↔ (a = true ↔ b = c) := by
    intro a b c
    cases a <;> simp
  simp only [queueSound, hq, Bool.and_eq_true, bne_iff_ne, List.all_eq_true, hbeq]
  constructor
  · rintro ⟨⟨⟨⟨h1, h2⟩, h3⟩, h4⟩, h5⟩
    exact ⟨h1, fun y hy => by simpa using h2 y hy, h3, h4, h5⟩
  · rintro ⟨h1, h2, h3, h4, h5⟩
    exact ⟨⟨⟨⟨h1, fun y hy => by simpa using h2 y hy⟩, h3⟩, h4⟩, h5⟩

/-- A removed head leaves a sound queue behind it, where no answer is waited for. -/
theorem queueSound_behind (hq : x.queue = r :: rest) (h : x.queueSound = true) (ha : y.answerTimer = none) : (y.behind rest).queueSound = true := by
  obtain ⟨-, hlater, -⟩ := (queueSound_of_cons hq).mp h
  cases rest with
  | nil => exact (queueSound_of_nil rfl).mpr ⟨rfl, ha⟩
  | cons z zs =>
    have hz := (hlater z (by simp)).2
    refine (queueSound_of_cons (r := { z with state := .offered }) (rest := zs) rfl).mpr
      ⟨by simp, fun w hw => hlater w (by simp [hw]), by simp [behind, promotedTimer], ?_, by simp [hz]⟩
    show y.answerTimer.isSome = true ↔ _
    simp [ha]

/-! ### The references in use -/

/-- The reference of an AUTHORIZING head. -/
def headRef (x : PaymentUnit) : List Nat :=
  match x.queue with
  | r :: _ => if r.state = .authorizing then r.hubRef.toList else []
  | [] => []

theorem references_eq (x : PaymentUnit) : x.references = x.store.map StoreEntry.hubRef ++ x.headRef := rfl

theorem headRef_of_cons (hq : x.queue = r :: rest) (hs : r.state ≠ .authorizing) : x.headRef = [] := by
  simp [headRef, hq, hs]

theorem headRef_behind (x : PaymentUnit) (rest : List Record) : (x.behind rest).headRef = [] := by
  cases rest <;> simp [headRef, behind, promotedQueue]

/-- The references of a sound store (R69, R78). -/
structure RefsSound (refs : List Nat) : Prop where
  nodup : refs.Nodup
  bounds : ∀ n ∈ refs, 1 ≤ n ∧ n ≤ 65535
  length : refs.length ≤ Config.storeCapacity

theorem RefsSound.sublist {l l' : List Nat} (h : RefsSound l) (hs : l'.Sublist l) : RefsSound l' :=
  ⟨h.nodup.sublist hs, fun n hn => h.bounds n (hs.subset hn), hs.length_le.trans h.length⟩

/-- A reference added that is in range and not in use, with room left. -/
theorem RefsSound.add {l : List Nat} (h : RefsSound l) {n : Nat} (hn : n ∉ l) (h1 : 1 ≤ n) (h2 : n ≤ 65535) (hl : l.length < Config.storeCapacity) :
    RefsSound (l ++ [n]) where
  nodup := List.Nodup.append h.nodup (List.nodup_singleton n) (by simpa using hn)
  bounds m hm := by
    rcases List.mem_append.mp hm with hm | hm
    · exact h.bounds m hm
    · obtain rfl := List.mem_singleton.mp hm
      exact ⟨h1, h2⟩
  length := by simpa using hl

/-- A sound store, as propositions: the references, the counter, and the upload with its timer (R69, R78, R80). -/
structure StoreSound (x : PaymentUnit) : Prop where
  refs : RefsSound x.references
  counter : x.refCounter ≤ 65535
  timer : x.uploadTimer.isSome = true ↔ x.upload = .awaiting
  held : x.upload = .idle ∨ x.store ≠ []

theorem storeSound_iff (x : PaymentUnit) : x.storeSound = true ↔ x.StoreSound := by
  have hbeq : ∀ (a : Bool) (b c : UploadState), (a == (b == c)) = true ↔ (a = true ↔ b = c) := by
    intro a b c
    cases a <;> simp
  simp only [storeSound, Bool.and_eq_true, decide_eq_true_eq, List.all_eq_true, hbeq, Bool.or_eq_true, beq_iff_eq]
  constructor
  · rintro ⟨⟨⟨⟨⟨h1, h2⟩, h3⟩, h4⟩, h5⟩, h6⟩
    exact ⟨⟨h1, h2, h3⟩, h4, h5, by simpa using h6⟩
  · rintro ⟨⟨h1, h2, h3⟩, h4, h5, h6⟩
    exact ⟨⟨⟨⟨⟨h1, h2⟩, h3⟩, h4⟩, h5⟩, by simpa using h6⟩

/-- The payment queue and the store are sound. -/
def Sound (x : PaymentUnit) : Prop := x.queueSound = true ∧ x.storeSound = true

/-- A change of the queue that takes no reference leaves the store sound. -/
theorem StoreSound.requeue (h : x.StoreSound) (hr : y.headRef.Sublist x.headRef) (hstore : y.store = x.store) (hcounter : y.refCounter = x.refCounter)
    (hupload : y.upload = x.upload) (htimer : y.uploadTimer = x.uploadTimer) : y.StoreSound where
  refs := h.refs.sublist (by rw [references_eq, references_eq, hstore]; exact hr.append_left _)
  counter := hcounter ▸ h.counter
  timer := by rw [htimer, hupload]; exact h.timer
  held := by rw [hupload, hstore]; exact h.held

theorem sound_behind (hq : x.queue = r :: rest) (h : x.Sound) : ({ x with answerTimer := none }.behind rest).Sound :=
  ⟨queueSound_behind hq h.1 rfl, (storeSound_iff _).mpr
    (((storeSound_iff _).mp h.2).requeue (by rw [headRef_behind]; exact List.nil_sublist _) rfl rfl rfl rfl)⟩

theorem sound_uploading (b : Bool) (h : x.Sound) : (x.uploading b).Sound := by
  unfold uploading
  split
  · rename_i hc
    simp only [Bool.and_eq_true, beq_iff_eq, Bool.not_eq_true', List.isEmpty_eq_false_iff] at hc
    obtain ⟨hrefs, hcounter, -, -⟩ := (storeSound_iff x).mp h.2
    exact ⟨h.1, (storeSound_iff _).mpr ⟨hrefs, hcounter, by simp, .inr hc.2⟩⟩
  · exact h

theorem sound_idle (h : x.Sound) : { x with upload := .idle, uploadTimer := none }.Sound := by
  obtain ⟨hrefs, hcounter, -, -⟩ := (storeSound_iff x).mp h.2
  exact ⟨h.1, (storeSound_iff _).mpr ⟨hrefs, hcounter, by simp, .inl rfl⟩⟩

/-- With no answer waited for, a payment unit whose head is not AUTHORIZING stops no answer timer. -/
theorem answerTimer_of_head (hq : x.queue = r :: rest) (h : x.queueSound = true) (hs : r.state ≠ .authorizing) : x.answerTimer = none := by
  obtain ⟨-, -, -, hanswer, -⟩ := (queueSound_of_cons hq).mp h
  exact Option.not_isSome_iff_eq_none.mp fun ha => hs (hanswer.mp ha)

theorem offerTimer_of_head (hq : x.queue = r :: rest) (h : x.queueSound = true) (hs : r.state = .authorizing) : x.offerTimer = none := by
  obtain ⟨-, -, hoffer, -⟩ := (queueSound_of_cons hq).mp h
  exact Option.not_isSome_iff_eq_none.mp fun ho => by simp [hs] at hoffer; simp [hoffer] at ho

theorem sound_behind_of_head (hq : x.queue = r :: rest) (h : x.Sound) (hs : r.state ≠ .authorizing) : (x.behind rest).Sound := by
  have ha := answerTimer_of_head hq h.1 hs
  have hb := sound_behind hq h
  rwa [← ha] at hb

/-- A later record taken out. -/
theorem sound_filter (hq : x.queue = r :: rest) (h : x.Sound) (p : Record → Bool) (hp : p r = true) : { x with queue := x.queue.filter p }.Sound := by
  obtain ⟨hhead, hlater, hoffer, hanswer, href⟩ := (queueSound_of_cons hq).mp h.1
  have hq' : { x with queue := x.queue.filter p }.queue = r :: rest.filter p := by simp [hq, hp]
  refine ⟨(queueSound_of_cons hq').mpr ⟨hhead, fun y hy => hlater y (List.mem_of_mem_filter hy), hoffer, hanswer, href⟩, (storeSound_iff _).mpr ?_⟩
  refine ((storeSound_iff x).mp h.2).requeue ?_ rfl rfl rfl rfl
  rw [headRef, headRef, hq', hq]

/-- The head of the terminal put in another stage of the terminal's, its offer timer running where it is OFFERED (R66). -/
theorem sound_stage (hq : x.queue = r :: rest) (h : x.Sound) (hr : r.state ≠ .authorizing) {st : RecordState} {timer : Timer}
    (hst : st = .offered ∧ timer.isSome = true ∨ st = .pin ∧ timer = none) :
    { x with queue := { r with state := st } :: rest, offerTimer := timer }.Sound := by
  obtain ⟨-, hlater, -, -, href⟩ := (queueSound_of_cons hq).mp h.1
  have hnone : r.hubRef = none := Option.not_isSome_iff_eq_none.mp fun hs => hr (href.mp hs)
  have ha := answerTimer_of_head hq h.1 hr
  have hstate : st ≠ .authorizing := by rcases hst with ⟨rfl, -⟩ | ⟨rfl, -⟩ <;> decide
  refine ⟨(queueSound_of_cons rfl).mpr ⟨?_, hlater, ?_, ?_, ?_⟩, (storeSound_iff _).mpr ?_⟩
  · rcases hst with ⟨rfl, -⟩ | ⟨rfl, -⟩ <;> simp
  · rcases hst with ⟨rfl, ht⟩ | ⟨rfl, rfl⟩ <;> simp [*]
  · simp [ha, hstate]
  · simp [hnone, hstate]
  · refine ((storeSound_iff x).mp h.2).requeue ?_ rfl rfl rfl rfl
    rw [headRef_of_cons (r := { r with state := st }) rfl hstate]
    exact List.nil_sublist _

/-- An entry appended under a reference in range that is not in use, with room left, where the head holds none. -/
theorem sound_append (h : x.Sound) (hh : x.headRef = []) (e : StoreEntry) (he : e.hubRef ∉ x.store.map StoreEntry.hubRef) (h1 : 1 ≤ e.hubRef)
    (h2 : e.hubRef ≤ 65535) (hl : x.store.length < Config.storeCapacity) : ({ x with refCounter := e.hubRef }.append e).Sound := by
  obtain ⟨hrefs, hcounter, htimer, hheld⟩ := (storeSound_iff x).mp h.2
  rw [references_eq, hh, List.append_nil] at hrefs
  have hrefs' : ({ x with refCounter := e.hubRef }.append e).references = x.store.map StoreEntry.hubRef ++ [e.hubRef] := by
    rw [references_eq]
    show (x.store ++ [e]).map StoreEntry.hubRef ++ x.headRef = _
    rw [hh]
    simp
  exact ⟨h.1, (storeSound_iff _).mpr ⟨hrefs' ▸ hrefs.add he h1 h2 (by simpa using hl), h2, htimer, .inr (by simp [append])⟩⟩

/-- The reference of a head given to an entry appended, and the head removed (R74). -/
theorem sound_reversal (hq : x.queue = r :: rest) (h : x.Sound) (hs : r.state = .authorizing) (e : StoreEntry) (he : e.hubRef = r.hubRef.getD 0) :
    (({ x with answerTimer := none }.append e).behind rest).Sound := by
  obtain ⟨hrefs, hcounter, htimer, hheld⟩ := (storeSound_iff x).mp h.2
  obtain ⟨-, -, -, -, href⟩ := (queueSound_of_cons hq).mp h.1
  refine ⟨queueSound_behind hq h.1 rfl, (storeSound_iff _).mpr ⟨?_, hcounter, htimer, .inr (by simp [append, behind])⟩⟩
  obtain ⟨n, hn⟩ := Option.isSome_iff_exists.mp (href.mpr hs)
  have hsame : (({ x with answerTimer := none }.append e).behind rest).references = x.references := by
    rw [references_eq, headRef_behind, references_eq]
    simp [append, behind, headRef, hq, hs, hn, he]
  rw [hsame]
  exact hrefs

/-- An ask forwarded: the head AUTHORIZING under a reference in range that is not in use, with room left (R70). -/
theorem sound_forward (hq : x.queue = r :: rest) (h : x.Sound) (hr : r.state ≠ .authorizing) (r' : Record) (n : Nat) (timer : Nat)
    (hs : r'.state = .authorizing) (hn : r'.hubRef = some n) (hfree : n ∉ x.store.map StoreEntry.hubRef) (h1 : 1 ≤ n) (h2 : n ≤ 65535)
    (hl : x.store.length < Config.storeCapacity) :
    { x with queue := r' :: rest, refCounter := n, offerTimer := none, answerTimer := some timer }.Sound := by
  obtain ⟨hrefs, -, htimer, hheld⟩ := (storeSound_iff x).mp h.2
  obtain ⟨-, hlater, -⟩ := (queueSound_of_cons hq).mp h.1
  rw [references_eq, headRef_of_cons hq hr, List.append_nil] at hrefs
  refine ⟨(queueSound_of_cons rfl).mpr ⟨by simp [hs], hlater, by simp [hs], by simp [hs], by simp [hs, hn]⟩,
    (storeSound_iff _).mpr ⟨?_, h2, htimer, hheld⟩⟩
  have hsame : PaymentUnit.references { x with queue := r' :: rest, refCounter := n, offerTimer := none, answerTimer := some timer } =
      x.store.map StoreEntry.hubRef ++ [n] := by
    simp [references_eq, headRef, hs, hn]
  rw [hsame]
  exact hrefs.add hfree h1 h2 (by simpa using hl)

/-- The head entry of the store acknowledged (R81). -/
theorem sound_acknowledged (h : x.Sound) {e : StoreEntry} {entries : List StoreEntry} (hs : x.store = e :: entries) :
    { x with store := entries, upload := .idle, uploadTimer := none }.Sound := by
  obtain ⟨hrefs, hcounter, -, -⟩ := (storeSound_iff x).mp h.2
  refine ⟨h.1, (storeSound_iff _).mpr ⟨hrefs.sublist ?_, hcounter, by simp, .inl rfl⟩⟩
  rw [references_eq, references_eq, hs]
  exact List.Sublist.append_right (List.sublist_cons_self _ _) _

/-- A record joins the tail: OFFERED with the offer timer started if it is the only one, QUEUED otherwise (R63). -/
theorem sound_offer (h : x.Sound) (i : Fin 4) (n : Nat) :
    { x with
      queue := x.queue ++ [(⟨i, n, if x.queue = [] then .offered else .queued, none, none, none, none⟩ : Record)],
      offerTimer := if x.queue = [] then some 120000 else x.offerTimer }.Sound := by
  have hstore := (storeSound_iff x).mp h.2
  cases hq : x.queue with
  | nil =>
    have htimers := (queueSound_of_nil hq).mp h.1
    refine ⟨(queueSound_of_cons rfl).mpr ⟨by simp, by simp, by simp, by simp [htimers.2], by simp⟩, (storeSound_iff _).mpr ?_⟩
    exact hstore.requeue (by simp [headRef]) rfl rfl rfl rfl
  | cons r rest =>
    obtain ⟨hhead, hlater, hoffer, hanswer, href⟩ := (queueSound_of_cons hq).mp h.1
    refine ⟨(queueSound_of_cons (r := r) rfl).mpr ⟨hhead, fun y hy => ?_, by simpa using hoffer, hanswer, href⟩, (storeSound_iff _).mpr ?_⟩
    · rcases List.mem_append.mp hy with hy | hy
      · exact hlater y hy
      · obtain rfl := List.mem_singleton.mp hy
        simp
    · exact hstore.requeue (by simp [headRef, hq]) rfl rfl rfl rfl

end PaymentUnit

/-! ### Events -/

/-- The payment unit is sound, with the accounts that its cancellations lean on. -/
def State.PaySound (s : State) : Prop := s.payment.Sound

theorem State.PaySound.of_payment {s t : State} (h : s.PaySound) (hp : t.payment = s.payment) : t.PaySound := by
  rw [PaySound, hp]
  exact h

theorem cancelRecord_head_paySound {s : State} {r : Record} {rest : List Record} (hq : s.payment.queue = r :: rest) (c : CancelCause)
    (hr : r.state ≠ .authorizing) (h : s.PaySound) : (cancelRecord r.slot c s).PaySound := by
  rw [State.PaySound, cancelRecord_head_payment hq]
  exact PaymentUnit.sound_behind_of_head hq h hr

theorem cancelRecord_paySound {s : State} (i : Fin 4) (c : CancelCause) (h : s.PaySound)
    (hi : ∀ r rest, s.payment.queue = r :: rest → r.slot = i → r.state ≠ .authorizing) : (cancelRecord i c s).PaySound := by
  cases hq : s.payment.queue with
  | nil =>
    have hhead : s.headAt i = false := by simp [State.headAt, hq]
    have hp : (cancelRecord i c s).payment = s.payment := by
      simp only [cancelRecord_eq, hhead]
      simp [State.setPayment, hq]
      rw [← hq]
    exact h.of_payment hp
  | cons r rest =>
    by_cases hslot : i = r.slot
    · subst hslot
      exact cancelRecord_head_paySound hq c (hi r rest hq rfl) h
    · rw [State.PaySound, cancelRecord_later_payment hq i c hslot]
      exact PaymentUnit.sound_filter hq h _ (by simpa using Ne.symm hslot)

theorem takeStage_paySound {s : State} {r : Record} {rest : List Record} (hq : s.payment.queue = r :: rest) (stage : CardStage) (h : s.PaySound) :
    (takeStage stage r s).PaySound := by
  have hset : ∀ r' : Record, (s.setHead r').payment.queue = r' :: rest := fun r' => by simp [State.setHead, hq]
  unfold takeStage
  split
  · rename_i hr
    have hs := PaymentUnit.sound_stage hq h (st := .pin) (timer := none) (by simp [hr]) (.inr ⟨rfl, rfl⟩)
    refine State.PaySound.of_payment (s := (s.setHead { r with state := .pin }).setPayment _) ?_ (pinStarted_payment _)
    simpa [State.PaySound, State.setHead, hq] using hs
  · rename_i hr
    have hs := PaymentUnit.sound_stage hq h (st := .offered) (timer := some Config.offerPeriod) (by simp [hr]) (.inl ⟨rfl, rfl⟩)
    simpa [State.PaySound, State.setHead, hq] using hs
  · rename_i hr
    exact cancelRecord_head_paySound hq _ (by simp [hr]) h
  · rename_i hr
    exact cancelRecord_head_paySound hq _ (by simp [hr]) h
  · exact h

theorem takeCardStage_paySound (fields : List Byte) (s : State) (h : s.PaySound) : (takeCardStage fields s).PaySound := by
  unfold takeCardStage
  split
  · rename_i hq
    split
    · split
      · exact takeStage_paySound hq _ h
      · exact h
    · exact h
  · exact h

theorem offerExpiry_paySound (s : State) (h : s.PaySound) : (offerExpiry s).PaySound := by
  unfold offerExpiry
  split
  · rename_i hq
    split
    · rename_i hr
      exact cancelRecord_head_paySound hq _ (by simp [hr]) h
    · exact h
  · exact h

theorem Record.asks_iff (r : Record) : r.asks = true ↔ r.state = .offered ∨ r.state = .pin := by simp [asks]

theorem forwardAsk_payment {s : State} {r : Record} {rest : List Record} (hq : s.payment.queue = r :: rest) (x : Ask) :
    (forwardAsk r x s).payment = { s.payment with
      queue := { r with
        state := .authorizing, terminalRef := some x.terminalRef, amountAsked := some x.amount, tipAsked := some x.tip,
        hubRef := some s.payment.allocate } :: rest,
      refCounter := s.payment.allocate, offerTimer := none, answerTimer := some (s.payment.policy.answerTimeout * 1000) } := by
  simp [forwardAsk, State.setHead, hq]

theorem offlineFault_store {x : Ask} {s : State} (h : offlineFault x s = none) : s.payment.store.length < 28 := by
  unfold offlineFault at h
  split_ifs at h with h1 h2 h3
  exact Nat.lt_of_not_le h3

theorem takeAuthAsk_paySound (fields : List Byte) (s : State) (h : s.PaySound) : (takeAuthAsk fields s).PaySound := by
  obtain hf | ⟨slot, result, ref, hf⟩ | ⟨r, rest, x, hq, hasks, -, hf⟩ := takeAuthAsk_cases fields s <;> rw [hf]
  · exact h
  · exact h.of_payment rfl
  · have hr : r.state ≠ .authorizing := by rcases r.asks_iff.mp hasks with hr | hr <;> simp [hr]
    have hcounter := ((PaymentUnit.storeSound_iff _).mp h.2).counter
    obtain ⟨h1, h2⟩ := allocate_bounds s.payment hcounter
    split
    · rename_i honline
      have hroom : s.payment.store.length < Config.storeCapacity := by
        simp only [State.online, Bool.and_eq_true, decide_eq_true_eq] at honline
        exact honline.2
      have hroom' : s.payment.store.length < 32 := hroom
      rw [State.PaySound, forwardAsk_payment hq]
      exact PaymentUnit.sound_forward hq h hr _ _ _ rfl rfl (allocate_not_mem _ hcounter (by omega)) h1 h2 hroom
    · unfold decideOffline
      split
      · rw [State.PaySound, refuseOffline_payment hq]
        exact PaymentUnit.sound_behind_of_head hq h hr
      · rename_i hfault
        have hlen := offlineFault_store hfault
        have hroom : s.payment.store.length < Config.storeCapacity := by
          show s.payment.store.length < 32
          omega
        rw [State.PaySound, approveOffline_payment hq]
        have hstored := PaymentUnit.sound_append h (PaymentUnit.headRef_of_cons hq hr) (s.saleOf r x) (allocate_not_mem _ hcounter (by omega)) h1 h2 hroom
        exact PaymentUnit.sound_uploading _ (PaymentUnit.sound_behind_of_head hq hstored hr)

theorem countUnmatched_paySound (s : State) (h : s.PaySound) : (countUnmatched s).PaySound := h

theorem takeAuthAnswer_paySound (fields : List Byte) (s : State) (h : s.PaySound) : (takeAuthAnswer fields s).PaySound := by
  unfold takeAuthAnswer
  split
  · split
    · rename_i ha
      obtain ⟨rest, hq, hs, -⟩ := State.queue_of_authorizing ha
      rw [State.PaySound, answerApproved_payment hq (PaymentUnit.offerTimer_of_head hq h.1 hs)]
      exact PaymentUnit.sound_behind hq h
    · rename_i ha
      obtain ⟨rest, hq, hs, -⟩ := State.queue_of_authorizing ha
      rw [State.PaySound, answerDeclined_payment hq (PaymentUnit.offerTimer_of_head hq h.1 hs)]
      exact PaymentUnit.sound_behind hq h
    · exact countUnmatched_paySound s h
  · exact h

theorem answerExpiry_paySound (s : State) (h : s.PaySound) : (answerExpiry s).PaySound := by
  unfold answerExpiry
  split
  · rename_i hq
    split
    · rename_i hs
      rw [State.PaySound, answerTimedOut_payment hq (PaymentUnit.offerTimer_of_head hq h.1 hs)]
      exact PaymentUnit.sound_uploading _ (PaymentUnit.sound_reversal hq h hs _ rfl)
    · exact h
  · exact h

theorem sendUpload_paySound (s : State) (h : s.PaySound) : (sendUpload s).PaySound := by
  rw [State.PaySound, sendUpload_payment]
  exact PaymentUnit.sound_uploading _ h

theorem takeUploadAck_paySound (fields : List Byte) (s : State) (h : s.PaySound) : (takeUploadAck fields s).PaySound := by
  unfold takeUploadAck
  split
  · exact countUnmatched_paySound s h
  · rename_i hs
    split
    · have ha := PaymentUnit.sound_acknowledged h hs
      refine sendUpload_paySound _ (State.PaySound.of_payment (s := s.setPayment _) ha ?_)
      split <;> rfl
    · exact countUnmatched_paySound s h

theorem uploadExpiry_paySound (s : State) (h : s.PaySound) : (uploadExpiry s).PaySound := by
  unfold uploadExpiry
  split
  · rename_i htimer hupload
    rw [State.PaySound, uploadHead_payment]
    split
    · exact h
    · rename_i hstore
      obtain ⟨hrefs, hcounter, -, -⟩ := (PaymentUnit.storeSound_iff _).mp h.2
      exact ⟨h.1, (PaymentUnit.storeSound_iff _).mpr ⟨hrefs, hcounter, by simp, .inr hstore⟩⟩
  · exact h

/-! ### The link and the power unit -/

/-- The AUTHORIZING head of a queue, where it has one, is a record of `rs`. -/
def State.AuthorizingOf (s : State) (rs : List Record) : Prop :=
  ∀ r rest, s.payment.queue = r :: rest → r.state = .authorizing → r ∈ rs

theorem cancelRecord_authorizingOf {s : State} (i : Fin 4) (c : CancelCause) {rs : List Record} (h : s.AuthorizingOf rs) :
    (cancelRecord i c s).AuthorizingOf rs := by
  intro r rest hq hr
  cases hs : s.payment.queue with
  | nil =>
    have hhead : s.headAt i = false := by simp [State.headAt, hs]
    simp [cancelRecord_eq, hhead, State.setPayment, hs] at hq
  | cons x xs =>
    by_cases hslot : i = x.slot
    · subst hslot
      rw [cancelRecord_head_payment hs] at hq
      cases xs with
      | nil => simp [promotedQueue] at hq
      | cons y ys =>
        simp only [promotedQueue, List.cons.injEq] at hq
        obtain ⟨rfl, -⟩ := hq
        simp at hr
    · rw [cancelRecord_later_payment hs i c hslot] at hq
      have hx : (x.slot != i) = true := by simpa using Ne.symm hslot
      simp only [hs, List.filter_cons, hx, if_true, List.cons.injEq] at hq
      obtain ⟨rfl, -⟩ := hq
      exact h x xs hs hr

theorem cardLinkDown_paySound (s : State) (ha : s.accountsSound = true) (h : s.PaySound) : (cardLinkDown s).PaySound := by
  have hd : (s.payment.queue.map Record.slot).Nodup := by
    simpa [State.offers, Record.offer, Function.comp_def] using ((State.accountsSound_iff s).mp ha).distinct
  refine (cardLinkDown_keeps (C := fun t => t.PaySound ∧ t.AuthorizingOf s.payment.queue) s (fun t x hx hxs _ _ ht => ?_) ha ⟨h, fun r rest hq _ => by simp [hq]⟩).2.1
  refine ⟨cancelRecord_paySound x.slot .link ht.1 fun r rest hq hslot hr => ?_, cancelRecord_authorizingOf _ _ ht.2⟩
  have hrx : r = x := List.inj_on_of_nodup_map hd (ht.2 r rest hq hr) hx hslot
  exact hxs (hrx ▸ hr)

theorem goDown_paySound (q : Port) (s : State) (ha : s.accountsSound = true) (h : s.PaySound) : (goDown q s).PaySound := by
  have hdown : ∀ t : State, t.accountsSound = true → t.payment = s.payment → (deliverDown q t).PaySound := by
    intro t hta htp
    have ht : t.PaySound := h.of_payment htp
    cases q
    case k => exact cardLinkDown_paySound t hta ht
    case d => exact PaymentUnit.sound_idle ht
    all_goals exact ht.of_payment (by simp [deliverDown])
  exact hdown _ (State.accountsSound_of_same ha (by simp [notifyLink]) (by simp [notifyLink])) (by simp [notifyLink])

theorem shutPort_paySound (q : Port) (s : State) (ha : s.accountsSound = true) (h : s.PaySound) : (shutPort q s).PaySound := by
  unfold shutPort
  dsimp only
  split
  · exact goDown_paySound q _ (State.accountsSound_of_same ha rfl rfl) h
  · exact h

theorem silenceExpiry_paySound (q : Port) (s : State) (ha : s.accountsSound = true) (h : s.PaySound) : (silenceExpiry q s).PaySound := by
  unfold silenceExpiry
  split
  · exact h
  · split
    · exact goDown_paySound q s ha h
    · exact h

theorem parkHub_paySound (s : State) (ha : s.accountsSound = true) (h : s.PaySound) : (parkHub s).PaySound := by
  have hshut : ∀ t q, t.accountsSound = true ∧ t.PaySound → (shutPort q t).accountsSound = true ∧ (shutPort q t).PaySound := fun t q ht =>
    ⟨shutPort_accountsSound q t ht.1, shutPort_paySound q t ht.1 ht.2⟩
  have hlast : ∀ t : State, t.accountsSound = true ∧ t.PaySound → (parkSignPort (parkBlocks { t with cadence := t.cadence.park })).PaySound := by
    intro t ht
    have hblocks : (parkBlocks { t with cadence := t.cadence.park }).accountsSound = true ∧ (parkBlocks { t with cadence := t.cadence.park }).PaySound :=
      ⟨State.accountsSound_of_follows ht.1 ⟨rfl, fun _ => .refl _⟩ rfl, PaymentUnit.sound_idle ht.2⟩
    unfold parkSignPort
    split
    · exact hblocks.2
    · exact (hshut _ .s hblocks).2
  unfold parkHub
  refine hlast _ (hshut _ .k (hshut _ .p (hshut _ .c ⟨State.accountsSound_of_same ha ?_ ?_, h.of_payment ?_⟩))) <;> simp

theorem wakeHub_paySound (s : State) (h : s.PaySound) : (wakeHub s).PaySound := by
  unfold wakeHub
  exact sendUpload_paySound _ (h.of_payment (by simp))

theorem goUp_paySound (q : Port) (o : Order) (s : State) (h : s.PaySound) : (goUp q o s).PaySound := by
  have hup : ∀ t : State, t.payment = s.payment → (deliverUp q o t).PaySound := by
    intro t htp
    have ht : t.PaySound := h.of_payment htp
    cases q
    case d =>
      unfold deliverUp
      dsimp only
      split
      · exact sendUpload_paySound _ (ht.of_payment (by simp))
      · exact (sendUpload_paySound t ht).of_payment (by simp)
    case s =>
      unfold deliverUp signLinkUp repaintSign
      dsimp only
      split <;> exact ht
    all_goals exact ht.of_payment (by simp [deliverUp])
  exact hup _ (by simp [notifyLink])

/-! ### Requests -/

theorem promote_payment (s : State) :
    (promote s).payment = if s.payment.queue = [] then s.payment else
      { s.payment with queue := promotedQueue s.payment.queue, offerTimer := some 120000 } := by
  unfold promote
  cases hq : s.payment.queue <;> simp [promotedQueue, State.setPayment, Config.offerPeriod]

theorem actOfferCard_payment (n : Byte) (amount : Nat) (s : State) :
    (actOfferCard n amount s).1.payment = s.payment ∨ ∃ i offered, (actOfferCard n amount s).1.payment = { s.payment with
      queue := s.payment.queue ++ [(⟨i, offered, if s.payment.queue = [] then .offered else .queued, none, none, none, none⟩ : Record)],
      offerTimer := if s.payment.queue = [] then some 120000 else s.payment.offerTimer } := by
  refine onSlot_keeps (C := fun t : State => t.payment = s.payment ∨ ∃ i offered, t.payment = { s.payment with
    queue := s.payment.queue ++ [(⟨i, offered, if s.payment.queue = [] then .offered else .queued, none, none, none, none⟩ : Record)],
    offerTimer := if s.payment.queue = [] then some 120000 else s.payment.offerTimer }) (.inl rfl) fun i hi => ?_
  dsimp only
  split
  · exact .inl rfl
  · split
    · exact .inl rfl
    · refine .inr ⟨i, if amount = 0 then (s.party i).due else amount, ?_⟩
      split
      · rename_i hempty
        have hq : s.payment.queue = [] := by simpa using hempty
        rw [promote_payment]
        simp [State.setPayment, offerTaken_eq, hq, promotedQueue]
      · rename_i hempty
        have hq : s.payment.queue ≠ [] := by simpa using hempty
        simp [State.setPayment, offerTaken_eq, hq]

theorem actCancelCard_paySound (n : Byte) (s : State) (h : s.PaySound) : (actCancelCard n s).1.PaySound := by
  refine onSlot_keeps (C := fun t : State => t.PaySound) h fun i hi => ?_
  split
  · exact h
  · rename_i r hr
    split
    · exact h
    · rename_i hs
      refine cancelRecord_paySound i _ h fun x rest hq hslot hx => hs ?_
      have hfind : s.recordOf i = some x := by simp [State.recordOf, hq, hslot]
      rw [hfind] at hr
      exact Option.some.inj hr ▸ hx

theorem RequestName.Does.paySound {r : RequestName} {q : Port} {act : Action} (hr : r.Does q act) (s : State) (h : s.PaySound) : (act s).1.PaySound := by
  by_cases hc : .payment ∈ r.reach
  · cases hr <;> simp only [RequestName.reach, List.mem_cons, List.not_mem_nil, reduceCtorEq, or_false, or_self] at hc
    case offerCard n amount =>
      rcases actOfferCard_payment n amount s with hp | ⟨i, offered, hp⟩
      · exact h.of_payment hp
      · rw [State.PaySound, hp]
        exact PaymentUnit.sound_offer h i offered
    case cancelCard n => exact actCancelCard_paySound n s h
    case policySet p =>
      unfold actPolicySet
      split_ifs
      · exact h
      · split <;> exact h
    case refusalListAdd x => unfold actRefusalAdd; dsimp only; split_ifs <;> exact h
    case refusalListRemove x => unfold actRefusalRemove; dsimp only; split_ifs <;> exact h
    case refusalListClear => exact h
    case payStatus clear => unfold actPayStatus; dsimp only; split_ifs <;> exact h
  · have hchange := hr.changesOnly s
    simp only [State.changesOnly, hc, false_or] at hchange
    obtain ⟨-, -, -, -, -, -, hpayment, -⟩ := hchange
    exact h.of_payment hpayment

theorem paySound_events : EventRules (fun s => s.accountsSound = true ∧ s.PaySound) fun _ => True := by
  constructor
  case cardStage => exact fun f s h => ⟨accountsSound_events.cardStage f s h.1, takeCardStage_paySound f s h.2⟩
  case authAsk => exact fun f s h => ⟨accountsSound_events.authAsk f s h.1, takeAuthAsk_paySound f s h.2⟩
  case authAnswer => exact fun f s h => ⟨accountsSound_events.authAnswer f s h.1, takeAuthAnswer_paySound f s h.2⟩
  case uploadAck => exact fun f s h => ⟨accountsSound_events.uploadAck f s h.1, takeUploadAck_paySound f s h.2⟩
  case upload => exact fun s h => ⟨accountsSound_events.upload s h.1, uploadExpiry_paySound s h.2⟩
  case offer => exact fun s h => ⟨accountsSound_events.offer s h.1, offerExpiry_paySound s h.2⟩
  case answer => exact fun s h => ⟨accountsSound_events.answer s h.1, answerExpiry_paySound s h.2⟩
  case silence => exact fun q s h => ⟨accountsSound_events.silence q s h.1, silenceExpiry_paySound q s h.1 h.2⟩
  case park => exact fun s hr h => ⟨accountsSound_events.park s hr h.1, parkHub_paySound s h.1 h.2⟩
  case wake => exact fun s hp h => ⟨accountsSound_events.wake s hp h.1, wakeHub_paySound s h.2⟩
  case goUp => exact fun q o s hs hu h => ⟨accountsSound_events.goUp q o s hs hu h.1, goUp_paySound q o s h.2⟩
  case ignition =>
    intro on s h
    refine ⟨accountsSound_events.ignition on s h.1, ?_⟩
    unfold takeIgnitionFlag
    dsimp only
    split
    · exact wakeHub_paySound _ h.2
    · exact h.2
  case checkError =>
    exact fun q s hs h => ⟨accountsSound_events.checkError q s hs h.1, by unfold failCheck; split <;> exact h.2⟩
  case count => exact fun n s h => ⟨accountsSound_events.count n s h.1, h.2.of_payment (by simp)⟩
  case tick => exact fun b s h => ⟨accountsSound_events.tick b s h.1, h.2.of_payment (by simp)⟩
  all_goals intros
  case weaken | settle | reply | action => trivial
  all_goals
    rename_i h
    refine ⟨State.accountsSound_of_same h.1 ?_ ?_, h.2.of_payment ?_⟩
  all_goals simp

theorem paySound_rules : EventRules (fun s => s.accountsSound = true ∧ s.PaySound) fun s => s.PaySound :=
  paySound_events.withAction (fun _ h => h.2) (fun s h => h.of_payment (settleSign_fare s).2) (fun _ _ _ h => h)
    fun _ _ _ s hr h => hr.paySound s h.2

/-- Settles O8: each event's outcome at the payment unit, and a reference allocated is in no other use. -/
theorem paymentSoundKept : Obligations.PaymentSoundKept := by
  unfold Obligations.PaymentSoundKept
  intro s t ha hq hs hstep
  exact step_gives paySound_rules (by unfold State.PaySound PaymentUnit.Sound; decide) (by unfold State.PaySound PaymentUnit.Sound; decide)
    (fun _ _ h => h) (fun _ _ h => h) s t ⟨ha, hq, hs⟩ hstep

end Sys2Proof.Machine
end

