-- ==== Sys2Proof/Proofs/HandOffs.lean ====
section
/-! PROOFS. The emergency state of the intercom, which the latch alone changes, and events as they stand to the hand-offs of R21: what the sign
and the power unit hold is theirs, but for a slot's change of state handed on. -/
set_option Elab.async false
namespace Sys2Proof.Machine

/-! ### The emergency state (R113, R160) -/

section emergency
variable (s : State)

@[simp] theorem triggerChime_emergency (c : ChimeId) : (triggerChime c s).intercom.emergency = s.intercom.emergency := by
  unfold triggerChime IntercomUnit.setPlayer
  split
  · split <;> rfl
  · rfl

@[simp] theorem IntercomUnit.hush_emergency (x : IntercomUnit) : x.hush.emergency = x.emergency := rfl
@[simp] theorem IntercomUnit.openWith_emergency (x : IntercomUnit) (more : StationSet) : (x.openWith more).emergency = x.emergency := rfl
@[simp] theorem IntercomUnit.startCallTimer_emergency (x : IntercomUnit) : x.startCallTimer.emergency = x.emergency := rfl
@[simp] theorem IntercomUnit.park_emergency (x : IntercomUnit) : x.park.emergency = x.emergency := rfl

@[simp] theorem callRise_emergency (st : Station) : (callRise st s).intercom.emergency = s.intercom.emergency := by
  unfold callRise
  dsimp only
  repeat' split
  all_goals simp

@[simp] theorem talkRise_emergency : (talkRise s).intercom.emergency = s.intercom.emergency := by
  unfold talkRise
  dsimp only
  split <;> rfl

@[simp] theorem talkFall_emergency : (talkFall s).intercom.emergency = s.intercom.emergency := by
  unfold talkFall
  dsimp only
  repeat' split
  all_goals simp

@[simp] theorem notifyMissed_intercom (set : StationSet) : (notifyMissed set s).intercom = s.intercom := by
  unfold notifyMissed
  dsimp only
  split_ifs <;> simp

@[simp] theorem callExpiry_emergency : (callExpiry s).intercom.emergency = s.intercom.emergency := by
  unfold callExpiry
  split <;> simp

@[simp] theorem tripClosedAt_emergency (st : Station) : (tripClosedAt st s).intercom.emergency = s.intercom.emergency := by
  unfold tripClosedAt
  dsimp only
  split_ifs <;> rfl

@[simp] theorem intercomPartitionDown_emergency : (intercomPartitionDown s).intercom.emergency = s.intercom.emergency := by
  simp [intercomPartitionDown]

@[simp] theorem intercomConsoleDown_emergency : (intercomConsoleDown s).intercom.emergency = s.intercom.emergency := by
  simp [intercomConsoleDown]

@[simp] theorem formDriverBlock_emergency (l r : List Int) : (formDriverBlock l r s).intercom.emergency = s.intercom.emergency := by
  unfold formDriverBlock
  dsimp only
  split <;> rfl

@[simp] theorem formPartitionBlock_emergency (d : List Int) : (formPartitionBlock d s).intercom.emergency = s.intercom.emergency := by
  unfold formPartitionBlock
  dsimp only
  split <;> rfl

@[simp] theorem formListenBlock_emergency (l r : List Int) : (formListenBlock l r s).intercom.emergency = s.intercom.emergency := by
  unfold formListenBlock
  dsimp only
  split <;> rfl

@[simp] theorem takeAudioP_emergency (payload : List Byte) : (takeAudioP payload s).intercom.emergency = s.intercom.emergency := by
  unfold takeAudioP takeButtons
  split
  · rfl
  · dsimp only
    split_ifs <;> simp

@[simp] theorem takeAudioC_emergency (payload : List Byte) : (takeAudioC payload s).intercom.emergency = s.intercom.emergency := by
  unfold takeAudioC takeTalkKey
  split
  · rfl
  · dsimp only
    split_ifs <;> simp

@[simp] theorem changeBand_emergency (b : Option Nat) : (changeBand b s).intercom.emergency = s.intercom.emergency := by
  unfold changeBand
  dsimp only
  repeat' split
  all_goals simp

@[simp] theorem evaluateBand_emergency : (evaluateBand s).intercom.emergency = s.intercom.emergency := by
  unfold evaluateBand
  dsimp only
  split <;> simp

@[simp] theorem minuteBoundary_emergency : (minuteBoundary s).intercom.emergency = s.intercom.emergency := by
  unfold minuteBoundary
  split <;> simp

@[simp] theorem takeTick_emergency (b : Bool) : (takeTick b s).intercom.emergency = s.intercom.emergency := by
  unfold takeTick
  dsimp only
  split <;> simp

@[simp] theorem State.paidChimed_emergency : s.paidChimed.emergency = s.intercom.emergency := by
  unfold State.paidChimed
  split <;> rfl

@[simp] theorem takeAuthAsk_emergency (fields : List Byte) : (takeAuthAsk fields s).intercom.emergency = s.intercom.emergency := by
  obtain hf | ⟨slot, result, ref, hf⟩ | ⟨r, rest, x, -, -, -, hf⟩ := takeAuthAsk_cases fields s <;> rw [hf]
  · rfl
  · split
    · simp
    · unfold decideOffline
      split
      · simp
      · rw [approveOffline_intercom, State.paidChimed_emergency]

@[simp] theorem takeAuthAnswer_emergency (fields : List Byte) : (takeAuthAnswer fields s).intercom.emergency = s.intercom.emergency := by
  unfold takeAuthAnswer
  split
  · split
    · rw [answerApproved_intercom, State.paidChimed_emergency]
    · simp
    · rfl
  · rfl

@[simp] theorem takeCadence_emergency (b : Bool) : (takeCadence b s).intercom.emergency = s.intercom.emergency := by
  unfold takeCadence countCall
  dsimp only
  split <;> split <;> simp

@[simp] theorem deliverDown_emergency (q : Port) : (deliverDown q s).intercom.emergency = s.intercom.emergency := by
  unfold deliverDown
  split <;> simp

@[simp] theorem goDown_emergency (q : Port) : (goDown q s).intercom.emergency = s.intercom.emergency := by simp [goDown, notifyLink]

@[simp] theorem shutPort_emergency (q : Port) : (shutPort q s).intercom.emergency = s.intercom.emergency := by
  unfold shutPort
  dsimp only
  split <;> simp

@[simp] theorem silenceExpiry_emergency (q : Port) : (silenceExpiry q s).intercom.emergency = s.intercom.emergency := by
  unfold silenceExpiry
  repeat' split
  all_goals simp

@[simp] theorem settleSign_emergency : (settleSign s).intercom.emergency = s.intercom.emergency := by
  unfold settleSign
  split <;> simp

@[simp] theorem parkHub_emergency : (parkHub s).intercom.emergency = s.intercom.emergency := by
  unfold parkHub parkSignPort parkBlocks
  dsimp only
  split <;> simp

end emergency

/-! ### The inputs of the mode (R111, R112) -/

/-- What the sign mode is derived from, and the mode. -/
structure SignInputs where
  riding : Nat
  share : Bool
  seatLimit : Nat
  shift : ShiftState
  offDuty : Bool
  latch : Bool
  mode : SignMode

def SignUnit.inputs (x : SignUnit) : SignInputs := ⟨x.riding, x.share, x.seatLimit, x.shift, x.offDuty, x.latch, x.mode⟩

/-- The mode the inputs give. -/
def SignInputs.derived (x : SignInputs) : SignMode := deriveMode x.latch x.riding x.share x.seatLimit x.shift x.offDuty

theorem SignUnit.inputs_derived (x : SignUnit) : x.inputs.derived = x.derived := rfl

section inputs
variable (s : State)

@[simp] theorem repaintSign_inputs : (repaintSign s).sign.inputs = s.sign.inputs := rfl

@[simp] theorem compose_inputs : (compose s).sign.inputs = s.sign.inputs := by
  unfold compose
  dsimp only
  split_ifs <;> simp <;> rfl

@[simp] theorem signCount_inputs : (signCount s).sign.inputs = s.sign.inputs := by
  have h := compose_inputs s
  unfold signCount
  dsimp only
  split_ifs
  · rfl
  · rw [← h]
    rfl
  · simp
  · simp

@[simp] theorem parkSign_inputs : (parkSign s).sign.inputs = s.sign.inputs := by
  unfold parkSign
  dsimp only
  split_ifs <;> rfl

@[simp] theorem signLinkUp_inputs : (signLinkUp s).sign.inputs = s.sign.inputs := by
  unfold signLinkUp
  split_ifs <;> simp

theorem deriveSign_inputs : (deriveSign s).sign.inputs = { s.sign.inputs with mode := s.sign.inputs.derived } := by
  simp only [deriveSign, compose_inputs]
  rfl

theorem deliverParties_inputs : (deliverParties s).sign.inputs =
    { s.sign.inputs with
      riding := s.ridingCount, share := s.fare.share, seatLimit := s.seatLimit
      mode := deriveMode s.sign.latch s.ridingCount s.fare.share s.seatLimit s.sign.shift s.sign.offDuty } := by
  simp only [deliverParties, deriveSign_inputs]
  rfl

@[simp] theorem takeHealth_inputs (lamps : Lamps) (panel : Bool) : (takeHealth lamps panel s).sign.inputs = s.sign.inputs := by
  unfold takeHealth
  dsimp only
  split_ifs <;> simp <;> rfl

@[simp] theorem takeSignStat_inputs (payload : List Byte) : (takeSignStat payload s).sign.inputs = s.sign.inputs := by
  unfold takeSignStat
  repeat' split
  all_goals simp

@[simp] theorem takeCadence_inputs (b : Bool) : (takeCadence b s).sign.inputs = s.sign.inputs := by
  unfold takeCadence countCadence
  split <;> simp

@[simp] theorem goUp_inputs (q : Port) (o : Order) : (goUp q o s).sign.inputs = s.sign.inputs := by
  unfold goUp deliverUp notifyLink
  split
  · split <;> simp
  all_goals simp

end inputs

/-! ### Events beside the hand-offs -/

/-- From `s` to `t` nothing has changed of what the sign and the power unit are told of, but perhaps which slots ride: what they hold is as it was,
and so are the share flag, the set in force, the state of the shift, the emergency state and the shut marks. -/
structure State.AsideRiders (s t : State) : Prop where
  sign : t.sign.inputs = s.sign.inputs
  power : t.power = s.power
  share : t.fare.share = s.fare.share
  set : t.tariff.inForce = s.tariff.inForce
  shift : t.shift.state = s.shift.state
  emergency : t.intercom.emergency = s.intercom.emergency
  shut : ∀ q, (t.port q).shut = (s.port q).shut

/-- From `s` to `t` nothing has changed of what the sign and the power unit are told of. -/
structure State.Aside (s t : State) : Prop extends s.AsideRiders t where
  riders : s.SameRiders t

theorem State.shut_of_face {s t : State} (h : t.link.face = s.link.face) (q : Port) : (t.port q).shut = (s.port q).shut := by
  have hq := face_of_face s t h q
  simp only [PortState.face, PortFace.mk.injEq] at hq
  exact hq.2.1

namespace State.AsideRiders

variable {s t u : State}

theorem refl (s : State) : s.AsideRiders s := ⟨rfl, rfl, rfl, rfl, rfl, rfl, fun _ => rfl⟩

theorem trans (h : s.AsideRiders t) (h' : t.AsideRiders u) : s.AsideRiders u :=
  ⟨h'.sign.trans h.sign, h'.power.trans h.power, h'.share.trans h.share, h'.set.trans h.set, h'.shift.trans h.shift,
    h'.emergency.trans h.emergency, fun q => (h'.shut q).trans (h.shut q)⟩

theorem setParty (i : Fin 4) (p : Party) (s : State) : s.AsideRiders (s.setParty i p) := ⟨rfl, rfl, rfl, rfl, rfl, rfl, fun _ => rfl⟩

end State.AsideRiders

namespace State.Aside

variable {s t u : State}

theorem refl (s : State) : s.Aside s := ⟨.refl s, fun _ => rfl⟩

theorem trans (h : s.Aside t) (h' : t.Aside u) : s.Aside u :=
  ⟨h.toAsideRiders.trans h'.toAsideRiders, fun i => (h'.riders i).trans (h.riders i)⟩

/-- An event that leaves these blocks as they are. -/
theorem of_same (hsign : t.sign = s.sign) (hpower : t.power = s.power) (hfare : t.fare = s.fare) (hset : t.tariff.inForce = s.tariff.inForce)
    (hshift : t.shift.state = s.shift.state) (hemergency : t.intercom.emergency = s.intercom.emergency) (hface : t.link.face = s.link.face) :
    s.Aside t :=
  ⟨⟨congrArg SignUnit.inputs hsign, hpower, congrArg FareEngine.share hfare, hset, hshift, hemergency, State.shut_of_face hface⟩, .of_fare hfare⟩

/-- An event after which the parties have followed. -/
theorem of_follows (hf : s.Follows t) (hsign : t.sign = s.sign) (hpower : t.power = s.power) (hset : t.tariff.inForce = s.tariff.inForce)
    (hshift : t.shift.state = s.shift.state) (hemergency : t.intercom.emergency = s.intercom.emergency) (hface : t.link.face = s.link.face) :
    s.Aside t :=
  ⟨⟨congrArg SignUnit.inputs hsign, hpower, hf.share, hset, hshift, hemergency, State.shut_of_face hface⟩, hf.sameRiders⟩

theorem emit (q : Port) (f : Frame) (s : State) : s.Aside (emit q f s) := of_same rfl rfl rfl rfl rfl rfl (by simp)

theorem setPayment (x : PaymentUnit) (s : State) : s.Aside (s.setPayment x) := of_same rfl rfl rfl rfl rfl rfl rfl

theorem setTotals (x : Totals) (s : State) : s.Aside (s.setTotals x) := of_same rfl rfl rfl rfl rfl rfl rfl

theorem notifyC (n : Notice) (fields : List Byte) (s : State) : s.Aside (notifyC n fields s) := of_same rfl rfl rfl rfl rfl rfl (by simp)

theorem notifyD (n : Notice) (fields : List Byte) (s : State) : s.Aside (notifyD n fields s) := of_same rfl rfl rfl rfl rfl rfl (by simp)

theorem showChanges (b s : State) : s.Aside (showChanges b s) := by
  refine of_same ?_ ?_ ?_ ?_ ?_ ?_ ?_ <;> simp

theorem triggerChime (c : ChimeId) (s : State) : s.Aside (triggerChime c s) := by
  refine of_same ?_ ?_ ?_ ?_ ?_ ?_ ?_ <;> simp

theorem tripClosedAt (st : Station) (s : State) : s.Aside (tripClosedAt st s) := by
  refine of_same ?_ ?_ ?_ ?_ ?_ ?_ ?_ <;> simp

theorem promote (s : State) : s.Aside (promote s) := by
  refine of_same ?_ ?_ ?_ ?_ ?_ ?_ ?_ <;> simp

theorem removeHead (s : State) : s.Aside (removeHead s) := by
  refine of_same ?_ ?_ ?_ ?_ ?_ ?_ ?_ <;> simp

theorem appendEntry (e : StoreEntry) (s : State) : s.Aside (appendEntry e s) := by
  refine of_same ?_ ?_ ?_ ?_ ?_ ?_ ?_ <;> simp

theorem evaluateBand (s : State) : s.Aside (evaluateBand s) := by
  refine of_follows (.evaluateBand s) ?_ ?_ ?_ ?_ ?_ ?_ <;> simp

theorem ite {c : Prop} [Decidable c] (ht : s.Aside t) (hu : s.Aside u) : s.Aside (if c then t else u) := by
  split <;> assumption

theorem setParty (i : Fin 4) (p : Party) (s : State) (hp : p.riding = (s.party i).riding) : s.Aside (s.setParty i p) :=
  ⟨.setParty i p s, s.setParty_sameRiders hp (.of_fare rfl)⟩

theorem setPort (s : State) (q : Port) (x : PortState) (hx : x.shut = (s.port q).shut) : s.Aside (s.setPort q x) where
  toAsideRiders := ⟨rfl, rfl, rfl, rfl, rfl, rfl, fun r => by
    by_cases hr : r = q
    · subst hr
      simpa using hx
    · rw [State.port_setPort_other _ _ _ _ hr]⟩
  riders _ := rfl

theorem notifyBoth (n : Notice) (fields : List Byte) (s : State) : s.Aside (notifyBoth n fields s) := of_same rfl rfl rfl rfl rfl rfl (by simp)

end State.Aside

theorem PortState.down_shut (x : PortState) : x.down.shut = x.shut := by
  unfold down abandon
  cases x.sending <;> rfl

/-! ### Moves -/

/-- Kept by every event aside, and by the hand-offs of a slot's change of state, whichever slots ride before them. -/
structure MoveClosed (P : State → Prop) : Prop where
  aside : ∀ {s t : State}, s.Aside t → P s → P t
  hand : ∀ {s t : State} (i : Fin 4) (n : Nat), s.AsideRiders t → P s → P (handOff i n t)

namespace MoveClosed

variable {P : State → Prop} (c : MoveClosed P) {s t v : State}
include c

/-- A party moved and shown, with what is done beside it before and after. -/
theorem moved {i : Fin 4} {p : Party} (h : P s) (hv : s.Aside v) (ht : (partyMoved i p v).Aside t) : P t :=
  c.aside ((State.Aside.showChanges v (moveParty i p v)).trans ht) (c.hand i p.trip (.setParty i p v) (c.aside hv h))

theorem cancelRecord (i : Fin 4) (cause : CancelCause) (h : P s) : P (cancelRecord i cause s) := by
  have hw : (paymentReleased i s).Aside (withdrawn i cause s) := .ite (.emit ..) (.refl _)
  rw [cancelRecord_eq]
  exact c.moved h (.refl s) ((hw.trans (.notifyC ..)).trans (.ite ((State.Aside.setPayment ..).trans (.removeHead _)) (.setPayment ..)))

theorem takeStage (stage : CardStage) (r : Record) (h : P s) : P (takeStage stage r s) := by
  unfold Machine.takeStage
  split
  · refine c.aside (.of_same ?_ ?_ ?_ ?_ ?_ ?_ ?_) h <;> simp [State.setHead]
  · exact c.aside (s := s) (.of_same rfl rfl rfl rfl rfl rfl rfl) h
  · exact c.cancelRecord _ _ h
  · exact c.cancelRecord _ _ h
  · exact h

theorem takeCardStage (fields : List Byte) (h : P s) : P (takeCardStage fields s) := by
  unfold Machine.takeCardStage
  split
  · split
    · split
      · exact c.takeStage _ _ h
      · exact h
    · exact h
  · exact h

theorem offerExpiry (h : P s) : P (offerExpiry s) := by
  unfold Machine.offerExpiry
  split
  · split
    · exact c.cancelRecord _ _ h
    · exact h
  · exact h

theorem decideOffline (r : Record) (x : Ask) (h : P s) : P (decideOffline r x s) := by
  unfold Machine.decideOffline
  split
  · exact c.moved (p := { s.party r.slot with state := .hold }) h ((State.Aside.setPayment ..).trans (.emit ..)) ((State.Aside.notifyC ..).trans (.removeHead _))
  · rw [approveOffline_eq]
    exact c.moved h (((State.Aside.setPayment ..).trans (.appendEntry ..)).trans (.setTotals ..))
      ((((State.Aside.emit ..).trans (.triggerChime ..)).trans (.notifyC ..)).trans (.removeHead _))

theorem takeAuthAsk (fields : List Byte) (h : P s) : P (takeAuthAsk fields s) := by
  obtain hf | ⟨slot, result, ref, hf⟩ | ⟨r, rest, x, -, -, -, hf⟩ := takeAuthAsk_cases fields s <;> rw [hf]
  · exact h
  · exact c.aside (.emit ..) h
  · split
    · refine c.aside (.of_same ?_ ?_ ?_ ?_ ?_ ?_ ?_) h <;> simp
    · exact c.decideOffline r x h

theorem takeAuthAnswer (fields : List Byte) (h : P s) : P (takeAuthAnswer fields s) := by
  unfold Machine.takeAuthAnswer
  split
  · split
    · rename_i r _ _
      exact c.moved (p := (s.party r.slot).paidOnline (r.amountAsked.getD 0) (r.tipAsked.getD 0)) h (.setPayment ..)
        ((((State.Aside.emit ..).trans (.triggerChime ..)).trans (.notifyC ..)).trans (.removeHead _))
    · rename_i r _ _
      exact c.moved (p := { s.party r.slot with state := .hold }) h (.setPayment ..)
        (((State.Aside.emit ..).trans (.notifyC ..)).trans (.removeHead _))
    · exact c.aside (.setPayment ..) h
  · exact h

theorem answerExpiry (h : P s) : P (answerExpiry s) := by
  unfold Machine.answerExpiry
  split
  · split
    · rw [answerTimedOut_eq]
      exact c.moved h (((State.Aside.setPayment ..).trans (.emit ..)).trans (.appendEntry ..)) ((State.Aside.notifyC ..).trans (.removeHead _))
    · exact h
  · exact h

theorem cardLinkDown (h : P s) : P (cardLinkDown s) :=
  foldl_preserves P _ (fun _ _ ht => c.cancelRecord _ _ ht) _ s h

theorem deliverDown (q : Port) (h : P s) : P (deliverDown q s) := by
  cases q
  case k => exact c.cardLinkDown h
  case s | v => exact h
  all_goals refine c.aside (.of_same ?_ ?_ ?_ ?_ ?_ ?_ ?_) h <;> simp [Machine.deliverDown]

theorem goDown (q : Port) (h : P s) : P (goDown q s) :=
  c.deliverDown q (c.aside ((State.Aside.setPort _ _ _ (PortState.down_shut _)).trans (.notifyBoth ..)) h)

/-! ### Requests -/

theorem shown (h : P s) (i : Fin 4) (p : Party) (hp : p.riding = (s.party i).riding) : P (showChanges s (s.setParty i p)) :=
  c.aside ((State.Aside.setParty i p s hp).trans (.showChanges ..)) h

theorem vacated (h : P s) (i : Fin 4) : P (vacate i s) := c.hand i _ (.setParty ..) h

theorem actTotal (n : Byte) (h : P s) : P (actTotal n s).1 :=
  onSlot_keeps (C := P) h fun i _ => c.moved (i := i) (p := (s.party i).totalled) h (.refl s) (.refl _)

theorem actResume (n : Byte) (h : P s) : P (actResume n s).1 := by
  refine onSlot_keeps (C := P) h fun i hi => ?_
  have hi : (s.party i).state = .hold := by simpa using hi
  dsimp only
  split
  · exact h
  · refine c.aside (.showChanges ..) (c.hand i _ ?_ h)
    have hpass := State.Follows.fareChange (i := i) (f := (s.party i).fare) (s := s.setParty i { s.stepped (s.party i) with state := .metering }) (by simp)
    refine State.AsideRiders.trans (.setParty i { s.stepped (s.party i) with state := .metering } s) (State.Aside.of_follows hpass ?_ ?_ ?_ ?_ ?_ ?_).toAsideRiders <;> simp

theorem actVoid (n : Byte) (h : P s) : P (actVoid n s).1 := by
  refine onSlot_keeps (C := P) h fun i _ => ?_
  dsimp only
  split
  · exact c.aside (.showChanges ..) (c.vacated (c.aside (.setTotals ..) h) i)
  · exact h

theorem actPayCash (n : Byte) (amount : Nat) (h : P s) : P (actPayCash n amount s).1 := by
  refine onSlot_keeps (C := P) h fun i hi => ?_
  have hi : (s.party i).state = .hold := by simpa using hi
  dsimp only
  split
  · exact h
  · split
    · exact c.moved h (.refl s) (.refl _)
    · exact c.shown h i _ ((Party.riding_of_standing _).trans (Party.riding_of_ne (by simp [hi])).symm)

theorem actCloseTrip (n : Byte) (h : P s) : P (actCloseTrip n s).1 :=
  onSlot_keeps (C := P) h fun i _ =>
    c.aside (.showChanges ..) (c.vacated (c.aside ((State.Aside.setTotals ..).trans (.tripClosedAt ..)) h) i)

theorem actAddExtra (n extra : Byte) (amount : Nat) (h : P s) : P (actAddExtra n extra amount s).1 := by
  refine onSlot_keeps (C := P) h fun i _ => ?_
  split
  · exact h
  · split
    · exact h
    · dsimp only
      split_ifs
      · exact h
      · exact h
      · exact c.shown h i _ rfl

theorem actSetStation (n : Byte) (st : Station) (h : P s) : P (actSetStation n st s).1 := by
  refine onSlot_keeps (C := P) h fun i _ => ?_
  split
  · exact h
  · split
    · exact h
    · exact c.shown h i _ rfl

theorem actSetTariff (n : Byte) (t : TariffArg) (h : P s) : P (actSetTariff n t s).1 := by
  have hf := actSetTariff_follows s n t
  have hsame := (RequestName.Does.setTariff (port := .c) n t).changesOnly s
  simp only [State.changesOnly, RequestName.reach, List.mem_cons, List.not_mem_nil, reduceCtorEq, or_self, false_or, or_false, true_or, or_true] at hsame
  obtain ⟨-, hface, -, htariff, -, -, -, hshift, hsign, -, hintercom, hpower⟩ := hsame
  exact c.aside (.of_follows hf hsign hpower (by rw [htariff]) (by rw [hshift]) (by rw [hintercom]) hface) h

theorem actOfferCard (n : Byte) (amount : Nat) (h : P s) : P (actOfferCard n amount s).1 := by
  refine onSlot_keeps (C := P) h fun i hi => ?_
  dsimp only
  split
  · exact h
  · split
    · exact h
    · exact c.moved (p := { s.party i with state := .paying }) h (.refl s) ((State.Aside.setPayment _ _).trans (.ite (.promote _) (.refl _)))

theorem actCancelCard (n : Byte) (h : P s) : P (actCancelCard n s).1 := by
  refine onSlot_keeps (C := P) h fun i _ => ?_
  split
  · exact h
  · split
    · exact h
    · exact c.cancelRecord _ _ h

theorem actHire (t : TariffArg) (st : Station) (h : P s) : P (actHire t st s).1 := by
  obtain hs | ⟨i, -, hi, hs⟩ := actHire_cases t st s <;> rw [hs]
  · exact h
  · have hidle : ((Machine.evaluateBand s).party i).state = .idle := ((State.Follows.evaluateBand s).party i).state.trans (State.lowestIdle_idle hi)
    have hopen := openTrip_follows i t st (Machine.evaluateBand s) hidle
    refine c.aside (.showChanges ..) (c.hand i _ ?_ (c.aside (.evaluateBand s) h))
    refine ⟨?_, ?_, hopen.share, ?_, ?_, ?_, State.shut_of_face ?_⟩ <;> simp [openTrip_shift]

/-- The requests that change a party's record, its slot's state with it. -/
theorem party_request {r : RequestName} {q : Port} {act : Action} (hr : r.Does q act)
    (hmem : r ∈ [RequestName.hire, .total, .resume, .void, .payCash, .closeTrip, .addExtra, .setTariff, .setStation, .offerCard, .cancelCard])
    (h : P s) : P (act s).1 := by
  cases hr <;> simp only [List.mem_cons, List.not_mem_nil, reduceCtorEq, or_false, or_self] at hmem
  case hire t st => exact c.actHire t st h
  case total n => exact c.actTotal n h
  case resume n => exact c.actResume n h
  case void n => exact c.actVoid n h
  case payCash n amount => exact c.actPayCash n amount h
  case closeTrip n => exact c.actCloseTrip n h
  case addExtra n x amount => exact c.actAddExtra n x amount h
  case setTariff n t => exact c.actSetTariff n t h
  case setStation n st => exact c.actSetStation n st h
  case offerCard n amount => exact c.actOfferCard n amount h
  case cancelCard n => exact c.actCancelCard n h

end MoveClosed
end Sys2Proof.Machine
end

