-- ==== Sys2Proof/Proofs/SignInputs.lean ====
section
/-! PROOFS. The sign unit's inputs: which events change them, what the events that concern no hand-off leave as it is, and the statement
`SignTrueKept`. -/
set_option Elab.async false
namespace Sys2Proof.Machine

/-! ### The sign unit and the blocks it follows (R111 to R113, R184) -/

/-- What `signTrue` says, named. -/
structure State.SignAgrees (s : State) : Prop where
  riding : s.sign.inputs.riding = s.ridingCount
  share : s.sign.inputs.share = s.fare.share
  seatLimit : s.sign.inputs.seatLimit = s.seatLimit
  shift : s.sign.inputs.shift = s.shift.state
  mode : s.sign.inputs.mode = s.sign.inputs.derived
  emergency : s.intercom.emergency = s.sign.inputs.latch
  latch : s.power.latch = s.sign.inputs.latch
  allIdle : s.power.allIdle = s.everyIdle
  closed : s.shift.state = .closed → s.fare.share = false

theorem State.signTrue_iff (s : State) : s.signTrue = true ↔ s.SignAgrees := by
  simp only [signTrue, Bool.and_eq_true, beq_iff_eq, Bool.or_eq_true, bne_iff_ne, ne_eq, Bool.not_eq_true']
  constructor
  · rintro ⟨⟨⟨⟨⟨⟨⟨⟨h1, h2⟩, h3⟩, h4⟩, h5⟩, h6⟩, h7⟩, h8⟩, h9⟩
    exact ⟨h1, h2, h3, h4, h5, h6, h7, h8, fun hc => h9.resolve_left (not_not_intro hc)⟩
  · rintro ⟨h1, h2, h3, h4, h5, h6, h7, h8, h9⟩
    exact ⟨⟨⟨⟨⟨⟨⟨⟨h1, h2⟩, h3⟩, h4⟩, h5⟩, h6⟩, h7⟩, h8⟩, or_iff_not_imp_left.mpr fun hc => h9 (not_not.mp hc)⟩

theorem State.seatLimit_congr {s t : State} (hshare : t.fare.share = s.fare.share) (hset : t.tariff.inForce = s.tariff.inForce) :
    t.seatLimit = s.seatLimit := by simp only [seatLimit, hshare, hset]

namespace State.SignAgrees

variable {s t : State} (h : s.SignAgrees)
include h

/-- Kept where the inputs, the latch and what they are taken from stand. -/
theorem of_inputs (hinputs : t.sign.inputs = s.sign.inputs) (hriders : s.SameRiders t) (hshare : t.fare.share = s.fare.share)
    (hset : t.tariff.inForce = s.tariff.inForce) (hshift : t.shift.state = s.shift.state)
    (hemergency : t.intercom.emergency = s.intercom.emergency) (hlatch : t.power.latch = s.power.latch)
    (hall : t.power.allIdle = s.power.allIdle) : t.SignAgrees where
  riding := by rw [hinputs, h.riding, hriders.ridingCount]
  share := by rw [hinputs, h.share, hshare]
  seatLimit := by rw [hinputs, h.seatLimit, State.seatLimit_congr hshare hset]
  shift := by rw [hinputs, h.shift, hshift]
  mode := by rw [hinputs, h.mode]
  emergency := by rw [hemergency, hinputs, h.emergency]
  latch := by rw [hlatch, hinputs, h.latch]
  allIdle := by rw [hall, h.allIdle, hriders.everyIdle]
  closed hc := by rw [hshare, h.closed (by rwa [← hshift])]

/-- Kept where inputs alone change, with the mode derived anew: those of the parties' block and of the shift as they then stand. -/
theorem of_derived {x : SignInputs} (hx : t.sign.inputs = { x with mode := x.derived }) (hlatch : x.latch = s.sign.inputs.latch)
    (hriding : x.riding = t.ridingCount) (hshare : x.share = t.fare.share) (hlimit : x.seatLimit = t.seatLimit) (hshift : x.shift = t.shift.state)
    (hemergency : t.intercom.emergency = s.intercom.emergency) (hpower : t.power.latch = s.power.latch)
    (hall : t.power.allIdle = t.everyIdle) (hclosed : t.shift.state = .closed → t.fare.share = false) : t.SignAgrees where
  riding := by rw [hx, hriding]
  share := by rw [hx, hshare]
  seatLimit := by rw [hx, hlimit]
  shift := by rw [hx, hshift]
  mode := by rw [hx]; rfl
  emergency := by rw [hemergency, h.emergency, hx, hlatch]
  latch := by rw [hpower, h.latch, hx, hlatch]
  allIdle := hall
  closed := hclosed

end State.SignAgrees

@[simp] theorem PowerUnit.judge_latch (x : PowerUnit) (b : Bool) : (x.judge b).latch = x.latch := by
  unfold judge
  split_ifs <;> rfl

@[simp] theorem PowerUnit.judge_allIdle (x : PowerUnit) (b : Bool) : (x.judge b).allIdle = x.allIdle := by
  unfold judge
  split_ifs <;> rfl

theorem handOff_sign_inputs (i : Fin 4) (n : Nat) (s : State) : (handOff i n s).sign.inputs = (deliverParties s).sign.inputs := by
  unfold handOff
  dsimp only
  split_ifs <;> simp only [deliverParties_inputs] <;> rfl

theorem handOff_power_cases (i : Fin 4) (n : Nat) (s : State) :
    (s.power.allIdle = s.everyIdle ∧ (handOff i n s).power = s.power)
      ∨ (handOff i n s).power = s.power.takeAllIdle s.everyIdle := by
  unfold handOff
  dsimp only
  have he : (deliverParties (notifyC .trip ([byte i.val, enc PartyState.all (s.party i).state] ++ be 4 n) s)).everyIdle = s.everyIdle :=
    (State.SameRiders.of_fare (by simp)).everyIdle
  rw [he]
  split_ifs with h
  · exact .inl ⟨by simpa using h, by simp⟩
  · exact .inr (by simp)

theorem signAgrees_moveClosed : MoveClosed State.SignAgrees where
  aside {s t} a h := h.of_inputs a.sign a.riders a.share a.set a.shift a.emergency (by rw [a.power]) (by rw [a.power])
  hand {s t} i n a h := by
    have hriders : t.SameRiders (handOff i n t) := .of_fare (by simp)
    have hfare : (handOff i n t).fare = t.fare := by simp
    have hshift : (handOff i n t).shift.state = s.shift.state := by simp [a.shift]
    refine h.of_derived (t := handOff i n t)
      (x := { t.sign.inputs with riding := t.ridingCount, share := t.fare.share, seatLimit := t.seatLimit }) ?_ ?_ ?_ ?_ ?_ ?_ ?_ ?_ ?_ ?_
    · rw [handOff_sign_inputs, deliverParties_inputs]
      rfl
    · exact (congrArg SignInputs.latch a.sign :)
    · rw [hriders.ridingCount]
    · rw [hfare]
    · exact (State.seatLimit_congr (by rw [hfare]) (by simp)).symm
    · exact (congrArg SignInputs.shift a.sign :).trans (h.shift.trans hshift.symm)
    · simp [a.emergency]
    · rw [← a.power]
      obtain ⟨-, hp⟩ | hp := handOff_power_cases i n t <;> rw [hp]
      simp [PowerUnit.takeAllIdle]
    · rw [hriders.everyIdle]
      obtain ⟨hall, hp⟩ | hp := handOff_power_cases i n t <;> rw [hp]
      · exact hall
      · simp [PowerUnit.takeAllIdle]
    · rw [hshift, hfare, a.share]
      exact h.closed

end Sys2Proof.Machine
end

