-- ==== Sys2Proof/Proofs/EventsAside.lean ====
section
/-! PROOFS. The requests and events aside, and the statement `SignTrueKept`. -/
set_option Elab.async false
namespace Sys2Proof.Machine

/-! ### Requests aside -/

/-- The requests that move a slot, the share flag, the shift or the set in force, or write what the sign holds. -/
def RequestName.moves : List RequestName :=
  [.hire, .total, .resume, .void, .payCash, .closeTrip, .addExtra, .setTariff, .setStation, .offerCard, .cancelCard]

def RequestName.turns : List RequestName :=
  [.loadCommit, .share, .shiftOpen, .shiftBreak, .shiftResume, .shiftClose, .offDutyOverride, .emergencyClear, .viewSet, .imageSet, .stripesSet, .blockSet]

theorem actTotalsRead_shift_state (page : Byte) (freeze : Bool) (s : State) : (actTotalsRead page freeze s).1.shift.state = s.shift.state := by
  unfold actTotalsRead
  repeat' split
  all_goals rfl

theorem actReportDrop_shift_state (number : Nat) (s : State) : (actReportDrop number s).1.shift.state = s.shift.state := by
  unfold actReportDrop
  repeat' split
  all_goals rfl

theorem actAnswer_emergency (st : AnswerStations) (s : State) : (actAnswer st s).1.intercom.emergency = s.intercom.emergency := by
  unfold actAnswer
  dsimp only
  repeat' split
  all_goals rfl

theorem actPolicySet_emergency (p : Policy) (s : State) : (actPolicySet p s).1.intercom.emergency = s.intercom.emergency := by
  unfold actPolicySet
  repeat' split
  all_goals rfl

theorem actChimeSet_emergency (c : ChimeId) (half amplitude duration : Nat) (gate : Gate) (s : State) :
    (actChimeSet c half amplitude duration gate s).1.intercom.emergency = s.intercom.emergency := by
  unfold actChimeSet
  repeat' split
  all_goals rfl

theorem actLoadPart_inForce (part : StagedPart) (s : State) : (actLoadPart part s).1.tariff.inForce = s.tariff.inForce := by
  unfold actLoadPart
  repeat' split
  all_goals rfl

theorem actSetCabId_inForce (n : BitVec 32) (s : State) : (actSetCabId n s).1.tariff.inForce = s.tariff.inForce := by
  unfold actSetCabId
  split <;> rfl

/-- A change of some blocks, none of them the sign unit, the fare engine or the power unit. -/
theorem State.Aside.of_changes {s t : State} {bs : List Block} (h : s.changesOnly t bs) (hkeeps : .sign ∉ bs ∧ .fare ∉ bs ∧ .power ∉ bs)
    (hset : .tariff ∈ bs → t.tariff.inForce = s.tariff.inForce) (hshift : .shift ∈ bs → t.shift.state = s.shift.state)
    (hemergency : .intercom ∈ bs → t.intercom.emergency = s.intercom.emergency) (hshut : .link ∈ bs → ∀ q, (t.port q).shut = (s.port q).shut) :
    s.Aside t := by
  obtain ⟨-, hlink, -, htariff, hfare, -, -, hshift', hsign, -, hintercom, hpower⟩ := h
  have hfare := hfare.resolve_left hkeeps.2.1
  exact ⟨⟨congrArg _ (hsign.resolve_left hkeeps.1), hpower.resolve_left hkeeps.2.2, congrArg FareEngine.share hfare, htariff.elim hset (congrArg _),
    hshift'.elim hshift (congrArg _), hintercom.elim hemergency (congrArg _), hlink.elim hshut State.shut_of_face⟩, .of_fare hfare⟩

/-- Every other request leaves aside what the sign and the power unit are told of. -/
theorem RequestName.Does.aside {r : RequestName} {q : Port} {act : Action} (h : r.Does q act) (s : State) (hm : r ∉ RequestName.moves)
    (ht : r ∉ RequestName.turns) : s.Aside (act s).1 := by
  by_cases hclock : r = .setClock
  · have hc := h.changesOnly s
    subst hclock
    cases h with
    | setClock day ds =>
      obtain ⟨-, hface, -, -, -, -, -, hshift, hsign, -, -, hpower⟩ := hc
      refine .of_follows (actSetClock_follows day ds s) (hsign.resolve_left (by decide)) (hpower.resolve_left (by decide)) ?_
        (by rw [hshift.resolve_left (by decide)]) ?_ (hface.resolve_left (by decide))
      all_goals
        unfold actSetClock
        split <;> simp
  · refine .of_changes (h.changesOnly s) ?_ ?_ ?_ ?_ ?_
    · cases h <;> simp_all [moves, turns, reach]
    · cases h <;> simp only [reach, List.mem_cons, List.not_mem_nil, reduceCtorEq, or_self, IsEmpty.forall_iff, or_false, or_true, forall_const]
      case loadPart part => exact actLoadPart_inForce part s
      case setCabId n => exact actSetCabId_inForce n s
      all_goals simp_all [moves, turns, actLoadBegin]
    · cases h <;> simp only [reach, List.mem_cons, List.not_mem_nil, reduceCtorEq, or_self, IsEmpty.forall_iff, or_false, or_true, forall_const]
      case totalsRead page freeze => exact actTotalsRead_shift_state page freeze s
      case reportDrop number => exact actReportDrop_shift_state number s
      all_goals simp_all [moves, turns, actTotalsThaw]
    · cases h <;> simp only [reach, List.mem_cons, List.not_mem_nil, reduceCtorEq, or_self, IsEmpty.forall_iff, or_false, or_true, forall_const]
      case policySet p => exact actPolicySet_emergency p s
      case answer st => exact actAnswer_emergency st s
      case chimeSet c half amplitude duration gate => exact actChimeSet_emergency c half amplitude duration gate s
      case hangup =>
        simp only [actHangup, State.setIntercom]
        split <;> rfl
      all_goals simp_all [moves, turns, actGainsSet]
    · cases h <;> simp only [reach, List.mem_cons, List.not_mem_nil, reduceCtorEq, or_self, IsEmpty.forall_iff, or_false, forall_const]
      case routeSet n c e =>
        intro q
        unfold actRouteSet LinkSwitch.setRoute
        repeat' split
        all_goals rfl
      case portStatus clear =>
        intro q
        unfold actPortStatus
        cases clear
        · rfl
        · cases q <;> rfl

/-! ### Events aside -/

theorem State.Aside.of_inputs {s t : State} (hsign : t.sign.inputs = s.sign.inputs) (hpower : t.power = s.power) (hfare : t.fare = s.fare)
    (hset : t.tariff.inForce = s.tariff.inForce) (hshift : t.shift.state = s.shift.state)
    (hemergency : t.intercom.emergency = s.intercom.emergency) (hface : t.link.face = s.link.face) : s.Aside t :=
  ⟨⟨hsign, hpower, congrArg FareEngine.share hfare, hset, hshift, hemergency, State.shut_of_face hface⟩, .of_fare hfare⟩

theorem PortState.complete_shut (x : PortState) : x.complete.shut = x.shut := by
  unfold complete arbitrate
  repeat' split
  all_goals rfl

theorem PortState.quietExpiry_shut (x : PortState) : x.quietExpiry.shut = x.shut := by
  unfold quietExpiry
  split <;> rfl

theorem takeTick_inForce (b : Bool) (s : State) : (takeTick b s).tariff.inForce = s.tariff.inForce := by
  have h : (takeTick b s).tariff.standing = s.tariff.standing := by simp
  simp only [TariffStore.standing, Prod.mk.injEq] at h
  exact h.1

theorem State.Aside.goUp (q : Port) (o : Order) (s : State) : s.Aside (goUp q o s) := by
  refine (State.Aside.setPort s q { s.port q with up := true, bringUp := false } rfl).trans (.of_inputs ?_ ?_ ?_ ?_ ?_ ?_ ?_)
  case refine_7 => simp [Machine.goUp, notifyLink]
  all_goals simp

namespace MoveClosed

variable {P : State → Prop} (c : MoveClosed P)
include c

theorem silenceExpiry (q : Port) {s : State} (h : P s) : P (silenceExpiry q s) := by
  unfold Machine.silenceExpiry
  split
  · exact h
  · split
    · exact c.goDown q h
    · exact c.aside (.setPort _ _ _ (by rfl)) h

/-- What is left to show of an invariant that the moves keep: the requests that turn the shift, the share flag or the latch, the wake, the
ignition and alarm flags, the park and the pending shut of S. -/
theorem rules (action : ∀ (r : RequestName) q act s, r.Does q act → r ∈ RequestName.turns → P s → P (act s).1)
    (settle : ∀ s, P s → P (settleSign s)) (wake : ∀ s, s.parked = true → P s → P (wakeHub s))
    (ignition : ∀ on s, P s → P (takeIgnitionFlag on s)) (alarm : ∀ on s, P s → P (takeAlarm on s))
    (park : ∀ s, s.running = true → P s → P (parkHub s)) : EventRules P P where
  weaken _ h := h
  settle := settle
  reply _ _ _ := c.aside (.emit ..)
  action r q act s hr h := by
    by_cases hm : r ∈ RequestName.moves
    · exact c.party_request hr hm h
    · by_cases ht : r ∈ RequestName.turns
      · exact action r q act s hr ht h
      · exact c.aside (hr.aside s hm ht) h
  restart q s _ := c.aside (.setPort s q _ (by rfl))
  bringUp q s _ := c.aside (.setPort s q _ (by rfl))
  goUp q o s _ _ := c.aside (.goUp q o s)
  checkError q s _ := c.aside <| by
    unfold failCheck
    split
    · exact .refl s
    · exact .setPort s q _ (by rfl)
  discard q reason f parked s := c.aside (.of_same (by simp) (by simp) (by simp) (by simp) (by simp) (by simp) (by simp))
  copies q f parked s := c.aside (.of_same (by simp) (by simp) (by simp) (by simp) (by simp) (by simp) (by simp))
  pass q f parked s := c.aside (.of_same (by simp) (by simp) (by simp) (by simp) (by simp) (by simp) (by simp))
  wake := wake
  ignition := ignition
  alarm := alarm
  count n s := c.aside (.of_follows (.takeCount n s) (by simp) (by simp) (by simp) (by simp) (by simp) (by simp))
  signStat payload s := c.aside (.of_inputs (by simp) (by simp) (by simp) (by simp) (by simp) (by simp) (by simp))
  audioP payload s := c.aside (.of_same (by simp) (by simp) (by simp) (by simp) (by simp) (by simp) (by simp))
  audioC payload s := c.aside (.of_same (by simp) (by simp) (by simp) (by simp) (by simp) (by simp) (by simp))
  cardStage fields _ := c.takeCardStage fields
  authAsk fields _ := c.takeAuthAsk fields
  authAnswer fields _ := c.takeAuthAnswer fields
  uploadAck fields s := c.aside (.of_same (by simp) (by simp) (by simp) (by simp) (by simp) (by simp) (by simp))
  tick b s := c.aside (.of_follows (.takeTick b s) (by simp) (by simp) (takeTick_inForce b s) (by simp) (by simp) (by simp))
  cadence b s := c.aside (.of_inputs (by simp) (by simp) (by simp) (by simp) (by simp) (by simp) (by simp))
  offer _ := c.offerExpiry
  answer _ := c.answerExpiry
  upload s := c.aside (.of_same (by simp) (by simp) (by simp) (by simp) (by simp) (by simp) (by simp))
  call s := c.aside (.of_same (by simp) (by simp) (by simp) (by simp) (by simp) (by simp) (by simp))
  park := park
  silence q _ := c.silenceExpiry q
  quiet q s := c.aside (.setPort s q _ (PortState.quietExpiry_shut _))
  complete q s := c.aside (.setPort s q _ (PortState.complete_shut _))

end MoveClosed

end Sys2Proof.Machine
end

