-- ==== Sys2Proof/Proofs/SignTrue.lean ====
section
/-! PROOFS. The statement `SignTrueKept`. -/
set_option Elab.async false
namespace Sys2Proof.Machine

namespace State.SignAgrees

variable {s : State} (h : s.SignAgrees)
include h

/-- Kept by what changes neither the sign's inputs nor what they are taken from. -/
theorem of_same {t : State} (hinputs : t.sign.inputs = s.sign.inputs) (hfare : t.fare = s.fare) (hset : t.tariff.inForce = s.tariff.inForce)
    (hshift : t.shift.state = s.shift.state) (hemergency : t.intercom.emergency = s.intercom.emergency)
    (hlatch : t.power.latch = s.power.latch) (hall : t.power.allIdle = s.power.allIdle) : t.SignAgrees :=
  h.of_inputs hinputs (.of_fare hfare) (congrArg _ hfare) hset hshift hemergency hlatch hall

theorem shutPort (q : Port) : (shutPort q s).SignAgrees := by
  have hclosed : (s.setPort q (s.port q).closed).SignAgrees := h.of_same rfl rfl rfl rfl rfl rfl rfl
  unfold Machine.shutPort
  dsimp only
  split
  · exact signAgrees_moveClosed.goDown q hclosed
  · exact hclosed

theorem settleSign : (settleSign s).SignAgrees := by
  unfold Machine.settleSign
  split
  · exact (h.shutPort .s).of_same rfl rfl rfl rfl rfl rfl rfl
  · exact h

theorem wakeHub : (wakeHub s).SignAgrees := by
  refine h.of_inputs (by simp) (fun i => ?_) ?_ (by simp) (by simp) (by simp) ?_ ?_
  all_goals simp [Machine.wakeHub, forgetCount, State.party, PowerUnit.wake]

theorem takeIgnitionFlag (on : Bool) : (takeIgnitionFlag on s).SignAgrees := by
  have hon : ({ s with power := s.power.takeIgnition on } : State).SignAgrees :=
    h.of_same rfl rfl rfl rfl rfl (by simp [PowerUnit.takeIgnition]) (by simp [PowerUnit.takeIgnition])
  unfold Machine.takeIgnitionFlag
  dsimp only
  split
  · exact hon.wakeHub
  · exact hon

theorem parkSign : (parkSign s).SignAgrees :=
  h.of_same (by simp) (by simp) (by simp) (by simp) (by simp) (by simp) (by simp)

theorem parkBlocks {x : CadenceUnit} : (parkBlocks { s with cadence := x }).SignAgrees :=
  h.of_inputs rfl (fun _ => rfl) rfl rfl rfl rfl rfl rfl

theorem parkSignPort : (parkSignPort s).SignAgrees := by
  unfold Machine.parkSignPort
  split
  · exact h.of_same rfl rfl rfl rfl rfl rfl rfl
  · exact h.shutPort .s

theorem parkIntercom : (s.setIntercom s.intercom.park).SignAgrees := h.of_same rfl rfl rfl rfl rfl rfl rfl

theorem parkHub : (parkHub s).SignAgrees := by
  have hnotified : (notifyD .parking [] { s with power := s.power.park }).SignAgrees := h.of_same rfl rfl rfl rfl rfl rfl rfl
  unfold Machine.parkHub
  exact (((hnotified.parkSign.parkIntercom.shutPort .c).shutPort .p).shutPort .k).parkBlocks.parkSignPort

/-- A change of the latch reaches the intercom and the power unit with it (R113). -/
theorem changeLatch (on : Bool) : (changeLatch on s).SignAgrees := by
  have hinputs : (Machine.changeLatch on s).sign.inputs = { s.sign.inputs with latch := on, mode := { s.sign.inputs with latch := on }.derived } := by
    simp only [Machine.changeLatch, notifyEmergency_sign, deliverEmergency_sign, deriveSign_inputs]
    rfl
  have hpower : (Machine.changeLatch on s).power = s.power.takeLatch on := by simp [Machine.changeLatch]
  have hriders : s.SameRiders (Machine.changeLatch on s) := .of_fare (by simp)
  have hfare : (Machine.changeLatch on s).fare = s.fare := by simp
  have hlimit : (Machine.changeLatch on s).seatLimit = s.seatLimit := State.seatLimit_congr (by rw [hfare]) (by simp)
  have hshift : (Machine.changeLatch on s).shift = s.shift := by simp
  have hemergency : (Machine.changeLatch on s).intercom.emergency = on := by
    unfold Machine.changeLatch deliverEmergency
    cases on <;> simp
  exact {
    riding := by rw [hinputs, hriders.ridingCount]; exact h.riding
    share := by rw [hinputs, hfare]; exact h.share
    seatLimit := by rw [hinputs, hlimit]; exact h.seatLimit
    shift := by rw [hinputs, hshift]; exact h.shift
    mode := by rw [hinputs]; rfl
    emergency := by rw [hinputs, hemergency]
    latch := by rw [hinputs, hpower]; simp [PowerUnit.takeLatch]
    allIdle := by rw [hpower, hriders.everyIdle]; simpa [PowerUnit.takeLatch] using h.allIdle
    closed := by rw [hshift, hfare]; exact h.closed }

theorem takeAlarm (on : Bool) : (takeAlarm on s).SignAgrees := by
  have hseen : ({ s with sign := { s.sign with alarmSeen := on } } : State).SignAgrees := h.of_same rfl rfl rfl rfl rfl rfl rfl
  unfold Machine.takeAlarm
  dsimp only
  split
  · exact hseen.changeLatch true
  · exact hseen

/-! ### Requests that turn the shift, the share flag, the override or the latch -/

/-- A set is installed with the shift CLOSED, where the share flag is clear and the seat limit 1 under any set. -/
theorem actLoadCommit (check : BitVec 16) : (actLoadCommit check s).1.SignAgrees := by
  have hfollows := actLoadCommit_follows check s
  revert hfollows
  unfold Machine.actLoadCommit
  split
  · exact fun _ => h
  · rename_i x _
    split
    · exact fun _ => h.of_same rfl rfl rfl rfl rfl rfl rfl
    · rename_i hfault
      intro hfollows
      have hclosed : s.shift.state = .closed := ((commitFault_eq_none_iff _ _ _).mp hfault).1
      have hshift : (installSet x s).shift.state = s.shift.state := by simp [installSet]
      have hpower : (installSet x s).power = s.power := by simp [installSet]
      have hshare : (installSet x s).fare.share = s.fare.share := hfollows.share
      have hlimit : (installSet x s).seatLimit = s.seatLimit := by
        simp only [State.seatLimit, hshare, h.closed hclosed, Bool.false_eq_true, ↓reduceIte]
      have hinputs : (installSet x s).sign.inputs = s.sign.inputs := by simp [installSet]
      exact {
        riding := by rw [hinputs, hfollows.sameRiders.ridingCount, h.riding]
        share := by rw [hinputs, hshare, h.share]
        seatLimit := by rw [hinputs, hlimit, h.seatLimit]
        shift := by rw [hinputs, hshift, h.shift]
        mode := by rw [hinputs, h.mode]
        emergency := by rw [hinputs, ← h.emergency]; simp [installSet]
        latch := by rw [hinputs, hpower, h.latch]
        allIdle := by rw [hpower, hfollows.sameRiders.everyIdle, h.allIdle]
        closed := fun _ => by rw [hshare, h.closed hclosed] }

theorem deliverShift {x : ShiftUnit} (hclosed : x.state = .closed → s.fare.share = false) : (deliverShift (s.setShift x)).SignAgrees := by
  have hriders : s.SameRiders (Machine.deliverShift (s.setShift x)) := .of_fare (by simp)
  have hfare : (Machine.deliverShift (s.setShift x)).fare = s.fare := by simp
  have hlimit : (Machine.deliverShift (s.setShift x)).seatLimit = s.seatLimit := State.seatLimit_congr (by rw [hfare]) (by simp)
  have hshift : (Machine.deliverShift (s.setShift x)).shift = x := by simp
  have hpower : (Machine.deliverShift (s.setShift x)).power = s.power := by simp
  refine h.of_derived (x := { s.sign.inputs with shift := x.state }) ?_ rfl ?_ ?_ ?_ ?_ ?_ ?_ ?_ ?_
  · exact deriveSign_inputs _
  · rw [hriders.ridingCount]; exact h.riding
  · rw [hfare]; exact h.share
  · rw [hlimit]; exact h.seatLimit
  · rw [hshift]
  · simp
  · rw [hpower]
  · rw [hpower, hriders.everyIdle, h.allIdle]
  · rwa [hshift, hfare]

theorem notifyShift {closed : Bool} : (notifyShift closed s).SignAgrees := h.of_same rfl rfl rfl rfl rfl rfl rfl

theorem actShare (on : Bool) : (actShare on s).1.SignAgrees := by
  unfold Machine.actShare
  split
  · exact h
  · rename_i hopen
    dsimp only
    split
    · exact h
    · let s1 : State := { s with fare := { s.fare with share := on } }
      change (deliverParties s1).SignAgrees
      have hriders : s1.SameRiders (deliverParties s1) := .of_fare (by simp)
      have hfare : (deliverParties s1).fare = s1.fare := by simp
      have hlimit : (deliverParties s1).seatLimit = s1.seatLimit := State.seatLimit_congr (by rw [hfare]) (by simp)
      have hshift : (deliverParties s1).shift = s.shift := by simp [s1]
      have hpower : (deliverParties s1).power = s.power := by simp [s1]
      refine h.of_derived (x := { s1.sign.inputs with riding := s1.ridingCount, share := s1.fare.share, seatLimit := s1.seatLimit })
        (deliverParties_inputs s1) rfl ?_ ?_ ?_ ?_ ?_ ?_ ?_ ?_
      · rw [hriders.ridingCount]
      · rw [hfare]
      · rw [hlimit]
      · rw [hshift]; exact h.shift
      · simp [s1]
      · rw [hpower]
      · rw [hpower, hriders.everyIdle, h.allIdle]
        rfl
      · rw [hshift, hfare]
        intro hc
        have hon : on = false := by simpa [hc] using hopen
        exact hon

theorem actShiftClose : (actShiftClose s).1.SignAgrees := by
  unfold Machine.actShiftClose
  split
  · exact h
  · split
    · exact h
    · let x : ShiftUnit := { s.shift with
        state := .closed, snapshot := none, reports := s.shift.reports ++ [{ s.livePages with state := .closed }] }
      let s1 : State := { s with shift := x, fare := { s.fare with share := false } }
      let s2 : State := { s1 with
        sign := { s1.sign with offDuty := false, riding := s1.ridingCount, share := false, seatLimit := s1.seatLimit, shift := .closed } }
      change (Machine.notifyShift true (deriveSign s2)).SignAgrees
      have hriders : s.SameRiders (Machine.notifyShift true (deriveSign s2)) := fun i => by simp [s2, s1, State.party]
      have hfare : (Machine.notifyShift true (deriveSign s2)).fare = s2.fare := by simp
      have hshift : (Machine.notifyShift true (deriveSign s2)).shift = x := by simp [s2, s1]
      have hpower : (Machine.notifyShift true (deriveSign s2)).power = s.power := by simp [s2, s1]
      refine h.of_derived (x := s2.sign.inputs) ?_ rfl ?_ ?_ ?_ ?_ ?_ ?_ ?_ ?_
      · rw [notifyShift_sign, deriveSign_inputs]
      · rw [hriders.ridingCount]
        rfl
      · rw [hfare]
        rfl
      · simp only [State.seatLimit, hfare]
        rfl
      · rw [hshift]
        rfl
      · simp [s2, s1]
      · rw [hpower]
      · rw [hpower, hriders.everyIdle, h.allIdle]
      · exact fun _ => by rw [hfare]

theorem actOffDutyOverride (on : Bool) : (actOffDutyOverride on s).1.SignAgrees := by
  let s1 : State := { s with sign := { s.sign with offDuty := on } }
  change (deriveSign s1).SignAgrees
  have hriders : s.SameRiders (deriveSign s1) := .of_fare (by simp [s1])
  have hfare : (deriveSign s1).fare = s.fare := by simp [s1]
  have hlimit : (deriveSign s1).seatLimit = s.seatLimit := State.seatLimit_congr (by rw [hfare]) (by simp [s1])
  have hshift : (deriveSign s1).shift = s.shift := by simp [s1]
  have hpower : (deriveSign s1).power = s.power := by simp [s1]
  refine h.of_derived (x := s1.sign.inputs) (deriveSign_inputs s1) rfl ?_ ?_ ?_ ?_ ?_ ?_ ?_ ?_
  · rw [hriders.ridingCount]; exact h.riding
  · rw [hfare]; exact h.share
  · rw [hlimit]; exact h.seatLimit
  · rw [hshift]; exact h.shift
  · simp [s1]
  · rw [hpower]
  · rw [hpower, hriders.everyIdle, h.allIdle]
  · rw [hshift, hfare]
    exact h.closed

theorem turn {r : RequestName} {q : Port} {act : Action} (hr : r.Does q act) (hmem : r ∈ RequestName.turns) : (act s).1.SignAgrees := by
  cases hr <;> simp only [RequestName.turns, List.mem_cons, List.not_mem_nil, reduceCtorEq, or_false, or_self] at hmem
  case loadCommit check => exact h.actLoadCommit check
  case share on => exact h.actShare on
  case shiftOpen driver =>
    unfold actShiftOpen
    split_ifs
    iterate 4 exact h
    exact (h.deliverShift (by simp)).notifyShift
  case shiftBreak =>
    unfold actShiftBreak
    split_ifs
    iterate 2 exact h
    exact h.deliverShift (by simp)
  case shiftResume =>
    unfold actShiftResume
    split_ifs
    · exact h
    · exact h.deliverShift (by simp)
  case shiftClose => exact h.actShiftClose
  case offDutyOverride on => exact h.actOffDutyOverride on
  case emergencyClear =>
    unfold actEmergencyClear
    split
    · exact h.changeLatch false
    · exact h
  case viewSet =>
    unfold actViewSet
    split
    · exact h
    · exact h.of_same rfl rfl rfl rfl rfl rfl rfl
  case imageSet =>
    unfold actImageSet
    split
    · exact h
    · exact h.of_same rfl rfl rfl rfl rfl rfl rfl
  case stripesSet =>
    unfold actStripesSet
    split
    · exact h
    · split
      · exact h
      · exact h.of_same rfl rfl rfl rfl rfl rfl rfl
  case blockSet =>
    unfold actBlockSet
    split
    · exact h
    · exact h.of_same rfl rfl rfl rfl rfl rfl rfl

end State.SignAgrees

/-! ### The seats (R1, R19, R22) -/

theorem State.seatsHold_iff (s : State) :
    s.seatsHold = true ↔ s.everyIdle = true ∨ ∃ p, s.tariff.inForce.params = some p ∧ s.ridingCount ≤ p.seatLimit := by
  unfold seatsHold
  rw [Bool.or_eq_true]
  refine or_congr_right ?_
  cases s.tariff.inForce.params <;> simp

theorem signTrue_rules : EventRules (fun s => s.signTrue = true) fun s => s.signTrue = true := by
  simp only [State.signTrue_iff]
  exact signAgrees_moveClosed.rules (fun _ _ _ _ hr hmem h => h.turn hr hmem) (fun _ h => h.settleSign) (fun _ _ h => h.wakeHub)
    (fun on _ h => h.takeIgnitionFlag on) (fun on _ h => h.takeAlarm on) fun _ _ h => h.parkHub

/-- Invariants of a value each, kept apart, are kept for whatever value. -/
theorem EventRules.exists {ι : Type} {P : ι → State → Prop} (h : ∀ i, EventRules (P i) fun _ => True) :
    EventRules (fun s => ∃ i, P i s) fun _ => True where
  weaken _ _ := trivial
  settle _ _ := trivial
  reply _ _ _ _ := trivial
  action _ _ _ _ _ _ := trivial
  restart q s hq := fun ⟨i, hs⟩ => ⟨i, (h i).restart q s hq hs⟩
  bringUp q s hq := fun ⟨i, hs⟩ => ⟨i, (h i).bringUp q s hq hs⟩
  goUp q o s hq hu := fun ⟨i, hs⟩ => ⟨i, (h i).goUp q o s hq hu hs⟩
  checkError q s hq := fun ⟨i, hs⟩ => ⟨i, (h i).checkError q s hq hs⟩
  discard q reason f parked s := fun ⟨i, hs⟩ => ⟨i, (h i).discard q reason f parked s hs⟩
  copies q f parked s := fun ⟨i, hs⟩ => ⟨i, (h i).copies q f parked s hs⟩
  pass q f parked s := fun ⟨i, hs⟩ => ⟨i, (h i).pass q f parked s hs⟩
  wake s hp := fun ⟨i, hs⟩ => ⟨i, (h i).wake s hp hs⟩
  ignition on s := fun ⟨i, hs⟩ => ⟨i, (h i).ignition on s hs⟩
  alarm on s := fun ⟨i, hs⟩ => ⟨i, (h i).alarm on s hs⟩
  count n s := fun ⟨i, hs⟩ => ⟨i, (h i).count n s hs⟩
  signStat payload s := fun ⟨i, hs⟩ => ⟨i, (h i).signStat payload s hs⟩
  audioP payload s := fun ⟨i, hs⟩ => ⟨i, (h i).audioP payload s hs⟩
  audioC payload s := fun ⟨i, hs⟩ => ⟨i, (h i).audioC payload s hs⟩
  cardStage fields s := fun ⟨i, hs⟩ => ⟨i, (h i).cardStage fields s hs⟩
  authAsk fields s := fun ⟨i, hs⟩ => ⟨i, (h i).authAsk fields s hs⟩
  authAnswer fields s := fun ⟨i, hs⟩ => ⟨i, (h i).authAnswer fields s hs⟩
  uploadAck fields s := fun ⟨i, hs⟩ => ⟨i, (h i).uploadAck fields s hs⟩
  tick b s := fun ⟨i, hs⟩ => ⟨i, (h i).tick b s hs⟩
  cadence b s := fun ⟨i, hs⟩ => ⟨i, (h i).cadence b s hs⟩
  offer s := fun ⟨i, hs⟩ => ⟨i, (h i).offer s hs⟩
  answer s := fun ⟨i, hs⟩ => ⟨i, (h i).answer s hs⟩
  upload s := fun ⟨i, hs⟩ => ⟨i, (h i).upload s hs⟩
  call s := fun ⟨i, hs⟩ => ⟨i, (h i).call s hs⟩
  park s hr := fun ⟨i, hs⟩ => ⟨i, (h i).park s hr hs⟩
  silence q s := fun ⟨i, hs⟩ => ⟨i, (h i).silence q s hs⟩
  quiet q s := fun ⟨i, hs⟩ => ⟨i, (h i).quiet q s hs⟩
  complete q s := fun ⟨i, hs⟩ => ⟨i, (h i).complete q s hs⟩

/-- No event but a request changes the set in force. -/
theorem inForce_rules (x : TariffSet × Nat × Nat) : EventRules (fun s => s.tariff.standing = x) fun _ => True := by
  constructor
  case checkError => intro q s _ h; unfold failCheck; split <;> simpa using h
  all_goals intros
  case weaken | settle | reply | action => trivial
  all_goals simpa

/-- No event but a request changes how many slots ride, nor the set in force. -/
theorem seats_rules (k : Nat × TariffSet × Nat × Nat) :
    EventRules (fun s => (s.accountsSound = true ∧ s.ridingCount = k.1) ∧ s.tariff.standing = k.2) fun _ => True :=
  ((EventRules.of_sameRiders fun _ _ hr _ hs => hr.ridingCount.trans hs).and (inForce_rules k.2)).withAction
    (fun _ _ => trivial) (fun _ _ => trivial) (fun _ _ _ _ => trivial) fun _ _ _ _ _ _ => trivial

theorem State.seatsHold_congr {s t : State} (hr : s.SameRiders t) (hset : t.tariff.inForce = s.tariff.inForce) (h : s.seatsHold = true) :
    t.seatsHold = true := by
  rw [State.seatsHold_iff] at h ⊢
  rwa [hr.everyIdle, hr.ridingCount, hset]

section requests
variable {s : State}

/-- The set in force gives a seat limit of 1 at least (R1, R7). -/
theorem State.tariffSound_seats (ht : s.tariffSound = true) {p : Params} (hp : s.tariff.inForce.params = some p) : 1 ≤ p.seatLimit := by
  unfold tariffSound at ht
  simp only [Bool.and_eq_true, Bool.or_eq_true, beq_iff_eq] at ht
  obtain ⟨hempty | ⟨hvalid, -⟩, -⟩ := ht
  · rw [hempty] at hp
    simp [TariffSet.empty] at hp
  · obtain ⟨⟨p', hp', hrange, -⟩, -⟩ := (TariffSet.valid_iff _).mp hvalid
    obtain rfl : p' = p := by simpa [hp'] using hp
    simp only [Params.inRange, Bool.and_eq_true, decide_eq_true_eq] at hrange
    omega

theorem hireFault_seats {t : TariffArg} {st : Station} (hf : hireFault t st s = none) :
    ∃ p, s.tariff.inForce.params = some p ∧ s.ridingCount < s.seatLimit := by
  unfold hireFault at hf
  split at hf
  · cases hf
  · rename_i hset
    split at hf
    · cases hf
    · split at hf
      · cases hf
      · split at hf
        · cases hf
        · rename_i hlimit
          simp only [State.setInForce, Bool.not_eq_true', Bool.not_eq_false] at hset
          obtain ⟨p, hp⟩ := Option.isSome_iff_exists.mp hset
          exact ⟨p, hp, Nat.lt_of_not_le hlimit⟩

/-- A slot is hired only below the seat limit, which the share seat limit of the set in force bounds (R22). -/
theorem actHire_seatsHold (ht : s.tariffSound = true) (t : TariffArg) (st : Station) (h : s.seatsHold = true) :
    (actHire t st s).1.seatsHold = true := by
  obtain hs | ⟨i, hfault, hi, hs⟩ := actHire_cases t st s <;> rw [hs]
  · exact h
  · obtain ⟨p, hp, hlimit⟩ := hireFault_seats hfault
    have hone := s.tariffSound_seats ht hp
    have hband := State.Follows.evaluateBand s
    have hidle : ((evaluateBand s).party i).state = .idle := (hband.party i).state.trans (State.lowestIdle_idle hi)
    have hopen : (openTrip i t st (evaluateBand s)).SameRiders
        (showChanges (evaluateBand s) (handOff i ((openTrip i t st (evaluateBand s)).party i).trip (openTrip i t st (evaluateBand s)))) := .of_fare
    rw [State.seatsHold_iff]
    refine .inr ⟨p, by simpa using hp, ?_⟩
    rw [hopen.ridingCount, openTrip_ridingCount t st hidle, hband.sameRiders.ridingCount]
    simp only [State.seatLimit, hp] at hlimit
    split at hlimit <;> omega

/-- A slot vacated leaves fewer to seat. -/
theorem State.seatsHold_vacate {v t : State} {i : Fin 4} (hv : v.fare = s.fare) (hi : (s.party i).state ≠ .idle) (ht : t.fare = (vacate i v).fare)
    (hset : t.tariff.inForce = s.tariff.inForce) (h : s.seatsHold = true) : t.seatsHold = true := by
  have hcount := vacate_ridingCount (s := v) (i := i) (by rwa [State.party_of_fare hv])
  rw [(State.SameRiders.of_fare hv).ridingCount] at hcount
  rw [State.seatsHold_iff] at h ⊢
  rw [← State.ridingCount_eq_zero_iff, (State.SameRiders.of_fare ht).ridingCount, hset]
  rw [← State.ridingCount_eq_zero_iff] at h
  obtain hzero | ⟨p, hp, hle⟩ := h
  · omega
  · exact .inr ⟨p, hp, by omega⟩

theorem actVoid_seatsHold (n : Byte) (h : s.seatsHold = true) : (actVoid n s).1.seatsHold = true := by
  refine onSlot_keeps (C := fun t : State => t.seatsHold = true) h fun i hi => ?_
  have hi : (s.party i).state ≠ .idle := PartyState.ne_idle_of_metering (by simpa using hi)
  dsimp only
  split
  · exact State.seatsHold_vacate (v := s.setTotals s.shift.totals.countVoided) (i := i) rfl hi (showChanges_fare _ _) (by simp [vacate]) h
  · exact h

theorem actCloseTrip_seatsHold (n : Byte) (h : s.seatsHold = true) : (actCloseTrip n s).1.seatsHold = true := by
  refine onSlot_keeps (C := fun t : State => t.seatsHold = true) h fun i hi => ?_
  have hi : (s.party i).state ≠ .idle := by
    have hsettled : (s.party i).state = .settled := by simpa using hi
    simp [hsettled]
  exact State.seatsHold_vacate (v := tripClosedAt (s.party i).station (s.setTotals (s.shift.totals.post (s.party i)))) (i := i) (by simp) hi
    (showChanges_fare _ _) (by simp [vacate]) h

/-- A set is installed with the shift CLOSED, where every slot is IDLE. -/
theorem actLoadCommit_seatsHold (hb : s.tripsBalance = true) (check : BitVec 16) (h : s.seatsHold = true) :
    (actLoadCommit check s).1.seatsHold = true := by
  have hriders := (actLoadCommit_follows check s).sameRiders
  by_cases hclosed : s.shift.state = .closed
  · have hidle := s.everyIdle_of_not_opened hb (by simp [hclosed])
    rw [State.seatsHold_iff, hriders.everyIdle]
    exact .inl hidle
  · have hstands := (RequestName.Does.loadCommit (port := .c) check).state_standing s hclosed
    simp only [State.standing, TariffStore.standing, Prod.mk.injEq] at hstands
    obtain ⟨⟨hset, -⟩, -⟩ := hstands
    exact State.seatsHold_congr hriders hset h

theorem RequestName.Does.seatsHold {r : RequestName} {q : Port} {act : Action} (hr : r.Does q act) (ht : s.tariffSound = true)
    (hb : s.tripsBalance = true) (h : s.seatsHold = true) : (act s).1.seatsHold = true := by
  by_cases hcommit : r = .loadCommit
  · subst hcommit
    cases hr with
    | loadCommit check => exact actLoadCommit_seatsHold hb check h
  · by_cases hends : r = .hire ∨ r = .void ∨ r = .closeTrip
    · cases hr <;> simp only [reduceCtorEq, or_self, or_false, or_true] at hends
      case hire t st => exact actHire_seatsHold ht t st h
      case void n => exact actVoid_seatsHold n h
      case closeTrip n => exact actCloseTrip_seatsHold n h
    · obtain ⟨hhire, hvoid, hclose⟩ : r ≠ .hire ∧ r ≠ .void ∧ r ≠ .closeTrip := by simpa using hends
      have hset := hr.standing s hcommit
      simp only [TariffStore.standing, Prod.mk.injEq] at hset
      exact State.seatsHold_congr (hr.sameRiders s hhire hvoid hclose) hset.1 h

end requests

/-- A count of riders the share seat limit of a set allows. -/
def Seated (k : Nat × TariffSet × Nat × Nat) : Prop :=
  k.1 = 0 ∨ ∃ p, k.2.1.params = some p ∧ k.1 ≤ p.seatLimit

theorem State.seatsHold_iff_seated (s : State) : s.seatsHold = true ↔ Seated (s.ridingCount, s.tariff.standing) := by
  rw [State.seatsHold_iff, ← State.ridingCount_eq_zero_iff]
  rfl

/-- The invariants `SignTrueKept` names with the seats, the set in force and the count of riders told by their values. -/
theorem State.seated_iff (s : State) :
    ((∃ k : { k // Seated k }, (s.accountsSound = true ∧ s.ridingCount = k.1.1) ∧ s.tariff.standing = k.1.2)
        ∧ s.tariffSound = true ∧ s.accountsSound = true ∧ s.tripsBalance = true)
      ↔ s.accountsSound = true ∧ s.tariffSound = true ∧ s.tripsBalance = true ∧ s.seatsHold = true := by
  rw [State.seatsHold_iff_seated]
  constructor
  · rintro ⟨⟨⟨⟨n, x⟩, hk⟩, ⟨ha, rfl⟩, rfl⟩, ht, -, hb⟩
    exact ⟨ha, ht, hb, hk⟩
  · rintro ⟨ha, ht, hb, hk⟩
    exact ⟨⟨⟨_, hk⟩, ⟨ha, rfl⟩, rfl⟩, ht, ha, hb⟩

theorem seatsHold_rules :
    EventRules (fun s => s.accountsSound = true ∧ s.tariffSound = true ∧ s.tripsBalance = true ∧ s.seatsHold = true) fun s => s.seatsHold = true := by
  have hrules := (EventRules.exists fun k : { k // Seated k } => seats_rules k.1).and (tariffSound_rules.and tripsBalance_rules)
  simp only [State.seated_iff] at hrules
  exact hrules.withAction (fun s h => h.2.2.2) (fun s => State.seatsHold_congr (.of_fare (settleSign_fare s).1) (by simp)) (fun _ _ _ h => h)
    fun _ _ _ s hr h => hr.seatsHold h.2.1 h.2.2.1 h.2.2.2

/-- FOR_HIRE is the last line of R111's table. -/
theorem deriveMode_forHire {latch share offDuty : Bool} {riding limit : Nat} {shift : ShiftState}
    (h : deriveMode latch riding share limit shift offDuty = .forHire) (hseats : share = true → riding ≤ limit ∨ riding = 0) :
    shift = .opened ∧ riding = 0 ∧ latch = false ∧ offDuty = false := by
  unfold deriveMode at h
  split_ifs at h with hlatch hhired hshare hoff
  simp only [not_or, not_not, Bool.not_eq_true] at hoff hlatch
  refine ⟨hoff.1, ?_, hlatch, hoff.2⟩
  cases share <;> simp_all
  omega

/-- Settles O11, by what each request and event does to the sign's inputs and to the slots that ride. -/
theorem signTrueKept : Obligations.SignTrueKept := by
  unfold Obligations.SignTrueKept
  refine ⟨?_, ?_, ?_⟩
  · exact step_gives signTrue_rules (by decide) (by decide) (fun _ _ h => h) (fun _ _ h => h)
  · exact fun s t ha ht hb h => step_gives seatsHold_rules (by decide) (by decide) (fun _ _ h => h) (fun _ _ h => h) s t ⟨ha, ht, hb, h⟩
  · intro s htrue hseats hmode
    have hs := s.signTrue_iff.mp htrue
    have hhire : deriveMode s.sign.latch s.sign.riding s.sign.share s.sign.seatLimit s.sign.shift s.sign.offDuty = .forHire := hs.mode.symm.trans hmode
    have hlimit : s.sign.share = true → s.sign.riding ≤ s.sign.seatLimit ∨ s.sign.riding = 0 := by
      intro hshare
      have hriding : s.sign.riding = s.ridingCount := hs.riding
      have hseat : s.sign.seatLimit = s.seatLimit := hs.seatLimit
      have hon : s.fare.share = true := hs.share.symm.trans hshare
      obtain hidle | ⟨p, hp, hle⟩ := s.seatsHold_iff.mp hseats
      · exact .inr (hriding.trans (s.ridingCount_eq_zero_iff.mpr hidle))
      · exact .inl (by simpa [hriding, hseat, State.seatLimit, hon, hp] using hle)
    obtain ⟨hshift, hzero, hlatch, hoff⟩ := deriveMode_forHire hhire hlimit
    exact ⟨hs.shift.symm.trans hshift, s.ridingCount_eq_zero_iff.mp (hs.riding.symm.trans hzero), hlatch, hoff⟩

end Sys2Proof.Machine
end

