-- ==== Sys2Proof/Proofs/PowerSound.lean ====
section
/-! PROOFS. The power unit and the shut marks, and the statement `PowerSoundKept`. -/
set_option Elab.async false
namespace Sys2Proof.Machine

/-! ### The park delay timer (R184) -/

/-- A power unit whose park delay timer runs as R184 has it. -/
def PowerUnit.Timed (x : PowerUnit) : Prop := x.parkTimer.isSome = (x.state == .run && x.mayPark)

/-- A delivery to the power unit starts or stops the timer as the conditions change. -/
theorem PowerUnit.timed_judge {x y : PowerUnit} (h : x.Timed) (hstate : y.state = x.state) (htimer : y.parkTimer = x.parkTimer) :
    (y.judge x.mayPark).Timed := by
  unfold Timed judge at *
  split_ifs with hrun hmay hbefore
  · have hx : (x.state == .run) = false := by simpa [hstate] using hrun
    rw [htimer, hstate, h, hx]
    rfl
  · have hy : y.mayPark = false := by simpa using hmay
    change false = (y.state == .run && y.mayPark)
    rw [hy, Bool.and_false]
  · have hy : y.mayPark = true := by simpa using hmay
    rw [htimer, h, hy, hbefore, hstate]
  · have hy : y.mayPark = true := by simpa using hmay
    have hr : y.state = .run := by simpa using hrun
    change true = (y.state == .run && y.mayPark)
    rw [hy, hr]
    rfl

theorem PowerUnit.timed_park (x : PowerUnit) : x.park.Timed := rfl

theorem PowerUnit.timed_wake (x : PowerUnit) : x.wake.Timed := by
  have h : x.wake.mayPark = x.mayPark := rfl
  unfold Timed
  rw [h]
  simp only [wake]
  cases x.mayPark <;> rfl

theorem PowerUnit.judge_state (x : PowerUnit) (b : Bool) : (x.judge b).state = x.state := by
  unfold judge
  split_ifs <;> rfl

theorem PowerUnit.judge_shutPending (x : PowerUnit) (b : Bool) : (x.judge b).shutPending = x.shutPending := by
  unfold judge
  split_ifs <;> rfl

/-! ### Power state, pending shut and shut marks -/

/-- The timer runs as it is to, in this power state, with this shut of S pending or not and these shut marks. -/
structure State.PowerHas (state : PowerState) (pending : Bool) (shut : Port → Bool) (s : State) : Prop where
  timed : s.power.Timed
  state : s.power.state = state
  pending : s.power.shutPending = pending
  shut : ∀ q, (s.port q).shut = shut q

namespace State.PowerHas

variable {state : PowerState} {pending : Bool} {shut : Port → Bool} {s t : State} (h : s.PowerHas state pending shut)
include h

/-- Kept by what changes neither the power unit nor a shut mark. -/
theorem of_same (hpower : t.power = s.power) (hshut : ∀ q, (t.port q).shut = (s.port q).shut) : t.PowerHas state pending shut :=
  ⟨hpower ▸ h.timed, hpower ▸ h.state, hpower ▸ h.pending, fun q => (hshut q).trans (h.shut q)⟩

/-- A delivery to the power unit. -/
theorem of_delivery {x : PowerUnit} (hstate : x.state = s.power.state) (htimer : x.parkTimer = s.power.parkTimer)
    (hpending : x.shutPending = s.power.shutPending) (hpower : t.power = x.judge s.power.mayPark)
    (hshut : ∀ q, (t.port q).shut = (s.port q).shut) : t.PowerHas state pending shut where
  timed := hpower ▸ PowerUnit.timed_judge h.timed hstate htimer
  state := by rw [hpower, PowerUnit.judge_state, hstate, h.state]
  pending := by rw [hpower, PowerUnit.judge_shutPending, hpending, h.pending]
  shut q := (hshut q).trans (h.shut q)

end State.PowerHas

theorem powerHas_moveClosed (state : PowerState) (pending : Bool) (shut : Port → Bool) : MoveClosed (State.PowerHas state pending shut) where
  aside a h := h.of_same a.power a.shut
  hand {s t} i n a h := by
    have ht : t.PowerHas state pending shut := h.of_same a.power a.shut
    have hshut : ∀ q, ((handOff i n t).port q).shut = (t.port q).shut := State.shut_of_face (by simp)
    obtain ⟨-, hp⟩ | hp := handOff_power_cases i n t
    · exact ht.of_same hp hshut
    · exact ht.of_delivery (x := { t.power with allIdle := t.everyIdle }) rfl rfl rfl hp hshut

namespace State.PowerHas

variable {state : PowerState} {pending : Bool} {shut : Port → Bool} {s : State} (h : s.PowerHas state pending shut)
include h

theorem setPort {q : Port} {x : PortState} {b : Bool} (hx : x.shut = b) :
    (s.setPort q x).PowerHas state pending (fun r => if r = q then b else shut r) where
  timed := h.timed
  state := h.state
  pending := h.pending
  shut r := by
    split
    · rename_i hr
      rw [hr, State.port_setPort_same, hx]
    · rename_i hr
      rw [State.port_setPort_other _ _ _ _ hr, h.shut]

theorem shutPort (q : Port) : (shutPort q s).PowerHas state pending (fun r => if r = q then true else shut r) := by
  unfold Machine.shutPort
  dsimp only
  split
  · exact (powerHas_moveClosed ..).goDown q (h.setPort rfl)
  · exact h.setPort rfl

theorem openPort (q : Port) : (openPort q s).PowerHas state pending (fun r => if r = q then false else shut r) := by
  unfold Machine.openPort
  split
  · exact h.setPort rfl
  · rename_i hq
    refine ⟨h.timed, h.state, h.pending, fun r => ?_⟩
    split
    · rename_i hr
      simpa [hr] using hq
    · exact h.shut r

theorem changeLatch (on : Bool) : (changeLatch on s).PowerHas state pending shut :=
  h.of_delivery (x := { s.power with latch := on }) rfl rfl rfl (by simp [Machine.changeLatch]; rfl) (State.shut_of_face (by simp [Machine.changeLatch]))

end State.PowerHas

/-! ### The invariant -/

/-- The ports PARKED shuts at once (R185). -/
def shutsAtPark (q : Port) : Bool :=
  match q with
  | .c | .p | .k => true
  | .d | .v | .s => false

/-- The shut mark a port is to have in PARKED or out of it, a shut of S pending or not (R166, R185, R187). -/
def shutWhen (parked pending : Bool) (q : Port) : Bool :=
  parked && (shutsAtPark q || (q == .s && !pending))

/-- What `powerSound` says, named. -/
def State.PowerAgrees (s : State) : Prop :=
  ∃ state pending, (pending = true → state = .parked) ∧ s.PowerHas state pending (shutWhen (state == .parked) pending)

theorem State.powerSound_iff (s : State) : s.powerSound = true ↔ s.PowerAgrees := by
  simp only [powerSound, Bool.and_eq_true, beq_iff_eq, Bool.or_eq_true, Bool.not_eq_true']
  constructor
  · rintro ⟨⟨⟨⟨⟨⟨⟨htimed, hpending⟩, hd⟩, hv⟩, hc⟩, hp⟩, hk⟩, hs⟩
    refine ⟨s.power.state, s.power.shutPending, fun h => ?_, htimed, rfl, rfl, fun q => ?_⟩
    · simpa [State.parked, h] using hpending
    · cases q <;> simp_all [shutWhen, shutsAtPark, State.parked]
  · rintro ⟨state, pending, hpending, h⟩
    obtain ⟨htimed, rfl, rfl, hshut⟩ := h
    refine ⟨⟨⟨⟨⟨⟨⟨htimed, ?_⟩, ?_⟩, ?_⟩, ?_⟩, ?_⟩, ?_⟩, ?_⟩
    · cases hp : s.power.shutPending <;> simp_all [State.parked]
    all_goals simp [hshut, shutWhen, shutsAtPark, State.parked]

theorem powerAgrees_moveClosed : MoveClosed State.PowerAgrees where
  aside a := fun ⟨state, pending, hp, h⟩ => ⟨state, pending, hp, (powerHas_moveClosed ..).aside a h⟩
  hand i n a := fun ⟨state, pending, hp, h⟩ => ⟨state, pending, hp, (powerHas_moveClosed ..).hand i n a h⟩

namespace State.PowerAgrees

variable {s : State}

/-- PARKED, with C, P and K shut, and S too unless its shut is pending. -/
theorem of_parked {pending : Bool} (h : s.PowerHas .parked pending (shutWhen true pending)) : s.PowerAgrees := ⟨.parked, pending, fun _ => rfl, h⟩

theorem changeLatch (on : Bool) (h : s.PowerAgrees) : (changeLatch on s).PowerAgrees := by
  obtain ⟨state, pending, hp, h⟩ := h
  exact ⟨state, pending, hp, h.changeLatch on⟩

theorem takeAlarm (on : Bool) (h : s.PowerAgrees) : (takeAlarm on s).PowerAgrees := by
  have hseen : ({ s with sign := { s.sign with alarmSeen := on } } : State).PowerAgrees :=
    powerAgrees_moveClosed.aside (s := s) (.of_inputs rfl rfl rfl rfl rfl rfl rfl) h
  unfold Machine.takeAlarm
  dsimp only
  split
  · exact hseen.changeLatch true
  · exact hseen

/-- The wake opens every port the park had shut (R187). -/
theorem wakeHub (h : s.PowerAgrees) : (wakeHub s).PowerAgrees := by
  obtain ⟨state, pending, hp, h⟩ := h
  have hwoken : ({ s with power := s.power.wake } : State).PowerHas .run false (shutWhen (state == .parked) pending) :=
    ⟨PowerUnit.timed_wake _, rfl, rfl, h.shut⟩
  have hopened := (((hwoken.openPort .c).openPort .p).openPort .k).openPort .s
  refine ⟨.run, false, by simp, ?_⟩
  have hsame := hopened.of_same (t := Machine.wakeHub s) (by simp [Machine.wakeHub]) (State.shut_of_face (by simp [Machine.wakeHub]))
  refine ⟨hsame.timed, hsame.state, hsame.pending, fun q => (hsame.shut q).trans ?_⟩
  cases state <;> cases q <;> rfl

theorem takeIgnitionFlag (on : Bool) (h : s.PowerAgrees) : (takeIgnitionFlag on s).PowerAgrees := by
  have hon : ({ s with power := s.power.takeIgnition on } : State).PowerAgrees := by
    obtain ⟨state, pending, hp, h⟩ := h
    exact ⟨state, pending, hp, h.of_delivery (x := { s.power with ignition := on }) rfl rfl rfl rfl fun _ => rfl⟩
  unfold Machine.takeIgnitionFlag
  dsimp only
  split
  · exact hon.wakeHub
  · exact hon

/-- The pending shut of S is made in PARKED (R185). -/
theorem settleSign (h : s.PowerAgrees) : (settleSign s).PowerAgrees := by
  unfold Machine.settleSign
  split
  · rename_i hdue
    obtain ⟨state, pending, -, h⟩ := h
    obtain ⟨hparked, hpending, -⟩ := hdue
    have hstate : state = .parked := h.state.symm.trans (by simpa [State.parked] using hparked)
    have hpend : pending = true := h.pending.symm.trans hpending
    subst hstate hpend
    have hshut := h.shutPort .s
    refine of_parked (pending := false) ⟨hshut.timed, hshut.state, rfl, fun q => (hshut.shut q).trans ?_⟩
    cases q <;> rfl
  · exact h

/-- The park shuts C, P and K, and S at once or later (R185). -/
theorem parkHub (hrun : s.running = true) (h : s.PowerAgrees) : (parkHub s).PowerAgrees := by
  obtain ⟨state, pending, hp, h⟩ := h
  have hstate : state = .run := h.state.symm.trans (by simpa [State.running] using hrun)
  have hpend : pending = false := by
    cases pending
    · rfl
    · simp [hstate] at hp
  subst hstate hpend
  have hparked : ({ s with power := s.power.park } : State).PowerHas .parked false fun _ => false :=
    ⟨PowerUnit.timed_park _, rfl, h.pending, h.shut⟩
  have hdark := hparked.of_same (t := parkSign (notifyD .parking [] { s with power := s.power.park })) (by simp) (State.shut_of_face (by simp))
  have hhushed := hdark.of_same (t := (parkSign (notifyD .parking [] { s with power := s.power.park })).setIntercom
    (parkSign (notifyD .parking [] { s with power := s.power.park })).intercom.park) rfl fun _ => rfl
  have hshut := ((hhushed.shutPort .c).shutPort .p).shutPort .k
  unfold Machine.parkHub
  dsimp only
  generalize Machine.shutPort .k _ = u at hshut ⊢
  have hblocks := hshut.of_same (t := parkBlocks { u with cadence := u.cadence.park }) rfl fun _ => rfl
  unfold parkSignPort
  split
  · refine of_parked (pending := true) ⟨hblocks.timed, hblocks.state, rfl, fun q => (hblocks.shut q).trans ?_⟩
    cases q <;> rfl
  · have hall := hblocks.shutPort .s
    refine of_parked (pending := false) ⟨hall.timed, hall.state, hall.pending, fun q => (hall.shut q).trans ?_⟩
    cases q <;> rfl

theorem turn {r : RequestName} {q : Port} {act : Action} (hr : r.Does q act) (hmem : r ∈ RequestName.turns) (h : s.PowerAgrees) :
    (act s).1.PowerAgrees := by
  by_cases hlatch : r = .emergencyClear
  · subst hlatch
    cases hr
    unfold actEmergencyClear
    split
    · exact h.changeLatch false
    · exact h
  · obtain ⟨-, hface, -, -, -, -, -, -, -, -, -, hpower⟩ := hr.changesOnly s
    have hreach : .power ∉ r.reach ∧ .link ∉ r.reach := by
      revert hlatch
      simp only [RequestName.turns, List.mem_cons, List.not_mem_nil, or_false] at hmem
      rcases hmem with rfl | rfl | rfl | rfl | rfl | rfl | rfl | rfl | rfl | rfl | rfl | rfl <;> simp [RequestName.reach]
    obtain ⟨state, pending, hp, h⟩ := h
    exact ⟨state, pending, hp, h.of_same (hpower.resolve_left hreach.1) (State.shut_of_face (hface.resolve_left hreach.2))⟩

end State.PowerAgrees

theorem powerSound_rules : EventRules (fun s => s.powerSound = true) fun s => s.powerSound = true := by
  simp only [State.powerSound_iff]
  exact powerAgrees_moveClosed.rules (fun _ _ _ _ hr hmem h => h.turn hr hmem) (fun _ h => h.settleSign) (fun _ _ h => h.wakeHub)
    (fun on _ h => h.takeIgnitionFlag on) (fun on _ h => h.takeAlarm on) fun _ hr h => h.parkHub hr

/-- Settles O12, by the deliveries to the power unit and the shuts and openings of ports at the park and the wake. -/
theorem powerSoundKept : Obligations.PowerSoundKept := by
  unfold Obligations.PowerSoundKept
  exact step_gives powerSound_rules (by decide) (by decide) (fun _ _ h => h) (fun _ _ h => h)

end Sys2Proof.Machine
end

