-- ==== Sys2Proof/Proofs/IntercomSound.lean ====
section
/-! PROOFS. D's voice lane, the intercom's state and its players, and the statement `CadenceAndIntercomSoundKept`. -/
set_option Elab.async false
namespace Sys2Proof.Machine

/-! ### D's voice lane (R160) -/

/-- A port that is not D, or D with its voice lane empty. -/
def NoVoiceAtD (q : Port) (x : PortState) : Prop := q = .d → x.voice = []

theorem PortState.arbitrate_voice (x : PortState) (h : x.voice = []) : x.arbitrate.voice = [] := by
  unfold arbitrate
  repeat' split
  all_goals simp_all

theorem PortState.placeGeneral_voice (x : PortState) (f : Frame) (h : x.voice = []) : (x.placeGeneral f).1.voice = [] := by
  unfold placeGeneral
  repeat' split
  · exact h
  · exact h
  · exact arbitrate_voice _ h

theorem noVoiceAtD_sendClosed : SendClosed NoVoiceAtD where
  place _ x f h hq := x.placeGeneral_voice f (h hq)
  discard _ _ h := h
  purge _ _ _ _ := rfl

theorem noVoiceAtD_voiceClosed {q : Port} (hq : q ≠ .d) : VoiceClosed [q] NoVoiceAtD := by
  intro r hr x f _ hd
  obtain rfl : r = q := by simpa using hr
  exact absurd hd hq

/-- While the emergency state is clear D's voice lane is empty. -/
def State.VoiceHolds (s : State) : Prop := s.intercom.emergency = false → s.Ports NoVoiceAtD

theorem State.VoiceHolds.of_ports {s t : State} (h : s.VoiceHolds) (hem : t.intercom.emergency = s.intercom.emergency)
    (hports : s.Ports NoVoiceAtD → t.Ports NoVoiceAtD) : t.VoiceHolds := fun hclear => hports (h (hem ▸ hclear))

theorem State.voiceHolds_iff (s : State) : s.VoiceHolds ↔ (s.intercom.emergency || (s.port .d).voice.isEmpty) = true := by
  unfold VoiceHolds
  cases s.intercom.emergency
  · simp only [forall_const, Bool.false_or, List.isEmpty_iff]
    refine ⟨fun h => h.holds .d rfl, fun h => ⟨noVoiceAtD_sendClosed, fun q hq => ?_⟩⟩
    rw [hq, h]
  · simp

theorem PortState.complete_noVoice {q : Port} {x : PortState} (h : NoVoiceAtD q x) : NoVoiceAtD q x.complete := by
  intro hq
  have hx := h hq
  unfold complete arbitrate
  dsimp only
  repeat' split
  all_goals simp_all

theorem PortState.quietExpiry_noVoice {q : Port} {x : PortState} (h : NoVoiceAtD q x) : NoVoiceAtD q x.quietExpiry := by
  unfold quietExpiry
  split <;> exact h

namespace State.Ports

variable {s : State} (h : s.Ports NoVoiceAtD)
include h

theorem noVoice_setPort {q : Port} {x : PortState} (hx : x.voice = (s.port q).voice ∨ x.voice = []) : (s.setPort q x).Ports NoVoiceAtD :=
  h.setPort fun hq => hx.elim (fun e => e.trans (h.holds q hq)) id

theorem noVoice_goDown {q : Port} : (goDown q s).Ports NoVoiceAtD := .deliverDown (.notifyLink (h.noVoice_setPort (.inr rfl)))

theorem noVoice_goUp {q : Port} {o : Order} : (goUp q o s).Ports NoVoiceAtD := by
  refine State.Ports.deliverUp (.notifyLink (h.setPort ?_))
  exact h.holds q

theorem noVoice_shutPort {q : Port} : (shutPort q s).Ports NoVoiceAtD := by
  have hclosed : (s.setPort q (s.port q).closed).Ports NoVoiceAtD := h.noVoice_setPort (.inl rfl)
  unfold Machine.shutPort
  dsimp only
  split
  · exact hclosed.noVoice_goDown
  · exact hclosed

theorem noVoice_openPort {q : Port} : (openPort q s).Ports NoVoiceAtD := .ite (h.noVoice_setPort (.inl rfl)) h

theorem noVoice_wakeHub : (wakeHub s).Ports NoVoiceAtD :=
  .sendUpload (.same (noVoice_openPort (noVoice_openPort (noVoice_openPort (noVoice_openPort (q := .c) (h.same (t := { s with power := s.power.wake })))))))

theorem noVoice_parkHub : (parkHub s).Ports NoVoiceAtD := by
  have htold : (Machine.notifyD .parking [] { s with power := s.power.park }).Ports NoVoiceAtD := .notifyD h.same
  have hports := (htold.parkSign.setIntercom
    (x := (Machine.parkSign (Machine.notifyD .parking [] { s with power := s.power.park })).intercom.park)).noVoice_shutPort (q := .c)
      |>.noVoice_shutPort (q := .p) |>.noVoice_shutPort (q := .k)
  exact .ite hports.same (noVoice_shutPort hports.same)

end State.Ports

theorem changeLatch_emergency (on : Bool) (s : State) : (changeLatch on s).intercom.emergency = on := by
  unfold changeLatch deliverEmergency
  cases on <;> simp

/-- A latch that is cleared empties D's voice lane (R160, R171). -/
theorem changeLatch_noVoice (s : State) : (changeLatch false s).Ports NoVoiceAtD := by
  have hpurged : (deliverEmergency false (deriveSign { s with sign := { s.sign with latch := false } })).Ports NoVoiceAtD :=
    ⟨noVoiceAtD_sendClosed, fun q hq => by
      subst hq
      simp [deliverEmergency, purgeVoice]⟩
  exact .notifyEmergency hpurged.same

theorem actLoadCommit_emergency (check : BitVec 16) (s : State) : (actLoadCommit check s).1.intercom.emergency = s.intercom.emergency := by
  unfold actLoadCommit installSet
  repeat' split
  all_goals simp

theorem actSetClock_emergency (day ds : Nat) (s : State) : (actSetClock day ds s).1.intercom.emergency = s.intercom.emergency := by
  unfold actSetClock
  split <;> simp

theorem actHire_emergency (t : TariffArg) (st : Station) (s : State) : (actHire t st s).1.intercom.emergency = s.intercom.emergency := by
  obtain hs | ⟨i, -, -, hs⟩ := actHire_cases t st s <;> rw [hs]
  simp

theorem actCloseTrip_emergency (n : Byte) (s : State) : (actCloseTrip n s).1.intercom.emergency = s.intercom.emergency := by
  refine onSlot_keeps (C := fun t : State => t.intercom.emergency = s.intercom.emergency) rfl fun i _ => ?_
  simp [vacate]

theorem actHangup_emergency (s : State) : (actHangup s).1.intercom.emergency = s.intercom.emergency := by
  unfold actHangup
  dsimp only [State.setIntercom]
  split <;> rfl

/-- EMERGENCY_CLEAR alone of the requests changes the emergency state. -/
theorem RequestName.Does.emergency {r : RequestName} {q : Port} {act : Action} (hr : r.Does q act) (s : State) (hclear : r ≠ .emergencyClear) :
    (act s).1.intercom.emergency = s.intercom.emergency := by
  by_cases hi : .intercom ∈ r.reach
  · cases hr <;> simp only [reach, List.mem_cons, List.not_mem_nil, reduceCtorEq, or_false, or_self] at hi
    case loadCommit check => exact actLoadCommit_emergency check s
    case setClock day ds => exact actSetClock_emergency day ds s
    case hire t st => exact actHire_emergency t st s
    case closeTrip n => exact actCloseTrip_emergency n s
    case policySet p => exact actPolicySet_emergency p s
    case emergencyClear => exact absurd rfl hclear
    case answer st => exact actAnswer_emergency st s
    case hangup => exact actHangup_emergency s
    case gainsSet => rfl
    case chimeSet c half amplitude duration gate => exact actChimeSet_emergency c half amplitude duration gate s
  · obtain ⟨-, -, -, -, -, -, -, -, -, -, hintercom, -⟩ := hr.changesOnly s
    rw [hintercom.resolve_left hi]

theorem RequestName.Does.voiceHolds {r : RequestName} {q : Port} {act : Action} (hr : r.Does q act) {s : State} (h : s.VoiceHolds) :
    (act s).1.VoiceHolds := by
  by_cases hclear : r = .emergencyClear
  · subst hclear
    cases hr
    unfold actEmergencyClear
    split
    · exact fun _ => changeLatch_noVoice s
    · exact h
  · refine h.of_ports (hr.emergency s hclear) fun hp => ?_
    by_cases hl : .link ∈ r.reach
    · cases hr <;> simp only [reach, List.mem_cons, List.not_mem_nil, reduceCtorEq, or_false, or_self] at hl
      case routeSet n c e =>
        unfold actRouteSet
        split
        · exact hp
        · refine ⟨hp.closed, fun q => ?_⟩
          cases c <;> exact hp.holds q
      case portStatus clear =>
        unfold actPortStatus
        cases clear
        · exact hp
        · refine ⟨hp.closed, fun q' => ?_⟩
          exact (actPortStatus_port_of_clear q q' s).symm ▸ hp.holds q'
    · exact hp.does hr hl

theorem takeButtons_emergency (left right : Bool) (s : State) : (takeButtons left right s).intercom.emergency = s.intercom.emergency := by
  unfold takeButtons
  dsimp only
  split_ifs <;> simp

theorem voiceHolds_rules : EventRules State.VoiceHolds State.VoiceHolds where
  weaken _ h := h
  settle s h := h.of_ports (by simp) fun hp => .ite hp.noVoice_shutPort.same hp
  reply _ _ _ h := h.of_ports (by simp) fun hp => hp.emit
  action _ _ _ _ hr h := hr.voiceHolds h
  restart _ _ _ h := h.of_ports (by simp) fun hp => hp.noVoice_setPort (.inl rfl)
  bringUp _ _ _ h := h.of_ports rfl fun hp => hp.noVoice_setPort (.inl rfl)
  goUp _ _ _ _ _ h := h.of_ports (by simp) fun hp => hp.noVoice_goUp
  checkError q s _ h := by
    unfold failCheck
    split
    · exact h
    · exact h.of_ports rfl fun hp => hp.noVoice_setPort (.inl rfl)
  discard _ _ _ _ _ h := h.of_ports (by simp) fun hp => hp.discardAtIngress
  copies _ _ _ _ h := h.of_ports (by simp) fun hp => hp.copyTelemetry
  pass _ _ _ _ h := h.of_ports (by simp) fun hp => hp.routePass
  wake _ _ h := h.of_ports (by simp) fun hp => hp.noVoice_wakeHub
  ignition on s h := h.of_ports (by simp) fun hp => .ite (State.Ports.noVoice_wakeHub hp.same) hp.same
  alarm on s h := by
    unfold takeAlarm
    dsimp only
    split
    · exact fun hclear => absurd hclear (by simp [changeLatch_emergency])
    · exact h.of_ports rfl fun hp => hp.same
  count _ _ h := h.of_ports (by simp) fun hp => hp.takeCount
  signStat _ _ h := h.of_ports (by simp) fun hp => hp.takeSignStat
  audioP payload s h := by
    refine fun hclear => ?_
    have hem : s.intercom.emergency = false := by simpa using hclear
    have hp := h hem
    unfold takeAudioP
    split
    · exact hp
    · rename_i buttons bytes
      dsimp only
      unfold formListenBlock
      dsimp only
      split
      · rename_i hlisten
        simp [IntercomUnit.listening, takeButtons_emergency, hem] at hlisten
      · exact hp.takeButtons.formDriverBlock (noVoiceAtD_voiceClosed (by decide))
  audioC _ _ h := h.of_ports (by simp) fun hp => hp.takeAudioC (noVoiceAtD_voiceClosed (by decide))
  cardStage _ _ h := h.of_ports (by simp) fun hp => hp.takeCardStage
  authAsk _ _ h := h.of_ports (by simp) fun hp => hp.takeAuthAsk
  authAnswer _ _ h := h.of_ports (by simp) fun hp => hp.takeAuthAnswer
  uploadAck _ _ h := h.of_ports (by simp) fun hp => hp.takeUploadAck
  tick _ _ h := h.of_ports (by simp) fun hp => hp.takeTick
  cadence _ _ h := h.of_ports (by simp) fun hp => hp.takeCadence
  offer _ h := h.of_ports (by simp) fun hp => hp.offerExpiry
  answer _ h := h.of_ports (by simp) fun hp => hp.answerExpiry
  upload _ h := h.of_ports (by simp) fun hp => hp.uploadExpiry
  call _ h := h.of_ports (by simp) fun hp => hp.callExpiry
  park _ _ h := h.of_ports (by simp) fun hp => hp.noVoice_parkHub
  silence q s h := by
    refine h.of_ports (by simp) fun hp => ?_
    unfold silenceExpiry
    split
    · exact hp
    · exact .ite hp.noVoice_goDown (hp.noVoice_setPort (.inl rfl))
  quiet q _ h := h.of_ports rfl fun hp => hp.setPort (PortState.quietExpiry_noVoice (hp.holds q))
  complete q _ h := h.of_ports rfl fun hp => hp.setPort (PortState.complete_noVoice (hp.holds q))

/-! ### The call protocol (R144) -/

/-- The intercom's state, its sets, and whether its call timer runs. -/
structure CallState where
  state : IntercomState
  calling : StationSet
  opened : StationSet
  timed : Bool

def IntercomUnit.call (x : IntercomUnit) : CallState := ⟨x.state, x.calling, x.opened, x.callTimer.isSome⟩

/-- The sets and the call timer a state allows. -/
def CallState.Sound (x : CallState) : Prop :=
  match x.state with
  | .quiet => x.calling = .none ∧ x.opened = .none ∧ x.timed = false
  | .calling => x.calling ≠ .none ∧ x.opened = .none ∧ x.timed = true
  | .opened => x.calling = .none ∧ x.opened ≠ .none ∧ x.timed = false
  | .announce => x.opened = .none ∧ x.timed = false

theorem StationSet.isEmpty_iff (x : StationSet) : x.isEmpty = true ↔ x = .none := by
  obtain ⟨l, r⟩ := x
  cases l <;> cases r <;> decide

theorem IntercomUnit.sound_iff (x : IntercomUnit) : x.sound = true ↔ x.call.Sound := by
  unfold sound CallState.Sound call
  cases x.state <;> cases x.callTimer <;>
    simp [← StationSet.isEmpty_iff]

theorem StationSet.union_ne_none_left {x y : StationSet} (h : x ≠ .none) : x.union y ≠ .none := by
  revert h
  obtain ⟨l, r⟩ := x
  obtain ⟨l', r'⟩ := y
  cases l <;> cases r <;> simp [none, union]

theorem StationSet.union_ne_none_right {x y : StationSet} (h : y ≠ .none) : x.union y ≠ .none := by
  revert h
  obtain ⟨l, r⟩ := x
  obtain ⟨l', r'⟩ := y
  cases l' <;> cases r' <;> simp [none, union]

theorem IntercomUnit.startCallTimer_call (x : IntercomUnit) : x.startCallTimer.call = { x.call with timed := true } := rfl

theorem IntercomUnit.hush_sound (x : IntercomUnit) : x.hush.call.Sound := ⟨rfl, rfl, rfl⟩

/-- The stations an ANSWER names. -/
def AnswerStations.set : AnswerStations → StationSet
  | .left => ⟨true, false⟩
  | .right => ⟨false, true⟩
  | .both => ⟨true, true⟩

/-- The intercom unit once a call is answered with these stations (R148). -/
def IntercomUnit.answered (x : IntercomUnit) (named : StationSet) : IntercomUnit :=
  match x.state with
  | .quiet => { x with state := .opened, opened := named }
  | .calling => { x.openWith named with driverPlayer := none }
  | .opened => { x with opened := x.opened.union named }
  | .announce => x.openWith named

theorem actAnswer_eq (stations : AnswerStations) (s : State) :
    actAnswer stations s = if s.isUp .p then
      (s.setIntercom (s.intercom.answered stations.set),
        .ok [enc IntercomState.all (s.intercom.answered stations.set).state, (s.intercom.answered stations.set).opened.byte])
    else (s, .refuse .linkDown) := by
  unfold actAnswer
  cases s.isUp .p <;> cases stations <;> rfl

section call
variable {s : State}

@[simp] theorem triggerChime_call (c : ChimeId) (s : State) : (triggerChime c s).intercom.call = s.intercom.call := by
  unfold triggerChime IntercomUnit.setPlayer
  split
  · split <;> rfl
  · rfl

@[simp] theorem changeBand_call (b : Option Nat) (s : State) : (changeBand b s).intercom.call = s.intercom.call := by
  unfold changeBand
  dsimp only
  repeat' split
  all_goals simp

@[simp] theorem evaluateBand_call (s : State) : (evaluateBand s).intercom.call = s.intercom.call := by
  unfold evaluateBand
  dsimp only
  split <;> simp

variable (h : s.intercom.call.Sound)
include h

theorem callRise_sound {st : Station} (hst : stationSet st ≠ .none) : (callRise st s).intercom.call.Sound := by
  unfold callRise
  dsimp only
  split
  · rename_i hq
    simp only [CallState.Sound, IntercomUnit.call, hq] at h
    simp only [State.setIntercom_intercom, notifyCall_intercom, IntercomUnit.startCallTimer_call, triggerChime_call]
    exact ⟨hst, h.2.1, rfl⟩
  · rename_i hq
    simp only [CallState.Sound, IntercomUnit.call, hq] at h
    split
    · simpa only [CallState.Sound, IntercomUnit.call, hq] using h
    · simp only [State.setIntercom_intercom, notifyCall_intercom, IntercomUnit.startCallTimer_call, triggerChime_call]
      simp only [IntercomUnit.call, hq]
      exact ⟨StationSet.union_ne_none_left h.1, h.2.1, rfl⟩
  · rename_i hq
    simp only [CallState.Sound, IntercomUnit.call, hq] at h
    split
    · simpa only [CallState.Sound, IntercomUnit.call, hq] using h
    · simp only [State.setIntercom_intercom, notifyCall_intercom, triggerChime_call]
      simp only [IntercomUnit.call, hq]
      exact ⟨h.1, StationSet.union_ne_none_left h.2.1, h.2.2⟩
  · rename_i hq
    simp only [CallState.Sound, IntercomUnit.call, hq] at h
    split
    · simpa only [CallState.Sound, IntercomUnit.call, hq] using h
    · simp only [State.setIntercom_intercom, notifyCall_intercom]
      simp only [IntercomUnit.call, hq]
      exact h

theorem openWith_sound {more : StationSet} (hmore : more ≠ .none ∨ s.intercom.calling ≠ .none) : (s.intercom.openWith more).call.Sound :=
  ⟨rfl, hmore.elim StationSet.union_ne_none_right StationSet.union_ne_none_left, rfl⟩

theorem talkRise_sound : (talkRise s).intercom.call.Sound := by
  unfold talkRise
  dsimp only
  split
  · rename_i hq
    simp only [CallState.Sound, IntercomUnit.call, hq] at h
    exact ⟨h.2.1, h.2.2⟩
  · rename_i hq
    have hcalls : s.intercom.calling ≠ .none := by
      simp only [CallState.Sound, IntercomUnit.call, hq] at h
      exact h.1
    exact openWith_sound h (more := .none) (.inr hcalls)
  · exact h
  · exact h

theorem talkFall_sound : (talkFall s).intercom.call.Sound := by
  unfold talkFall
  dsimp only
  split
  · rename_i hq
    simp only [CallState.Sound, IntercomUnit.call, hq] at h
    split
    · rename_i hempty
      exact ⟨(StationSet.isEmpty_iff _).mp hempty, h⟩
    · rename_i hwait
      rw [triggerChime_call]
      exact ⟨fun hn => hwait ((StationSet.isEmpty_iff _).mpr hn), h.1, rfl⟩
  · exact h

theorem takeButtons_sound (left right : Bool) : (takeButtons left right s).intercom.call.Sound := by
  have hleft : (if left && !s.intercom.seenLeft then callRise .left s else s).intercom.call.Sound := by
    split
    · exact callRise_sound h (by decide)
    · exact h
  unfold takeButtons
  dsimp only
  generalize (if left && !s.intercom.seenLeft then callRise .left s else s) = s1 at hleft ⊢
  split
  · exact callRise_sound hleft (by decide)
  · exact hleft

theorem takeTalkKey_sound (talk : Bool) : (takeTalkKey talk s).intercom.call.Sound := by
  unfold takeTalkKey
  dsimp only
  split
  · exact talkRise_sound h
  · split
    · exact talkFall_sound h
    · exact h

theorem takeAudioP_sound (payload : List Byte) : (takeAudioP payload s).intercom.call.Sound := by
  have hblocks : ∀ (u : State) l r, (formListenBlock l r (formDriverBlock l r u)).intercom.call = u.intercom.call := by
    intro u l r
    unfold formListenBlock formDriverBlock
    dsimp only
    repeat' split
    all_goals rfl
  unfold takeAudioP
  split
  · exact h
  · rw [hblocks]
    exact takeButtons_sound h _ _

theorem takeAudioC_sound (payload : List Byte) : (takeAudioC payload s).intercom.call.Sound := by
  have hblock : ∀ (u : State) d, (formPartitionBlock d u).intercom.call = u.intercom.call := by
    intro u d
    unfold formPartitionBlock
    dsimp only
    split <;> rfl
  unfold takeAudioC
  split
  · exact h
  · rw [hblock]
    exact takeTalkKey_sound h _

theorem callExpiry_sound : (callExpiry s).intercom.call.Sound := by
  unfold callExpiry
  split
  · simp only [notifyMissed_intercom]
    exact IntercomUnit.hush_sound s.intercom
  · exact h

theorem tripClosedAt_sound (st : Station) : (tripClosedAt st s).intercom.call.Sound := by
  unfold tripClosedAt
  dsimp only
  split
  · rename_i hopen
    simp only [CallState.Sound, IntercomUnit.call, hopen.1] at h
    split
    · rename_i hlast
      exact ⟨h.1, (StationSet.isEmpty_iff _).mp hlast, h.2.2⟩
    · rename_i hmore
      simp only [State.setIntercom_intercom, IntercomUnit.call, hopen.1]
      exact ⟨h.1, fun hn => hmore ((StationSet.isEmpty_iff _).mpr hn), h.2.2⟩
  · exact h

theorem answered_sound {named : StationSet} (hnamed : named ≠ .none) : (s.intercom.answered named).call.Sound := by
  unfold IntercomUnit.answered
  split
  · rename_i hq
    simp only [CallState.Sound, IntercomUnit.call, hq] at h
    exact ⟨h.1, hnamed, h.2.2⟩
  · exact openWith_sound h (more := named) (.inl hnamed)
  · rename_i hq
    simp only [CallState.Sound, IntercomUnit.call, hq] at h
    simp only [IntercomUnit.call, hq]
    exact ⟨h.1, StationSet.union_ne_none_left h.2.1, h.2.2⟩
  · exact openWith_sound h (more := named) (.inl hnamed)

theorem actAnswer_sound (stations : AnswerStations) : (actAnswer stations s).1.intercom.call.Sound := by
  rw [actAnswer_eq]
  split
  · exact answered_sound h (by cases stations <;> decide)
  · exact h

theorem actHangup_sound : (actHangup s).1.intercom.call.Sound := by
  unfold actHangup
  simp only [State.setIntercom_intercom]
  split
  · exact h
  · exact IntercomUnit.hush_sound s.intercom

end call

/-! ### Players (R151, R158) -/

/-- From `s` to `t` C and P have the link state they had, and a player has become ACTIVE only on a port that is UP. -/
structure State.Plays (s t : State) : Prop where
  upC : t.isUp .c = s.isUp .c
  upP : t.isUp .p = s.isUp .p
  driver : t.intercom.driverPlayer.isSome = true → s.intercom.driverPlayer.isSome = true ∨ s.isUp .c = true
  partition : t.intercom.partitionPlayer.isSome = true → s.intercom.partitionPlayer.isSome = true ∨ s.isUp .p = true

namespace State.Plays

variable {s t u : State}

theorem trans (h : s.Plays t) (h' : t.Plays u) : s.Plays u where
  upC := h'.upC.trans h.upC
  upP := h'.upP.trans h.upP
  driver hd := (h'.driver hd).elim h.driver fun hc => .inr (h.upC ▸ hc)
  partition hd := (h'.partition hd).elim h.partition fun hp => .inr (h.upP ▸ hp)

/-- An event whose players are no more ACTIVE than before. -/
theorem of_face (hface : t.link.face = s.link.face)
    (hdriver : t.intercom.driverPlayer.isSome = true → s.intercom.driverPlayer.isSome = true)
    (hpartition : t.intercom.partitionPlayer.isSome = true → s.intercom.partitionPlayer.isSome = true) : s.Plays t where
  upC := isUp_of_face _ _ hface _
  upP := isUp_of_face _ _ hface _
  driver hd := .inl (hdriver hd)
  partition hd := .inl (hpartition hd)

theorem refl (s : State) : s.Plays s := .of_face rfl id id

theorem of_intercom (hintercom : t.intercom = s.intercom) (hface : t.link.face = s.link.face) : s.Plays t :=
  .of_face hface (hintercom ▸ id) (hintercom ▸ id)

theorem setIntercom {x : IntercomUnit} (hdriver : x.driverPlayer.isSome = true → s.intercom.driverPlayer.isSome = true)
    (hpartition : x.partitionPlayer.isSome = true → s.intercom.partitionPlayer.isSome = true) : s.Plays (s.setIntercom x) :=
  .of_face rfl hdriver hpartition

theorem ite {c : Prop} [Decidable c] (ht : s.Plays t) (hu : s.Plays u) : s.Plays (if c then t else u) := by
  split <;> assumption

theorem notifyC (n : Notice) (fields : List Byte) (s : State) : s.Plays (notifyC n fields s) := .of_intercom rfl (by simp)

theorem notifyMissed (set : StationSet) (s : State) : s.Plays (notifyMissed set s) := .of_intercom (by simp) (by simp)

theorem triggerChime (c : ChimeId) (s : State) : s.Plays (triggerChime c s) := by
  unfold Machine.triggerChime
  split
  · rename_i hup
    cases c
    case call => exact ⟨rfl, rfl, fun _ => .inr hup, .inl⟩
    all_goals exact ⟨rfl, rfl, .inl, fun _ => .inr hup⟩
  · exact refl s

theorem notifyCall (st : Station) (s : State) : s.Plays (notifyCall st s) := .notifyC ..

theorem callRise (st : Station) (s : State) : s.Plays (callRise st s) := by
  unfold Machine.callRise
  dsimp only
  split
  · refine (((setIntercom ?_ ?_).trans (triggerChime ..)).trans (notifyCall ..)).trans (setIntercom ?_ ?_)
    all_goals exact id
  · refine ite (refl s) ((((setIntercom ?_ ?_).trans (triggerChime ..)).trans (notifyCall ..)).trans (setIntercom ?_ ?_))
    all_goals exact id
  · refine ite (refl s) (((setIntercom ?_ ?_).trans (triggerChime ..)).trans (notifyCall ..))
    all_goals exact id
  · refine ite (refl s) ((setIntercom ?_ ?_).trans (notifyCall ..))
    all_goals exact id

theorem talkRise (s : State) : s.Plays (talkRise s) := by
  unfold Machine.talkRise
  dsimp only
  split
  · exact setIntercom id id
  · exact setIntercom (fun h => by simp at h) id
  · exact refl s
  · exact refl s

theorem talkFall (s : State) : s.Plays (talkFall s) := by
  unfold Machine.talkFall
  dsimp only
  split
  · refine ite (setIntercom ?_ ?_) ((setIntercom ?_ ?_).trans (triggerChime ..))
    all_goals exact id
  · exact refl s

theorem takeButtons (left right : Bool) (s : State) : s.Plays (takeButtons left right s) := by
  unfold Machine.takeButtons
  dsimp only
  refine ((ite (callRise ..) (refl s)).trans (ite (callRise ..) (refl _))).trans (setIntercom ?_ ?_)
  all_goals exact id

theorem takeTalkKey (talk : Bool) (s : State) : s.Plays (takeTalkKey talk s) := by
  unfold Machine.takeTalkKey
  dsimp only
  refine (ite (talkRise s) (ite (talkFall s) (refl s))).trans (setIntercom ?_ ?_)
  all_goals exact id

theorem advancePlayer_isSome {p : Option Playing} (h : (advancePlayer p).isSome = true) : p.isSome = true := by
  cases p
  · exact h
  · rfl

theorem formDriverBlock (l r : List Int) (s : State) : s.Plays (formDriverBlock l r s) := by
  unfold Machine.formDriverBlock
  dsimp only
  split
  · exact of_face (by simp) advancePlayer_isSome id
  · exact refl s

theorem formPartitionBlock (d : List Int) (s : State) : s.Plays (formPartitionBlock d s) := by
  unfold Machine.formPartitionBlock
  dsimp only
  split
  · exact of_face (by simp) id advancePlayer_isSome
  · exact refl s

theorem formListenBlock (l r : List Int) (s : State) : s.Plays (formListenBlock l r s) := by
  unfold Machine.formListenBlock
  dsimp only
  split
  · exact of_face (by simp) id id
  · exact refl s

theorem takeAudioP (payload : List Byte) (s : State) : s.Plays (takeAudioP payload s) := by
  unfold Machine.takeAudioP
  split
  · exact refl s
  · exact ((takeButtons ..).trans (formDriverBlock ..)).trans (formListenBlock ..)

theorem takeAudioC (payload : List Byte) (s : State) : s.Plays (takeAudioC payload s) := by
  unfold Machine.takeAudioC
  split
  · exact refl s
  · exact (takeTalkKey ..).trans (formPartitionBlock ..)

theorem callExpiry (s : State) : s.Plays (callExpiry s) := by
  unfold Machine.callExpiry
  split
  · refine (setIntercom (fun h => ?_) ?_).trans (notifyMissed ..)
    · simp at h
    · exact id
  · exact refl s

theorem tripClosedAt (st : Station) (s : State) : s.Plays (tripClosedAt st s) := by
  unfold Machine.tripClosedAt
  dsimp only
  exact ite (ite (setIntercom id id) (setIntercom id id)) (refl s)

theorem changeBand (b : Option Nat) (s : State) : s.Plays (changeBand b s) := by
  unfold Machine.changeBand
  dsimp only
  have htold : s.Plays (match b with
      | some t => tariffChange t (Machine.notifyC .band [bandByte b] (s.setTariff { s.tariff with band := b }))
      | none => Machine.notifyC .band [bandByte b] (s.setTariff { s.tariff with band := b })) := by
    split <;> exact of_intercom (by simp) (by simp)
  split
  · exact htold.trans (triggerChime ..)
  · exact htold

theorem evaluateBand (s : State) : s.Plays (evaluateBand s) := by
  unfold Machine.evaluateBand
  exact ite (refl s) (changeBand ..)

theorem minuteBoundary (s : State) : s.Plays (minuteBoundary s) := by
  unfold Machine.minuteBoundary
  exact ite (evaluateBand ..) (refl s)

end State.Plays

/-! ### The intercom sound (R144, R151, R158) -/

/-- The intercom's state and timer agree, and its players play only toward ports that are UP. -/
structure State.Talks (s : State) : Prop where
  sound : s.intercom.call.Sound
  driver : s.intercom.driverPlayer.isSome = true → s.isUp .c = true
  partition : s.intercom.partitionPlayer.isSome = true → s.isUp .p = true

theorem State.intercomSound_iff (s : State) : s.intercomSound = true ↔ s.Talks ∧ s.VoiceHolds := by
  simp only [intercomSound, State.voiceHolds_iff, Bool.and_eq_true, Bool.or_eq_true, IntercomUnit.sound_iff]
  refine and_congr_left fun _ => ⟨?_, ?_⟩
  · rintro ⟨⟨hs, hc⟩, hp⟩
    exact ⟨hs, fun h => hc.resolve_left (by simpa [Option.isSome_iff_ne_none] using h),
      fun h => hp.resolve_left (by simpa [Option.isSome_iff_ne_none] using h)⟩
  · rintro ⟨hs, hc, hp⟩
    exact ⟨⟨hs, by cases h : s.intercom.driverPlayer <;> simp_all⟩, by cases h : s.intercom.partitionPlayer <;> simp_all⟩

theorem State.paidChimed_call (s : State) : s.paidChimed.call = s.intercom.call := by
  rw [← triggerChime_paid_intercom, triggerChime_call]

theorem changeLatch_intercom (on : Bool) (s : State) : (changeLatch on s).intercom = { s.intercom with emergency := on } := by
  unfold changeLatch deliverEmergency
  cases on <;> simp

namespace State.Talks

variable {s t : State} (h : s.Talks)
include h

theorem of_plays (hplays : s.Plays t) (hsound : t.intercom.call.Sound) : t.Talks where
  sound := hsound
  driver hd := by
    rw [hplays.upC]
    exact (hplays.driver hd).elim h.driver id
  partition hp := by
    rw [hplays.upP]
    exact (hplays.partition hp).elim h.partition id

/-- Kept where the intercom stands and the ports of its players stay UP. -/
theorem of_intercom (hintercom : t.intercom = s.intercom) (hc : s.isUp .c = true → t.isUp .c = true) (hp : s.isUp .p = true → t.isUp .p = true) :
    t.Talks := ⟨hintercom ▸ h.sound, fun hd => hc (h.driver (hintercom ▸ hd)), fun hd => hp (h.partition (hintercom ▸ hd))⟩

theorem of_face (hintercom : t.intercom = s.intercom) (hface : t.link.face = s.link.face) : t.Talks :=
  h.of_plays (.of_intercom hintercom hface) (hintercom ▸ h.sound)

theorem setPort {q : Port} {x : PortState} (hx : (s.port q).up = true → x.up = true) : (s.setPort q x).Talks := by
  have hup : ∀ r, s.isUp r = true → (s.setPort q x).isUp r = true := by
    intro r hr
    unfold State.isUp
    by_cases hq : r = q
    · subst hq
      rw [State.port_setPort_same]
      exact hx hr
    · rw [State.port_setPort_other _ _ _ _ hq]
      exact hr
  exact h.of_intercom rfl (hup _) (hup _)

/-- A port going DOWN: at C and at P the players stop (R151). -/
theorem goDown (q : Port) : (goDown q s).Talks := by
  have hother : q ≠ .c → q ≠ .p → (Machine.goDown q s).Talks := by
    intro hc hp
    have hdown : (Machine.notifyLink q false (s.setPort q (s.port q).down)).Talks := by
      have hup : ∀ r, r ≠ q → (Machine.notifyLink q false (s.setPort q (s.port q).down)).isUp r = s.isUp r := by
        intro r hr
        have hface : (Machine.notifyLink q false (s.setPort q (s.port q).down)).link.face = (s.setPort q (s.port q).down).link.face := by
          simp [Machine.notifyLink]
        rw [isUp_of_face _ _ hface]
        unfold State.isUp
        rw [State.port_setPort_other _ _ _ _ hr]
      exact h.of_intercom (by simp) (fun hc' => hup .c (Ne.symm hc) ▸ hc') (fun hp' => hup .p (Ne.symm hp) ▸ hp')
    refine hdown.of_face ?_ ?_
    all_goals cases q
    case refine_1.c | refine_2.c => exact absurd rfl hc
    case refine_1.p | refine_2.p => exact absurd rfl hp
    all_goals simp [Machine.goDown, deliverDown]
  cases q
  case c =>
    refine ⟨?_, fun hd => by simp [Machine.goDown, deliverDown, intercomConsoleDown] at hd,
      fun hd => by simp [Machine.goDown, deliverDown, intercomConsoleDown] at hd⟩
    exact talkFall_sound (s := Machine.notifyLink .c false (s.setPort .c (s.port .c).down)) h.sound
  case p =>
    refine ⟨?_, fun hd => by simp [Machine.goDown, deliverDown, intercomPartitionDown] at hd,
      fun hd => by simp [Machine.goDown, deliverDown, intercomPartitionDown] at hd⟩
    exact ⟨rfl, rfl, rfl⟩
  all_goals exact hother (by decide) (by decide)

theorem shutPort (q : Port) : (shutPort q s).Talks := by
  have hclosed : (s.setPort q (s.port q).closed).Talks := h.setPort id
  unfold Machine.shutPort
  dsimp only
  split
  · exact hclosed.goDown q
  · exact hclosed

theorem openPort (q : Port) (hq : (s.port q).sound = true) : (openPort q s).Talks := by
  unfold Machine.openPort
  split
  · rename_i hshut
    refine h.setPort fun hup => ?_
    rw [PortState.sound_iff] at hq
    grind
  · exact h

theorem changeLatch (on : Bool) : (changeLatch on s).Talks := by
  refine h.of_plays (.of_face ?_ ?_ ?_) ?_
  · simp [Machine.changeLatch]
  all_goals simp only [changeLatch_intercom]
  · exact id
  · exact id
  · exact h.sound

theorem evaluateBand : (evaluateBand s).Talks := h.of_plays (.evaluateBand s) (by rw [evaluateBand_call]; exact h.sound)

theorem tripClosedAt (st : Station) : (tripClosedAt st s).Talks := h.of_plays (.tripClosedAt st s) (tripClosedAt_sound h.sound st)

theorem setTotals {x : Totals} : (s.setTotals x).Talks := h.of_face rfl rfl

theorem takeTick (b : Bool) : (takeTick b s).Talks := by
  have hclock : (s.setTariff { s.tariff with clock := s.tariff.clock.advance }).Talks := h.of_face rfl rfl
  have hminute : ∀ {u : State}, u.Talks → (minuteBoundary u).Talks := fun {u} hu => by
    unfold minuteBoundary
    split
    · exact hu.evaluateBand
    · exact hu
  have hfare : ∀ {u : State}, u.Talks → (fareTick u).Talks := fun {u} hu => hu.of_face (by simp) (by simp)
  unfold Machine.takeTick
  dsimp only
  split
  · exact (hfare (hminute hclock)).setTotals
  · exact (hminute (hfare hclock)).setTotals

/-- The PAID chime is the one thing a payment does to the intercom (R158). -/
theorem of_chimed (hintercom : t.intercom = s.intercom ∨ t.intercom = s.paidChimed) (hface : t.link.face = s.link.face) : t.Talks := by
  rcases hintercom with hsame | hchimed
  · exact h.of_face hsame hface
  · have hplays := State.Plays.triggerChime .paid s
    refine h.of_plays ⟨isUp_of_face _ _ hface _, isUp_of_face _ _ hface _, ?_, ?_⟩ ?_
    · rw [hchimed, ← triggerChime_paid_intercom]
      exact hplays.driver
    · rw [hchimed, ← triggerChime_paid_intercom]
      exact hplays.partition
    · rw [hchimed, State.paidChimed_call]
      exact h.sound

theorem takeAuthAsk (fields : List Byte) : (takeAuthAsk fields s).Talks := by
  refine h.of_chimed ?_ (by simp)
  obtain hf | ⟨slot, result, ref, hf⟩ | ⟨r, rest, x, -, -, -, hf⟩ := takeAuthAsk_cases fields s <;> rw [hf]
  · exact .inl rfl
  · exact .inl (by simp)
  · split
    · exact .inl (by simp)
    · unfold decideOffline
      split
      · left
        simp
      · right
        rw [approveOffline_intercom]

theorem takeAuthAnswer (fields : List Byte) : (takeAuthAnswer fields s).Talks := by
  refine h.of_chimed ?_ (by simp)
  unfold Machine.takeAuthAnswer
  split
  · split
    · exact .inr answerApproved_intercom
    · exact .inl (by simp)
    · exact .inl rfl
  · exact .inl rfl

theorem takeCadence (b : Bool) : (takeCadence b s).Talks := by
  have hcounted : (if b then countCadence (signCount s) else signCount (countCadence s)).Talks := by
    split <;> exact h.of_face (by simp) (by simp)
  unfold Machine.takeCadence countCall
  generalize (if b then countCadence (signCount s) else signCount (countCadence s)) = u at hcounted ⊢
  split
  · exact ⟨hcounted.sound, hcounted.driver, hcounted.partition⟩
  · exact hcounted

theorem wakeHub (hsound : s.Ports fun _ x => x.sound = true) : (wakeHub s).Talks := by
  have hwoken : ({ s with power := s.power.wake } : State).Talks := h.of_face rfl rfl
  have hports : ({ s with power := s.power.wake } : State).Ports fun _ x => x.sound = true := hsound.same
  have hc := hports.openPort_sound (q := .c)
  have hp := hc.openPort_sound (q := .p)
  have hk := hp.openPort_sound (q := .k)
  have hopened := (((hwoken.openPort .c (hports.holds _)).openPort .p (hc.holds _)).openPort .k (hp.holds _)).openPort .s (hk.holds _)
  exact hopened.of_face (by simp [Machine.wakeHub]) (by simp [Machine.wakeHub])

theorem parkHub : (parkHub s).Talks := by
  have hdark : (parkSign (notifyD .parking [] { s with power := s.power.park })).Talks := h.of_face (by simp) (by simp)
  have hhushed : ((parkSign (notifyD .parking [] { s with power := s.power.park })).setIntercom
      (parkSign (notifyD .parking [] { s with power := s.power.park })).intercom.park).Talks :=
    ⟨⟨rfl, rfl, rfl⟩, fun hd => by simp [IntercomUnit.park] at hd, fun hd => by simp [IntercomUnit.park] at hd⟩
  have hshut := ((hhushed.shutPort .c).shutPort .p).shutPort .k
  unfold Machine.parkHub
  dsimp only
  generalize Machine.shutPort .k _ = u at hshut ⊢
  have hblocks : (parkBlocks { u with cadence := u.cadence.park }).Talks := hshut.of_face rfl rfl
  unfold parkSignPort
  split
  · exact hblocks.of_face rfl rfl
  · exact hblocks.shutPort .s

theorem does {r : RequestName} {q : Port} {act : Action} (hr : r.Does q act) : (act s).1.Talks := by
  by_cases hi : .intercom ∈ r.reach
  · cases hr <;> simp only [RequestName.reach, List.mem_cons, List.not_mem_nil, reduceCtorEq, or_false, or_self] at hi
    case loadCommit check =>
      unfold actLoadCommit
      split
      · exact h
      · split
        · exact h.of_face rfl rfl
        · unfold installSet
          exact evaluateBand (h.of_face rfl rfl)
    case setClock day ds =>
      unfold actSetClock
      split
      · exact h
      · exact evaluateBand (h.of_face rfl rfl)
    case hire t st =>
      obtain hs | ⟨i, -, -, hs⟩ := actHire_cases t st s <;> rw [hs]
      · exact h
      · exact h.evaluateBand.of_face (by simp) (by simp)
    case closeTrip n =>
      refine onSlot_keeps (C := State.Talks) h fun i _ => ?_
      have htold : (s.setTotals (s.shift.totals.post (s.party i))).Talks := h.of_face rfl rfl
      exact (htold.tripClosedAt (s.party i).station).of_face (by simp [vacate]) (by simp [vacate])
    case policySet p =>
      unfold actPolicySet
      split
      · exact h
      · split
        · exact h
        · exact ⟨h.sound, h.driver, h.partition⟩
    case emergencyClear =>
      unfold actEmergencyClear
      split
      · exact h.changeLatch false
      · exact h
    case answer st =>
      refine h.of_plays ?_ (actAnswer_sound h.sound st)
      rw [actAnswer_eq]
      split
      · refine .setIntercom ?_ ?_
        all_goals
          unfold IntercomUnit.answered
          split <;> simp [IntercomUnit.openWith]
      · exact .refl s
    case hangup =>
      refine h.of_plays ?_ (actHangup_sound h.sound)
      unfold actHangup
      refine .setIntercom ?_ ?_
      all_goals
        dsimp only
        split <;> simp [IntercomUnit.hush]
    case gainsSet => exact ⟨h.sound, h.driver, h.partition⟩
    case chimeSet c half amplitude duration gate =>
      unfold actChimeSet
      split
      · exact h
      · exact ⟨h.sound, h.driver, h.partition⟩
  · obtain ⟨-, hlink, -, -, -, -, -, -, -, -, hintercom, -⟩ := hr.changesOnly s
    have hsame := hintercom.resolve_left hi
    by_cases hl : .link ∈ r.reach
    · refine h.of_intercom hsame ?_ ?_
      all_goals
        cases hr <;> simp only [RequestName.reach, List.mem_cons, List.not_mem_nil, reduceCtorEq, or_false, or_self] at hl
        case routeSet n c e =>
          unfold actRouteSet LinkSwitch.setRoute
          repeat' split
          all_goals exact id
        case portStatus clear =>
          unfold actPortStatus
          cases clear <;> exact id
    · exact h.of_face hsame (hlink.resolve_left hl)

end State.Talks

theorem PortState.complete_up (x : PortState) : x.complete.up = x.up := by
  unfold complete arbitrate
  repeat' split
  all_goals rfl

theorem PortState.quietExpiry_up (x : PortState) : x.quietExpiry.up = x.up := by
  unfold quietExpiry
  split <;> rfl

theorem intercomSound_rules :
    EventRules (fun s => s.linkSound = true ∧ s.Talks) fun s => s.linkSound = true ∧ s.Talks := by
  constructor
  case weaken => exact fun _ h => h
  case settle =>
    refine fun s h => ⟨linkSound_rules.settle s h.1, ?_⟩
    unfold settleSign
    split
    · exact (h.2.shutPort .s).of_face rfl rfl
    · exact h.2
  case action => exact fun r q act s hr h => ⟨linkSound_rules.action r q act s hr h.1, h.2.does hr⟩
  case restart => exact fun q s hq h => ⟨linkSound_rules.restart q s hq h.1, h.2.setPort id⟩
  case bringUp => exact fun q s hq h => ⟨linkSound_rules.bringUp q s hq h.1, h.2.setPort id⟩
  case goUp =>
    refine fun q o s hq hu h => ⟨linkSound_rules.goUp q o s hq hu h.1, ?_⟩
    have hup : (s.setPort q { s.port q with up := true, bringUp := false }).Talks := h.2.setPort fun _ => rfl
    exact hup.of_face (by simp) (by simp [goUp, notifyLink])
  case checkError =>
    refine fun q s hq h => ⟨linkSound_rules.checkError q s hq h.1, ?_⟩
    unfold failCheck
    split
    · exact h.2
    · exact h.2.setPort id
  case wake => exact fun s hp h => ⟨linkSound_rules.wake s hp h.1, h.2.wakeHub (s.linkSound_iff_ports.mp h.1)⟩
  case ignition =>
    refine fun on s h => ⟨linkSound_rules.ignition on s h.1, ?_⟩
    have hon : ({ s with power := s.power.takeIgnition on } : State).Talks := h.2.of_face rfl rfl
    unfold takeIgnitionFlag
    dsimp only
    split
    · exact hon.wakeHub ((s.linkSound_iff_ports.mp h.1).same)
    · exact hon
  case alarm =>
    refine fun on s h => ⟨linkSound_rules.alarm on s h.1, ?_⟩
    unfold takeAlarm
    dsimp only
    split
    · refine State.Talks.changeLatch ?_ true
      exact h.2.of_face rfl rfl
    · exact h.2.of_face rfl rfl
  case audioP => exact fun p s h => ⟨linkSound_rules.audioP p s h.1, h.2.of_plays (.takeAudioP p s) (takeAudioP_sound h.2.sound p)⟩
  case audioC => exact fun p s h => ⟨linkSound_rules.audioC p s h.1, h.2.of_plays (.takeAudioC p s) (takeAudioC_sound h.2.sound p)⟩
  case authAsk => exact fun f s h => ⟨linkSound_rules.authAsk f s h.1, h.2.takeAuthAsk f⟩
  case authAnswer => exact fun f s h => ⟨linkSound_rules.authAnswer f s h.1, h.2.takeAuthAnswer f⟩
  case tick => exact fun b s h => ⟨linkSound_rules.tick b s h.1, h.2.takeTick b⟩
  case cadence => exact fun b s h => ⟨linkSound_rules.cadence b s h.1, h.2.takeCadence b⟩
  case call => exact fun s h => ⟨linkSound_rules.call s h.1, h.2.of_plays (.callExpiry s) (callExpiry_sound h.2.sound)⟩
  case park => exact fun s hr h => ⟨linkSound_rules.park s hr h.1, h.2.parkHub⟩
  case silence =>
    refine fun q s h => ⟨linkSound_rules.silence q s h.1, ?_⟩
    unfold silenceExpiry
    split
    · exact h.2
    · split
      · exact h.2.goDown q
      · exact h.2.setPort id
  case quiet => exact fun q s h => ⟨linkSound_rules.quiet q s h.1, h.2.setPort fun hup => (PortState.quietExpiry_up _).trans hup⟩
  case complete => exact fun q s h => ⟨linkSound_rules.complete q s h.1, h.2.setPort fun hup => (PortState.complete_up _).trans hup⟩
  case reply => exact fun q f s h => ⟨linkSound_rules.reply q f s h.1, h.2.of_face (by simp) (by simp)⟩
  case discard => exact fun q r f b s h => ⟨linkSound_rules.discard q r f b s h.1, h.2.of_face (by simp) (by simp)⟩
  case copies => exact fun q f b s h => ⟨linkSound_rules.copies q f b s h.1, h.2.of_face (by simp) (by simp)⟩
  case pass => exact fun q f b s h => ⟨linkSound_rules.pass q f b s h.1, h.2.of_face (by simp) (by simp)⟩
  case count => exact fun n s h => ⟨linkSound_rules.count n s h.1, h.2.of_face (by simp) (by simp)⟩
  case signStat => exact fun p s h => ⟨linkSound_rules.signStat p s h.1, h.2.of_face (by simp) (by simp)⟩
  case cardStage => exact fun f s h => ⟨linkSound_rules.cardStage f s h.1, h.2.of_face (by simp) (by simp)⟩
  case uploadAck => exact fun f s h => ⟨linkSound_rules.uploadAck f s h.1, h.2.of_face (by simp) (by simp)⟩
  case offer => exact fun s h => ⟨linkSound_rules.offer s h.1, h.2.of_face (by simp) (by simp)⟩
  case answer => exact fun s h => ⟨linkSound_rules.answer s h.1, h.2.of_face (by simp) (by simp)⟩
  case upload => exact fun s h => ⟨linkSound_rules.upload s h.1, h.2.of_face (by simp) (by simp)⟩

/-- Settles O13: each event's effect on the timers and comparators, on the calls and players, and on D's voice lane. -/
theorem cadenceAndIntercomSoundKept : Obligations.CadenceAndIntercomSoundKept := by
  unfold Obligations.CadenceAndIntercomSoundKept
  refine ⟨step_gives cadenceSound_rules (by decide +kernel) (by decide +kernel) (fun _ _ h => h) (fun _ _ h => h), fun s t hl h hs => ?_⟩
  obtain ⟨htalks, hvoice⟩ := s.intercomSound_iff.mp h
  have hreset : ∀ u : State, u.linkSound = true → u.intercomSound = true → (u.linkSound = true ∧ u.Talks) ∧ u.VoiceHolds := fun u hu hi =>
    have hi := u.intercomSound_iff.mp hi
    ⟨⟨hu, hi.1⟩, hi.2⟩
  have hpending : ∀ (u : State) p, (u.linkSound = true ∧ u.Talks) ∧ u.VoiceHolds →
      (({ u with pending := p } : State).linkSound = true ∧ ({ u with pending := p } : State).Talks) ∧ ({ u with pending := p } : State).VoiceHolds :=
    fun u p h => ⟨⟨h.1.1, h.1.2.of_face rfl rfl⟩, h.2.of_ports rfl fun hp => hp.same⟩
  have hkept := step_gives (intercomSound_rules.and voiceHolds_rules) (hreset _ (by decide) (by decide)) (hreset _ (by decide) (by decide))
    hpending hpending s t ⟨⟨hl, htalks⟩, hvoice⟩ hs
  exact t.intercomSound_iff.mpr ⟨hkept.1.2, hkept.2⟩

end Sys2Proof.Machine
end

