-- ==== Sys2Proof/Proofs/Machine.lean ====
section
/-! PROOFS. Statements of the machine as a whole: steps, commands, supply and reset. -/
set_option Elab.async false
namespace Sys2Proof.Machine

/-- Settles O1, by the two branches of a step. -/
theorem stepTakesFrontCommand : Obligations.StepTakesFrontCommand := by
  unfold Obligations.StepTakesFrontCommand
  intro s
  constructor
  · intro c rest h
    simp only [step, h]
  · intro h
    simp only [step, h]

/-- Settles O3, by the commands of supply. -/
theorem supplyEvents : Obligations.SupplyEvents := by
  unfold Obligations.SupplyEvents
  intro s
  refine ⟨fun hoff c hreset hlost => ?_, fun hoff => ?_, fun hon => ?_, _, rfl, rfl, rfl, rfl⟩
  · cases c
    case powerOnReset => exact absurd rfl hreset
    case backupSupplyLost => exact absurd rfl hlost
    case quietTimerExpiry q => exact event_of_off (fun s => s.setPort q (s.port q).quietExpiry) s hoff
    case transmitComplete q => exact event_of_off (fun s => s.setPort q (s.port q).complete) s hoff
    all_goals exact event_of_off _ _ hoff
  · simp [exec, execPowerOnReset, hoff]
  · simp [exec, execPowerOnReset, hon]

/-- The queue of waiting commands is not an event's to change. -/
theorem pending_rules (x : List Instr) : EventRules (fun s => s.pending = x) fun s => s.pending = x := by
  constructor
  case action => exact fun r q act s hr h => (hr.changesOnly s).1.trans h
  case checkError => intro q s _ h; unfold failCheck; split <;> exact h
  all_goals intros
  case weaken => assumption
  all_goals simpa

/-- Settles O2: every command is an event or a change of supply, and no event touches the queue. -/
theorem everyCommandAnswers : Obligations.EveryCommandAnswers := by
  unfold Obligations.EveryCommandAnswers
  intro c s
  have hnext : ∃ t, exec c s = .next t := by
    cases c
    all_goals exact ⟨_, rfl⟩
  obtain ⟨t, ht⟩ := hnext
  refine ⟨t, ht, ?_⟩
  by_cases hreset : c = .powerOnReset
  · subst hreset
    simp only [exec, execPowerOnReset, Host.Outcome.next.injEq] at ht
    rw [← ht]
    split <;> rfl
  · by_cases hlost : c = .backupSupplyLost
    · subst hlost
      simp only [exec, execBackupSupplyLost, Host.Outcome.next.injEq] at ht
      rw [← ht]
    · exact (pending_rules s.pending).exec c s t hreset hlost rfl ht

/-- Settles O4, by evaluating the reset state. -/
theorem resetValues : Obligations.ResetValues := by
  unfold Obligations.ResetValues
  refine ⟨⟨rfl, rfl, rfl, rfl, rfl, rfl, rfl, rfl, rfl, rfl, rfl, rfl, rfl, rfl, rfl, rfl, rfl, rfl, rfl, rfl, rfl, fun q => ?_⟩, by decide +kernel⟩
  cases q <;> exact ⟨rfl, rfl, rfl, rfl⟩

end Sys2Proof.Machine
end

