-- ==== Sys2Proof/Proofs/FrameCheck.lean ====
section
/-! PROOFS. The frame check: it is linear in the register and the bytes together, and so tells two runs that differ in one byte apart; and the
statements of check errors and of the frame check. -/
set_option Elab.async false
namespace Sys2Proof.Machine

/-! ### The check register (R189) -/

theorem crcBit_eq (r : BitVec 16) (b : Bool) : crcBit r b = (r <<< 1) ^^^ (if r.msb != b then 0x1021#16 else 0#16) := by
  unfold crcBit
  split <;> simp

/-- The register is linear: the difference of two registers goes through a bit of difference. -/
theorem crcBit_xor (r r' : BitVec 16) (b b' : Bool) : crcBit (r ^^^ r') (b ^^ b') = crcBit r b ^^^ crcBit r' b' := by
  simp only [crcBit_eq, BitVec.shiftLeft_xor_distrib, BitVec.msb_xor]
  have hmask : (if (r.msb ^^ r'.msb) != (b ^^ b') then 0x1021#16 else 0#16)
      = (if r.msb != b then 0x1021#16 else 0#16) ^^^ (if r'.msb != b' then 0x1021#16 else 0#16) := by
    cases r.msb <;> cases r'.msb <;> cases b <;> cases b' <;> decide
  rw [hmask]
  ac_rfl

theorem crcByte_xor (r r' : BitVec 16) (b b' : Byte) : crcByte (r ^^^ r') (b ^^^ b') = crcByte r b ^^^ crcByte r' b' := by
  simp only [crcByte, List.foldl_cons, List.foldl_nil, BitVec.getLsbD_xor, crcBit_xor]

theorem crcBit_ne_zero {r : BitVec 16} (h : r ≠ 0) : crcBit r false ≠ 0 := by
  intro hz
  rw [crcBit_eq] at hz
  have hlow : r.msb = false := by
    have h0 := congrArg (fun x : BitVec 16 => x.getLsbD 0) hz
    cases hm : r.msb <;> simp [hm] at h0 ⊢
  simp only [hlow, bne_self_eq_false, Bool.false_eq_true, ↓reduceIte, BitVec.xor_zero] at hz
  have hlt := BitVec.msb_eq_false_iff_two_mul_lt.mp hlow
  apply h
  apply BitVec.eq_of_toNat_eq
  have hz' : (r <<< 1).toNat = 0 := by rw [hz]; rfl
  rw [BitVec.toNat_shiftLeft, Nat.shiftLeft_eq] at hz'
  change r.toNat = 0
  omega

theorem crcByte_ne_zero {r : BitVec 16} (h : r ≠ 0) : crcByte r 0 ≠ 0 := by
  simp only [crcByte, List.foldl_cons, List.foldl_nil, BitVec.ofNat_eq_ofNat, BitVec.getLsbD_zero]
  exact crcBit_ne_zero (crcBit_ne_zero (crcBit_ne_zero (crcBit_ne_zero (crcBit_ne_zero (crcBit_ne_zero (crcBit_ne_zero (crcBit_ne_zero h)))))))

/-- A byte other than 0 leaves a mark on the clear register. -/
theorem crcByte_zero_ne_zero : ∀ b : Byte, b ≠ 0 → crcByte 0 b ≠ 0 := by decide +kernel

theorem crcByte_inj_register {r r' : BitVec 16} {b : Byte} (h : crcByte r b = crcByte r' b) : r = r' := by
  by_contra hne
  refine crcByte_ne_zero (r := r ^^^ r') (fun hx => hne (BitVec.xor_eq_zero_iff.mp hx)) ?_
  have hx := crcByte_xor r r' b b
  rwa [BitVec.xor_self, h, BitVec.xor_self] at hx

theorem crcByte_inj_byte {r : BitVec 16} {b b' : Byte} (h : crcByte r b = crcByte r b') : b = b' := by
  by_contra hne
  refine crcByte_zero_ne_zero (b ^^^ b') (fun hx => hne (BitVec.xor_eq_zero_iff.mp hx)) ?_
  have hx := crcByte_xor r r b b'
  rwa [BitVec.xor_self, h, BitVec.xor_self] at hx

theorem crcRun_eq_foldl (bs : List Byte) (r : BitVec 16) : crcRun bs r = bs.foldl crcByte r := by
  induction bs generalizing r with
  | nil => rfl
  | cons b bs ih =>
    have hr : (r.toNat == 65536) = false := by
      have := r.isLt
      simp
      omega
    rw [crcRun, hr, List.foldl_cons, ← ih]
    rfl

theorem crcRun_inj {bs : List Byte} {r r' : BitVec 16} (h : crcRun bs r = crcRun bs r') : r = r' := by
  induction bs generalizing r r' with
  | nil => exact h
  | cons b bs ih =>
    simp only [crcRun_eq_foldl, List.foldl_cons] at ih h
    exact crcByte_inj_register (ih h)

/-- One wrong byte changes the check (R189). -/
theorem crc16_inj_byte {before after : List Byte} {b b' : Byte} (h : crc16 (before ++ b :: after) = crc16 (before ++ b' :: after)) : b = b' := by
  simp only [crc16, crcRun_eq_foldl, List.foldl_append, List.foldl_cons] at h
  simp only [← crcRun_eq_foldl] at h
  exact crcByte_inj_byte (crcRun_inj h)

/-! ### Frames and their bytes (R163, R189) -/

theorem wordBytes_length (w : BitVec 16) : (wordBytes w).length = 2 := rfl

theorem word_of_bytes (w : BitVec 16) : w.extractLsb' 8 8 ++ w.extractLsb' 0 8 = w := by
  rw [BitVec.extractLsb'_append_extractLsb'_eq_extractLsb' (by rfl)]
  exact BitVec.extractLsb'_eq_self

theorem wordBytes_inj {w w' : BitVec 16} (h : wordBytes w = wordBytes w') : w = w' := by
  simp only [wordBytes, List.cons.injEq, and_true] at h
  rw [← word_of_bytes w, h.1, h.2, word_of_bytes]

theorem checkPasses_iff (bytes : List Byte) :
    checkPasses bytes false = true
      ↔ 7 ≤ bytes.length ∧ bytes.drop (bytes.length - 2) = wordBytes (crc16 (bytes.take (bytes.length - 2))) := by
  simp [checkPasses]

theorem frameBytes_pass (f : Frame) : checkPasses (frameBytes f) false = true := by
  have hl : (frameBytes f).length - 2 = (frameBody f).length := by simp [frameBytes, wordBytes_length]
  rw [checkPasses_iff, hl]
  refine ⟨by simp [frameBytes, frameBody, wordBytes_length]; omega, ?_⟩
  rw [frameBytes, List.drop_left, List.take_left]

theorem frameOfBytes_frameBytes (f : Frame) : frameOfBytes (frameBytes f) = some f := by
  obtain ⟨kind, route, tag, len, payload⟩ := f
  simp [frameBytes, frameBody, wordBytes, frameOfBytes, word_of_bytes]

/-- One wrong byte in bytes that pass makes them fail: among the bytes checked the check is another, and the check itself is one alone. -/
theorem checkPasses_of_one_wrong {before after : List Byte} {b b' : Byte} (hne : b ≠ b') (h : checkPasses (before ++ b :: after) false = true) :
    checkPasses (before ++ b' :: after) false = false := by
  by_contra hpass
  rw [Bool.not_eq_false, checkPasses_iff] at hpass
  rw [checkPasses_iff] at h
  obtain ⟨-, hpass⟩ := hpass
  obtain ⟨-, h⟩ := h
  have hl : ∀ x : Byte, (before ++ x :: after).length - 2 = before.length + after.length - 1 := fun x => by simp; omega
  rw [hl] at h hpass
  by_cases hin : 2 ≤ after.length
  · obtain ⟨k, hk⟩ : ∃ k, before.length + after.length - 1 = before.length + (k + 1) := ⟨after.length - 2, by omega⟩
    simp only [hk, List.take_length_add_append, List.drop_length_add_append, List.take_succ_cons, List.drop_succ_cons] at h hpass
    exact hne (crc16_inj_byte (wordBytes_inj (h.symm.trans hpass)))
  · have htake : ∀ x : Byte, (before ++ x :: after).take (before.length + after.length - 1) = before.take (before.length + after.length - 1) :=
      fun x => List.take_append_of_le_length (by omega)
    have hdrop : ∀ x : Byte, (before ++ x :: after).drop (before.length + after.length - 1)
        = before.drop (before.length + after.length - 1) ++ x :: after := fun x => List.drop_append_of_le_length (by omega)
    rw [htake, hdrop] at h hpass
    have heq := List.append_cancel_left (h.trans hpass.symm)
    exact hne (List.cons.inj heq).1

/-- Bytes that fail are dropped and counted (R163). -/
theorem receiveBytes_of_failing {bytes : List Byte} {low : Bool} (h : checkPasses bytes low = false) (q : Port) (o : Order) (s : State) :
    receiveBytes q bytes low o s = failCheck q s := by
  simp [receiveBytes, h]

theorem failCheck_open {q : Port} {s : State} (h : (s.port q).shut = false) :
    failCheck q s = s.setPort q { s.port q with checkErrors := min 65535 ((s.port q).checkErrors + 1), bringUp := false } := by
  simp [failCheck, h, saturate, Config.counterMax]

theorem failCheck_shut {q : Port} {s : State} (h : (s.port q).shut = true) : failCheck q s = s := by simp [failCheck, h]

/-- Settles O16, by the linearity of the check. -/
theorem frameCheckCatchesOneWrongByte : Obligations.FrameCheckCatchesOneWrongByte := by
  unfold Obligations.FrameCheckCatchesOneWrongByte
  refine ⟨fun f q o s => ⟨frameBytes_pass f, frameOfBytes_frameBytes f, ?_⟩, fun before after b b' hne h => ?_⟩
  · have hreceive : receiveBytes q (frameBytes f) false o = receive q f o := by
      funext s
      simp [receiveBytes, frameBytes_pass, frameOfBytes_frameBytes]
    simp only [exec, execCheckError, execGoodFrameOnDownPort, hreceive]
  · have hfail := checkPasses_of_one_wrong hne h
    refine ⟨hfail, fun q o s hrun hopen => ?_⟩
    have hf : receiveBytes q (before ++ b' :: after) false o s = _ := (receiveBytes_of_failing hfail q o s).trans (failCheck_open hopen)
    rw [← hf]
    exact event_of_run _ _ hrun (by rw [hf]; exact hrun)

/-- Settles O15, by the check of bytes and the tests of an IDLE frame. -/
theorem checkErrorsAndIdleFrames : Obligations.CheckErrorsAndIdleFrames := by
  unfold Obligations.CheckErrorsAndIdleFrames
  refine ⟨fun q bytes low o s hon hfail => ⟨fun hopen => ?_, fun hshut => ?_⟩, fun a s h => ?_⟩
  · rw [← failCheck_open hopen, ← receiveBytes_of_failing hfail q o s]
    exact event_of_on _ _ hon
  · have hf : receiveBytes q bytes low o s = s := (receiveBytes_of_failing hfail q o s).trans (failCheck_shut hshut)
    exact (event_of_on _ _ hon).trans (by rw [hf])
  · have harrive : arrive a .idle [] s = restartSilence a.port s := by
      have hpass : ingressFailure a.port (frameOf .idle a.route a.tag []) = none := by cases a.port <;> rfl
      rw [arrive_of_hears _ _ _ _ h hpass]
      rfl
    exact (event_of_run _ _ h.1 (by rw [harrive]; exact h.1)).trans (by rw [harrive]; rfl)

end Sys2Proof.Machine
end

