-- ==== Sys2Proof/Proofs/LinkUp.lean ====
section
/-! PROOFS. What a frame handed on leaves of the ports' link state, the notices of a change of link state, and the statement
`TwoGoodFramesBringUp`. -/
set_option Elab.async false
namespace Sys2Proof.Machine

/-! ### Link states (R163, R166) -/

/-- What a frame that is handed on leaves of a port: its link state, its bring-up count and its silence timer. -/
def PortFace.linked (x : PortFace) : Bool × Bool × Bool × Timer := (x.up, x.shut, x.bringUp, x.silence)

/-- In RUN with these link states. -/
structure State.Linked (x : Port → Bool × Bool × Bool × Timer) (s : State) : Prop where
  run : s.power.state = .run
  linked : ∀ q, (s.port q).face.linked = x q

theorem running_moveClosed : MoveClosed fun s => s.power.state = .run where
  aside a h := a.power ▸ h
  hand i n a h := by rw [handOff_power_state, a.power, h]

variable {x : Port → Bool × Bool × Bool × Timer}

theorem State.Linked.of_face {s t : State} (h : s.Linked x) (hrun : t.power.state = .run) (hface : t.link.face = s.link.face) : t.Linked x :=
  ⟨hrun, fun q => by rw [face_of_face s t hface q, h.linked q]⟩

theorem RequestName.Does.linked {r : RequestName} {q : Port} {act : Action} (hr : r.Does q act) {s : State} (h : s.Linked x) :
    (act s).1.Linked x := by
  have hrun := (hr.power_state s).trans h.run
  by_cases hl : .link ∈ r.reach
  · refine ⟨hrun, fun q => ?_⟩
    rw [← h.linked q]
    cases hr <;> simp only [reach, List.mem_cons, List.not_mem_nil, reduceCtorEq, or_false, or_self] at hl
    case routeSet n c e =>
      unfold actRouteSet LinkSwitch.setRoute
      repeat' split
      all_goals rfl
    case portStatus clear =>
      unfold actPortStatus
      cases clear
      · rfl
      · cases q <;> rfl
  · obtain ⟨-, hlink, -⟩ := hr.changesOnly s
    exact h.of_face hrun (hlink.resolve_left hl)

/-- A frame handed on in RUN changes no link state. -/
theorem linked_rules (x : Port → Bool × Bool × Bool × Timer) : FrameRules (State.Linked x) (State.Linked x) where
  weaken _ h := h
  reply _ _ _ h := h.of_face h.run (by simp)
  action _ _ _ _ hr h := hr.linked h
  discard _ _ _ _ _ h := h.of_face (by simpa using h.run) (by simp)
  copies _ _ _ _ h := h.of_face (by simpa using h.run) (by simp)
  pass _ _ _ _ h := h.of_face (by simpa using h.run) (by simp)
  wake s hp h := by simp [State.parked, h.run] at hp
  ignition on s h := by
    have hstate : (s.power.takeIgnition on).state = .run := (PowerUnit.judge_state _ _).trans h.run
    have hon : ({ s with power := s.power.takeIgnition on } : State).Linked x := h.of_face hstate rfl
    unfold takeIgnitionFlag
    dsimp only
    split
    · rename_i hparked
      simp [State.parked, hstate] at hparked
    · exact hon
  alarm on s h := by
    have hseen : ({ s with sign := { s.sign with alarmSeen := on } } : State).Linked x := h.of_face h.run rfl
    unfold takeAlarm
    dsimp only
    split
    · exact hseen.of_face ((changeLatch_power_state ..).trans h.run) (by simp [changeLatch])
    · exact hseen
  count _ _ h := h.of_face (by simpa using h.run) (by simp)
  signStat _ _ h := h.of_face (by simpa using h.run) (by simp)
  audioP _ _ h := h.of_face (by simpa using h.run) (by simp)
  audioC _ _ h := h.of_face (by simpa using h.run) (by simp)
  cardStage f _ h := h.of_face (running_moveClosed.takeCardStage f h.run) (by simp)
  authAsk f _ h := h.of_face (running_moveClosed.takeAuthAsk f h.run) (by simp)
  authAnswer f _ h := h.of_face (running_moveClosed.takeAuthAnswer f h.run) (by simp)
  uploadAck _ _ h := h.of_face (by simpa using h.run) (by simp)

/-! ### Notices (R181) -/

theorem notifyD_port_d (n : Notice) (fields : List Byte) (s : State) :
    (notifyD n fields s).port .d = (s.port .d).placed (noticeFrame s.request.seqD n fields) := emit_port_same _ _ _

theorem notifyD_port_other (n : Notice) (fields : List Byte) (s : State) (r : Port) (h : r ≠ .d) : (notifyD n fields s).port r = s.port r :=
  emit_port_other _ _ _ _ h

theorem notifyBoth_port_c (n : Notice) (fields : List Byte) (s : State) :
    (notifyBoth n fields s).port .c = (s.port .c).placed (noticeFrame s.request.seqC n fields) :=
  (notifyD_port_other _ _ _ _ (by decide)).trans (notifyC_port_c _ _ _)

theorem notifyBoth_port_d (n : Notice) (fields : List Byte) (s : State) :
    (notifyBoth n fields s).port .d = (s.port .d).placed (noticeFrame s.request.seqD n fields) := by
  unfold notifyBoth
  rw [notifyD_port_d, notifyC_port_other _ _ _ _ (by decide), notifyC_request]

theorem notifyBoth_port_other (n : Notice) (fields : List Byte) (s : State) (r : Port) (hc : r ≠ .c) (hd : r ≠ .d) :
    (notifyBoth n fields s).port r = s.port r :=
  (notifyD_port_other _ _ _ _ hd).trans (notifyC_port_other _ _ _ _ hc)

theorem notifyBoth_request (n : Notice) (fields : List Byte) (s : State) :
    (notifyBoth n fields s).request = ⟨nextSeq s.request.seqC, nextSeq s.request.seqD⟩ := rfl

/-! ### A port going UP (R166, R167) -/

section goUp
variable (o : Order) (s : State)

/-- What the blocks do at a port going UP places frames toward that port alone. -/
theorem deliverUp_port_other (q r : Port) (h : r ≠ q) : (deliverUp q o s).port r = s.port r := by
  have hemergency : ∀ u : State, r ≠ .d → (emergencyLinkUp u).port r = u.port r := by
    intro u hd
    unfold emergencyLinkUp notifyEmergency
    split
    · split
      · exact notifyD_port_other _ _ _ _ hd
      · rfl
    · rfl
  cases q
  case d =>
    unfold deliverUp
    dsimp only
    split
    · rw [sendUpload_port_other _ _ h, hemergency _ h]
    · rw [hemergency _ h, sendUpload_port_other _ _ h]
  case c => exact showConsole_port_other _ _ h
  case p => exact showPassenger_port_other _ _ h
  case s =>
    unfold deliverUp signLinkUp repaintSign
    dsimp only
    split
    · rfl
    · exact emit_port_other _ _ _ _ h
  case k => rfl
  case v => rfl

/-- The state once a port's link is UP, before it is told. -/
def State.linkedUp (s : State) (q : Port) : State := s.setPort q { s.port q with up := true, bringUp := false }

theorem goUp_eq (q : Port) : goUp q o s = deliverUp q o (notifyLink q true (s.linkedUp q)) := rfl

theorem goUp_port_c (q : Port) (h : q ≠ .c) : (goUp q o s).port .c = (s.port .c).placed (noticeFrame s.request.seqC .link [byte q.number, 1]) := by
  rw [goUp_eq, deliverUp_port_other _ _ _ _ h.symm, notifyLink, notifyBoth_port_c, State.linkedUp, State.port_setPort_other _ _ _ _ h.symm]
  rfl

theorem goUp_port_d (q : Port) (h : q ≠ .d) : (goUp q o s).port .d = (s.port .d).placed (noticeFrame s.request.seqD .link [byte q.number, 1]) := by
  rw [goUp_eq, deliverUp_port_other _ _ _ _ h.symm, notifyLink, notifyBoth_port_d, State.linkedUp, State.port_setPort_other _ _ _ _ h.symm]
  rfl

theorem goUp_c_port_c : (goUp .c o s).port .c =
    (({ s.port .c with up := true, bringUp := false }).placed (noticeFrame s.request.seqC .link [1, 1])).placed
      (plainFrame .fareView (4 :: consoleRecords s)) := by
  have hup : (notifyLink .c true (s.linkedUp .c)).isUp .c = true := by
    rw [isUp_of_face (s.linkedUp .c) _ (by simp [notifyLink])]
    exact congrArg PortState.up (State.port_setPort_same _ _ _)
  rw [goUp_eq, deliverUp, showConsole_port_c, hup, if_pos rfl]
  rw [notifyLink, notifyBoth_port_c, State.linkedUp, State.port_setPort_same]
  rfl

theorem goUp_p_port_p : (goUp .p o s).port .p =
    (({ s.port .p with up := true, bringUp := false } : PortState)).placed (plainFrame .fareView (2 :: passengerRecords s)) := by
  have hup : (notifyLink .p true (s.linkedUp .p)).isUp .p = true := by
    rw [isUp_of_face (s.linkedUp .p) _ (by simp [notifyLink])]
    exact congrArg PortState.up (State.port_setPort_same _ _ _)
  have hrecords : passengerRecords (notifyLink .p true (s.linkedUp .p)) = passengerRecords s := passengerRecords_congr _ _ rfl
  rw [goUp_eq, deliverUp, showPassenger_port_p, hup, if_pos rfl, hrecords]
  rw [notifyLink, notifyBoth_port_other _ _ _ _ (by decide) (by decide), State.linkedUp, State.port_setPort_same]

/-- Port D after the EMERGENCY notice of a latch that is set (R115). -/
def PortState.alarmed (x : PortState) (latch : Bool) (seq : Nat) : PortState :=
  if latch then x.placed (noticeFrame seq .emergency [0]) else x

theorem emergencyLinkUp_port_d (h : s.isUp .d = true) :
    (emergencyLinkUp s).port .d = (s.port .d).alarmed s.sign.latch s.request.seqD := by
  unfold emergencyLinkUp PortState.alarmed
  split
  · rw [notifyEmergency, if_pos h, notifyD_port_d]
    rfl
  · rfl

theorem goUp_d_told (hrun : s.power.state = .run) :
    (goUp .d o s).payment = s.payment.uploading true
      ∧ (goUp .d o s).port .d =
        let linked := ({ s.port .d with up := true, bringUp := false } : PortState).placed (noticeFrame s.request.seqD .link [0, 1])
        if o.emergencyFirst then (linked.alarmed s.sign.latch (nextSeq s.request.seqD)).uploaded s.payment s.tariff.cabNumber
        else (linked.uploaded s.payment s.tariff.cabNumber).alarmed s.sign.latch (nextSeq s.request.seqD) := by
  have hport : (notifyLink .d true (s.linkedUp .d)).port .d
      = ({ s.port .d with up := true, bringUp := false } : PortState).placed (noticeFrame s.request.seqD .link [0, 1]) := by
    rw [notifyLink, notifyBoth_port_d, State.linkedUp, State.port_setPort_same]
    rfl
  have hup : (notifyLink .d true (s.linkedUp .d)).isUp .d = true := by
    rw [isUp_of_face (s.linkedUp .d) _ (by simp [notifyLink])]
    exact congrArg PortState.up (State.port_setPort_same _ _ _)
  have hrun' : (notifyLink .d true (s.linkedUp .d)).power.state = .run := hrun
  have hpayment : (notifyLink .d true (s.linkedUp .d)).payment = s.payment := rfl
  have hcab : (notifyLink .d true (s.linkedUp .d)).tariff.cabNumber = s.tariff.cabNumber := rfl
  have hlatch : (notifyLink .d true (s.linkedUp .d)).sign.latch = s.sign.latch := rfl
  have hseq : (notifyLink .d true (s.linkedUp .d)).request.seqD = nextSeq s.request.seqD := rfl
  rw [goUp_eq, deliverUp]
  generalize notifyLink .d true (s.linkedUp .d) = u at *
  have huploads : u.uploads = true := (State.uploads_of_run hrun').trans hup
  dsimp only
  split
  · have huploads' : (emergencyLinkUp u).uploads = true :=
      (State.uploads_of_run (by simpa using hrun')).trans ((isUp_of_face u _ (by simp) _).trans hup)
    rw [sendUpload_payment, huploads', emergencyLinkUp_payment, sendUpload_port_d _ (by simpa using hrun'), emergencyLinkUp_port_d _ hup,
      emergencyLinkUp_payment, emergencyLinkUp_tariff, hport, hpayment, hcab, hlatch, hseq]
    exact ⟨rfl, rfl⟩
  · have hup' : (sendUpload u).isUp .d = true := (isUp_of_face u _ (by simp) _).trans hup
    rw [emergencyLinkUp_payment, sendUpload_payment, huploads, emergencyLinkUp_port_d _ hup', sendUpload_port_d _ hrun', sendUpload_sign,
      sendUpload_request, hport, hpayment, hcab, hlatch, hseq]
    exact ⟨rfl, rfl⟩

end goUp

/-- An IDLE frame with an empty payload is handed on to no block. -/
theorem takeGood_idle {q : Port} {f : Frame} (o : Order) {s : State} (hrun : s.power.state = .run) (hkind : f.kind = 0) (hlen : f.len = 0)
    (hpayload : f.payload = []) : takeGood q f o s = s := by
  have hpass : ingressFailure q f = none := by
    have hk : kindOf f = some .idle := by simp [kindOf, hkind]; rfl
    have ht : lengthTest f = true := by simp [lengthTest, hlen, hpayload]
    cases q <;> simp [ingressFailure, ht, hk, acceptedKinds, payloadTest, hpayload]
  have hk : kindOf f = some .idle := by simp [kindOf, hkind]; rfl
  rw [takeGood_of_run _ _ _ _ hrun, hpass]
  simp [handOn, hk]

/-- Settles O17, by the two tests of the bring-up count and the deliveries of a port going UP. -/
theorem twoGoodFramesBringUp : Obligations.TwoGoodFramesBringUp := by
  unfold Obligations.TwoGoodFramesBringUp
  intro q f o s hrun hopen hdown
  have hisUp : s.isUp q = false := hdown
  refine ⟨fun hfirst => ?_, fun hsecond => ?_⟩
  · have hf : receive q f o s = s.setPort q { s.port q with silence := some 500, bringUp := true } := by
      simp [receive, hopen, hisUp, hfirst, restartSilence, State.setPort_setPort, Config.silencePeriod]
    exact (event_of_run _ _ hrun (by rw [hf]; exact hrun)).trans (by rw [hf])
  · have hf : receive q f o s = takeGood q f o (goUp q o (restartSilence q s)) := by simp [receive, hopen, hisUp, hsecond]
    have hup : (goUp q o (restartSilence q s)).Linked fun r => if r = q then (true, false, false, some 500) else (s.port r).face.linked := by
      refine ⟨by simpa using hrun, fun r => ?_⟩
      rw [face_of_face ((restartSilence q s).linkedUp q) _ (by simp [goUp_eq, notifyLink]) r]
      split
      · rename_i hr
        subst hr
        simp [State.linkedUp, restartSilence, PortState.face, PortFace.linked, hopen, Config.silencePeriod]
      · rename_i hr
        rw [State.linkedUp, State.port_setPort_other _ _ _ _ hr, restartSilence, State.port_setPort_other _ _ _ _ hr]
    have hkept := (linked_rules _).takeGood q f o _ hup
    rw [← hf] at hkept
    refine ⟨receive q f o s, event_of_run _ _ hrun hkept.run, ?_⟩
    have hq := hkept.linked q
    simp only [↓reduceIte, PortFace.linked, PortState.face, Prod.mk.injEq] at hq
    obtain ⟨hq1, -, hq2, hq3⟩ := hq
    refine ⟨hq1, hq2, hq3, fun r hr => ?_, fun hkind hlen hpayload => ?_⟩
    · have hr' := hkept.linked r
      simp only [hr, ↓reduceIte, PortFace.linked, PortState.face, Prod.mk.injEq] at hr'
      exact ⟨hr'.1, hr'.2.1⟩
    · rw [hf, takeGood_idle o hup.run hkind hlen hpayload]
      have hsame : ∀ r, r ≠ q → (restartSilence q s).port r = s.port r := fun r hr => State.port_setPort_other _ _ _ _ hr
      have hfresh : (restartSilence q s).port q = { s.port q with silence := some 500 } := State.port_setPort_same _ _ _
      refine ⟨fun hc => ?_, fun hd => ?_, fun hc => ?_, fun hp => ?_, fun hd => ?_⟩
      · rw [goUp_port_c _ _ _ hc, hsame _ hc.symm]
        rfl
      · rw [goUp_port_d _ _ _ hd, hsame _ hd.symm]
        rfl
      · subst hc
        rw [goUp_c_port_c, hfresh]
        rfl
      · subst hp
        rw [goUp_p_port_p, hfresh]
        rfl
      · subst hd
        obtain ⟨hpayment, hport⟩ := goUp_d_told o (restartSilence .d s) hrun
        refine ⟨hpayment, hport.trans ?_⟩
        rw [hfresh]
        rfl

end Sys2Proof.Machine
end

