-- ==== Sys2Proof/Proofs/Copies.lean ====
section
/-! PROOFS. Discards at ingress, the copies and destinations of PASS frames, and the transmitter. -/
set_option Elab.async false
namespace Sys2Proof.Machine

/-! ### Discards at ingress (R164, R174) -/

theorem setPort_restartSilence (q : Port) (x : PortState) (s : State) : (restartSilence q s).setPort q x = s.setPort q x :=
  State.setPort_setPort ..

/-- A good frame on an UP port in RUN that fails a test. -/
theorem receive_discarded {q : Port} {f : Frame} {o : Order} {s : State} {reason : DiscardReason} (h : s.hears q)
    (hfail : ingressFailure q f = some reason) :
    receive q f o s = reportDiscard q reason none f.kind (s.link.passRoutes.get q).report false
      (s.setPort q { s.port q with silence := some 500, discards := min 65535 ((s.port q).discards + 1) }) := by
  rw [receive_of_hears _ _ _ _ h, takeGood_of_run _ _ _ _ (show (restartSilence q s).power.state = .run from h.1), hfail]
  dsimp only
  rw [discardAtIngress, countDiscard, setPort_restartSilence]
  simp [restartSilence, PortState.countDiscard, saturate, Config.silencePeriod, Config.counterMax]
  rfl

/-- Settles O18, by the four tests in their order. -/
theorem discardedAtIngress : Obligations.DiscardedAtIngress := by
  unfold Obligations.DiscardedAtIngress
  refine ⟨fun q f o s reason h hfail => ?_, fun q f => ⟨fun hlen => ?_, fun hle heq hkind => ?_⟩⟩
  · have hf := receive_discarded (o := o) h hfail
    have hexec : exec (.frameDiscardedAtIngress q f o) s = .next (receive q f o s) :=
      event_of_run _ _ h.1 (by rw [hf]; simpa using h.1)
    refine ⟨fun hno => ?_, fun hyes => ?_⟩
    · rw [hexec, hf, hno]
      rfl
    · rw [hexec, hf, hyes]
      rfl
  · have ht : lengthTest f = false := by
      simp only [lengthTest, Config.maxPayload, Bool.and_eq_false_iff, beq_eq_false_iff_ne]
      exact hlen.imp_left fun h => decide_eq_false (by omega)
    simp [ingressFailure, ht]
  · have ht : lengthTest f = true := by simp [lengthTest, Config.maxPayload, heq, heq ▸ hle]
    simp only [ingressFailure, ht, Bool.not_true, Bool.false_eq_true, ↓reduceIte]
    have hnot : ∀ k, kindOf f = some k → k ∉ acceptedKinds q := by
      intro k hk
      rw [hk] at hkind
      revert hkind
      cases k <;> cases q <;> decide
    split
    · rfl
    · rename_i k hk
      rw [if_pos (hnot k hk)]

/-! ### Destinations (R173) -/

theorem PortSet.has_without (t : PortSet) (q r : Port) : (t.without q).has r = (t.has r && r != q) := by
  revert t
  cases q <;> cases r <;> decide +kernel

theorem PortSet.exists_of_ne_zero : ∀ t : PortSet, t.getLsbD 6 = false → t ≠ 0 → t.has .d ∨ t.has .c ∨ t.has .p ∨ t.has .k ∨ t.has .s ∨ t.has .v := by
  decide +kernel

theorem PortSet.without_six (t : PortSet) (q : Port) : (t.without q).getLsbD 6 = false := by
  revert t
  cases q <;> decide +kernel

/-- The destinations left of a set, less the ingress port and H. -/
theorem destinations_within (t : PortSet) (q : Port) :
    let result : Except DiscardReason PortSet := if t.without q = 0 then .error .emptyRoute else .ok (t.without q)
    (result = .error .emptyRoute ∧ ∀ r : Port, t.has r = true → r = q)
      ∨ ∃ d : PortSet, result = .ok d ∧ (∃ r : Port, d.has r = true) ∧ d.getLsbD 6 = false ∧ ∀ r : Port, d.has r = (t.has r && r != q) := by
  dsimp only
  split
  · rename_i hempty
    refine .inl ⟨rfl, fun r hr => ?_⟩
    by_contra hne
    have hin := t.has_without q r
    rw [hempty, hr] at hin
    have hz : PortSet.has 0 r = false := by cases r <;> rfl
    rw [hz] at hin
    exact absurd hin (by simp [hne])
  · rename_i hne
    refine .inr ⟨_, rfl, ?_, t.without_six q, t.has_without q⟩
    obtain h | h | h | h | h | h := PortSet.exists_of_ne_zero _ (t.without_six q) hne
    all_goals exact ⟨_, h⟩

/-- Settles O20: the set a policy leaves, and what `PortSet.without` leaves of it. -/
theorem passDestinationsByPolicy : Obligations.PassDestinationsByPolicy := by
  unfold Obligations.PassDestinationsByPolicy
  intro e q r within
  refine ⟨fun hd => ?_, fun hd hp => ?_, fun hd hp hr => ?_, fun hd hp hr => ?_, fun hd hp hr => ?_⟩
  · have hset : passDestinations e q r = if e.targets.without q = 0 then .error .emptyRoute else .ok (e.targets.without q) := by
      simp [passDestinations, hd]
    rw [hset]
    exact destinations_within _ q
  · simp [passDestinations, hd, hp]
  · simp [passDestinations, hd, hp, hr]
  · have hset : passDestinations e q r = if (routeTargets r &&& e.targets).without q = 0 then .error .emptyRoute
        else .ok ((routeTargets r &&& e.targets).without q) := by
      cases hpol : e.policy
      · exact absurd hpol hp
      all_goals simp [passDestinations, hd, hr, hpol]
    rw [hset]
    exact destinations_within _ q
  · have hset : passDestinations e q r = if (routeTargets r).without q = 0 then .error .emptyRoute else .ok ((routeTargets r).without q) := by
      simp [passDestinations, hd, hp, hr]
    rw [hset]
    exact destinations_within _ q

/-! ### Copies (R173) -/

theorem reportDiscard_port_other (q : Port) (reason : DiscardReason) (named : Option Port) (kind : Byte) (report parked : Bool) (s : State)
    (r : Port) (h : r = .c → report = false) : (reportDiscard q reason named kind report parked s).port r = s.port r := by
  unfold reportDiscard
  split
  · rename_i hreport
    exact notifyC_port_other _ _ _ _ fun hr => by simp [h hr] at hreport
  · rfl

theorem placeCopy_port_same (i q : Port) (f : Frame) (report parked : Bool) (s : State) (h : q = .c → report = false) :
    (placeCopy i q f report parked s).port q = (s.port q).placed f := by
  unfold placeCopy
  dsimp only
  split
  · exact State.port_setPort_same ..
  · rw [reportDiscard_port_other _ _ _ _ _ _ _ _ h]
    exact State.port_setPort_same ..

theorem placeCopy_port_other (i q r : Port) (f : Frame) (report parked : Bool) (s : State) (hr : r ≠ q) (h : r = .c → report = false) :
    (placeCopy i q f report parked s).port r = s.port r := by
  unfold placeCopy
  dsimp only
  split
  · exact State.port_setPort_other _ _ _ _ hr
  · rw [reportDiscard_port_other _ _ _ _ _ _ _ _ h]
    exact State.port_setPort_other _ _ _ _ hr

/-- The copies of a frame, each at its own port; C may hold the notices of discards too. -/
theorem placeCopies_port (i : Port) (t : PortSet) (f : Port → Frame) (report parked : Bool) (s : State) (r : Port) (h : r = .c → report = false) :
    (placeCopies i t f report parked s).port r = if t.has r then (s.port r).placed (f r) else s.port r := by
  have hfold : ∀ (qs : List Port) (u : State), qs.Nodup →
      (qs.foldl (fun s q => if t.has q then placeCopy i q (f q) report parked s else s) u).port r
        = if r ∈ qs ∧ t.has r then (u.port r).placed (f r) else u.port r := by
    intro qs
    induction qs with
    | nil => intro u _; simp
    | cons q qs ih =>
      intro u hnodup
      obtain ⟨hq, hqs⟩ := List.nodup_cons.mp hnodup
      rw [List.foldl_cons, ih _ hqs]
      by_cases hr : r = q
      · subst hr
        by_cases ht : t.has r = true
        · simp [hq, ht, placeCopy_port_same _ _ _ _ _ _ h]
        · simp [ht]
      · have hsame : (if t.has q then placeCopy i q (f q) report parked u else u).port r = u.port r := by
          split
          · exact placeCopy_port_other _ _ _ _ _ _ _ hr h
          · rfl
        simp [hr, hsame]
  have hmem : r ∈ Port.all := by cases r <;> decide
  rw [placeCopies, hfold _ _ (by decide)]
  simp [hmem]

theorem ingressFailure_pass (a : Arrival) {payload : List Byte} (h : payload.length ≤ 200) :
    ingressFailure a.port (frameOf .pass a.route a.tag payload) = none := by
  have h8 : (byte payload.length).toNat = payload.length := by
    simp only [byte, BitVec.toNat_ofNat]
    omega
  have hk : kindOf (frameOf .pass a.route a.tag payload) = some .pass := rfl
  have ht : lengthTest (frameOf .pass a.route a.tag payload) = true := by simp [lengthTest, frameOf, h8, Config.maxPayload, h]
  simp only [ingressFailure, ht, hk]
  cases a.port <;> simp [acceptedKinds, payloadTest]

theorem placeCopies_changesOnly (i : Port) (t : PortSet) (f : Port → Frame) (report parked : Bool) (s : State) :
    s.changesOnly (placeCopies i t f report parked s) [.request] := by
  simp [State.changesOnly]

theorem passDestinations_ok {e : Route} {q : Port} {r : RouteWord} {t : PortSet} (h : passDestinations e q r = .ok t) : t.has q = false := by
  unfold passDestinations at h
  dsimp only at h
  split at h
  · cases h
  · split at h
    · cases h
    · cases h
      rw [PortSet.has_without]
      simp

theorem routePass_ok {q : Port} {f : Frame} {parked : Bool} {s : State} {t : PortSet}
    (h : passDestinations (s.link.passRoutes.get q) q f.route = .ok t) :
    routePass q f parked s = placeCopies q t (fun _ => f) (s.link.passRoutes.get q).report parked s := by
  unfold routePass
  dsimp only
  rw [h]

theorem routePass_error {q : Port} {f : Frame} {parked : Bool} {s : State} {reason : DiscardReason}
    (h : passDestinations (s.link.passRoutes.get q) q f.route = .error reason) : routePass q f parked s = discardAtIngress q reason f parked s := by
  unfold routePass
  dsimp only
  rw [h]

/-- Settles O19, by what a copy and a discard do at each port. -/
theorem passCopied : Obligations.PassCopied := by
  unfold Obligations.PassCopied
  intro a payload s h hlen e
  have harrive : arrive a .pass payload s = routePass a.port (frameOf .pass a.route a.tag payload) false (s.heard a) := by
    rw [arrive_of_hears _ _ _ _ h (ingressFailure_pass a hlen)]
    rfl
  have hexec : exec (.pass a payload) s = .next (routePass a.port (frameOf .pass a.route a.tag payload) false (s.heard a)) :=
    (event_of_run _ _ h.1 (by rw [harrive]; simpa using h.1)).trans (by rw [harrive])
  have hroute : (s.heard a).link.passRoutes.get a.port = e := rfl
  have hword : (frameOf .pass a.route a.tag payload).route = a.route := rfl
  generalize frameOf .pass a.route a.tag payload = f at hword hexec ⊢
  refine ⟨fun t ht => ?_, fun reason hreason hno => ?_⟩
  · have hcopies : routePass a.port f false (s.heard a) = placeCopies a.port t (fun _ => f) e.report false (s.heard a) := by
      rw [← hroute]
      exact routePass_ok (by rw [hroute, hword, ht])
    refine ⟨passDestinations_ok ht, _, hexec, ?_, fun q hq => ?_⟩
    · rw [hcopies]
      exact placeCopies_changesOnly ..
    · rw [hcopies]
      exact placeCopies_port _ _ _ _ _ _ _ hq
  · have hdiscard : routePass a.port f false (s.heard a) = discardAtIngress a.port reason f false (s.heard a) :=
      routePass_error (by rw [hroute, hword, hreason])
    rw [hexec, hdiscard, discardAtIngress, hroute, hno, countDiscard, setPort_restartSilence]
    simp [reportDiscard, restartSilence, PortState.countDiscard, saturate, Config.silencePeriod, Config.counterMax]

/-! ### The transmitter (R168, R170) -/

/-- Settles O23, by the cases of `arbitrate` and of the quiet timer. -/
theorem transmitterTakesVoiceFirst : Obligations.TransmitterTakesVoiceFirst := by
  unfold Obligations.TransmitterTakesVoiceFirst
  intro q s hrun x
  have hcomplete : exec (.transmitComplete q) s = .next (s.setPort q x.complete) := event_of_run (fun s => s.setPort q (s.port q).complete) s hrun hrun
  have hquiet : exec (.quietTimerExpiry q) s = .next (s.setPort q x.quietExpiry) := event_of_run (fun s => s.setPort q (s.port q).quietExpiry) s hrun hrun
  rw [hcomplete, hquiet]
  clear_value x
  refine ⟨fun hsending => ?_, fun htimer => ⟨fun hidle hvoice hgeneral => ?_, fun hbusy => ?_⟩⟩
  · obtain ⟨g, hg⟩ := Option.isSome_iff_exists.mp hsending
    refine ⟨fun f rest hv => ?_, fun f rest hv hgen => ?_, fun hv hgen => ?_⟩
    all_goals simp_all [PortState.complete, PortState.arbitrate, Config.quietPeriod]
  · obtain ⟨n, hn⟩ := Option.isSome_iff_exists.mp htimer
    simp only [PortState.quietExpiry, hn, hidle, hvoice, hgeneral]
    rfl
  · obtain ⟨n, hn⟩ := Option.isSome_iff_exists.mp htimer
    have hx : x.quietExpiry = { x with quiet := none } := by
      unfold PortState.quietExpiry
      split <;> simp_all
    rw [hx]

end Sys2Proof.Machine
end

