-- ==== Sys2Proof/Proofs/Requests.lean ====
section
/-! PROOFS. Requests as commands, codes and flags read back, and the statements of the request unit and of the link's requests. -/
set_option Elab.async false
namespace Sys2Proof.Machine

/-! ### Codes, flags and words (R190, R191) -/

theorem enc_of_dec {α : Type} [DecidableEq α] {all : List α} (hall : all.Nodup) {b : Byte} {x : α} (h : dec all b = some x) : enc all x = b := by
  obtain ⟨hlt, rfl⟩ := List.getElem?_eq_some_iff.mp h
  rw [enc, List.Nodup.idxOf_getElem hall]
  simp [byte]

theorem flag_of_flagOf {b : Byte} {x : Bool} (h : flagOf b = some x) : flag x = b := by
  unfold flagOf at h
  split at h
  · cases h
    simp_all [flag]
  · split at h
    · cases h
      simp_all [flag]
    · cases h

theorem index_of_toNat {n : Nat} {b : Byte} {i : Fin n} (h : b.toNat = i.val) : index n b = some i := by
  simp [index, h]

theorem index_of_ge {n : Nat} {b : Byte} (h : n ≤ b.toNat) : index n b = none := by
  simp [index, Nat.not_lt.mpr h]

/-! ### Requests as commands (R176 to R178) -/

section request
variable {r : RequestName} {a : Arrival} {args : List Byte} {act : Action} {s t : State}

/-- A request its owner completes. -/
theorem exec_done {res : Result} (h : s.takes a r) (hl : args.length < 200) (hr : r.read a.port args = some act) (hact : act (s.heard a) = (t, res)) :
    exec (r.command a args) s = .next (emit a.port (replyFrame a.tag r.code res) t) := by
  rw [exec_command, request_done h hl hr, hact]

/-- A request its owner completes without a change. -/
theorem exec_answered {res : Result} (h : s.takes a r) (hl : args.length < 200) (hr : r.read a.port args = some act)
    (hact : act (s.heard a) = (s.heard a, res)) : exec (r.command a args) s = .next (s.answered a (replyFrame a.tag r.code res)) :=
  exec_done h hl hr hact

/-- A request its owner refuses. -/
theorem exec_refused {reason : Reason} (h : s.takes a r) (hl : args.length < 200) (hr : r.read a.port args = some act)
    (hact : act (s.heard a) = (s.heard a, .refuse reason)) : exec (r.command a args) s = .next (s.answered a (refusedReply a r reason)) :=
  exec_done h hl hr hact

end request

/-- Settles O25, by the tests on the way to a request's owner. -/
theorem requestsTurnedAway : Obligations.RequestsTurnedAway := by
  unfold Obligations.RequestsTurnedAway
  intro a args s h hp hlen
  have hunknown : ∀ (payload : List Byte) (f : Frame), payload.length ≤ 200 →
      takeRequest a.port a.tag payload (s.heard a) = emit a.port f (s.heard a) →
      exec (.unknownRequest a payload) s = .next (s.answered a f) := by
    intro payload f hl hf
    have harrive : arrive a .req payload s = s.answered a f := (arrive_req a payload s h hp hl).trans hf
    exact (event_of_run _ _ h.1 (by rw [harrive]; exact h.1)).trans (by rw [harrive])
  refine ⟨fun r => ⟨fun hno => ?_, fun hyes hread => ?_⟩, hunknown _ _ (by simp) ?_, fun code hcode => hunknown _ _ (by simp; omega) ?_⟩
  · rw [exec_command, request_notPermitted r a args s h hp hlen hno]
  · rw [exec_command, request_malformed r a args s h hlen hyes hread]
  · rfl
  · have hnone : requestOf code = none := by
      unfold requestOf
      split
      · rfl
      · rename_i hzero
        have hlast : 59 < code.toNat := hcode.resolve_left hzero
        rw [List.getElem?_eq_none_iff]
        have hall : RequestName.all.length = 59 := rfl
        omega
    simp only [takeRequest, hnone]
    rfl

/-! ### Refusals (R178, R179) -/

/-- What a request answers: a refusal comes with the state as it was. -/
def RefusalKeeps (s : State) (x : State × Result) : Prop := ∀ reason item, x.2 = .refused reason item → x.1 = s

@[simp] theorem refusalKeeps_self (s : State) (res : Result) : RefusalKeeps s (s, res) := fun _ _ _ => rfl

@[simp] theorem refusalKeeps_ok (s t : State) (fields : List Byte) : RefusalKeeps s (t, .ok fields) := fun _ _ h => by simp [Result.ok] at h

@[simp] theorem refusalKeeps_done (s t : State) (fields : List Byte) (clamped : Bool) : RefusalKeeps s (t, .done fields clamped) :=
  fun _ _ h => by simp at h

@[simp] theorem refusalKeeps_ite (s : State) (c : Prop) [Decidable c] (x y : State × Result) :
    RefusalKeeps s (if c then x else y) ↔ (c → RefusalKeeps s x) ∧ (¬ c → RefusalKeeps s y) := by
  split <;> simp_all

theorem refusalKeeps_onSlot {n : Byte} {takes : PartyState → Bool} {act : Fin 4 → State → State × Result} {s : State}
    (h : ∀ i, RefusalKeeps s (act i s)) : RefusalKeeps s (onSlot n takes act s) := by
  unfold onSlot
  split
  · simp
  · split
    · exact h _
    · simp

/-- Of the requests but LOAD_COMMIT none that is refused has done anything. -/
theorem RequestName.Does.refusalKeeps {r : RequestName} {q : Port} {act : Action} (hr : r.Does q act) (hcommit : r ≠ .loadCommit) (s : State) :
    RefusalKeeps s (act s) := by
  cases hr
  case loadCommit => exact absurd rfl hcommit
  case total | closeTrip | partyRead => exact refusalKeeps_onSlot fun i => refusalKeeps_ok _ _ _
  case setTariff | cancelCard =>
    refine refusalKeeps_onSlot fun i => ?_
    split <;> simp only [refusalKeeps_ite, refusalKeeps_self, refusalKeeps_ok, implies_true, and_self]
  case resume | void | payCash | setStation | offerCard =>
    refine refusalKeeps_onSlot fun i => ?_
    simp only [refusalKeeps_ite, refusalKeeps_self, refusalKeeps_ok, refusalKeeps_done, implies_true, and_self]
  case addExtra =>
    refine refusalKeeps_onSlot fun i => ?_
    split
    · simp
    · split
      · simp
      · simp only [refusalKeeps_ite, refusalKeeps_self, refusalKeeps_ok, implies_true, and_self]
  case loadPart part =>
    unfold actLoadPart
    repeat' split
    all_goals simp
  all_goals
    simp only [actLoadBegin, actTariffRead, actTariffStatus, actSetClock, actSetCabId, actHire, actShare, actMilestoneSet,
      actMilestoneRead, actPolicySet, actRefusalAdd, actRefusalRemove, actRefusalClear, withList, actPayStatus, actShiftOpen, actShiftBreak,
      actShiftResume, actShiftClose, actTotalsRead, actTotalsThaw, actReportRead, actReportDrop, actOffDutyOverride, actEmergencyClear,
      actViewSet, actImageSet, actStripesSet, actBlockSet, actSignStatus, actSignRead, actTimerSet, actComparatorSet, actTimerStart, actTimerStop,
      actTimerStopAtEnd, actTimerStatus, actLampWrite, actAnswer, actHangup, actGainsSet, actIntercomStatus, actChimeRead, actChimeSet,
      actRouteSet, actRouteRead, actPortStatus]
    repeat' split
    all_goals simp

theorem onSlot_of_ge {n : Byte} (h : 4 ≤ n.toNat) (takes : PartyState → Bool) (act : Fin 4 → State → State × Result) (s : State) :
    onSlot n takes act s = (s, .refuse .range) := by
  simp [onSlot, index_of_ge h]

theorem onSlot_of_not_takes {n : Byte} {i : Fin 4} {s : State} {takes : PartyState → Bool} (h : n.toNat = i.val)
    (hno : takes (s.party i).state = false) (act : Fin 4 → State → State × Result) : onSlot n takes act s = (s, .refuse .partyState) := by
  simp [onSlot, index_of_toNat h, hno]

/-- The requests that name a slot, with the states of a party that take them (R21). -/
def slotRequests : List (RequestName × List PartyState) :=
  [(.total, [.metering]), (.resume, [.hold]), (.void, [.metering]), (.payCash, [.hold]), (.closeTrip, [.settled]),
    (.addExtra, [.metering, .hold]), (.setTariff, [.metering, .hold]), (.setStation, [.metering, .hold, .paying, .settled]),
    (.offerCard, [.hold]), (.cancelCard, [.paying])]

section layouts
variable {n : Byte} {args : List Byte} {act : Action}

theorem readByte_cons {f : Byte → Action} (h : readByte f (n :: args) = some act) : act = f n ∧ args.length ≤ 5 := by
  unfold readByte at h
  split at h
  case h_1 heq =>
    obtain ⟨rfl, rfl⟩ := List.cons.inj heq
    exact ⟨(Option.some.inj h).symm, by simp⟩
  case h_2 => cases h

theorem readSlotAmount_cons {f : Byte → Nat → Action} (h : readSlotAmount f (n :: args) = some act) : ∃ amount, act = f n amount ∧ args.length ≤ 5 := by
  unfold readSlotAmount at h
  split at h
  case h_1 heq =>
    obtain ⟨rfl, rfl⟩ := List.cons.inj heq
    exact ⟨_, (Option.some.inj h).symm, by simp⟩
  case h_2 => cases h

theorem readAddExtra_cons (h : readAddExtra (n :: args) = some act) : ∃ x amount, act = actAddExtra n x amount ∧ args.length ≤ 5 := by
  unfold readAddExtra at h
  split at h
  case h_1 heq =>
    obtain ⟨rfl, rfl⟩ := List.cons.inj heq
    exact ⟨_, _, (Option.some.inj h).symm, by simp⟩
  case h_2 => cases h

theorem readSetTariff_cons (h : readSetTariff (n :: args) = some act) : ∃ t, act = actSetTariff n t ∧ args.length ≤ 5 := by
  unfold readSetTariff at h
  split at h
  case h_1 heq =>
    obtain ⟨rfl, rfl⟩ := List.cons.inj heq
    exact ⟨_, (Option.some.inj h).symm, by simp⟩
  case h_2 => cases h

theorem readSetStation_cons (h : readSetStation (n :: args) = some act) : ∃ st, act = actSetStation n st ∧ args.length ≤ 5 := by
  unfold readSetStation at h
  split at h
  case h_1 heq =>
    obtain ⟨rfl, rfl⟩ := List.cons.inj heq
    obtain ⟨st, -, rfl⟩ := Option.map_eq_some_iff.mp h
    exact ⟨st, rfl, by simp⟩
  case h_2 => cases h

end layouts

/-- A request that names a slot has its byte first, and takes it in the states listed. -/
theorem onSlot_of_slotRequest {r : RequestName} {states : List PartyState} (h : (r, states) ∈ slotRequests) {q : Port} {n : Byte} {args : List Byte}
    {act : Action} (hread : r.read q (n :: args) = some act) :
    ∃ takes f, act = onSlot n takes f ∧ args.length ≤ 5 ∧ ∀ st, st ∉ states → takes st = false := by
  simp only [slotRequests, List.mem_cons, Prod.mk.injEq, List.not_mem_nil, or_false] at h
  rcases h with ⟨rfl, rfl⟩ | ⟨rfl, rfl⟩ | ⟨rfl, rfl⟩ | ⟨rfl, rfl⟩ | ⟨rfl, rfl⟩ | ⟨rfl, rfl⟩ | ⟨rfl, rfl⟩ | ⟨rfl, rfl⟩ | ⟨rfl, rfl⟩ | ⟨rfl, rfl⟩
  case inl | inr.inl | inr.inr.inl | inr.inr.inr.inr.inl | inr.inr.inr.inr.inr.inr.inr.inr.inr =>
    obtain ⟨rfl, hl⟩ := readByte_cons hread
    exact ⟨_, _, rfl, hl, fun st => by cases st <;> simp⟩
  case inr.inr.inr.inl | inr.inr.inr.inr.inr.inr.inr.inr.inl =>
    obtain ⟨_, rfl, hl⟩ := readSlotAmount_cons hread
    exact ⟨_, _, rfl, hl, fun st => by cases st <;> simp⟩
  case inr.inr.inr.inr.inr.inl =>
    obtain ⟨_, _, rfl, hl⟩ := readAddExtra_cons hread
    exact ⟨_, _, rfl, hl, fun st => by cases st <;> simp⟩
  case inr.inr.inr.inr.inr.inr.inl =>
    obtain ⟨_, rfl, hl⟩ := readSetTariff_cons hread
    exact ⟨_, _, rfl, hl, fun st => by cases st <;> simp⟩
  case inr.inr.inr.inr.inr.inr.inr.inl =>
    obtain ⟨_, rfl, hl⟩ := readSetStation_cons hread
    exact ⟨_, _, rfl, hl, fun st => by cases st <;> simp⟩

/-- Settles O26: `RequestName.Does.refusalKeeps` for every request, and the two tests of `onSlot` for those that name a slot. -/
theorem refusedRequestsChangeNothing : Obligations.RefusedRequestsChangeNothing := by
  unfold Obligations.RefusedRequestsChangeNothing
  refine ⟨fun r a args s act reason item h hl hcommit hread hres => ?_, fun r a s n args states hmem h hread => ?_⟩
  · have hkeep := (RequestName.does_of_read hread).refusalKeeps hcommit (s.heard a) reason item hres
    exact exec_done h hl hread (Prod.ext hkeep hres)
  · obtain ⟨act, hact⟩ := Option.isSome_iff_exists.mp hread
    obtain ⟨takes, f, rfl, hshort, hno⟩ := onSlot_of_slotRequest hmem hact
    have hl : (n :: args).length < 200 := by simp; omega
    refine ⟨fun hn => exec_refused h hl hact (onSlot_of_ge hn _ _ _), fun i hi hst => exec_refused h hl hact ?_⟩
    exact onSlot_of_not_takes (s := s.heard a) hi (hno _ hst) f

/-! ### The requests of the link switch (R172, R175) -/

theorem extractLsb'_setWidth (t : Byte) : (t.extractLsb' 0 7).setWidth 8 = t &&& 0x7F := by
  apply BitVec.eq_of_toNat_eq
  simp only [BitVec.toNat_setWidth, BitVec.extractLsb'_toNat, BitVec.toNat_and]
  rw [show (127 : Byte).toNat = 2 ^ 7 - 1 from rfl, Nat.and_two_pow_sub_one_eq_mod]
  omega

theorem portOf_of_lt {n : Byte} (h : 5 < n.toNat) : portOf n = none :=
  List.getElem?_eq_none_iff.mpr h

/-- The restart of the silence timer by the request itself does not show in what PORT_STATUS answers. -/
theorem portStatus_heard (a : Arrival) (s : State) :
    Result.ok (Port.all.flatMap fun q => portBytes a.port q ((s.heard a).port q)) = .ok (Port.all.flatMap fun q => portBytes a.port q (s.port q)) := by
  congr 2
  funext q
  by_cases hq : q = a.port
  · subst hq
    rw [State.heard, restartSilence, State.port_setPort_same]
    rfl
  · rw [State.heard, restartSilence, State.port_setPort_other _ _ _ _ hq]

/-- Settles O24, each request by its layout and its owner's branch. -/
theorem linkRequests : Obligations.LinkRequests := by
  unfold Obligations.LinkRequests
  refine ⟨fun a s n c t p r q cls policy report hc hp hr => ?_, fun a s h => ⟨?_, ?_⟩, fun x lane => rfl⟩
  · have hset : RequestName.routeSet.read a.port [n, c, t, p, r] = some (actRouteSet n cls ⟨t.extractLsb' 0 7, policy, report⟩) := by
      simp [RequestName.read, readRouteSet, hc, hp, hr]
    have hread : RequestName.routeRead.read a.port [n, c] = some (actRouteRead n cls) := by
      simp [RequestName.read, readRouteRead, hc]
    have hbytes : routeBytes ⟨t.extractLsb' 0 7, policy, report⟩ = [t &&& 0x7F, p, r] := by
      rw [routeBytes, extractLsb'_setWidth, enc_of_dec (by decide) hp, flag_of_flagOf hr]
    refine ⟨fun h hq => ?_, fun h hq => ?_, fun hn => ⟨fun h => ?_, fun h => ?_⟩⟩
    · refine (exec_done h (by simp) hset (t := { s.heard a with link := (s.heard a).link.setRoute cls q ⟨t.extractLsb' 0 7, policy, report⟩ })
        (res := .ok [t &&& 0x7F, p, r]) ?_).trans ?_
      · simp [actRouteSet, hq, hbytes]
      · cases cls <;> rfl
    · refine exec_answered h (by simp) hread ?_
      simp only [actRouteRead, hq]
      cases cls <;> rfl
    · exact exec_refused h (by simp) hset (by simp [actRouteSet, portOf_of_lt hn])
    · exact exec_refused h (by simp) hread (by simp [actRouteRead, portOf_of_lt hn])
  · exact exec_answered (act := actPortStatus a.port false) h (by simp) rfl (Prod.ext rfl (portStatus_heard a s))
  · refine ⟨_, exec_done (act := actPortStatus a.port true) h (by simp) rfl (Prod.ext rfl (portStatus_heard a s)),
      fun q => actPortStatus_port_of_clear a.port q (s.heard a), rfl, rfl, ?_⟩
    exact (RequestName.Does.portStatus (port := a.port) true).changesOnly _

end Sys2Proof.Machine
end

