-- ==== Sys2Proof/Proofs/TariffSets.lean ====
section
/-! PROOFS. Numbers as bytes, the layouts of a tariff set's entries (R195), and staged loads, reads and the serialization (R5, R6, R11). -/
set_option Elab.async false
namespace Sys2Proof.Machine

/-! ### Numbers as bytes (R190) -/

@[simp] theorem be_length (n v : Nat) : (be n v).length = n := by
  induction n with
  | zero => rfl
  | succ n ih => simp [be, ih]

theorem byte_eq_byte_iff (v w : Nat) : byte v = byte w ↔ v % 256 = w % 256 := by
  rw [← BitVec.toNat_inj]
  simp [byte]

theorem be_eq_be_iff (n v w : Nat) : be n v = be n w ↔ v % 256 ^ n = w % 256 ^ n := by
  induction n with
  | zero => simp [be, Nat.mod_one]
  | succ n ih =>
    have hpos : 0 < 256 ^ n := by positivity
    rw [be, be, List.cons.injEq, byte_eq_byte_iff, ih, Nat.mod_pow_succ, Nat.mod_pow_succ]
    constructor
    · rintro ⟨hhigh, hlow⟩
      rw [hhigh, hlow]
    · intro h
      have hlow : v % 256 ^ n = w % 256 ^ n := by
        have := congrArg (· % 256 ^ n) h
        simpa using this
      refine ⟨?_, hlow⟩
      rw [hlow] at h
      exact Nat.eq_of_mul_eq_mul_left hpos (by omega)

/-- Two numbers in a field's range with the same bytes are the same number. -/
theorem be_inj {n v w : Nat} (hv : v < 256 ^ n) (hw : w < 256 ^ n) (h : be n v = be n w) : v = w := by
  rwa [be_eq_be_iff, Nat.mod_eq_of_lt hv, Nat.mod_eq_of_lt hw] at h

theorem foldl_bytes (bs : List Byte) (acc : Nat) :
    bs.foldl (fun acc b => acc * 256 + b.toNat) acc = acc * 256 ^ bs.length + num bs := by
  induction bs generalizing acc with
  | nil => simp [num]
  | cons b bs ih =>
    have hnum : num (b :: bs) = (0 * 256 + b.toNat) * 256 ^ bs.length + num bs := ih _
    rw [List.foldl_cons, ih, hnum, List.length_cons]
    ring

theorem num_cons (b : Byte) (bs : List Byte) : num (b :: bs) = b.toNat * 256 ^ bs.length + num bs := by
  rw [num, List.foldl_cons, foldl_bytes]
  simp

theorem num_lt (bs : List Byte) : num bs < 256 ^ bs.length := by
  induction bs with
  | nil => simp [num]
  | cons b bs ih =>
    have hb := b.isLt
    rw [num_cons, List.length_cons, pow_succ]
    nlinarith

/-- The bytes of the number a field holds are the field's. -/
theorem be_num (bs : List Byte) : be bs.length (num bs) = bs := by
  induction bs with
  | nil => rfl
  | cons b bs ih =>
    have hpos : 0 < 256 ^ bs.length := by positivity
    have hlt := num_lt bs
    rw [List.length_cons, be, num_cons]
    congr 1
    · rw [Nat.mul_comm, Nat.mul_add_div hpos, Nat.div_eq_of_lt hlt]
      simp [byte]
    · rw [(be_eq_be_iff _ _ (num bs)).mpr (by simp), ih]

theorem be_num_two (b c : Byte) : be 2 (num [b, c]) = [b, c] :=
  be_num [b, c]

theorem be_num_four (b c d e : Byte) : be 4 (num [b, c, d, e]) = [b, c, d, e] :=
  be_num [b, c, d, e]

@[simp] theorem byte_toNat (b : Byte) : byte b.toNat = b := by
  simp [byte]

/-! ### The layouts of the entries (R195) -/

section layouts
variable {body : List Byte}

theorem readParams_bytes {e : Params} (h : readParams body = some e) : paramsBytes (some e) = 1 :: body := by
  unfold readParams at h
  split at h
  · cases h
    simp [paramsBytes, be_num_two]
  · cases h

theorem readTariff_bytes {e : Tariff} (h : readTariff body = some e) : tariffBytes (some e) = 1 :: body := by
  unfold readTariff at h
  split at h
  · obtain ⟨method, hmethod, rfl⟩ := Option.map_eq_some_iff.mp h
    simp [tariffBytes, be_num_two, be_num_four, enc_of_dec (by decide) hmethod]
  · cases h

theorem readExtra_bytes {e : Extra} (h : readExtra body = some e) : extraBytes (some e) = 1 :: body := by
  unfold readExtra at h
  split at h
  · obtain ⟨kind, hkind, rfl⟩ := Option.map_eq_some_iff.mp h
    simp [extraBytes, be_num_four, enc_of_dec (by decide) hkind]
  · cases h

/-- A schedule entry's bytes are those received, but for the reserved bit of the day set. -/
theorem readSchedule_bytes {e : Schedule} (h : readSchedule body = some e) :
    ∃ days rest, body = days :: rest ∧ rest.length = 3 ∧ scheduleBytes (some e) = 1 :: (days &&& 0x7F) :: rest := by
  unfold readSchedule at h
  split at h
  · cases h
    exact ⟨_, _, rfl, rfl, by simp [scheduleBytes, be_num_two, extractLsb'_setWidth]⟩
  · cases h

theorem paramsBytes_length (e : Option Params) : (paramsBytes e).length = 9 := by
  cases e <;> simp [paramsBytes]

theorem tariffBytes_length (e : Option Tariff) : (tariffBytes e).length = 16 := by
  cases e <;> simp [tariffBytes]

theorem scheduleBytes_length (e : Option Schedule) : (scheduleBytes e).length = 5 := by
  cases e <;> simp [scheduleBytes]

theorem extraBytes_length (e : Option Extra) : (extraBytes e).length = 7 := by
  cases e <;> simp [extraBytes]

theorem readParams_length {e : Params} (h : readParams body = some e) : body.length = 8 := by
  have := congrArg List.length (readParams_bytes h)
  simpa [paramsBytes_length] using this.symm

theorem readTariff_length {e : Tariff} (h : readTariff body = some e) : body.length = 15 := by
  have := congrArg List.length (readTariff_bytes h)
  simpa [tariffBytes_length] using this.symm

theorem readExtra_length {e : Extra} (h : readExtra body = some e) : body.length = 6 := by
  have := congrArg List.length (readExtra_bytes h)
  simpa [extraBytes_length] using this.symm

theorem readSchedule_length {e : Schedule} (h : readSchedule body = some e) : body.length = 4 := by
  obtain ⟨days, rest, rfl, hrest, -⟩ := readSchedule_bytes h
  simp [hrest]

theorem readEntry_length {α : Type} {read : List Byte → Option α} {width : Nat} {present : Bool} {e : Option α}
    (hread : ∀ x, read body = some x → body.length = width) (h : readEntry present width read body = some e) : body.length = width := by
  unfold readEntry at h
  split at h
  · obtain ⟨x, hx, -⟩ := Option.map_eq_some_iff.mp h
    exact hread x hx
  · split at h
    · assumption
    · cases h

end layouts

/-! ### Staged loads (R5, R6) -/

/-- The table a staged part is of. -/
def StagedPart.table : StagedPart → TariffTable
  | .parameters .. => .parameters
  | .tariff .. => .tariff
  | .schedule .. => .schedule
  | .extras .. => .extras

/-- The index a staged part carries. -/
def StagedPart.index : StagedPart → Byte
  | .parameters n _ | .tariff n _ | .schedule n _ | .extras n _ => n

/-- What LOAD_PART reads: a part of the table and at the index its first bytes name, with a body of the entry's width. -/
theorem readLoadPart_cons {t n : Byte} {rest : List Byte} {act : Action} (h : readLoadPart (t :: n :: rest) = some act) :
    ∃ part : StagedPart, act = actLoadPart part ∧ t = enc TariffTable.all part.table ∧ n = part.index ∧ rest.length ≤ 16 := by
  unfold readLoadPart at h
  split at h
  case h_2 => cases h
  case h_1 table n' present body heq =>
    cases heq
    split at h
    case h_5 => cases h
    all_goals
      rename_i htable hpresent
      obtain ⟨e, he, rfl⟩ := Option.map_eq_some_iff.mp h
      refine ⟨_, rfl, (enc_of_dec (by decide) htable).symm, rfl, ?_⟩
    · simp [readEntry_length (fun _ => readParams_length) he]
    · simp [readEntry_length (fun _ => readTariff_length) he]
    · simp [readEntry_length (fun _ => readSchedule_length) he]
    · simp [readEntry_length (fun _ => readExtra_length) he]

theorem TariffTable.enc_eq_zero (t : TariffTable) : enc TariffTable.all t = 0 ↔ t = .parameters := by
  cases t <;> decide

theorem TariffTable.enc_eq_one (t : TariffTable) : enc TariffTable.all t = 1 ↔ t = .tariff := by
  cases t <;> decide

theorem TariffTable.enc_eq_two (t : TariffTable) : enc TariffTable.all t = 2 ↔ t = .schedule := by
  cases t <;> decide

theorem TariffTable.enc_eq_three (t : TariffTable) : enc TariffTable.all t = 3 ↔ t = .extras := by
  cases t <;> decide

theorem TariffTable.dec_enc (t : TariffTable) : dec TariffTable.all (enc TariffTable.all t) = some t := by
  cases t <;> decide

theorem TariffSet.write_eq_none (x : TariffSet) {part : StagedPart}
    (h : (part.table = .parameters ∧ part.index ≠ 0) ∨ (part.table = .tariff ∧ 8 ≤ part.index.toNat)
      ∨ (part.table = .schedule ∧ 16 ≤ part.index.toNat) ∨ (part.table = .extras ∧ 8 ≤ part.index.toNat)) : x.write part = none := by
  cases part with
  | parameters n e => simp_all [StagedPart.table, StagedPart.index, TariffSet.write]
  | tariff n e =>
    have hn : 8 ≤ n.toNat := by simpa [StagedPart.table, StagedPart.index] using h
    simp [TariffSet.write, index_of_ge hn]
  | schedule n e =>
    have hn : 16 ≤ n.toNat := by simpa [StagedPart.table, StagedPart.index] using h
    simp [TariffSet.write, index_of_ge hn]
  | extras n e =>
    have hn : 8 ≤ n.toNat := by simpa [StagedPart.table, StagedPart.index] using h
    simp [TariffSet.write, index_of_ge hn]

section staged
variable {a : Arrival} {s : State} {args : List Byte} {part : StagedPart}

/-- LOAD_PART with an index of its table stores the set so written. -/
theorem exec_loadPart {x y : TariffSet} (h : s.takes a .loadPart) (hl : args.length < 200) (hread : readLoadPart args = some (actLoadPart part))
    (hx : s.tariff.staging = some x) (hy : x.write part = some y) :
    exec (.loadPart a args) s = .next ((s.withStaging (some y)).answered a (doneReply a .loadPart [])) := by
  refine (exec_done (t := (s.heard a).setTariff { s.tariff with staging := some y }) (res := .ok []) h hl hread ?_).trans rfl
  simp [actLoadPart, State.heard, hx, hy]

end staged

/-- Settles O27, entry by entry. -/
theorem stagedLoad : Obligations.StagedLoad := by
  unfold Obligations.StagedLoad
  refine fun a s => ⟨fun h => ?_, fun h => ⟨fun x hx => ?_, fun hnone args hread => ?_⟩⟩
  · exact (exec_done (act := actLoadBegin) h (by simp) rfl rfl).trans rfl
  · refine ⟨fun body e he => ?_, fun i body e he => ?_, fun i body e he => ?_, fun i body e he => ?_, fun body he => ?_, fun i body he => ?_,
      fun i body he => ?_, fun i body he => ?_, fun t n args hread hout => ?_⟩
    · exact exec_loadPart (part := .parameters 0 (some e)) h (by simp [readParams_length he])
        (by simp [readLoadPart, readEntry, dec, TariffTable.all, flagOf, he]) hx rfl
    · exact exec_loadPart (part := .tariff (byte i.val) (some e)) h (by simp [readTariff_length he])
        (by simp [readLoadPart, readEntry, dec, TariffTable.all, flagOf, he]) hx (by simp [TariffSet.write, index_byte])
    · exact exec_loadPart (part := .schedule (byte i.val) (some e)) h (by simp [readSchedule_length he])
        (by simp [readLoadPart, readEntry, dec, TariffTable.all, flagOf, he]) hx (by simp [TariffSet.write, index_byte])
    · exact exec_loadPart (part := .extras (byte i.val) (some e)) h (by simp [readExtra_length he])
        (by simp [readLoadPart, readEntry, dec, TariffTable.all, flagOf, he]) hx (by simp [TariffSet.write, index_byte])
    · exact exec_loadPart (part := .parameters 0 none) h (by simp [he])
        (by simp [readLoadPart, readEntry, dec, TariffTable.all, flagOf, he]) hx rfl
    · exact exec_loadPart (part := .tariff (byte i.val) none) h (by simp [he])
        (by simp [readLoadPart, readEntry, dec, TariffTable.all, flagOf, he]) hx (by simp [TariffSet.write, index_byte])
    · exact exec_loadPart (part := .schedule (byte i.val) none) h (by simp [he])
        (by simp [readLoadPart, readEntry, dec, TariffTable.all, flagOf, he]) hx (by simp [TariffSet.write, index_byte])
    · exact exec_loadPart (part := .extras (byte i.val) none) h (by simp [he])
        (by simp [readLoadPart, readEntry, dec, TariffTable.all, flagOf, he]) hx (by simp [TariffSet.write, index_byte])
    · obtain ⟨act, hact⟩ := Option.ne_none_iff_exists'.mp hread
      obtain ⟨part, rfl, rfl, rfl, hl⟩ := readLoadPart_cons hact
      have hwrite : x.write part = none := x.write_eq_none (by simpa only [TariffTable.enc_eq_zero, TariffTable.enc_eq_one, TariffTable.enc_eq_two, TariffTable.enc_eq_three] using hout)
      exact exec_refused h (by simp; omega) hact (by simp [actLoadPart, State.heard, hx, hwrite])
  · obtain ⟨act, hact⟩ := Option.ne_none_iff_exists'.mp hread
    match args, hact with
    | t :: n :: rest, hact =>
      obtain ⟨part, rfl, -, -, hl⟩ := readLoadPart_cons hact
      exact exec_refused h (by simp; omega) hact (by simp [actLoadPart, State.heard, hnone])

/-! ### Reading an entry back (R11) -/

/-- The entry a staged part carries, as TARIFF_READ answers it. -/
def StagedPart.bytes : StagedPart → List Byte
  | .parameters _ e => paramsBytes e
  | .tariff _ e => tariffBytes e
  | .schedule _ e => scheduleBytes e
  | .extras _ e => extraBytes e

/-- A present entry with the reserved bit of a day set clear is kept byte for byte. -/
theorem readLoadPart_present {t : TariffTable} {n : Byte} {body : List Byte} {act : Action}
    (h : readLoadPart (enc TariffTable.all t :: n :: 1 :: body) = some act)
    (hmsb : t = .schedule → ∀ d rest, body = d :: rest → d.msb = false) :
    ∃ part : StagedPart, act = actLoadPart part ∧ part.table = t ∧ part.index = n ∧ part.bytes = 1 :: body := by
  have hone : flagOf 1 = some true := rfl
  simp only [readLoadPart, TariffTable.dec_enc, hone] at h
  cases t with
  | parameters =>
    obtain ⟨_, he, rfl⟩ := Option.map_eq_some_iff.mp h
    obtain ⟨e, hread, rfl⟩ := Option.map_eq_some_iff.mp he
    exact ⟨_, rfl, rfl, rfl, readParams_bytes hread⟩
  | tariff =>
    obtain ⟨_, he, rfl⟩ := Option.map_eq_some_iff.mp h
    obtain ⟨e, hread, rfl⟩ := Option.map_eq_some_iff.mp he
    exact ⟨_, rfl, rfl, rfl, readTariff_bytes hread⟩
  | schedule =>
    obtain ⟨_, he, rfl⟩ := Option.map_eq_some_iff.mp h
    obtain ⟨e, hread, rfl⟩ := Option.map_eq_some_iff.mp he
    obtain ⟨days, rest, rfl, -, hbytes⟩ := readSchedule_bytes hread
    have hdays : days &&& 0x7F = days := by
      have hmsb' := hmsb rfl days rest rfl
      rw [BitVec.msb_eq_false_iff_two_mul_lt] at hmsb'
      rw [← extractLsb'_setWidth]
      apply BitVec.eq_of_toNat_eq
      simp only [BitVec.toNat_setWidth, BitVec.extractLsb'_toNat]
      omega
    exact ⟨_, rfl, rfl, rfl, hbytes.trans (by rw [hdays])⟩
  | extras =>
    obtain ⟨_, he, rfl⟩ := Option.map_eq_some_iff.mp h
    obtain ⟨e, hread, rfl⟩ := Option.map_eq_some_iff.mp he
    exact ⟨_, rfl, rfl, rfl, readExtra_bytes hread⟩

/-- A part written at an index of its table is what a read there gives. -/
theorem TariffSet.read_write (x : TariffSet) {part : StagedPart} (h : (x.read part.table part.index).isSome = true) :
    ∃ y, x.write part = some y ∧ y.read part.table part.index = some part.bytes := by
  cases part with
  | parameters n e =>
    have hn : n = 0 := by
      by_contra hn
      exact absurd ((congrArg Option.isSome (if_neg hn)).symm.trans h) (by simp)
    exact ⟨{ x with params := e }, by simp [TariffSet.write, hn], by simp [TariffSet.read, StagedPart.table, StagedPart.index, StagedPart.bytes, hn]⟩
  | tariff n e =>
    obtain ⟨i, (hi : index 8 n = some i)⟩ := Option.isSome_iff_exists.mp (Option.isSome_map.symm.trans h)
    exact ⟨{ x with tariffs := x.tariffs.set i e }, by simp [TariffSet.write, hi],
      by simp [TariffSet.read, StagedPart.table, StagedPart.index, StagedPart.bytes, hi]⟩
  | schedule n e =>
    obtain ⟨i, (hi : index 16 n = some i)⟩ := Option.isSome_iff_exists.mp (Option.isSome_map.symm.trans h)
    exact ⟨{ x with schedule := x.schedule.set i e }, by simp [TariffSet.write, hi],
      by simp [TariffSet.read, StagedPart.table, StagedPart.index, StagedPart.bytes, hi]⟩
  | extras n e =>
    obtain ⟨i, (hi : index 8 n = some i)⟩ := Option.isSome_iff_exists.mp (Option.isSome_map.symm.trans h)
    exact ⟨{ x with extras := x.extras.set i e }, by simp [TariffSet.write, hi],
      by simp [TariffSet.read, StagedPart.table, StagedPart.index, StagedPart.bytes, hi]⟩

/-- Which entries a set has does not depend on the set. -/
theorem TariffSet.read_isSome (x y : TariffSet) (t : TariffTable) (n : Byte) : (x.read t n).isSome = (y.read t n).isSome := by
  cases t <;> simp [TariffSet.read]
  split <;> rfl

/-- TARIFF_READ of a present index answers the entry of the set it names. -/
theorem actTariffRead_staging {s : State} {x : TariffSet} {t : TariffTable} {n : Byte} {bytes : List Byte} (hx : s.tariff.staging = some x)
    (hread : x.read t n = some bytes) : actTariffRead .staging t n s = (s, .ok bytes) := by
  obtain ⟨e, he⟩ := Option.isSome_iff_exists.mp ((TariffSet.read_isSome .empty x t n).trans (by simp [hread]))
  simp [actTariffRead, he, hx, hread]

theorem actTariffRead_inForce {s : State} {t : TariffTable} {n : Byte} {bytes : List Byte} (hread : s.tariff.inForce.read t n = some bytes) :
    actTariffRead .inForce t n s = (s, .ok bytes) := by
  obtain ⟨e, he⟩ := Option.isSome_iff_exists.mp ((TariffSet.read_isSome .empty s.tariff.inForce t n).trans (by simp [hread]))
  simp [actTariffRead, he, hread]

theorem State.hears_of_face {s t : State} {q : Port} (h : s.hears q) (hpower : t.power = s.power) (hface : t.link.face = s.link.face) : t.hears q := by
  obtain ⟨hrun, hup, hshut⟩ := h
  have hport := face_of_face s t hface q
  exact ⟨hpower ▸ hrun, (congrArg PortFace.up hport).trans hup, (congrArg PortFace.shut hport).trans hshut⟩

theorem State.hears_heard {s : State} {q : Port} (a : Arrival) (h : s.hears q) : (s.heard a).hears q := by
  obtain ⟨hrun, hup, hshut⟩ := h
  refine ⟨hrun, ?_⟩
  by_cases hq : q = a.port
  · subst hq
    rw [State.heard, restartSilence, State.port_setPort_same]
    exact ⟨hup, hshut⟩
  · rw [State.heard, restartSilence, State.port_setPort_other _ _ _ _ hq]
    exact ⟨hup, hshut⟩

/-- A port that hears hears on after an answer that changed what is not the link's or the power unit's. -/
theorem State.hears_emit {s t : State} {q r : Port} {f : Frame} (h : s.hears q) (hpower : t.power = s.power) (hlink : t.link = s.link) :
    (emit r f t).hears q :=
  State.hears_of_face h (by simpa using hpower) (by simp [hlink])

theorem takes_either {s : State} {a : Arrival} {r : RequestName} (h : s.hears a.port) (hp : a.port = .c ∨ a.port = .d) (hr : r.authority = .either) :
    s.takes a r := by
  refine ⟨h, ?_⟩
  rcases hp with hp | hp <;> simp [hr, hp, Authority.permits]

/-- Settles O28: the part is stored as `readLoadPart_present` reads it, and read back by `TariffSet.read_write`. -/
theorem stagedEntryReadsBack : Obligations.StagedEntryReadsBack := by
  unfold Obligations.StagedEntryReadsBack
  intro a b s x t n body h hb hport hx hsome hread hmsb
  obtain ⟨act, hact⟩ := Option.ne_none_iff_exists'.mp hread
  obtain ⟨part, rfl, rfl, rfl, hbytes⟩ := readLoadPart_present hact hmsb
  obtain ⟨_, -, -, -, hl⟩ := readLoadPart_cons hact
  obtain ⟨y, hwrite, hy⟩ := x.read_write hsome
  refine ⟨_, exec_loadPart h (by simp at hl ⊢; omega) hact hx hwrite, ?_⟩
  have htakes : State.takes ((s.withStaging (some y)).answered a (doneReply a .loadPart [])) b .tariffRead :=
    takes_either (State.hears_emit (State.hears_heard a hb) rfl rfl) hport rfl
  refine exec_answered (act := actTariffRead .staging part.table part.index) htakes (by simp) ?_ ?_
  · simp only [RequestName.read, readTariffRead, TariffTable.dec_enc]
    rfl
  · rw [← hbytes]
    exact actTariffRead_staging (by simp [State.answered, State.heard, State.withStaging]) hy

/-! ### The serialization (R7, R195) -/

theorem length_flatMap_of_width {α β : Type} {f : α → List β} {n : Nat} (hf : ∀ x, (f x).length = n) (l : List α) :
    (l.flatMap f).length = l.length * n := by
  simp [List.length_flatMap, hf]

/-- A list is determined by its elements' fields of one width, laid one after another. -/
theorem flatMap_inj {α β : Type} {f : α → List β} {n : Nat} {P : α → Prop} (hf : ∀ x, (f x).length = n)
    (hinj : ∀ x y, P x → P y → f x = f y → x = y) {l m : List α} (hlen : l.length = m.length) (hl : ∀ x ∈ l, P x) (hm : ∀ x ∈ m, P x)
    (h : l.flatMap f = m.flatMap f) : l = m := by
  induction l generalizing m with
  | nil => simpa using hlen.symm
  | cons x l ih =>
    match m, hlen with
    | y :: m, hlen =>
      simp only [List.flatMap_cons, List.forall_mem_cons] at h hl hm
      obtain ⟨hx, hrest⟩ := List.append_inj h ((hf x).trans (hf y).symm)
      rw [hinj x y hl.1 hm.1 hx, ih (by simpa using hlen) hl.2 hm.2 hrest]

theorem TariffSet.serialize_length (x : TariffSet) : x.serialize.length = 273 := by
  simp [TariffSet.serialize, paramsBytes_length, length_flatMap_of_width tariffBytes_length, length_flatMap_of_width scheduleBytes_length,
    length_flatMap_of_width extraBytes_length]

theorem byte_inj {v w : Nat} (hv : v < 256) (hw : w < 256) (h : byte v = byte w) : v = w := by
  rwa [byte_eq_byte_iff, Nat.mod_eq_of_lt hv, Nat.mod_eq_of_lt hw] at h

theorem enc_inj {α : Type} [DecidableEq α] {all : List α} (hall : ∀ x, x ∈ all) (hl : all.length ≤ 256) {x y : α} (h : enc all x = enc all y) :
    x = y := by
  have hlt : ∀ z, all.idxOf z < 256 := fun z => (List.idxOf_lt_length_of_mem (hall z)).trans_le hl
  exact (List.idxOf_inj (hall x)).mp (byte_inj (hlt x) (hlt y) h)

theorem Method.enc_inj {x y : Method} (h : enc Method.all x = enc Method.all y) : x = y :=
  Machine.enc_inj (by intro z; cases z <;> decide) (by decide) h

theorem ExtraKind.enc_inj {x y : ExtraKind} (h : enc ExtraKind.all x = enc ExtraKind.all y) : x = y :=
  Machine.enc_inj (by intro z; cases z <;> decide) (by decide) h

/-- Entries of one table with the same bytes are both absent, or both present with the same fields. -/
theorem option_bytes_inj {α : Type} {f : Option α → List Byte} {ok : α → Bool} (hnone : ∀ x, f none ≠ f (some x))
    (hsome : ∀ x y, ok x = true → ok y = true → f (some x) = f (some y) → x = y) (e e' : Option α)
    (he : ∀ x, e = some x → ok x = true) (he' : ∀ x, e' = some x → ok x = true) (h : f e = f e') : e = e' := by
  match e, e' with
  | none, none => rfl
  | none, some y => exact absurd h (hnone y)
  | some x, none => exact absurd h.symm (hnone x)
  | some x, some y => rw [hsome x y (he x rfl) (he' y rfl) h]

theorem paramsBytes_inj (e e' : Option Params) (he : ∀ x, e = some x → x.inRange = true) (he' : ∀ x, e' = some x → x.inRange = true)
    (h : paramsBytes e = paramsBytes e') : e = e' := by
  refine option_bytes_inj (fun x => by simp [paramsBytes, List.replicate_succ]) (fun x y hx hy h => ?_) e e' he he' h
  cases x
  cases y
  simp only [Params.inRange, Bool.and_eq_true, decide_eq_true_eq] at hx hy
  simp only [paramsBytes, List.append_assoc, List.cons_append, List.cons.injEq, true_and] at h
  obtain ⟨h1, h⟩ := h
  obtain ⟨h2, h⟩ := List.append_inj h (by simp)
  obtain ⟨h3, h⟩ := List.append_inj h (by simp)
  obtain ⟨h4, h5⟩ := List.cons.inj h
  simp only [Params.mk.injEq]
  exact ⟨byte_inj (by omega) (by omega) h1, be_inj (by omega) (by omega) h2, be_inj (by omega) (by omega) h3,
    byte_inj (by omega) (by omega) h4, be_inj (by omega) (by omega) h5⟩

theorem tariffBytes_inj (e e' : Option Tariff) (he : ∀ x, e = some x → x.inRange = true) (he' : ∀ x, e' = some x → x.inRange = true)
    (h : tariffBytes e = tariffBytes e') : e = e' := by
  refine option_bytes_inj (fun x => by simp [tariffBytes, List.replicate_succ]) (fun x y hx hy h => ?_) e e' he he' h
  cases x
  cases y
  simp only [Tariff.inRange, Bool.and_eq_true, decide_eq_true_eq] at hx hy
  simp only [tariffBytes, List.append_assoc, List.cons_append, List.cons.injEq, true_and] at h
  obtain ⟨h1, h⟩ := h
  obtain ⟨h2, h⟩ := List.append_inj h (by simp)
  obtain ⟨h3, h⟩ := List.append_inj h (by simp)
  obtain ⟨h4, h⟩ := List.append_inj h (by simp)
  obtain ⟨h5, h⟩ := List.append_inj h (by simp)
  obtain ⟨h6, h7⟩ := List.append_inj h (by simp)
  simp only [Tariff.mk.injEq]
  exact ⟨Method.enc_inj h1, be_inj (by omega) (by omega) h2, be_inj (by omega) (by omega) h3, be_inj (by omega) (by omega) h4,
    be_inj (by omega) (by omega) h5, be_inj (by omega) (by omega) h6, be_inj (by omega) (by omega) h7⟩

theorem scheduleBytes_inj (e e' : Option Schedule) (he : ∀ x, e = some x → x.inRange = true) (he' : ∀ x, e' = some x → x.inRange = true)
    (h : scheduleBytes e = scheduleBytes e') : e = e' := by
  refine option_bytes_inj (fun x => by simp [scheduleBytes, List.replicate_succ]) (fun x y hx hy h => ?_) e e' he he' h
  cases x
  cases y
  simp only [Schedule.inRange, Bool.and_eq_true, decide_eq_true_eq] at hx hy
  simp only [scheduleBytes, List.cons_append, List.cons.injEq, true_and] at h
  obtain ⟨h1, h⟩ := h
  obtain ⟨h2, h3⟩ := List.append_inj h (by simp)
  have hdays := congrArg (BitVec.setWidth 7) h1
  simp only [BitVec.setWidth_setWidth_of_le, Nat.reduceLeDiff, BitVec.setWidth_eq] at hdays
  simp only [Schedule.mk.injEq]
  exact ⟨hdays, be_inj (by omega) (by omega) h2, byte_inj (by omega) (by omega) (List.cons.inj h3).1⟩

theorem extraBytes_inj (e e' : Option Extra) (he : ∀ x, e = some x → x.inRange = true) (he' : ∀ x, e' = some x → x.inRange = true)
    (h : extraBytes e = extraBytes e') : e = e' := by
  refine option_bytes_inj (fun x => by simp [extraBytes, List.replicate_succ]) (fun x y hx hy h => ?_) e e' he he' h
  cases x
  cases y
  simp only [Extra.inRange, Bool.and_eq_true, decide_eq_true_eq] at hx hy
  simp only [extraBytes, List.cons_append, List.cons.injEq, true_and] at h
  obtain ⟨h1, h⟩ := h
  obtain ⟨h2, h3⟩ := List.append_inj h (by simp)
  simp only [Extra.mk.injEq]
  exact ⟨ExtraKind.enc_inj h1, be_inj (by omega) (by omega) h2, byte_inj (by omega) (by omega) (List.cons.inj h3).1⟩

/-- The serialization falls into its four tables, of one length each for every set. -/
theorem serialize_tables {x y : TariffSet} (h : x.serialize = y.serialize) :
    paramsBytes x.params = paramsBytes y.params ∧ x.tariffs.toList.flatMap tariffBytes = y.tariffs.toList.flatMap tariffBytes
      ∧ x.schedule.toList.flatMap scheduleBytes = y.schedule.toList.flatMap scheduleBytes
      ∧ x.extras.toList.flatMap extraBytes = y.extras.toList.flatMap extraBytes := by
  have hp := (paramsBytes_length x.params).trans (paramsBytes_length y.params).symm
  have ht : (x.tariffs.toList.flatMap tariffBytes).length = (y.tariffs.toList.flatMap tariffBytes).length := by
    simp only [length_flatMap_of_width tariffBytes_length, Vector.length_toList]
  have he : (x.extras.toList.flatMap extraBytes).length = (y.extras.toList.flatMap extraBytes).length := by
    simp only [length_flatMap_of_width extraBytes_length, Vector.length_toList]
  obtain ⟨h, hextras⟩ := List.append_inj' h he
  have hs : (x.schedule.toList.flatMap scheduleBytes).length = (y.schedule.toList.flatMap scheduleBytes).length := by
    simp only [length_flatMap_of_width scheduleBytes_length, Vector.length_toList]
  obtain ⟨h, hschedule⟩ := List.append_inj' h hs
  obtain ⟨hparams, htariffs⟩ := List.append_inj h hp
  exact ⟨hparams, htariffs, hschedule, hextras⟩

theorem TariffSet.eq_of_tables {x y : TariffSet} (hp : x.params = y.params) (ht : x.tariffs = y.tariffs) (hs : x.schedule = y.schedule)
    (he : x.extras = y.extras) : x = y := by
  cases x
  cases y
  exact (TariffSet.mk.injEq ..).mpr ⟨hp, ht, hs, he⟩

/-- Settles O30: each table's entries are determined by their bytes, and all have one width. -/
theorem serializationDeterminesSet : Obligations.SerializationDeterminesSet := by
  unfold Obligations.SerializationDeterminesSet
  refine ⟨TariffSet.serialize_length, fun x y hx hy h => ?_⟩
  obtain ⟨⟨p, hp, hprange, -⟩, htariffs, hschedule, hextras, -⟩ := x.valid_iff.mp hx
  obtain ⟨⟨p', hp', hprange', -⟩, htariffs', hschedule', hextras', -⟩ := y.valid_iff.mp hy
  obtain ⟨h1, h2, h3, h4⟩ := serialize_tables h
  have hparams : x.params = y.params := paramsBytes_inj _ _ (fun q hq => by rwa [← Option.some.inj (hp.symm.trans hq)])
    (fun q hq => by rwa [← Option.some.inj (hp'.symm.trans hq)]) h1
  have hentries {α : Type} {n w : Nat} {f : Option α → List Byte} {ok : α → Bool} {v v' : Vector (Option α) n} (hf : ∀ e, (f e).length = w)
      (hinj : ∀ e e', (∀ x, e = some x → ok x = true) → (∀ x, e' = some x → ok x = true) → f e = f e' → e = e')
      (hv : ∀ x, some x ∈ v.toList → ok x = true) (hv' : ∀ x, some x ∈ v'.toList → ok x = true)
      (h : v.toList.flatMap f = v'.toList.flatMap f) : v = v' :=
    Vector.toList_inj.mp (flatMap_inj hf hinj (by simp) (fun e he x hx => hv x (hx ▸ he)) (fun e he x hx => hv' x (hx ▸ he)) h)
  have ht := hentries tariffBytes_length tariffBytes_inj htariffs htariffs' h2
  have hs := hentries scheduleBytes_length scheduleBytes_inj (fun e he => (hschedule e he).1) (fun e he => (hschedule' e he).1) h3
  have he := hentries extraBytes_length extraBytes_inj hextras hextras' h4
  exact TariffSet.eq_of_tables hparams ht hs he

end Sys2Proof.Machine
end

