-- ==== Sys2Proof/Proofs/Bands.lean ====
section
/-! PROOFS. Passes that fire nothing, what a pass leaves of the other slots, events taken slot by slot, and the band: its evaluation
(R15), its change (R16, R44 to R46) and the statements of the tariff store's requests. -/
set_option Elab.async false
namespace Sys2Proof.Machine

/-! ### Passes (R55) -/

theorem State.milestonesOff_iff (s : State) : s.milestonesOff = true ↔ ∀ e : Fin 12, s.milestone.table[e].enabled = false := by
  simp only [milestonesOff, Vector.all_eq_true, Bool.not_eq_eq_eq_not, Bool.not_true]
  exact ⟨fun h e => h e.val e.isLt, fun h e he => h ⟨e, he⟩⟩

theorem State.milestonesOff_congr {s t : State} (h : t.milestone = s.milestone) : t.milestonesOff = s.milestonesOff := by
  simp [milestonesOff, h]

/-- With no entry enabled a pass does nothing. -/
theorem runPass_of_off {s : State} (h : s.milestonesOff = true) (i : Fin 4) (q : Quantity) : runPass i q s = s := by
  rw [runPass_eq]
  exact foldl_passStep_of_disabled i q entries s fun e _ => s.milestonesOff_iff.mp h e

theorem fareChange_of_off {s : State} (h : s.milestonesOff = true) (i : Fin 4) (n : Nat) : fareChange i n s = s := by
  unfold fareChange
  split
  · rfl
  · exact runPass_of_off h i .fare

theorem fareChange_of_same {s : State} {i : Fin 4} {n : Nat} (h : (s.party i).fare = n) : fareChange i n s = s :=
  if_pos h

/-- A pass touches its own party alone. -/
theorem runPass_party_other (i : Fin 4) (q : Quantity) (s : State) {j : Fin 4} (h : j ≠ i) : (runPass i q s).party j = s.party j := by
  rw [runPass_eq]
  refine foldl_keeps (fun s : State => s.party j) _ (fun s e => ?_) entries s
  unfold passStep
  split
  · rw [State.party, firingTold_fare]
    exact State.party_setParty_other _ _ _ _ h
  · rfl

theorem fareChange_party_other (i : Fin 4) (n : Nat) (s : State) {j : Fin 4} (h : j ≠ i) : (fareChange i n s).party j = s.party j := by
  unfold fareChange
  split
  · rfl
  · exact runPass_party_other i .fare s h

theorem retariffAuto_party_other (n : Nat) (s : State) (i : Fin 4) {j : Fin 4} (h : j ≠ i) : (retariffAuto n s i).party j = s.party j := by
  unfold retariffAuto
  dsimp only
  split
  · split
    · rw [fareChange_party_other _ _ _ h, State.party_setParty_other _ _ _ _ h]
    · exact State.party_setParty_other _ _ _ _ h
  · rfl

theorem meterParty_party_other (q : Quantity) (grow : Party → Party) (s : State) (i : Fin 4) {j : Fin 4} (h : j ≠ i) :
    (meterParty q grow s i).party j = s.party j := by
  unfold meterParty
  dsimp only
  split
  · split
    · rw [runPass_party_other _ _ _ h, State.party_setParty_other _ _ _ _ h]
    · rw [runPass_party_other _ _ _ h, runPass_party_other _ _ _ h, State.party_setParty_other _ _ _ _ h]
  · rfl

/-! ### Events taken slot by slot -/

/-- A party after an event of every slot in turn is what its own slot's part made of it. -/
theorem foldl_slots_party {s : State} {step : State → Fin 4 → State} {i : Fin 4} {q : Party} (hkeep : ∀ t j, (step t j).tariff = t.tariff)
    (hother : ∀ t k, i ≠ k → (step t k).party i = t.party i)
    (hself : ∀ t, t.tariff = s.tariff → t.party i = s.party i → (step t i).party i = q) : (slots.foldl step s).party i = q := by
  have hskip : ∀ (ks : List (Fin 4)) (t : State), i ∉ ks → (ks.foldl step t).party i = t.party i := by
    intro ks
    induction ks with
    | nil => exact fun _ _ => rfl
    | cons k ks ih =>
      intro t hmem
      simp only [List.mem_cons, not_or] at hmem
      rw [List.foldl_cons, ih _ hmem.2, hother t k hmem.1]
  have hmem : ∀ i : Fin 4, i ∈ slots := by decide
  obtain ⟨before, behind, hsplit⟩ := List.append_of_mem (hmem i)
  have hnodup : (before ++ i :: behind).Nodup := hsplit ▸ by decide
  obtain ⟨-, hbehind, hdisj⟩ := List.nodup_append.mp hnodup
  rw [hsplit, List.foldl_append, List.foldl_cons, hskip behind _ (List.nodup_cons.mp hbehind).1]
  refine hself _ (foldl_keeps State.tariff step hkeep before s) (hskip before s fun hb => ?_)
  exact hdisj i hb i (by simp) rfl

/-- Every party replaced in turn. -/
theorem foldl_setParty (f : Party → Party) (s : State) : slots.foldl (fun t i => t.setParty i (f (t.party i))) s = s.withParties f := by
  have hparties : (slots.foldl (fun t i => t.setParty i (f (t.party i))) s).fare.parties = s.fare.parties.map f := by
    ext k hk
    interval_cases k <;> simp [slots, State.setParty, State.party]
  exact congrArg (fun x => { s with fare := { s.fare with parties := x } }) hparties

/-- An event that replaces every party in turn by what the store makes of it. -/
theorem foldl_slots_withParties {s : State} {step : State → Fin 4 → State} {f : Party → Party}
    (hstep : ∀ t i, t.tariff = s.tariff → t.milestone = s.milestone → step t i = t.setParty i (f (t.party i))) :
    slots.foldl step s = s.withParties f := by
  have hsame : ∀ (ks : List (Fin 4)) (t : State), t.tariff = s.tariff → t.milestone = s.milestone →
      ks.foldl step t = ks.foldl (fun t i => t.setParty i (f (t.party i))) t := by
    intro ks
    induction ks with
    | nil => exact fun _ _ _ => rfl
    | cons k ks ih =>
      intro t ht hm
      rw [List.foldl_cons, List.foldl_cons, hstep t k ht hm]
      exact ih _ ht hm
  rw [hsame slots s rfl rfl, foldl_setParty]

theorem State.party_withParties (s : State) (f : Party → Party) (i : Fin 4) : (s.withParties f).party i = f (s.party i) := by
  simp [State.party, State.withParties]

/-! ### A change of the band (R16, R44 to R46) -/

theorem State.stepped_congr {s t : State} (h : t.tariff = s.tariff) (p : Party) : t.stepped p = s.stepped p := by
  simp only [stepped, tariffAt, calibration, h]

theorem State.following_congr {s t : State} (h : t.tariff.inForce = s.tariff.inForce) (b : Option Nat) : t.following b = s.following b := by
  funext p
  simp only [following, stepped, tariffAt, calibration, h]

/-- The tariff change event at a party, but for the pass it may start. -/
theorem State.retariffed_auto (s : State) (n : Nat) (p : Party) (h : p.follows = true) : s.retariffed p n .auto = s.following (some n) p := by
  have hlock : p.lock = .auto := by simpa [Party.follows] using (Bool.and_eq_true_iff.mp h).2
  simp only [retariffed, following, h, if_true]
  cases p
  cases hlock
  rfl

theorem Party.follows_iff (p : Party) : p.follows = true ↔ p.riding = true ∧ p.lock = .auto := by
  simp [follows, riding]

theorem State.following_of_not_follows (s : State) (b : Option Nat) {p : Party} (h : p.follows = false) : s.following b p = p := by
  cases b <;> simp [following, h]

/-- The tariff change event at one slot. -/
theorem retariffAuto_eq (n : Nat) (s : State) (i : Fin 4) :
    retariffAuto n s i =
      if (s.party i).follows = true ∧ (s.party i).state = .metering then
        fareChange i (s.party i).fare (s.setParty i (s.following (some n) (s.party i)))
      else s.setParty i (s.following (some n) (s.party i)) := by
  unfold retariffAuto
  dsimp only
  by_cases hf : (s.party i).follows = true
  · rw [if_pos ((s.party i).follows_iff.mp hf), s.retariffed_auto n _ hf]
    simp only [hf, true_and]
  · rw [if_neg fun h => hf ((s.party i).follows_iff.mpr h), if_neg fun h => hf h.1,
      s.following_of_not_follows _ (by simpa using hf), State.setParty_self]

/-- With no entry enabled the tariff change event is the parties' change alone. -/
theorem foldl_retariffAuto_of_off {s : State} (h : s.milestonesOff = true) (n : Nat) :
    slots.foldl (retariffAuto n) s = s.withParties (s.following (some n)) := by
  refine foldl_slots_withParties fun t i ht hm => ?_
  have hoff : ∀ p, (t.setParty i p).milestonesOff = true := fun p => (State.milestonesOff_congr hm).trans h
  rw [retariffAuto_eq, fareChange_of_off (hoff _), ite_self, State.following_congr (s := s) (by rw [ht])]

/-- A party that is not metered by the event is the one its change of tariff leaves. -/
theorem foldl_retariffAuto_party {s : State} {i : Fin 4} (h : (s.party i).state ≠ .metering ∨ (s.party i).follows = false) (n : Nat) :
    (slots.foldl (retariffAuto n) s).party i = s.following (some n) (s.party i) := by
  refine foldl_slots_party (fun t j => by simp) (fun t k hk => retariffAuto_party_other n t k hk) fun t ht hp => ?_
  have hno : ¬ ((t.party i).follows = true ∧ (t.party i).state = .metering) := by
    rw [hp]
    rcases h with h | h <;> simp [h]
  rw [retariffAuto_eq, if_neg hno, State.party_setParty_same, hp, State.following_congr (s := s) (by rw [ht])]

theorem State.withParties_id (s : State) : s.withParties id = s := by
  simp [withParties]

theorem PortState.shownConsole_same (x : PortState) {s t : State} (h : t.fare = s.fare) : x.shownConsole s t = x := by
  rw [PortState.shownConsole_congr x s s t s rfl h]
  simp [shownConsole]

theorem PortState.shownPassenger_same (x : PortState) {s t : State} (h : t.fare = s.fare) : x.shownPassenger s t = x := by
  rw [PortState.shownPassenger_congr x s s t s rfl h]
  simp [shownPassenger]

theorem State.bandHeard_eq (s : State) : s.bandHeard = slots.any fun i => (s.party i).follows && (s.party i).station != .none := rfl

/-- The chime of a change of the band, triggered where a party that follows it has a station. -/
theorem triggerChime_band_intercom (s t : State) (hup : t.isUp .p = s.isUp .p) (hintercom : t.intercom = s.intercom) :
    (if s.bandHeard then triggerChime .band t else t).intercom = s.bandChimed := by
  rw [State.bandChimed, ← State.bandHeard_eq]
  by_cases hheard : s.bandHeard = true
  · rw [if_pos hheard, triggerChime, show playerPort ChimeId.band.player = .p from rfl, hup]
    by_cases hp : s.isUp .p = true
    · simp only [hp, hheard, if_true, Bool.and_self, hintercom]
      rfl
    · simp only [hp, hheard, Bool.false_and, Bool.false_eq_true, if_false, hintercom]
  · simp only [hheard, Bool.false_eq_true, if_false, Bool.and_false, hintercom]

/-- The state a change of the band begins from: the band held, and its notice toward C. -/
def State.bandGiven (s : State) (b : Option Nat) : State :=
  notifyC .band [bandByte b] (s.setTariff { s.tariff with band := b })

/-- What of a change of the band is the fare engine's: the tariff change event, for any band but NONE. -/
def State.bandFollowed (s : State) (b : Option Nat) : State :=
  match b with
  | some n => tariffChange n (s.bandGiven b)
  | none => s.bandGiven b

theorem changeBand_eq (b : Option Nat) (s : State) :
    changeBand b s = if s.bandHeard then triggerChime .band (s.bandFollowed b) else s.bandFollowed b := by
  cases b <;> rfl

theorem changeBand_fare (b : Option Nat) (s : State) : (changeBand b s).fare = (s.bandFollowed b).fare := by
  rw [changeBand_eq]
  split <;> simp

theorem changeBand_request (b : Option Nat) (s : State) : (changeBand b s).request = (s.bandFollowed b).request := by
  rw [changeBand_eq]
  split <;> simp

theorem changeBand_link (b : Option Nat) (s : State) : (changeBand b s).link = (s.bandFollowed b).link := by
  rw [changeBand_eq]
  split <;> simp

theorem changeBand_intercom (b : Option Nat) (s : State) : (changeBand b s).intercom = s.bandChimed := by
  rw [changeBand_eq]
  refine triggerChime_band_intercom s _ (isUp_of_face s _ ?_ .p) ?_
  · cases b <;> simp [State.bandFollowed, State.bandGiven]
  · cases b <;> simp [State.bandFollowed, State.bandGiven]

/-- A party that a change of the band does not meter. -/
theorem changeBand_party {s : State} {i : Fin 4} (h : (s.party i).state ≠ .metering ∨ (s.party i).follows = false) (b : Option Nat) :
    (changeBand b s).party i = s.following b (s.party i) := by
  rw [State.party, changeBand_fare]
  cases b with
  | none => rfl
  | some n =>
    rw [State.bandFollowed, tariffChange, showChanges_fare]
    exact (foldl_retariffAuto_party (s := s.bandGiven (some n)) h n).trans (congrFun (State.following_congr rfl _) _)

/-- With no entry enabled the fare engine's part of a change of the band is one change of the parties, and the displays. -/
theorem bandFollowed_of_off {s : State} (h : s.milestonesOff = true) (b : Option Nat) :
    s.bandFollowed b = showChanges (s.bandGiven b) ((s.bandGiven b).withParties (s.following b)) := by
  cases b with
  | none => rw [show s.following none = id from rfl, State.withParties_id, showChanges_self, State.bandFollowed]
  | some n =>
    have hoff : (s.bandGiven (some n)).milestonesOff = true := h
    rw [State.bandFollowed, tariffChange, foldl_retariffAuto_of_off hoff]
    rw [State.following_congr (s := s) (t := s.bandGiven (some n)) rfl]

theorem bandGiven_port_c (s : State) (b : Option Nat) : (s.bandGiven b).port .c = s.bandNoticed b (s.port .c) := by
  rw [State.bandGiven, notifyC_port_c]
  cases b <;> rfl

theorem bandGiven_port_p (s : State) (b : Option Nat) : (s.bandGiven b).port .p = s.port .p :=
  notifyC_port_other _ _ _ _ (by decide)

/-- A change of the band, as `State.tookBand` has it. -/
theorem changeBand_tookBand (s : State) {b : Option Nat} (hb : b ≠ s.tariff.band) : s.tookBand (changeBand b s) b := by
  refine ⟨fun h => absurd h hb, fun _ => ⟨changeBand_intercom b s, fun i h => changeBand_party h b, fun hoff => ?_⟩⟩
  have hfollowed := bandFollowed_of_off hoff b
  have hfare : (changeBand b s).fare = ((s.bandGiven b).withParties (s.following b)).fare := by
    rw [changeBand_fare, hfollowed, showChanges_fare]
  have hport : ∀ q, (changeBand b s).port q = (s.bandFollowed b).port q := fun q => by
    simp only [State.port, changeBand_link]
  refine ⟨fun i => ?_, ?_, ?_, ?_⟩
  · rw [State.party, hfare]
    exact State.party_withParties _ _ _
  · rw [changeBand_request, hfollowed, showChanges_request]
    rfl
  · rw [hport, hfollowed, showChanges_port_c, ← bandGiven_port_c]
    exact PortState.shownConsole_congr _ _ _ _ _ rfl hfare.symm
  · rw [hport, hfollowed, showChanges_port_p, ← bandGiven_port_p s b]
    exact PortState.shownPassenger_congr _ _ _ _ _ rfl hfare.symm

theorem evaluateBand_tookBand (s : State) : s.tookBand (evaluateBand s) (bandAt s.tariff.inForce s.tariff.clock) := by
  unfold evaluateBand
  dsimp only
  split
  · exact ⟨fun _ => ⟨rfl, rfl, rfl, rfl, rfl⟩, fun h => absurd ‹_› h⟩
  · exact changeBand_tookBand s ‹_›

/-- What a change of the band does is told by the set in force and the band held, and by nothing else of the store. -/
theorem State.tookBand_setTariff {s t : State} {x : TariffStore} {b : Option Nat} (hset : x.inForce = s.tariff.inForce)
    (hband : x.band = s.tariff.band) (h : (s.setTariff x).tookBand t b) : s.tookBand t b := by
  obtain ⟨hheld, hchanged⟩ := h
  have hfollow : (s.setTariff x).following b = s.following b := State.following_congr hset b
  refine ⟨fun hb => hheld (hb.trans hband.symm), fun hb => ?_⟩
  obtain ⟨hintercom, hparty, hoff⟩ := hchanged fun h => hb (h.trans hband)
  refine ⟨hintercom, fun i hi => ?_, fun hm => ?_⟩
  · rw [hparty i hi, hfollow]
    rfl
  · obtain ⟨hall, hrequest, hc, hp⟩ := hoff hm
    refine ⟨fun i => ?_, hrequest, ?_, ?_⟩
    · rw [hall i, hfollow]
      rfl
    · rw [hc]
      exact PortState.shownConsole_congr _ _ _ _ _ rfl rfl
    · rw [hp]
      exact PortState.shownPassenger_congr _ _ _ _ _ rfl rfl

end Sys2Proof.Machine
end

