-- ==== Sys2Proof/Proofs/TariffStore.lean ====
section
/-! PROOFS. The band by its schedule (R15), the commit of a staged set (R7 to R10) and the requests of the tariff store (R11, R12, R14, R17). -/
set_option Elab.async false
namespace Sys2Proof.Machine

/-! ### The latest entry of today (R15) -/

/-- One entry of the search for the latest. -/
def laterEntry (t : Stamp) (best : Option Schedule) (x : Option Schedule) : Option Schedule :=
  match x with
  | none => best
  | some x =>
    if !x.qualifies t then best
    else
      match best with
      | none => some x
      | some y => if y.start < x.start then some x else best

theorem latestEntry_eq (entries : List (Option Schedule)) (t : Stamp) : latestEntry entries t = entries.foldl (laterEntry t) none := rfl

/-- A schedule entry holds where it is the one found so far or a qualifying one of the list. -/
def Found (t : Stamp) (best : Option Schedule) (entries : List (Option Schedule)) (x : Schedule) : Prop :=
  best = some x ∨ (some x ∈ entries ∧ x.qualifies t = true)

theorem laterEntry_found (t : Stamp) (best e : Option Schedule) (entries : List (Option Schedule)) (x : Schedule)
    (h : Found t (laterEntry t best e) entries x) : Found t best (e :: entries) x := by
  rcases h with h | ⟨h, hq⟩
  · unfold laterEntry at h
    split at h
    · exact .inl h
    · split at h
      · exact .inl h
      · rename_i y hy
        simp only [Bool.not_eq_true, Bool.not_eq_false'] at hy
        split at h
        · cases h
          exact .inr ⟨by simp, hy⟩
        · split at h
          · cases h
            exact .inr ⟨by simp, hy⟩
          · exact .inl h
  · exact .inr ⟨by simp [h], hq⟩

/-- What was found before an entry is not later than what is found after it. -/
theorem le_laterEntry (t : Stamp) (best e : Option Schedule) (x : Schedule) (h : best = some x ∨ (e = some x ∧ x.qualifies t = true)) :
    ∃ y, laterEntry t best e = some y ∧ x.start ≤ y.start := by
  unfold laterEntry
  rcases h with rfl | ⟨rfl, hq⟩
  · split
    · exact ⟨x, rfl, le_rfl⟩
    · split
      · exact ⟨x, rfl, le_rfl⟩
      · simp only
        split
        · exact ⟨_, rfl, le_of_lt ‹_›⟩
        · exact ⟨x, rfl, le_rfl⟩
  · simp only [hq, Bool.not_true, Bool.false_eq_true, if_false]
    split
    · exact ⟨x, rfl, le_rfl⟩
    · split
      · exact ⟨x, rfl, le_rfl⟩
      · exact ⟨_, rfl, not_lt.mp ‹_›⟩

theorem foldl_laterEntry_found (t : Stamp) (entries : List (Option Schedule)) (best : Option Schedule) (y : Schedule)
    (h : entries.foldl (laterEntry t) best = some y) : Found t best entries y := by
  induction entries generalizing best with
  | nil => exact .inl h
  | cons e entries ih => exact laterEntry_found t best e entries y (ih _ h)

theorem le_foldl_laterEntry (t : Stamp) (entries : List (Option Schedule)) (best : Option Schedule) (x : Schedule) (h : Found t best entries x) :
    ∃ y, entries.foldl (laterEntry t) best = some y ∧ x.start ≤ y.start := by
  induction entries generalizing best x with
  | nil =>
    obtain rfl | ⟨h, -⟩ := h
    · exact ⟨x, rfl, le_rfl⟩
    · simp at h
  | cons e entries ih =>
    by_cases hrest : some x ∈ entries ∧ x.qualifies t = true
    · exact ih _ x (.inr hrest)
    · obtain ⟨z, hz, hxz⟩ := le_laterEntry t best e x (by
        rcases h with h | ⟨hmem, hq⟩
        · exact .inl h
        · rcases List.mem_cons.mp hmem with he | hmem
          · exact .inr ⟨he.symm, hq⟩
          · exact absurd ⟨hmem, hq⟩ hrest)
      obtain ⟨y, hy, hzy⟩ := ih _ z (.inl hz)
      exact ⟨y, hy, hxz.trans hzy⟩

theorem latestEntry_eq_none {entries : List (Option Schedule)} {t : Stamp} (h : ∀ x, some x ∈ entries → x.qualifies t = false) :
    latestEntry entries t = none := by
  rw [latestEntry_eq, Option.eq_none_iff_forall_ne_some]
  intro y hy
  rcases foldl_laterEntry_found t entries none y hy with h' | ⟨hmem, hq⟩
  · cases h'
  · exact absurd (hq.symm.trans (h y hmem)) (by simp)

theorem latestEntry_eq_some {entries : List (Option Schedule)} {t : Stamp} {x : Schedule} (hmem : some x ∈ entries) (hq : x.qualifies t = true)
    (h : ∀ y, some y ∈ entries → y.qualifies t = true → y = x ∨ y.start < x.start) : latestEntry entries t = some x := by
  obtain ⟨y, hy, hxy⟩ := le_foldl_laterEntry t entries none x (.inr ⟨hmem, hq⟩)
  rw [latestEntry_eq, hy]
  rcases foldl_laterEntry_found t entries none y hy with h' | ⟨hymem, hyq⟩
  · cases h'
  · rcases h y hymem hyq with rfl | hlt
    · rfl
    · exact absurd hxy (not_le.mpr hlt)

/-- Settles O32, by what the search for the latest entry finds. -/
theorem bandIsLatestEntry : Obligations.BandIsLatestEntry := by
  unfold Obligations.BandIsLatestEntry
  intro x t applies
  have happlies : ∀ e, applies e ↔ some e ∈ x.schedule.toList ∧ e.qualifies t = true := fun e => by
    simp only [applies, Schedule.qualifies, weekday, minuteOf, Bool.and_eq_true]
    exact ⟨fun ⟨hm, hd, hs⟩ => ⟨hm, hd, decide_eq_true hs⟩, fun ⟨hm, hd, hs⟩ => ⟨hm, hd, of_decide_eq_true hs⟩⟩
  refine ⟨fun hp => by simp [bandAt, hp], fun p hp => ⟨fun hv => by simp [bandAt, hp, hv], fun hv hnone => ?_, fun hv e he hlast => ?_⟩⟩
  · have hlatest : latestEntry x.schedule.toList t = none :=
      latestEntry_eq_none fun e hmem => by simpa using fun hq => hnone e ((happlies e).mpr ⟨hmem, hq⟩)
    simp [bandAt, hp, hv, hlatest]
  · obtain ⟨hmem, hq⟩ := (happlies e).mp he
    have hlatest : latestEntry x.schedule.toList t = some e :=
      latestEntry_eq_some hmem hq fun y hy hyq => hlast y ((happlies y).mpr ⟨hy, hyq⟩)
    simp [bandAt, hp, hv, hlatest]

/-! ### A change of the band with every slot IDLE -/

theorem State.everyIdle_iff (s : State) : s.everyIdle = true ↔ ∀ i, (s.party i).state = .idle := by
  have hmem : ∀ i : Fin 4, i ∈ slots := by decide
  simp [everyIdle, Party.riding, hmem]

/-- With every slot IDLE a change of the band is its notice alone. -/
theorem changeBand_of_idle {s : State} (h : s.everyIdle = true) (b : Option Nat) : changeBand b s = s.bandGiven b := by
  have hidle := s.everyIdle_iff.mp h
  have hheard : s.bandHeard = false := by simp [State.bandHeard, Party.riding, hidle]
  rw [changeBand_eq, hheard, if_neg (by simp)]
  cases b with
  | none => rfl
  | some n =>
    have hslot : ∀ i, retariffAuto n (s.bandGiven (some n)) i = s.bandGiven (some n) := fun i => by
      have hnot : ((s.bandGiven (some n)).party i).follows = false := by
        rw [show (s.bandGiven (some n)).party i = s.party i from rfl]
        simp [Party.follows, hidle]
      rw [retariffAuto_eq, if_neg (by simp [hnot]), State.following_of_not_follows _ _ hnot, State.setParty_self]
    rw [State.bandFollowed, tariffChange, List.foldl_fixed' hslot, showChanges_self]

/-! ### LOAD_COMMIT (R7 to R10) -/

/-- An accepted set, at the commit. -/
def State.installing (s : State) (x : TariffSet) (p : Params) : State :=
  s.setTariff { s.tariff with inForce := x, setId := p.setId, changes := min 65535 (s.tariff.changes + 1), staging := none }

theorem installSet_eq {x : TariffSet} {p : Params} (hp : x.params = some p) (s : State) : installSet x s = evaluateBand (s.installing x p) := by
  simp only [installSet, hp]
  rfl

/-- An accepted commit with every slot IDLE reaches the tariff store and the BAND notice alone. -/
theorem installSet_changesOnly {s : State} (h : s.everyIdle = true) {x : TariffSet} {p : Params} (hp : x.params = some p) :
    s.changesOnly (installSet x s) [.request, .tariff] := by
  have hidle : (s.installing x p).everyIdle = true := h
  rw [installSet_eq hp, evaluateBand]
  split
  · simp [State.changesOnly, State.installing, State.setTariff]
  · rw [changeBand_of_idle hidle]
    simp [State.changesOnly, State.bandGiven, State.installing, State.setTariff]

theorem actLoadCommit_of_valid {s : State} {x : TariffSet} {check : BitVec 16} (hx : s.tariff.staging = some x)
    (h : commitFault s.shift.state x check = none) :
    actLoadCommit check s = (installSet x s, .ok (be 2 (installSet x s).tariff.setId ++ be 2 (installSet x s).tariff.changes)) := by
  simp only [actLoadCommit, hx, h]

/-- A set that may be committed is complete. -/
theorem params_of_commit {shift : ShiftState} {x : TariffSet} {check : BitVec 16} (h : commitFault shift x check = none) : ∃ p, x.params = some p := by
  have hvalid := ((commitFault_eq_none_iff shift x check).mp h).2.2
  obtain ⟨⟨p, hp, -⟩, -⟩ := x.valid_iff.mp hvalid
  exact ⟨p, hp⟩

section commit
variable {a : Arrival} {s : State} {x : TariffSet} {hi lo : Byte}

theorem exec_loadCommit_refused {reason : Reason} {item : Byte × Byte} (h : s.takes a .loadCommit) (hx : s.tariff.staging = some x)
    (hfault : commitFault s.shift.state x (hi ++ lo) = some (reason, item)) :
    exec (.loadCommit a [hi, lo]) s =
      .next ((s.withStaging none).answered a (replyFrame a.tag RequestName.loadCommit.code (.refused reason item))) := by
  refine (exec_done (act := actLoadCommit (hi ++ lo)) (t := (s.heard a).setTariff { s.tariff with staging := none })
    (res := .refused reason item) h (by simp) rfl ?_).trans rfl
  simp only [actLoadCommit, State.heard, restartSilence_tariff, restartSilence_shift, hx, hfault]

theorem installSet_tariff {p : Params} (hp : x.params = some p) :
    (installSet x s).tariff = { s.tariff with
      inForce := x, setId := p.setId, changes := min 65535 (s.tariff.changes + 1), staging := none, band := bandAt x s.tariff.clock } := by
  rw [installSet_eq hp, evaluateBand_tariff]
  rfl

theorem exec_loadCommit_done {p : Params} (h : s.takes a .loadCommit) (hx : s.tariff.staging = some x) (hp : x.params = some p)
    (hfault : commitFault s.shift.state x (hi ++ lo) = none) :
    exec (.loadCommit a [hi, lo]) s =
      .next (emit a.port (doneReply a .loadCommit (be 2 p.setId ++ be 2 (min 65535 (s.tariff.changes + 1)))) (installSet x (s.heard a))) := by
  refine exec_done (act := actLoadCommit (hi ++ lo)) h (by simp) rfl ?_
  have hx' : (s.heard a).tariff.staging = some x := hx
  have hfault' : commitFault (s.heard a).shift.state x (hi ++ lo) = none := hfault
  rw [actLoadCommit_of_valid hx' hfault', installSet_tariff hp]
  rfl

end commit

/-- Settles O29: the refusal classes by `commitFault_eq_none_iff`, the installed set by `installSet_eq`. -/
theorem commitInstallsValidSets : Obligations.CommitInstallsValidSets := by
  unfold Obligations.CommitInstallsValidSets
  refine ⟨fun x check => by simp only [commitFault_eq_none_iff, true_and], fun shift x check h => by simp only [commitFault, h, ne_eq,
    not_false_eq_true, if_true], fun a s hi lo h => ⟨fun hnone => ?_, fun x hx => ⟨fun reason item => exec_loadCommit_refused h hx, ?_⟩⟩⟩
  · exact exec_refused (act := actLoadCommit (hi ++ lo)) h (by simp) rfl
      (by simp only [actLoadCommit, State.heard, restartSilence_tariff, hnone])
  · intro hfault hidle
    obtain ⟨p, hp⟩ := params_of_commit hfault
    exact ⟨p, installSet x (s.heard a), hp, exec_loadCommit_done h hx hp hfault, installSet_tariff (s := s.heard a) hp,
      installSet_changesOnly (s := s.heard a) hidle hp⟩

/-! ### TARIFF_READ, TARIFF_STATUS, SET_CLOCK and SET_CAB_ID (R11, R12, R14, R17) -/

theorem readTariffRead_eq (source : TariffSource) (t : TariffTable) (n : Byte) (port : Port) :
    RequestName.tariffRead.read port [enc TariffSource.all source, enc TariffTable.all t, n] = some (actTariffRead source t n) := by
  cases source <;> cases t <;> rfl

theorem actTariffRead_absent {s : State} {source : TariffSource} {t : TariffTable} {n : Byte} (h : s.tariff.inForce.read t n = none) :
    actTariffRead source t n s = (s, .refuse .range) := by
  have he : TariffSet.empty.read t n = none := by
    simpa [h] using TariffSet.read_isSome .empty s.tariff.inForce t n
  simp [actTariffRead, he]

theorem actTariffRead_closed {s : State} {t : TariffTable} {n : Byte} (hs : s.tariff.staging = none) (h : (s.tariff.inForce.read t n).isSome = true) :
    actTariffRead .staging t n s = (s, .refuse .notFound) := by
  obtain ⟨e, he⟩ := Option.isSome_iff_exists.mp ((TariffSet.read_isSome .empty s.tariff.inForce t n).trans h)
  simp [actTariffRead, he, hs]

/-- Settles O31, request by request; the band by `evaluateBand_tookBand`. -/
theorem storeRequests : Obligations.StoreRequests := by
  unfold Obligations.StoreRequests
  refine fun a s => ⟨fun h t n => ⟨fun bytes hb => ?_, fun x bytes hx hb => ?_, fun hs hb => ?_, fun hb source hsource => ?_⟩, fun h => ?_,
    fun h d1 d0 t2 t1 t0 => ⟨fun ht => ?_, fun ht => ?_⟩, fun h n3 n2 n1 n0 => ⟨fun hc => ?_, fun hc => ?_⟩⟩
  · exact exec_answered h (by simp) (readTariffRead_eq .inForce t n _) (actTariffRead_inForce hb)
  · exact exec_answered h (by simp) (readTariffRead_eq .staging t n _) (actTariffRead_staging hx hb)
  · exact exec_refused h (by simp) (readTariffRead_eq .staging t n _) (actTariffRead_closed hs hb)
  · rcases hsource with rfl | rfl
    · exact exec_refused h (by simp) (readTariffRead_eq .inForce t n _) (actTariffRead_absent hb)
    · exact exec_refused h (by simp) (readTariffRead_eq .staging t n _) (actTariffRead_absent hb)
  · exact exec_answered (act := actTariffStatus) h (by simp) rfl rfl
  · have hlt : ¬ Config.dayLength ≤ num [t2, t1, t0] := not_le.mpr ht
    refine ⟨_, exec_done (act := actSetClock (num [d1, d0]) (num [t2, t1, t0])) h (by simp) rfl (if_neg hlt), ⟨?_, ?_⟩, ?_⟩
    · rw [evaluateBand_tariff]
      rfl
    · exact State.tookBand_setTariff (x := { s.tariff with clock := ⟨num [d1, d0], num [t2, t1, t0], true⟩ }) rfl rfl (evaluateBand_tookBand _)
    · have := (RequestName.Does.setClock (port := a.port) (num [d1, d0]) (num [t2, t1, t0])).changesOnly (s.heard a)
      rwa [actSetClock, if_neg hlt] at this
  · exact exec_refused (act := actSetClock (num [d1, d0]) (num [t2, t1, t0])) h (by simp) rfl (if_pos ht)
  · exact (exec_done (act := actSetCabId (n3 ++ n2 ++ n1 ++ n0)) h (by simp) rfl (if_neg (not_not.mpr hc))).trans rfl
  · exact exec_refused (act := actSetCabId (n3 ++ n2 ++ n1 ++ n0)) h (by simp) rfl (if_pos hc)

end Sys2Proof.Machine
end

