-- ==== Sys2Proof/Proofs/TripRequests.lean ====
section
/-! PROOFS. What is told of a slot's change of state and of a change the displays show, and the statements of the requests that end,
resume and set a trip (R19, R25 to R31). -/
set_option Elab.async false
namespace Sys2Proof.Machine

/-! ### Requests that reach a slot -/

section request
variable {r : RequestName} {a : Arrival} {args : List Byte} {act : Action} {s t : State}

/-- A request its owner completes, and what it reaches. -/
theorem exec_reaches {res : Result} (h : s.takes a r) (hl : args.length < 200) (hr : r.read a.port args = some act)
    (hact : act (s.heard a) = (t, res)) :
    exec (r.command a args) s = .next (emit a.port (replyFrame a.tag r.code res) t) ∧ (s.heard a).changesOnly t r.reach := by
  refine ⟨exec_done h hl hr hact, ?_⟩
  have hchanges := (RequestName.does_of_read hr).changesOnly (s.heard a)
  rwa [hact] at hchanges

end request

/-! ### What is told (R21, R47, R48) -/

section told
variable {b v : State}

/-- What is told of a slot's change of state, where what came before it placed nothing toward C and P. -/
theorem tripTold_handOff (hrequest : v.request = b.request) (hc : v.port .c = b.port .c) (hp : v.port .p = b.port .p) (i : Fin 4) (trip : Nat) :
    b.tripTold (showChanges b (handOff i trip v)) i trip := by
  have hfare : (handOff i trip v).fare = (showChanges b (handOff i trip v)).fare := (showChanges_fare ..).symm
  have hparty : (showChanges b (handOff i trip v)).party i = v.party i := by
    rw [State.party, showChanges_fare, handOff_fare]
    rfl
  refine ⟨?_, ?_, ?_⟩
  · rw [showChanges_request, handOff_request, hrequest]
  · rw [showChanges_port_c, handOff_port_c, hc, hrequest, PortState.tripShown, hparty]
    exact PortState.shownConsole_congr _ _ _ _ _ rfl hfare
  · rw [showChanges_port_p, handOff_port_other _ _ _ _ (by decide) (by decide), hp]
    exact PortState.shownPassenger_congr _ _ _ _ _ rfl hfare

/-- What is told of a change that the displays alone show. -/
theorem displayed_showChanges (hrequest : v.request = b.request) (hc : v.port .c = b.port .c) (hp : v.port .p = b.port .p) :
    b.displayed (showChanges b v) := by
  have hfare : v.fare = (showChanges b v).fare := (showChanges_fare ..).symm
  refine ⟨by rw [showChanges_request, hrequest], ?_, ?_⟩
  · rw [showChanges_port_c, hc]
    exact PortState.shownConsole_congr _ _ _ _ _ rfl hfare
  · rw [showChanges_port_p, hp]
    exact PortState.shownPassenger_congr _ _ _ _ _ rfl hfare

end told

/-! ### PAY_CASH (R27) -/

/-- A party after cash was recorded for it. -/
def Party.paidCash (p : Party) (amount : Nat) : Party :=
  { p with cash := p.cash + amount, state := if p.due - amount = 0 then .settled else .hold }

/-- A slot's party after cash: told as a change of state where it goes to SETTLED, and displayed otherwise. -/
def cashTaken (i : Fin 4) (q : Party) (s : State) : State :=
  showChanges s (if q.state = .settled then moveParty i q s else s.setParty i q)

section cashTaken
variable {i : Fin 4} {q : Party} {s : State}

theorem cashTaken_fare : (cashTaken i q s).fare = s.fare.withParty i q := by
  rw [cashTaken, showChanges_fare]
  split
  · exact moveParty_fare i q s
  · rfl

theorem cashTaken_told (h : q.state = .settled) : s.tripTold (cashTaken i q s) i q.trip := by
  rw [cashTaken, if_pos h]
  exact tripTold_handOff (b := s) (v := s.setParty i q) rfl rfl rfl i q.trip

theorem cashTaken_displayed (h : q.state = .hold) : s.displayed (cashTaken i q s) := by
  rw [cashTaken, if_neg (by rw [h]; decide)]
  exact displayed_showChanges (b := s) (v := s.setParty i q) rfl rfl rfl

end cashTaken

/-- PAY_CASH at a HOLD party. -/
theorem actPayCash_eq {s : State} {i : Fin 4} (hstate : (s.party i).state = .hold) {amount : Nat} (h : amount ≠ 0) :
    actPayCash (byte i.val) amount s =
      let p := s.party i
      let recorded := min amount p.due
      let q := p.paidCash recorded
      (cashTaken i q s, .done (be 4 recorded ++ be 4 (p.due - recorded) ++ [enc PartyState.all q.state]) (decide (p.due < amount))) := by
  generalize hp : s.party i = p
  have hdue : ∀ n, ({ p with cash := p.cash + n } : Party).due = p.due - n := fun n => by
    simp only [Party.due]
    omega
  have hdue' : ∀ n st, ({ p with cash := p.cash + n, state := st } : Party).due = p.due - n := fun n _ => hdue n
  have hclamped : (min amount p.due != amount) = decide (p.due < amount) := by
    rw [Bool.eq_iff_iff, bne_iff_ne, decide_eq_true_iff]
    omega
  rw [actPayCash, onSlot_of_takes _ _ _ _ (by simp [hstate])]
  simp only [h, if_false, hp, Party.paidCash, cashTaken, Party.standing, hdue, hdue', hclamped]
  rfl

/-- Settles O35, by the closed form of PAY_CASH. -/
theorem payCashRecordsUpToDue : Obligations.PayCashRecordsUpToDue := by
  unfold Obligations.PayCashRecordsUpToDue
  intro a s i a3 a2 a1 a0 h hstate amount p recorded st
  have hread : RequestName.payCash.read a.port [byte i.val, a3, a2, a1, a0] = some (actPayCash (byte i.val) amount) := rfl
  refine ⟨fun h0 => exec_refused h (by simp) hread ?_, fun h0 => ?_⟩
  · rw [actPayCash, onSlot_of_takes _ _ _ _ (by simpa using hstate), if_pos h0]
  · obtain ⟨hexec, hreach⟩ := exec_reaches h (by simp) hread (actPayCash_eq (s := s.heard a) hstate h0)
    exact ⟨_, hexec, cashTaken_fare, fun hst => cashTaken_told (q := p.paidCash recorded) hst, fun hst => cashTaken_displayed hst, hreach⟩

/-! ### RESUME, VOID and CLOSE_TRIP (R25, R26, R28) -/

theorem State.stepped_state (s : State) (p : Party) : (s.stepped p).state = p.state := by
  unfold stepped
  split <;> rfl

theorem State.stepped_trip (s : State) (p : Party) : (s.stepped p).trip = p.trip := by
  unfold stepped
  split <;> rfl

theorem showChanges_party (b s : State) (i : Fin 4) : (showChanges b s).party i = s.party i := by
  simp only [State.party, showChanges_fare]

/-- RESUME at a HOLD party that has paid nothing. -/
theorem actResume_eq {s : State} {i : Fin 4} (hstate : (s.party i).state = .hold) (hcash : (s.party i).cash = 0)
    (honline : (s.party i).cardOnline = 0) (hoffline : (s.party i).cardOffline = 0) :
    actResume (byte i.val) s =
      let s1 := fareChange i (s.party i).fare (s.setParty i { s.stepped (s.party i) with state := .metering })
      let s2 := showChanges s (handOff i (s1.party i).trip s1)
      (s2, .ok (be 4 (s2.party i).fare)) := by
  rw [actResume, onSlot_of_takes _ _ _ _ (by simp [hstate])]
  simp only [hcash, honline, hoffline, ne_eq, not_true_eq_false, or_self, if_false, showChanges_party]

/-- A METERING party stays METERING while its change of fare is handed on. -/
theorem fareChange_metering {s : State} {i : Fin 4} (h : (s.party i).state = .metering) (n : Nat) : ((fareChange i n s).party i).state = .metering :=
  (State.Follows.fareChange h).meters h

theorem party_showChanges_handOff (b v : State) (i j : Fin 4) (trip : Nat) : (showChanges b (handOff i trip v)).party j = v.party j := by
  rw [State.party, showChanges_fare, handOff_fare]
  rfl

theorem tripClosedAt_link (st : Station) (s : State) : (tripClosedAt st s).link = s.link := by
  unfold tripClosedAt
  dsimp only
  split_ifs <;> rfl

theorem tripClosedAt_request (st : Station) (s : State) : (tripClosedAt st s).request = s.request := by
  unfold tripClosedAt
  dsimp only
  split_ifs <;> rfl

theorem tripClosedAt_intercom_congr (st : Station) {s t : State} (h : t.intercom = s.intercom) :
    (tripClosedAt st t).intercom = (tripClosedAt st s).intercom := by
  unfold tripClosedAt
  rw [h]
  dsimp only
  split_ifs
  · rfl
  · rfl
  · exact h

/-- A slot emptied, and told under the number of the trip that ended. -/
theorem vacated_told {b v : State} (hrequest : v.request = b.request) (hlink : v.link = b.link) (hfare : v.fare = b.fare) (i : Fin 4) :
    b.tripTold (showChanges b (vacate i v)) i (b.party i).trip ∧ (showChanges b (vacate i v)).fare = b.fare.withParty i .vacant := by
  have hport : ∀ q, (v.setParty i .vacant).port q = b.port q := fun q => State.port_of_link hlink q
  have htrip : (v.party i).trip = (b.party i).trip := congrArg (fun x : FareEngine => (x.parties[i]).trip) hfare
  refine ⟨?_, ?_⟩
  · rw [vacate, htrip]
    exact tripTold_handOff (v := v.setParty i .vacant) hrequest (hport .c) (hport .p) i _
  · rw [vacate, showChanges_fare, handOff_fare]
    exact congrArg (fun x : FareEngine => x.withParty i .vacant) hfare

/-- A RESUME whose change of fare fires nothing. -/
theorem resumed_told {b v : State} {i : Fin 4} {p q : Party} (hsame : fareChange i p.fare v = v) (htrip : (v.party i).trip = p.trip)
    (hrequest : v.request = b.request) (hlink : v.link = b.link) (hfare : v.fare = b.fare.withParty i q) :
    let u := showChanges b (handOff i ((fareChange i p.fare v).party i).trip (fareChange i p.fare v))
    u.fare = b.fare.withParty i q ∧ b.tripTold u i p.trip := by
  intro u
  have hu : u = showChanges b (handOff i p.trip v) := by simp only [u, hsame, htrip]
  refine ⟨?_, ?_⟩
  · rw [hu, showChanges_fare, handOff_fare, hfare]
  · rw [hu]
    exact tripTold_handOff hrequest (State.port_of_link hlink .c) (State.port_of_link hlink .p) i p.trip

/-- Settles O36, by the three requests' closed forms. -/
theorem tripsResumeAndEnd : Obligations.TripsResumeAndEnd := by
  unfold Obligations.TripsResumeAndEnd
  intro a s i p
  refine ⟨fun h hstate => ⟨fun hpaid => ?_, fun hcash honline hoffline => ?_⟩, fun h hstate => ⟨fun hno => ?_, fun hd ht hx => ?_⟩, fun h hstate => ?_⟩
  · refine exec_refused (act := actResume (byte i.val)) h (by simp) rfl ?_
    rw [actResume, onSlot_of_takes _ _ _ _ (by simpa using hstate)]
    exact if_pos hpaid
  · let resumed := (s.heard a).setParty i { s.stepped p with state := .metering }
    obtain ⟨hexec, hreach⟩ := exec_reaches (r := .resume) (args := [byte i.val]) (act := actResume (byte i.val)) h (by simp) rfl (actResume_eq (s := s.heard a) hstate hcash honline hoffline)
    refine ⟨_, hexec, ?_, fun hquiet => ?_, hreach⟩
    · rw [party_showChanges_handOff]
      exact fareChange_metering (by simp) _
    · have hsame : fareChange i p.fare resumed = resumed := by
        rcases hquiet with hfare | hoff
        · exact fareChange_of_same (by rw [State.party_setParty_same]; exact hfare)
        · exact fareChange_of_off (s := resumed) hoff i _
      have htrip : (resumed.party i).trip = p.trip := by
        rw [State.party_setParty_same]
        exact s.stepped_trip p
      exact resumed_told hsame htrip rfl rfl rfl
  · refine exec_refused (act := actVoid (byte i.val)) h (by simp) rfl ?_
    rw [actVoid, onSlot_of_takes _ _ _ _ (by simpa using hstate)]
    refine if_neg fun hfresh => ?_
    obtain ⟨hd, ht, hx⟩ := hfresh
    have hd' : p.phaseD = .allowance := hd
    have ht' : p.phaseT = .allowance := ht
    have hx' : p.extras = 0 := hx
    simp [hd', ht', hx'] at hno
  · have hact : actVoid (byte i.val) (s.heard a) =
        (showChanges (s.heard a) (vacate i ((s.heard a).setTotals s.shift.totals.countVoided)), .ok []) := by
      rw [actVoid, onSlot_of_takes _ _ _ _ (by simpa using hstate)]
      exact if_pos ⟨hd, ht, hx⟩
    obtain ⟨hexec, hreach⟩ := exec_reaches (r := .void) (args := [byte i.val]) (act := actVoid (byte i.val)) h (by simp) rfl hact
    obtain ⟨htold, hfare⟩ := vacated_told (b := s.heard a) (v := (s.heard a).setTotals s.shift.totals.countVoided) rfl rfl rfl i
    refine ⟨_, hexec, htold, hfare, ?_, hreach⟩
    simp [vacate, State.setTotals, State.setParty]
  · have hact : actCloseTrip (byte i.val) (s.heard a) =
        (showChanges (s.heard a) (vacate i (tripClosedAt p.station ((s.heard a).setTotals (s.shift.totals.post p)))), .ok (be 4 p.trip)) := by
      rw [actCloseTrip, onSlot_of_takes _ _ _ _ (by simpa using hstate)]
      rfl
    obtain ⟨hexec, hreach⟩ := exec_reaches (r := .closeTrip) (args := [byte i.val]) (act := actCloseTrip (byte i.val)) h (by simp) rfl hact
    obtain ⟨htold, hfare⟩ := vacated_told (b := s.heard a) (v := tripClosedAt p.station ((s.heard a).setTotals (s.shift.totals.post p)))
      (tripClosedAt_request _ _) (tripClosedAt_link _ _) (tripClosedAt_fare _ _) i
    refine ⟨_, hexec, htold, hfare, ?_, ?_, hreach⟩
    · simp [vacate, State.setTotals, State.setParty]
    · have hintercom : (showChanges (s.heard a) (vacate i (tripClosedAt p.station ((s.heard a).setTotals (s.shift.totals.post p))))).intercom =
          (tripClosedAt p.station ((s.heard a).setTotals (s.shift.totals.post p))).intercom := by
        simp [vacate, State.setParty]
      rw [hintercom]
      exact tripClosedAt_intercom_congr _ rfl

/-! ### ADD_EXTRA, SET_TARIFF, SET_STATION and SHARE (R19, R29 to R31) -/

theorem State.stationTaken_iff (s : State) (st : Station) (other : Fin 4 → Bool) :
    s.stationTaken st other = true ↔ st ≠ .none ∧ ∃ j, other j = true ∧ (s.party j).state ≠ .idle ∧ (s.party j).station = st := by
  have hmem : ∀ i : Fin 4, i ∈ slots := by decide
  simp [stationTaken, Party.riding, hmem, and_assoc]

/-- What an extras entry charges for the amount given (R29). -/
def Extra.charged (x : Extra) (amount : Nat) : Nat :=
  match x.kind with
  | .fixed => x.amount
  | .variable => amount

/-- ADD_EXTRA at a METERING or HOLD party below its limit for the extra. -/
theorem actAddExtra_eq {s : State} {i : Fin 4} (hstate : (s.party i).state = .metering ∨ (s.party i).state = .hold) {e : Fin 8} {x : Extra}
    (hx : s.extraAt e.val = some x) (hlimit : (s.party i).atLimit e x = false) {amount : Nat}
    (hrange : ¬ (x.kind = .variable ∧ (amount = 0 ∨ x.amount < amount))) :
    actAddExtra (byte i.val) (byte e.val) amount s =
      let p := s.party i
      let q := p.withExtra e (x.charged amount)
      (showChanges s (s.setParty i q), .ok (be 4 (q.extras - p.extras) ++ be 4 q.extras ++ be 4 q.due)) := by
  have htakes : ((s.party i).state == .metering || (s.party i).state == .hold) = true := by rcases hstate with h | h <;> rw [h] <;> rfl
  rw [actAddExtra, onSlot_of_takes _ _ _ _ htakes]
  simp only [index_byte (show 8 ≤ 256 by decide) e, hx, hlimit, Bool.false_eq_true, if_false]
  rw [if_neg hrange]
  rfl

theorem State.tariffFault_eq_none {s : State} {t : Byte} (h : t = 255 ∨ (t.toNat ≤ 7 ∧ (s.tariffAt t.toNat).isSome = true)) :
    s.tariffFault (tariffArg t) = none := by
  unfold tariffArg
  split
  · rfl
  · rename_i hauto
    obtain ⟨hle, hpresent⟩ := h.resolve_left hauto
    simp [tariffFault, Nat.not_lt.mpr hle, Option.isSome_iff_ne_none.mp hpresent]

/-- A party with the tariff and lock an argument names. -/
def State.tariffed (s : State) (t : Byte) (p : Party) : Party :=
  { p with tariff := if t = 255 then s.tariff.band.getD 0 else t.toNat, lock := if t = 255 then .auto else .fixed }

theorem State.retariffed_chosen (s : State) (t : Byte) (p : Party) :
    s.retariffed p (s.tariffChosen (tariffArg t)).1 (s.tariffChosen (tariffArg t)).2 =
      if p.state = .metering then s.stepped (s.tariffed t p) else s.tariffed t p := by
  unfold tariffArg tariffed
  split <;> rfl

/-- SET_TARIFF at a slot, before its displays. -/
def tariffSet (i : Fin 4) (t : Byte) (s : State) : State :=
  let p := s.party i
  if p.state = .metering then fareChange i p.fare (s.setParty i (s.stepped (s.tariffed t p))) else s.setParty i (s.tariffed t p)

section tariffSet
variable {i : Fin 4} {t : Byte} {s : State}

theorem tariffSet_of_hold (h : (s.party i).state = .hold) : tariffSet i t s = s.setParty i (s.tariffed t (s.party i)) :=
  if_neg (by rw [h]; decide)

/-- A change of tariff that fires nothing. -/
theorem tariffSet_of_quiet (h : (s.party i).state = .metering)
    (hquiet : (s.stepped (s.tariffed t (s.party i))).fare = (s.party i).fare ∨ s.milestonesOff = true) :
    tariffSet i t s = s.setParty i (s.stepped (s.tariffed t (s.party i))) := by
  refine (if_pos h).trans ?_
  rcases hquiet with hfare | hoff
  · exact fareChange_of_same (by rw [State.party_setParty_same]; exact hfare)
  · exact fareChange_of_off (s := s.setParty i (s.stepped (s.tariffed t (s.party i)))) hoff i _

theorem tariffSet_metering (h : (s.party i).state = .metering) : ((tariffSet i t s).party i).state = .metering := by
  rw [tariffSet, if_pos h]
  refine fareChange_metering ?_ _
  rw [State.party_setParty_same, State.stepped_state]
  exact h

/-- SET_TARIFF at a METERING or HOLD party, with a tariff it may take. -/
theorem actSetTariff_eq (hstate : (s.party i).state = .metering ∨ (s.party i).state = .hold)
    (ht : t = 255 ∨ (t.toNat ≤ 7 ∧ (s.tariffAt t.toNat).isSome = true)) :
    actSetTariff (byte i.val) (tariffArg t) s =
      let u := showChanges s (tariffSet i t s)
      (u, .ok ([byte (u.party i).tariff, enc Lock.all (u.party i).lock] ++ be 4 (u.party i).fare)) := by
  have htakes : ((s.party i).state == .metering || (s.party i).state == .hold) = true := by rcases hstate with h | h <;> rw [h] <;> rfl
  rw [actSetTariff, onSlot_of_takes _ _ _ _ htakes]
  simp only [State.tariffFault_eq_none ht, State.retariffed_chosen, showChanges_party, tariffSet]
  split <;> rfl

end tariffSet

theorem setParty_displayed (s : State) (i : Fin 4) (q : Party) :
    (showChanges s (s.setParty i q)).fare = s.fare.withParty i q ∧ s.displayed (showChanges s (s.setParty i q)) :=
  ⟨by rw [showChanges_fare]; rfl, displayed_showChanges (v := s.setParty i q) rfl rfl rfl⟩

/-- SHARE where it may be given. -/
theorem actShare_eq {on : Bool} {s : State} (h : on = false ∨ s.shift.state = .opened) :
    actShare on s = (if s.fare.share = on then s else deliverParties { s with fare := { s.fare with share := on } },
      .ok [flag on, byte ({ s with fare := { s.fare with share := on } } : State).seatLimit]) := by
  refine if_neg fun hno => ?_
  obtain ⟨hon, hshift⟩ := hno
  rcases h with h | h
  · simp [h] at hon
  · exact hshift h

theorem State.pinEntryAt_of_head {s : State} {i : Fin 4} {r : Record} {rest : List Record} (hqueue : s.payment.queue = r :: rest)
    (hstate : r.state = .pin) (hslot : r.slot = i) : s.pinEntryAt i = true := by
  simp [pinEntryAt, pinHead, hqueue, hstate, hslot]

/-- SET_STATION at a slot that is not IDLE. -/
theorem actSetStation_eq {s : State} {i : Fin 4} (h : (s.party i).state ≠ .idle) (st : Station) :
    actSetStation (byte i.val) st s =
      if s.pinEntryAt i then (s, .refuse .paymentState)
      else if s.stationTaken st fun j => j != i then (s, .refuse .stationTaken)
      else (showChanges s (s.setParty i { s.party i with station := st }), .ok []) :=
  onSlot_of_takes _ _ _ _ (by simpa using h)

theorem readSetStation_eq {b : Byte} {st : Station} (h : dec Station.all b = some st) (n : Byte) (q : Port) :
    RequestName.setStation.read q [n, b] = some (actSetStation n st) := by
  simp [RequestName.read, readSetStation, h]

theorem readFlag_flag (act : Bool → Action) (on : Bool) : readFlag act [flag on] = some (act on) := by
  cases on <;> rfl

/-- The share flag as SHARE leaves it, and the seat limit that follows. -/
theorem shared_fare (on : Bool) (s : State) :
    (if s.fare.share = on then s else deliverParties { s with fare := { s.fare with share := on } }).fare = { s.fare with share := on } := by
  split
  · rename_i h
    rw [← h]
  · simp

theorem shared_tariff (on : Bool) (s : State) :
    (if s.fare.share = on then s else deliverParties { s with fare := { s.fare with share := on } }).tariff = s.tariff := by
  split
  · rfl
  · simp

/-- Settles O37, by the four requests' closed forms. -/
theorem tripSettings : Obligations.TripSettings := by
  unfold Obligations.TripSettings
  intro a s i p
  refine ⟨?_, ?_, ?_, ?_, ?_⟩
  · intro h hstate e x a3 a2 a1 a0 hx hlimit amount hrange charge q
    have hbelow : p.atLimit e x = false := by
      rw [← Bool.not_eq_true, Party.atLimit_iff]
      rintro ⟨hne, hle⟩
      rcases hlimit with h0 | hlt
      · exact hne h0
      · exact absurd hle (not_le.mpr hlt)
    have hfits : ¬ (x.kind = .variable ∧ (amount = 0 ∨ x.amount < amount)) := by
      rintro ⟨hk, hout⟩
      have := hrange hk
      omega
    obtain ⟨hexec, hreach⟩ := exec_reaches (r := .addExtra) (args := [byte i.val, byte e.val, a3, a2, a1, a0]) h (by simp) rfl
      (actAddExtra_eq (s := s.heard a) hstate hx hbelow hfits)
    obtain ⟨hfare, htold⟩ := setParty_displayed (s.heard a) i (p.withExtra e (x.charged amount))
    exact ⟨_, hexec, hfare, htold, hreach⟩
  · intro h hstate t ht q
    obtain ⟨hexec, hreach⟩ := exec_reaches (r := .setTariff) (args := [byte i.val, t]) h (by simp) rfl (actSetTariff_eq (s := s.heard a) hstate ht)
    refine ⟨_, hexec, fun hhold => ?_, fun hmet hquiet => ?_, fun hmet => ?_, hreach⟩
    · rw [tariffSet_of_hold (s := s.heard a) hhold]
      exact setParty_displayed (s.heard a) i _
    · rw [tariffSet_of_quiet (s := s.heard a) hmet hquiet]
      exact setParty_displayed (s.heard a) i _
    · rw [showChanges_party]
      exact tariffSet_metering (s := s.heard a) hmet
  · intro h hstate hpin b st hst
    have hact := actSetStation_eq (s := s.heard a) hstate st
    have hpin' : (s.heard a).pinEntryAt i = false := hpin
    rw [hpin', if_neg (by simp)] at hact
    refine ⟨fun ⟨hne, j, hj, hriding, hsame⟩ => ?_, fun hfree => ?_⟩
    · refine exec_refused (r := .setStation) h (by simp) (readSetStation_eq hst _ _) (hact.trans (if_pos ?_))
      exact (State.stationTaken_iff _ _ _).mpr ⟨hne, j, by simpa using hj, hriding, hsame⟩
    · have hno : ¬ (s.heard a).stationTaken st (fun j => j != i) = true := by
        rw [State.stationTaken_iff]
        rintro ⟨hne, j, hj, hriding, hsame⟩
        exact hfree.resolve_left hne j (by simpa using hj) hriding hsame
      obtain ⟨hexec, hreach⟩ := exec_reaches (r := .setStation) h (by simp) (readSetStation_eq hst (byte i.val) _) (hact.trans (if_neg hno))
      obtain ⟨hfare, htold⟩ := setParty_displayed (s.heard a) i { p with station := st }
      exact ⟨_, hexec, hfare, htold, hreach⟩
  · intro h hstate r rest hqueue hr hslot b st hst
    refine exec_refused (r := .setStation) h (by simp) (readSetStation_eq hst _ _) ((actSetStation_eq (s := s.heard a) hstate st).trans (if_pos ?_))
    exact State.pinEntryAt_of_head (s := s.heard a) hqueue hr hslot
  · intro h on
    refine ⟨fun hon hshift => ?_, fun hon => ?_⟩
    · exact exec_refused (r := .share) (args := [1]) (act := actShare true) h (by simp) rfl (if_pos ⟨rfl, hshift⟩)
    · intro limit
      have hlimit : ({ s with fare := { s.fare with share := on } } : State).seatLimit = limit := by
        cases on <;> rfl
      obtain ⟨hexec, hreach⟩ := exec_reaches (r := .share) (args := [flag on]) h (by simp) (readFlag_flag actShare on) (actShare_eq (s := s.heard a) hon)
      have hfare := shared_fare on (s.heard a)
      have htariff := shared_tariff on (s.heard a)
      refine ⟨_, ?_, hfare, ?_, hreach⟩
      · rw [← hlimit]
        exact hexec
      · rw [← hlimit]
        exact State.seatLimit_congr (s := { s with fare := { s.fare with share := on } }) (congrArg FareEngine.share hfare) (congrArg TariffStore.inForce htariff)

end Sys2Proof.Machine
end

