-- ==== Sys2Proof/Proofs/Hire.lean ====
section
/-! PROOFS. What a pass leaves of its own party, the refusals of a HIRE, the trip it opens, and the statement `HireOpensTrip`. -/
set_option Elab.async false
namespace Sys2Proof.Machine

/-! ### What metering and a pass leave of their party -/

/-- What a trip holds from its hire on while it is not driven: who, where, since when, and what is paid. -/
structure Party.SameTrip (p q : Party) : Prop where
  state : q.state = p.state
  trip : q.trip = p.trip
  station : q.station = p.station
  pulses : q.pulses = p.pulses
  ticks : q.ticks = p.ticks
  cash : q.cash = p.cash
  cardOnline : q.cardOnline = p.cardOnline
  cardOffline : q.cardOffline = p.cardOffline
  shared : q.shared = p.shared
  motionLost : q.motionLost = p.motionLost
  hireTime : q.hireTime = p.hireTime

theorem Party.SameTrip.refl (p : Party) : p.SameTrip p := ⟨rfl, rfl, rfl, rfl, rfl, rfl, rfl, rfl, rfl, rfl, rfl⟩

theorem Party.SameTrip.trans {p q r : Party} (h : p.SameTrip q) (h' : q.SameTrip r) : p.SameTrip r :=
  ⟨h'.state.trans h.state, h'.trip.trans h.trip, h'.station.trans h.station, h'.pulses.trans h.pulses, h'.ticks.trans h.ticks,
    h'.cash.trans h.cash, h'.cardOnline.trans h.cardOnline, h'.cardOffline.trans h.cardOffline, h'.shared.trans h.shared,
    h'.motionLost.trans h.motionLost, h'.hireTime.trans h.hireTime⟩

theorem State.sameTrip_stepped (s : State) (p : Party) : p.SameTrip (s.stepped p) := by
  unfold stepped
  split
  · exact ⟨rfl, rfl, rfl, rfl, rfl, rfl, rfl, rfl, rfl, rfl, rfl⟩
  · exact .refl p

theorem State.sameTrip_retariffed (s : State) (p : Party) (t : Nat) (l : Lock) : p.SameTrip (s.retariffed p t l) := by
  have hset : p.SameTrip { p with tariff := t, lock := l } := ⟨rfl, rfl, rfl, rfl, rfl, rfl, rfl, rfl, rfl, rfl, rfl⟩
  unfold retariffed
  dsimp only
  split
  · exact hset.trans (s.sameTrip_stepped _)
  · exact hset

theorem State.sameTrip_afterAction (s : State) (m : Milestone) (p : Party) : p.SameTrip (s.afterAction m p).1 := by
  rcases s.afterAction_cases m p with h | ⟨-, h⟩ | ⟨x, n, h⟩
  · rw [h]
    exact .refl p
  · rw [h]
    exact s.sameTrip_retariffed p _ _
  · rw [h]
    exact ⟨rfl, rfl, rfl, rfl, rfl, rfl, rfl, rfl, rfl, rfl, rfl⟩

/-- What every action keeps of a party, a pass keeps. -/
theorem runPass_party_keeps {I : Party → Prop} (hI : ∀ (s : State) (m : Milestone) (p : Party), I p → I (s.afterAction m p).1) (i : Fin 4)
    (q : Quantity) {s : State} (h : I (s.party i)) : I ((runPass i q s).party i) := by
  rw [runPass_eq]
  generalize entries = es
  induction es generalizing s with
  | nil => exact h
  | cons e es ih =>
    refine ih ?_
    unfold passStep
    split
    · rw [firingTold_party]
      exact hI s _ _ h
    · exact h

/-! ### A party not driven (R39, R42) -/

/-- Nothing accumulated, and a fare below its cap. -/
def Party.Undriven (fare : Nat) (p : Party) : Prop := p.accD = 0 ∧ p.accT = 0 ∧ p.fare = fare ∧ fare ≤ Config.fareCap

/-- Nothing accumulated makes no step. -/
theorem Accumulator.process_zero (x : Accumulator) (t : Thresholds) (h : x.value = 0) : (x.process t).1.value = 0 ∧ (x.process t).2.1 = 0 := by
  have hend : (x.endAllowance t).value = 0 := by
    unfold endAllowance
    split
    · simp [h]
    · exact h
  refine ⟨?_, ?_⟩
  · simp [process, takeSteps, hend]
  · simp [process, steps, hend]

/-- An accumulator cleared, or one that holds nothing. -/
theorem Accumulator.cleared_or (c : Prop) [Decidable c] {x : Accumulator} (h : x.value = 0) :
    (if c then ⟨.stepping, 0⟩ else x : Accumulator).value = 0 := by
  split
  · rfl
  · exact h

theorem Party.Undriven.step {n : Nat} {p : Party} (h : p.Undriven n) (t : Tariff) (k : Nat) : (p.step t k).Undriven n := by
  obtain ⟨hd, ht, hfare, hcap⟩ := h
  obtain ⟨hdist, hdsteps⟩ := Accumulator.process_zero p.distance (t.distance k) hd
  obtain ⟨htime, htsteps⟩ := Accumulator.process_zero (if t.method = .double ∧ (p.distance.process (t.distance k)).2.2 then ⟨.stepping, 0⟩ else p.time)
    t.time (Accumulator.cleared_or _ ht)
  rw [Party.step_eq, hdsteps, htsteps]
  refine ⟨Accumulator.cleared_or _ hdist, htime, ?_, hcap⟩
  simp only [Party.charge, Party.withAccumulators, hfare]
  omega

theorem Party.Undriven.stepped {n : Nat} {p : Party} (h : p.Undriven n) (s : State) : (s.stepped p).Undriven n := by
  unfold State.stepped
  split
  · exact h.step _ _
  · exact h

theorem Party.Undriven.afterAction {n : Nat} {p : Party} (h : p.Undriven n) (s : State) (m : Milestone) : (s.afterAction m p).1.Undriven n := by
  rcases s.afterAction_cases m p with he | ⟨-, he⟩ | ⟨x, k, he⟩
  · rwa [he]
  · rw [he, State.retariffed]
    have hset : ({ p with tariff := m.argument, lock := .fixed } : Party).Undriven n := h
    split
    · exact hset.stepped s
    · exact hset
  · rw [he]
    exact h

/-! ### The trip a HIRE opens (R23) -/

section openTrip
variable (i : Fin 4) (t : TariffArg) (st : Station) (s : State)

/-- The state a hire's FARE pass begins from: the new party in its slot, armed, and the riders marked shared. -/
def State.hired : State :=
  let p := s.stepped (newParty s t st)
  armSlot i (((if p.shared then markShared s else s).setParty i p).setTotals s.shift.totals.countStarted)

theorem openTrip_eq : openTrip i t st s = runPass i .fare (s.hired i t st) := rfl

theorem hired_party : (s.hired i t st).party i = s.stepped (newParty s t st) :=
  State.party_setParty_same _ _ _

theorem hired_party_other {j : Fin 4} (h : j ≠ i) :
    (s.hired i t st).party j = if 0 < s.ridingCount ∧ (s.party j).riding = true then { s.party j with shared := true } else s.party j := by
  have hother : (s.hired i t st).party j =
      (if (s.stepped (newParty s t st)).shared then markShared s else s).party j := State.party_setParty_other _ _ _ _ h
  have hshared : (s.stepped (newParty s t st)).shared = decide (0 < s.ridingCount) := (s.sameTrip_stepped _).shared
  rw [hother, hshared]
  by_cases hr : 0 < s.ridingCount
  · simp only [hr, decide_true, if_true, true_and, State.party, markShared, Fin.getElem_fin, Vector.getElem_map]
  · simp [hr]

theorem openTrip_sameTrip : (newParty s t st).SameTrip ((openTrip i t st s).party i) := by
  rw [openTrip_eq]
  refine runPass_party_keeps (I := fun p => (newParty s t st).SameTrip p) (fun s m p h => h.trans (s.sameTrip_afterAction m p)) i .fare ?_
  rw [hired_party]
  exact s.sameTrip_stepped _

theorem openTrip_undriven {n : Nat} (h : (newParty s t st).fare = n) (hn : n ≤ Config.fareCap) : ((openTrip i t st s).party i).Undriven n := by
  rw [openTrip_eq]
  refine runPass_party_keeps (I := Party.Undriven n) (fun s m p h => h.afterAction s m) i .fare ?_
  rw [hired_party]
  exact Party.Undriven.stepped ⟨rfl, rfl, h, hn⟩ s

theorem openTrip_party_other {j : Fin 4} (h : j ≠ i) :
    (openTrip i t st s).party j = if 0 < s.ridingCount ∧ (s.party j).riding = true then { s.party j with shared := true } else s.party j := by
  rw [openTrip_eq, runPass_party_other _ _ _ h, hired_party_other i t st s h]

theorem openTrip_of_off (h : s.milestonesOff = true) : openTrip i t st s = s.hired i t st := by
  rw [openTrip_eq]
  refine runPass_of_off ?_ i .fare
  rw [← h]
  refine congrArg (fun table : Vector Milestone 12 => table.all fun m => !m.enabled) ?_
  simp only [State.hired, armSlot]
  split <;> rfl

theorem hired_told : (s.hired i t st).request = s.request ∧ (s.hired i t st).link = s.link := by
  unfold State.hired
  dsimp only
  split <;> exact ⟨rfl, rfl⟩

end openTrip

theorem State.stepped_tariff (s : State) (p : Party) : (s.stepped p).tariff = p.tariff ∧ (s.stepped p).lock = p.lock := by
  unfold stepped
  split <;> exact ⟨rfl, rfl⟩

/-! ### HIRE (R22, R23) -/

section refusals
variable {t : Byte} {st : Station} {s : State}

theorem State.tariffFault_range (h : t ≠ 255) (ht : 7 < t.toNat) : s.tariffFault (tariffArg t) = some .range := by
  simp only [tariffArg, if_neg h, tariffFault, if_pos ht]

theorem State.tariffFault_absent (h : t ≠ 255) (ht : t.toNat ≤ 7) (habsent : (s.tariffAt t.toNat).isNone = true) :
    s.tariffFault (tariffArg t) = some .notFound := by
  simp only [tariffArg, if_neg h, tariffFault, if_neg (not_lt.mpr ht), habsent, if_true]

/-- An argument that names no absent tariff has none at fault. -/
theorem State.tariffFault_present (ht : t = 255 ∨ t.toNat ≤ 7) (h : ¬ (t ≠ 255 ∧ (s.tariffAt t.toNat).isNone = true)) :
    s.tariffFault (tariffArg t) = none := by
  refine State.tariffFault_eq_none ?_
  by_cases hauto : t = 255
  · exact .inl hauto
  · refine .inr ⟨ht.resolve_left hauto, ?_⟩
    rw [Option.isSome_iff_ne_none, ne_eq, ← Option.isNone_iff_eq_none]
    exact fun hnone => h ⟨hauto, hnone⟩

theorem hireFault_unset (h : s.setInForce = false) (x : TariffArg) : hireFault x st s = some .noTariff := by
  simp [hireFault, h]

theorem hireFault_shift (h : s.setInForce = true) (hs : s.shift.state ≠ .opened) (x : TariffArg) : hireFault x st s = some .shiftState := by
  simp [hireFault, h, hs]

theorem hireFault_tariff (h : s.setInForce = true) (hs : s.shift.state = .opened) {x : TariffArg} {reason : Reason}
    (hx : s.tariffFault x = some reason) : hireFault x st s = some reason := by
  simp [hireFault, h, hs, hx]

theorem hireFault_seated (h : s.setInForce = true) (hs : s.shift.state = .opened) {x : TariffArg} (hx : s.tariffFault x = none) :
    hireFault x st s =
      if s.seatLimit ≤ s.ridingCount then some .seatLimit else if s.stationTaken st fun _ => true then some .stationTaken else none := by
  simp [hireFault, h, hs, hx]

theorem actHire_of_fault {x : TariffArg} {reason : Reason} (h : hireFault x st s = some reason) : actHire x st s = (s, .refuse reason) := by
  simp only [actHire, h]

/-- A hire made in the lowest idle slot. -/
def hireMade (i : Fin 4) (x : TariffArg) (st : Station) (s : State) : State :=
  showChanges (evaluateBand s) (handOff i ((openTrip i x st (evaluateBand s)).party i).trip (openTrip i x st (evaluateBand s)))

theorem actHire_of_none {x : TariffArg} {i : Fin 4} (h : hireFault x st s = none) (hi : s.lowestIdle = some i) :
    actHire x st s = (hireMade i x st s, .ok (hireFields i ((hireMade i x st s).party i))) := by
  simp only [actHire, h, hi, hireMade, showChanges_party]

theorem readHire_eq {b : Byte} (h : dec Station.all b = some st) (t : Byte) (q : Port) :
    RequestName.hire.read q [t, b] = some (actHire (tariffArg t) st) := by
  simp [RequestName.read, readHire, h]

theorem hireMade_party (i j : Fin 4) (x : TariffArg) (st : Station) (s : State) :
    (hireMade i x st s).party j = (openTrip i x st (evaluateBand s)).party j := by
  rw [hireMade, party_showChanges_handOff]

/-- The tariff and lock of an argument under the band just evaluated. -/
theorem tariffChosen_evaluated (s : State) (t : Byte) :
    (evaluateBand s).tariffChosen (tariffArg t) =
      (if t = 255 then (bandAt s.tariff.inForce s.tariff.clock).getD 0 else t.toNat, if t = 255 then .auto else .fixed) := by
  unfold tariffArg
  split <;> simp [State.tariffChosen]

/-- A hire under the band held is told by one TRIP notice and the displays. -/
theorem hireMade_told {i : Fin 4} {x : TariffArg} (hband : bandAt s.tariff.inForce s.tariff.clock = s.tariff.band) (hoff : s.milestonesOff = true) :
    s.tripTold (hireMade i x st s) i ((hireMade i x st s).party i).trip := by
  have hsame : evaluateBand s = s := if_pos hband
  obtain ⟨hrequest, hlink⟩ := hired_told i x st s
  rw [hireMade_party, hireMade, hsame, openTrip_of_off i x st s hoff]
  exact tripTold_handOff hrequest (State.port_of_link hlink .c) (State.port_of_link hlink .p) i _

end refusals

/-- What the hire of a party leaves in its slot, of the record it began with. -/
theorem newParty_fields (x : TariffArg) (st : Station) (s : State) :
    (newParty s x st).state = .metering ∧ (newParty s x st).station = st ∧ (newParty s x st).trip = min 4294967295 (s.shift.totals.started + 1)
      ∧ (newParty s x st).hireTime = s.tariff.clock ∧ (newParty s x st).shared = decide (0 < s.ridingCount) :=
  ⟨rfl, rfl, rfl, rfl, rfl⟩

/-- The armed cells move, the entries do not. -/
theorem evaluateBand_table (s : State) : (evaluateBand s).milestone.table = s.milestone.table := by
  have hauto : ∀ (n : Nat) (s : State) (i : Fin 4), (retariffAuto n s i).milestone.table = s.milestone.table := fun n s i => by
    rw [retariffAuto_eq]
    split
    · unfold fareChange
      split
      · rfl
      · rw [runPass_table]
        rfl
    · rfl
  have hchange : ∀ (b : Option Nat) (s : State), (changeBand b s).milestone.table = s.milestone.table := fun b s => by
    rw [changeBand_eq]
    have hfollowed : (s.bandFollowed b).milestone.table = s.milestone.table := by
      cases b with
      | none => rfl
      | some n =>
        rw [State.bandFollowed, tariffChange, showChanges_milestone]
        exact foldl_keeps (fun s : State => s.milestone.table) _ (hauto n) slots _
    split
    · rw [triggerChime_milestone, hfollowed]
    · exact hfollowed
  unfold evaluateBand
  dsimp only
  split
  · rfl
  · exact hchange _ s

theorem evaluateBand_off {s : State} (h : s.milestonesOff = true) : (evaluateBand s).milestonesOff = true := by
  rw [State.milestonesOff, evaluateBand_table]
  exact h

/-- Settles O33: the refusals in their order, and the trip that `openTrip` opens behind the evaluation of the band. -/
theorem hireOpensTrip : Obligations.HireOpensTrip := by
  unfold Obligations.HireOpensTrip
  intro a s t stationByte st h hst absent refused
  have hread := readHire_eq hst t a.port
  have hrefused : ∀ {reason : Reason}, hireFault (tariffArg t) st s = some reason → refused reason := fun hf =>
    exec_refused (r := .hire) h (by simp) hread (actHire_of_fault (s := s.heard a) hf)
  refine ⟨fun hset => hrefused (hireFault_unset hset _), fun hset hopen => hrefused (hireFault_shift hset hopen _),
    fun hset hopen hne ht => hrefused (hireFault_tariff hset hopen (State.tariffFault_range hne ht)),
    fun hset hopen ht habsent => hrefused (hireFault_tariff hset hopen (State.tariffFault_absent habsent.1 ht habsent.2)),
    fun hset hopen ht hpresent hfull => hrefused ?_, fun hset hopen ht hpresent hseat => ⟨fun htaken => hrefused ?_, fun hfree i hi => ?_⟩⟩
  · rw [hireFault_seated hset hopen (State.tariffFault_present ht hpresent), if_pos hfull]
  · obtain ⟨hne, j, hriding, hsame⟩ := htaken
    rw [hireFault_seated hset hopen (State.tariffFault_present ht hpresent), if_neg (not_le.mpr hseat),
      if_pos ((s.stationTaken_iff st _).mpr ⟨hne, j, rfl, hriding, hsame⟩)]
  · intro band chosen
    have hnone : hireFault (tariffArg t) st (s.heard a) = none := by
      refine (hireFault_seated (s := s) hset hopen (State.tariffFault_present ht hpresent)).trans ?_
      rw [if_neg (not_le.mpr hseat), if_neg]
      rw [State.stationTaken_iff]
      rintro ⟨hne, j, -, hriding, hsame⟩
      exact hfree.resolve_left hne j hriding hsame
    obtain ⟨hexec, hreach⟩ := exec_reaches (r := .hire) h (by simp) hread (actHire_of_none hnone hi)
    have hfollows : (s.heard a).Follows (evaluateBand (s.heard a)) := .evaluateBand _
    have hriding : (evaluateBand (s.heard a)).ridingCount = s.ridingCount := hfollows.sameRiders.ridingCount
    have hfollowsOff : s.milestonesOff = true → (evaluateBand (s.heard a)).milestonesOff = true := fun hoff => evaluateBand_off hoff
    have hchosen := tariffChosen_evaluated (s.heard a) t
    have htrip := openTrip_sameTrip i (tariffArg t) st (evaluateBand (s.heard a))
    rw [← hireMade_party] at htrip
    obtain ⟨hstate, hstation, hnumber, htime, hshared⟩ := newParty_fields (tariffArg t) st (evaluateBand (s.heard a))
    refine ⟨_, hexec, htrip.state.trans hstate, htrip.station.trans hstation, htrip.trip.trans ?_, fun y hy hfall => ?_, htrip.pulses, htrip.ticks,
      htrip.cash, htrip.cardOnline, htrip.cardOffline, htrip.motionLost, htrip.hireTime.trans ?_, htrip.shared.trans ?_, fun j hj hjriding => ?_,
      fun hoff => ⟨?_, ?_, fun hband => ?_⟩, ?_, ?_, hreach⟩
    · rw [hnumber, evaluateBand_shift]
      rfl
    · have hfare : (newParty (evaluateBand (s.heard a)) (tariffArg t) st).fare = y.flagFall := by
        have hy' : (evaluateBand (s.heard a)).tariffAt chosen = some y := by
          rw [← hy]
          simp only [State.tariffAt, evaluateBand_tariff]
          rfl
        simp only [newParty, hchosen, State.heard, restartSilence_tariff]
        rw [hy']
      have hcap : y.flagFall ≤ Config.fareCap := by
        have : Config.fareCap = 9999999 := rfl
        omega
      obtain ⟨-, -, hflag, -⟩ := openTrip_undriven i (tariffArg t) st _ hfare hcap
      rw [hireMade_party]
      exact hflag
    · rw [htime, evaluateBand_tariff]
      rfl
    · rw [hshared, hriding]
    · have hj : ((evaluateBand (s.heard a)).party j).riding = true := by
        rw [hfollows.sameRiders j]
        simpa [Party.riding] using hjriding
      have hsome : 0 < (evaluateBand (s.heard a)).ridingCount := by
        rw [Nat.pos_iff_ne_zero, ne_eq, State.ridingCount_eq_zero_iff, State.everyIdle_iff]
        intro hidle
        simp [Party.riding, hidle j] at hj
      rw [hireMade_party, openTrip_party_other _ _ _ _ ‹_›, if_pos ⟨hsome, hj⟩]
    · rw [hireMade_party, openTrip_of_off _ _ _ _ (hfollowsOff hoff), hired_party, (State.stepped_tariff _ _).1]
      exact congrArg Prod.fst hchosen
    · rw [hireMade_party, openTrip_of_off _ _ _ _ (hfollowsOff hoff), hired_party, (State.stepped_tariff _ _).2]
      exact congrArg Prod.snd hchosen
    · exact hireMade_told (s := s.heard a) hband hoff
    · simp [hireMade, openTrip_shift]
    · simp [hireMade, openTrip_tariff]

end Sys2Proof.Machine
end

