-- ==== Sys2Proof/Proofs/Tick.lean ====
section
/-! PROOFS. Metering taken slot by slot (R35, R36), the decisecond tick and the statement `TickTaken`. -/
set_option Elab.async false
namespace Sys2Proof.Machine

/-! ### Metering with no milestone entry enabled (R35, R36) -/

/-- A party after a metering event of the store: a METERING one grown and stepped, any other as it was. -/
def State.metered (s : State) (grow : Party → Party) (p : Party) : Party :=
  if p.state = .metering then s.stepped (grow p) else p

theorem meterParty_of_off {s : State} (h : s.milestonesOff = true) (q : Quantity) (grow : Party → Party) (i : Fin 4) :
    meterParty q grow s i = s.setParty i (s.metered grow (s.party i)) := by
  have hset : ∀ p, (s.setParty i p).milestonesOff = true := fun p => h
  unfold meterParty State.metered
  by_cases hm : (s.party i).state = .metering
  · simp only [hm, if_true, runPass_of_off (hset _), ite_self]
  · simp only [hm, if_false, State.setParty_self]

theorem meterEach_fst (q : Quantity) (grow : State → Party → Party) (is : List (Fin 4)) (r : State × Bool × Bool) :
    (meterEach q grow is r).1 = is.foldl (fun s i => meterParty q (grow s) s i) r.1 := by
  induction is generalizing r with
  | nil => rfl
  | cons i is ih => exact ih _

/-- A metering event leaves every party that is not METERING. -/
theorem meterAll_party {s : State} {i : Fin 4} (h : (s.party i).state ≠ .metering) (q : Quantity) (grow : State → Party → Party) :
    (meterAll q grow s).party i = s.party i := by
  rw [State.party, meterAll, showViews_fare, meterEach_fst]
  refine foldl_slots_party (fun t j => ?_) (fun t k hk => meterParty_party_other q _ t k hk) fun t ht hp => ?_
  · exact meterParty_tariff q (grow t) t j
  · rw [meterParty_of_not_metering q _ t i (by rw [hp]; exact h), hp]

theorem showViews_port_c (c p : Bool) (s : State) :
    (showViews c p s).port .c = if c && s.isUp .c then (s.port .c).placed (plainFrame .fareView (4 :: consoleRecords s)) else s.port .c := by
  have hpassenger : ∀ t : State, (if p then showPassenger t else t).port .c = t.port .c := fun t => by
    cases p
    · rfl
    · exact showPassenger_port_other _ _ (by decide)
  rw [showViews, hpassenger]
  cases c
  · rfl
  · simp only [if_true, Bool.true_and]
    exact showConsole_port_c s

section off
variable {s : State} (h : s.milestonesOff = true) {grow : State → Party → Party} (hgrow : ∀ t, t.tariff = s.tariff → grow t = grow s)
include h hgrow

/-- With no entry enabled a metering event is the parties' growth alone. -/
theorem meterEach_of_off (q : Quantity) (c p : Bool) : (meterEach q grow slots (s, c, p)).1 = s.withParties (s.metered (grow s)) := by
  rw [meterEach_fst]
  refine foldl_slots_withParties fun t i ht hm => ?_
  rw [meterParty_of_off ((State.milestonesOff_congr hm).trans h), hgrow t ht]
  simp only [State.metered, State.stepped_congr ht]

/-- What the event shows toward C: whether a slot's display has changed. -/
theorem meterEach_shown (q : Quantity) (c p : Bool) :
    (meterEach q grow slots (s, c, p)).2.1 =
      (c || slots.any fun i => (s.party i).display != (s.metered (grow s) (s.party i)).display) := by
  have hone : ∀ (t : State) (i : Fin 4), t.tariff = s.tariff → t.party i = s.party i →
      (meteringChanges (grow t) t i).1 = ((s.party i).display != (s.metered (grow s) (s.party i)).display) := by
    intro t i ht hp
    simp only [meteringChanges, hp, hgrow t ht, State.stepped_congr ht, State.metered]
    by_cases hm : (s.party i).state = .metering
    · simp [hm, bne_comm]
    · simp [hm]
  have hall : ∀ (is : List (Fin 4)) (t : State) (c p : Bool), is.Nodup → t.tariff = s.tariff → t.milestone = s.milestone →
      (∀ i ∈ is, t.party i = s.party i) → (meterEach q grow is (t, c, p)).2.1 =
        (c || is.any fun i => (s.party i).display != (s.metered (grow s) (s.party i)).display) := by
    intro is
    induction is with
    | nil => simp [meterEach]
    | cons i is ih =>
      intro t c p hnodup ht hm hp
      obtain ⟨hi, hnodup⟩ := List.nodup_cons.mp hnodup
      have hstep := meterParty_of_off ((State.milestonesOff_congr hm).trans h) q (grow t) i
      rw [meterEach, ih _ _ _ hnodup (by rw [hstep]; exact ht) (by rw [hstep]; exact hm), hone t i ht (hp i (by simp)), List.any_cons, Bool.or_assoc]
      intro j hj
      rw [hstep, State.party_setParty_other _ _ _ _ (ne_of_mem_of_not_mem hj hi)]
      exact hp j (by simp [hj])
  exact hall slots s c p (by decide) rfl rfl fun _ _ => rfl

theorem meterAll_fare_of_off (q : Quantity) : (meterAll q grow s).fare = (s.withParties (s.metered (grow s))).fare := by
  rw [meterAll, showViews_fare, meterEach_of_off h hgrow]

theorem meterAll_milestone_of_off (q : Quantity) : (meterAll q grow s).milestone = s.milestone := by
  rw [meterAll, showViews_milestone, meterEach_of_off h hgrow]
  rfl

theorem meterAll_request_of_off (q : Quantity) : (meterAll q grow s).request = s.request := by
  rw [meterAll, showViews_request, meterEach_of_off h hgrow]
  rfl

theorem meterAll_party_of_off (q : Quantity) (i : Fin 4) : (meterAll q grow s).party i = s.metered (grow s) (s.party i) := by
  rw [State.party, meterAll_fare_of_off h hgrow]
  exact s.party_withParties _ i

/-- One FARE_VIEW shows C every slot the event changed. -/
theorem meterAll_port_c_of_off (q : Quantity) : (meterAll q grow s).port .c = (s.port .c).shownConsole s (meterAll q grow s) := by
  have hfare := meterAll_fare_of_off h hgrow q
  have hparty := meterAll_party_of_off h hgrow q
  have hrecords : consoleRecords (meterAll q grow s) = consoleRecords (s.withParties (s.metered (grow s))) := by
    simp only [consoleRecords, State.party, hfare]
  have hshown := meterEach_shown h hgrow q false false
  rw [PortState.shownConsole, hrecords]
  simp only [hparty]
  rw [meterAll, showViews_port_c, hshown, meterEach_of_off h hgrow, Bool.false_or, Bool.and_comm]
  rfl

end off

/-! ### The clock and the band at a tick (R13, R15) -/

/-- The clock counts deciseconds through the days, and is valid again at none of them once it has come round to day 0. -/
theorem Stamp.advance_counts {t : Stamp} (hday : t.day ≤ 65535) (hds : t.ds < 864000) :
    t.advance.ds < 864000 ∧ t.advance.day ≤ 65535
      ∧ t.advance.day * 864000 + t.advance.ds = (t.day * 864000 + t.ds + 1) % (65536 * 864000)
      ∧ t.advance.valid = (t.valid && decide (0 < t.advance.day * 864000 + t.advance.ds)) := by
  have hlength : Config.dayLength = 864000 := rfl
  unfold Stamp.advance
  split
  · refine ⟨by simp only; omega, hday, by simp only; omega, ?_⟩
    have hpos : 0 < t.day * 864000 + (t.ds + 1) := by omega
    simp [hpos]
  · split
    · refine ⟨by simp, by simp only; omega, by simp only; omega, ?_⟩
      have hpos : 0 < (t.day + 1) * 864000 + 0 := by omega
      simp
    · exact ⟨by simp, by simp, by simp only; omega, by simp⟩

/-- The band after the minute boundary a clock may stand at (R15). -/
def TariffStore.bandAtMinute (x : TariffStore) : Option Nat :=
  if x.clock.ds % 600 = 0 then bandAt x.inForce x.clock else x.band

theorem minuteBoundary_eq (s : State) :
    minuteBoundary s = if s.tariff.bandAtMinute = s.tariff.band then s else changeBand s.tariff.bandAtMinute s := by
  unfold minuteBoundary TariffStore.bandAtMinute Stamp.atMinute evaluateBand
  by_cases h : s.tariff.clock.ds % 600 = 0
  · simp [h]
  · simp [h]

theorem minuteBoundary_tariff (s : State) : (minuteBoundary s).tariff = { s.tariff with band := s.tariff.bandAtMinute } := by
  rw [minuteBoundary_eq]
  split
  · rename_i h
    rw [h]
  · rw [changeBand_tariff]

theorem minuteBoundary_of_held {s : State} (h : s.tariff.bandAtMinute = s.tariff.band) : minuteBoundary s = s := by
  rw [minuteBoundary_eq, if_pos h]

theorem minuteBoundary_of_moved {s : State} (h : s.tariff.bandAtMinute ≠ s.tariff.band) : minuteBoundary s = changeBand s.tariff.bandAtMinute s := by
  rw [minuteBoundary_eq, if_neg h]

/-- A party after the minute boundary, where the change of the band does not meter it. -/
def State.bandFollower (s : State) (p : Party) : Party :=
  if s.tariff.bandAtMinute ≠ s.tariff.band then s.following s.tariff.bandAtMinute p else p

theorem minuteBoundary_party {s : State} {i : Fin 4} (h : (s.party i).state ≠ .metering) : (minuteBoundary s).party i = s.bandFollower (s.party i) := by
  unfold State.bandFollower
  split
  · rw [minuteBoundary_of_moved ‹_›, changeBand_party (.inl h)]
  · rw [minuteBoundary_of_held (not_not.mp ‹_›)]

/-- The minute boundary with no entry enabled: the parties, what is told, and the chime. -/
theorem minuteBoundary_of_off {s : State} (h : s.milestonesOff = true) :
    (∀ i, (minuteBoundary s).party i = s.bandFollower (s.party i))
      ∧ (minuteBoundary s).intercom = (if s.tariff.bandAtMinute ≠ s.tariff.band then s.bandChimed else s.intercom)
      ∧ (minuteBoundary s).request =
          (if s.tariff.bandAtMinute ≠ s.tariff.band then { s.request with seqC := nextSeq s.request.seqC } else s.request)
      ∧ (minuteBoundary s).port .c =
          (if s.tariff.bandAtMinute ≠ s.tariff.band then s.bandNoticed s.tariff.bandAtMinute (s.port .c) else s.port .c).shownConsole s
            (minuteBoundary s) := by
  unfold State.bandFollower
  by_cases hmoved : s.tariff.bandAtMinute ≠ s.tariff.band
  · obtain ⟨-, hchanged⟩ := changeBand_tookBand s hmoved
    obtain ⟨hintercom, -, hoff⟩ := hchanged hmoved
    obtain ⟨hparty, hrequest, hc, -⟩ := hoff h
    simp only [hmoved, ne_eq, not_false_eq_true, if_true, minuteBoundary_of_moved hmoved]
    exact ⟨hparty, hintercom, hrequest, hc⟩
  · have hsame := minuteBoundary_of_held (not_not.mp hmoved)
    rw [hsame]
    exact ⟨fun _ => by rw [if_neg hmoved], by rw [if_neg hmoved], by rw [if_neg hmoved],
      by rw [if_neg hmoved, PortState.shownConsole_same _ rfl]⟩

theorem minuteBoundary_off {s : State} (h : s.milestonesOff = true) : (minuteBoundary s).milestonesOff = true := by
  unfold minuteBoundary
  split
  · exact evaluateBand_off h
  · exact h

/-! ### The tick (R13, R36, R104) -/

/-- A party after a tick at the fare engine. -/
def State.ticked (s : State) (p : Party) : Party :=
  s.metered (Party.grownByTick s) p

theorem State.timeThreshold_congr {s t : State} (h : t.tariff.inForce = s.tariff.inForce) (p : Party) : t.timeThreshold p = s.timeThreshold p := by
  simp only [timeThreshold, tariffAt, h]

theorem grownByTick_congr {s t : State} (h : t.tariff.inForce = s.tariff.inForce) : Party.grownByTick t = Party.grownByTick s := by
  funext p
  unfold Party.grownByTick
  rw [State.timeThreshold_congr h]

theorem fareTick_party {s : State} {i : Fin 4} (h : (s.party i).state ≠ .metering) : (fareTick s).party i = s.party i :=
  meterAll_party h .time Party.grownByTick

section off
variable {s : State} (h : s.milestonesOff = true)
include h

theorem fareTick_of_off : (fareTick s).request = s.request ∧ (∀ i, (fareTick s).party i = s.ticked (s.party i))
    ∧ (fareTick s).port .c = (s.port .c).shownConsole s (fareTick s) ∧ (fareTick s).milestonesOff = true := by
  have hgrow : ∀ t : State, t.tariff = s.tariff → Party.grownByTick t = Party.grownByTick s := fun t ht => grownByTick_congr (by rw [ht])
  exact ⟨meterAll_request_of_off h hgrow .time, meterAll_party_of_off h hgrow .time, meterAll_port_c_of_off h hgrow .time,
    (State.milestonesOff_congr (meterAll_milestone_of_off h hgrow .time)).trans h⟩

end off

theorem State.anyMetering_of_follows {s t : State} (h : s.Follows t) : t.anyMetering = s.anyMetering := by
  simp only [State.anyMetering, (h.party _).state]

/-- What the end of an event that may make a pending shut of S leaves. -/
theorem settleSign_intercom (s : State) : (settleSign s).intercom = s.intercom ∧ (settleSign s).sign = s.sign := by
  unfold settleSign shutPort goDown deliverDown
  dsimp only
  split_ifs <;> simp [notifyLink]

/-- The hub at the tick's start, its clock one decisecond on. -/
def State.clocked (s : State) : State :=
  s.setTariff { s.tariff with clock := s.tariff.clock.advance }

/-- The tick at the tariff store and the fare engine, in the order the event leaves open. -/
def tickMade (bandFirst : Bool) (s : State) : State :=
  if bandFirst then fareTick (minuteBoundary s.clocked) else minuteBoundary (fareTick s.clocked)

theorem tickMade_shift (bandFirst : Bool) (s : State) : (tickMade bandFirst s).shift = s.shift := by
  cases bandFirst <;> simp [tickMade, State.clocked, State.setTariff]

theorem takeTick_eq (bandFirst : Bool) (s : State) :
    takeTick bandFirst s = (tickMade bandFirst s).setTotals (s.shift.totals.tick s.shift.state s.anyMetering) := by
  have hfollows : s.Follows (tickMade bandFirst s) := by
    have hclocked : s.Follows s.clocked := .of_fare (h := rfl)
    cases bandFirst
    · exact (hclocked.trans (.fareTick _)).trans (.minuteBoundary _)
    · exact (hclocked.trans (.minuteBoundary _)).trans (.fareTick _)
  rw [← State.anyMetering_of_follows hfollows, ← tickMade_shift bandFirst s]
  rfl

theorem tickMade_tariff (bandFirst : Bool) (s : State) :
    (tickMade bandFirst s).tariff = { s.clocked.tariff with band := s.clocked.tariff.bandAtMinute } := by
  cases bandFirst
  · rw [tickMade, if_neg (by simp), minuteBoundary_tariff, fareTick_tariff]
  · rw [tickMade, if_pos rfl, fareTick_tariff, minuteBoundary_tariff]

/-- A party that is not METERING at a tick. -/
theorem tickMade_party {s : State} {i : Fin 4} (h : (s.party i).state ≠ .metering) (bandFirst : Bool) :
    (tickMade bandFirst s).party i = s.clocked.bandFollower (s.party i) := by
  cases bandFirst
  · have hfare : (fareTick s.clocked).party i = s.party i := fareTick_party (s := s.clocked) h
    have hsame : (fareTick s.clocked).bandFollower = s.clocked.bandFollower := by
      funext p
      simp only [State.bandFollower, fareTick_tariff, State.following_congr (s := s.clocked) (t := fareTick s.clocked) (by rw [fareTick_tariff])]
    rw [tickMade, if_neg (by simp), minuteBoundary_party (by rwa [hfare]), hfare, hsame]
  · have hband : (minuteBoundary s.clocked).party i = s.clocked.bandFollower (s.party i) := minuteBoundary_party (s := s.clocked) h
    have hstate : ((minuteBoundary s.clocked).party i).state = (s.party i).state := ((State.Follows.minuteBoundary s.clocked).party i).state
    rw [tickMade, if_pos rfl, fareTick_party (by rwa [hstate]), hband]

/-- A tick that does not change the band leaves the intercom. -/
theorem tickMade_intercom {s : State} (h : s.clocked.tariff.bandAtMinute = s.tariff.band) (bandFirst : Bool) :
    (tickMade bandFirst s).intercom = s.intercom := by
  have hheld : minuteBoundary s.clocked = s.clocked := minuteBoundary_of_held h
  have hheld' : minuteBoundary (fareTick s.clocked) = fareTick s.clocked := minuteBoundary_of_held (by rw [fareTick_tariff]; exact h)
  cases bandFirst
  · rw [tickMade, if_neg (by simp), hheld', fareTick_intercom]
    rfl
  · rw [tickMade, if_pos rfl, fareTick_intercom, hheld]
    rfl

/-- What C is shown at the end of an event is told by the parties before and after it. -/
theorem PortState.shownConsole_of_parties (x : PortState) {s s' t t' : State} (hs : ∀ i, s.party i = s'.party i) (ht : ∀ i, t.party i = t'.party i) :
    x.shownConsole s t = x.shownConsole s' t' := by
  have hsp : s.party = s'.party := funext hs
  have htp : t.party = t'.party := funext ht
  rw [shownConsole, shownConsole, consoleRecords, consoleRecords, hsp, htp]

theorem State.metered_congr {s t : State} (h : t.tariff.inForce = s.tariff.inForce) : t.ticked = s.ticked := by
  funext p
  simp only [State.ticked, State.metered, grownByTick_congr h, State.stepped, State.tariffAt, State.calibration, h]

theorem State.bandFollower_congr {s t : State} (h : t.tariff = s.tariff) : t.bandFollower = s.bandFollower := by
  funext p
  simp only [State.bandFollower, h, State.following_congr (s := s) (t := t) (by rw [h])]

/-- Port C where a tick changes the band, before the displays. -/
def State.bandTold (s : State) (x : PortState) : PortState :=
  if s.tariff.bandAtMinute ≠ s.tariff.band then s.bandNoticed s.tariff.bandAtMinute x else x

theorem State.bandChimed_congr {s t : State} (hup : t.isUp .p = s.isUp .p)
    (hparty : ∀ i, (t.party i).follows = (s.party i).follows ∧ (t.party i).station = (s.party i).station) (hintercom : t.intercom = s.intercom) :
    t.bandChimed = s.bandChimed := by
  simp only [State.bandChimed, hup, (hparty _).1, (hparty _).2, hintercom]

/-- A tick does not change who follows the band, nor where. -/
theorem State.ticked_follows (s : State) (p : Party) : (s.ticked p).follows = p.follows ∧ (s.ticked p).station = p.station := by
  unfold State.ticked State.metered
  split
  · have hsame := s.sameTrip_stepped (p.grownByTick s)
    have hlock := (s.stepped_tariff (p.grownByTick s)).2
    exact ⟨by rw [Party.follows, hsame.state, hlock]; rfl, hsame.station⟩
  · exact ⟨rfl, rfl⟩

/-- The tick with no milestone entry enabled. -/
theorem tickMade_of_off {s : State} (h : s.milestonesOff = true) (bandFirst : Bool) :
    (∀ i, (tickMade bandFirst s).party i =
        if bandFirst then s.ticked (s.clocked.bandFollower (s.party i)) else s.clocked.bandFollower (s.ticked (s.party i)))
      ∧ (tickMade bandFirst s).intercom = (if s.clocked.tariff.bandAtMinute ≠ s.tariff.band then s.bandChimed else s.intercom)
      ∧ (tickMade bandFirst s).request =
          (if s.clocked.tariff.bandAtMinute ≠ s.tariff.band then { s.request with seqC := nextSeq s.request.seqC } else s.request)
      ∧ (tickMade bandFirst s).port .c =
          let between := s.withParties (if bandFirst then s.clocked.bandFollower else s.ticked)
          if bandFirst then ((s.clocked.bandTold (s.port .c)).shownConsole s between).shownConsole between (tickMade bandFirst s)
          else (s.clocked.bandTold ((s.port .c).shownConsole s between)).shownConsole between (tickMade bandFirst s) := by
  have hoff : s.clocked.milestonesOff = true := h
  cases bandFirst
  · obtain ⟨hrequest, hparty, hc, hoff'⟩ := fareTick_of_off hoff
    obtain ⟨hparty', hintercom, hrequest', hc'⟩ := minuteBoundary_of_off hoff'
    have hticked : s.clocked.ticked = s.ticked := State.metered_congr rfl
    have hfollow : (fareTick s.clocked).bandFollower = s.clocked.bandFollower := State.bandFollower_congr (by simp)
    have hbetween : ∀ i, (fareTick s.clocked).party i = (s.withParties s.ticked).party i := fun i => by
      rw [hparty i, s.party_withParties, hticked]
      rfl
    have hfare : (fareTick s.clocked).tariff = s.clocked.tariff := fareTick_tariff _
    have hchimed : (fareTick s.clocked).bandChimed = s.bandChimed := by
      refine State.bandChimed_congr (isUp_of_face s _ (fareTick_face s.clocked) .p) (fun i => ?_) (fareTick_intercom s.clocked)
      rw [hbetween i, s.party_withParties]
      exact s.ticked_follows _
    rw [hfare, hchimed, fareTick_intercom] at hintercom
    rw [hfare, hrequest] at hrequest'
    simp only [Bool.false_eq_true, if_false]
    have htaken : tickMade false s = minuteBoundary (fareTick s.clocked) := rfl
    rw [htaken]
    refine ⟨fun i => ?_, hintercom, hrequest', ?_⟩
    · rw [hparty' i, hfollow, hbetween i, s.party_withParties]
    · have hshown : (fareTick s.clocked).port .c = (s.port .c).shownConsole s (s.withParties s.ticked) := by
        rw [hc]
        exact PortState.shownConsole_of_parties _ (fun _ => rfl) hbetween
      rw [hc', hfare, hshown]
      have hnoticed : (fareTick s.clocked).bandNoticed = s.clocked.bandNoticed := by
        funext b x
        simp only [State.bandNoticed, hrequest]
      rw [hnoticed]
      exact PortState.shownConsole_of_parties _ hbetween fun _ => rfl
  · obtain ⟨hparty, hintercom, hrequest, hc⟩ := minuteBoundary_of_off hoff
    obtain ⟨hrequest', hparty', hc', -⟩ := fareTick_of_off (minuteBoundary_off hoff)
    have hticked : (minuteBoundary s.clocked).ticked = s.ticked := State.metered_congr (by rw [minuteBoundary_tariff]; rfl)
    have hbetween : ∀ i, (minuteBoundary s.clocked).party i = (s.withParties s.clocked.bandFollower).party i := fun i => by
      rw [hparty i, s.party_withParties]
      rfl
    simp only [if_true]
    have htaken : tickMade true s = fareTick (minuteBoundary s.clocked) := rfl
    rw [htaken]
    refine ⟨fun i => ?_, ?_, hrequest'.trans hrequest, ?_⟩
    · rw [hparty' i, hticked, hbetween i, s.party_withParties]
    · rw [fareTick_intercom, hintercom]
      rfl
    · have hshown : (minuteBoundary s.clocked).port .c = (s.clocked.bandTold (s.port .c)).shownConsole s (s.withParties s.clocked.bandFollower) := by
        rw [hc]
        exact PortState.shownConsole_of_parties _ (fun _ => rfl) hbetween
      rw [hc', hshown]
      exact PortState.shownConsole_of_parties _ hbetween fun _ => rfl

theorem settleSign_party (s : State) (i : Fin 4) : (settleSign s).party i = s.party i := by
  rw [State.party, (settleSign_fare s).1]
  rfl

theorem settleSign_of_not_pending {s : State} (h : s.power.shutPending = false) : settleSign s = s := by
  simp [settleSign, h]

/-- The end of an event reaches the link, the power unit and the notice numbers alone, and nothing while no shut is pending. -/
theorem State.changesOnly_settleSign {s t : State} {bs : List Block} (hpower : t.power.shutPending = s.power.shutPending)
    (h : s.changesOnly t (.request :: bs)) :
    s.changesOnly (settleSign t) ((if s.power.shutPending then [.link, .power] else []) ++ .request :: bs) := by
  by_cases hpending : s.power.shutPending = true
  · obtain ⟨hpend, hlink, hrequest, htariff, hfare, hmilestone, hpayment, hshift, hsign, hcadence, hintercom, hpow⟩ := h
    have hf := settleSign_fare t
    have hi := settleSign_intercom t
    simp only [hpending, if_true]
    refine ⟨by rw [settleSign_pending, hpend], .inl (by simp), .inl (by simp), htariff.imp (by simp) (by rw [settleSign_tariff]; exact id),
      hfare.imp (by simp) (by rw [hf.1]; exact id), hmilestone.imp (by simp) (by rw [settleSign_milestone]; exact id),
      hpayment.imp (by simp) (by rw [hf.2]; exact id), hshift.imp (by simp) (by rw [settleSign_shift]; exact id),
      hsign.imp (by simp) (by rw [hi.2]; exact id), hcadence.imp (by simp) (by rw [settleSign_cadence]; exact id),
      hintercom.imp (by simp) (by rw [hi.1]; exact id), .inl (by simp)⟩
  · rw [settleSign_of_not_pending (by simpa using hpower.trans (by simpa using hpending))]
    simpa [hpending] using h

/-- Settles O40: the clock by `Stamp.advance_counts`, the parties and what is told by `tickMade_of_off`. -/
theorem tickTaken : Obligations.TickTaken := by
  unfold Obligations.TickTaken
  intro s bandFirst hon clock band moves meter follow between noticed
  refine ⟨settleSign (takeTick bandFirst s), event_of_on _ s hon, ?_, Stamp.advance_counts, ?_, fun i hi => ?_, fun hheld => ?_, fun hoff => ?_, ?_⟩
  · rw [settleSign_tariff, takeTick_eq]
    exact tickMade_tariff bandFirst s
  · rw [settleSign_shift, takeTick_eq]
    exact congrArg (fun x : ShiftUnit => { x with totals := s.shift.totals.tick s.shift.state s.anyMetering }) (tickMade_shift bandFirst s)
  · rw [settleSign_party, takeTick_eq]
    exact tickMade_party hi bandFirst
  · rw [(settleSign_intercom _).1, takeTick_eq]
    exact tickMade_intercom (not_not.mp hheld) bandFirst
  · obtain ⟨hparty, hintercom, hrequest, hc⟩ := tickMade_of_off hoff bandFirst
    refine ⟨fun i => ?_, ?_, fun hpending => ?_⟩
    · rw [settleSign_party, takeTick_eq]
      exact hparty i
    · rw [(settleSign_intercom _).1, takeTick_eq]
      exact hintercom
    · rw [settleSign_of_not_pending (by rw [takeTick_power, hpending]), takeTick_eq]
      exact ⟨hrequest, hc⟩
  · refine State.changesOnly_settleSign (by simp) (?_ : s.changesOnly (takeTick bandFirst s) _)
    simp [State.changesOnly]

end Sys2Proof.Machine
end

