-- ==== Sys2Proof/Proofs/Motion.lean ====
section
/-! PROOFS. A MOTION frame at the fare engine and at the units its flags are handed to (R33 to R35, R113, R184), and the statement `MotionTaken`. -/
set_option Elab.async false
namespace Sys2Proof.Machine

/-! ### What a pass and metering leave beside the parties -/

/-- The last odometer count and whether it is known. -/
def FareEngine.odometer (x : FareEngine) : Nat × Bool := (x.lastCount, x.countKnown)

/-- Port D and its notice number. -/
def State.towardD (s : State) : PortState × Nat := (s.port .d, s.request.seqD)

theorem notifyC_towardD (n : Notice) (fields : List Byte) (s : State) : (notifyC n fields s).towardD = s.towardD :=
  Prod.ext (notifyC_port_other n fields s .d (by decide)) rfl

theorem showViews_towardD (c p : Bool) (s : State) : (showViews c p s).towardD = s.towardD := by
  have hconsole : ∀ t : State, (if c then showConsole t else t).port .d = t.port .d := fun t => by
    cases c
    · rfl
    · exact showConsole_port_other _ _ (by decide)
  have hpassenger : ∀ t : State, (if p then showPassenger t else t).port .d = t.port .d := fun t => by
    cases p
    · rfl
    · exact showPassenger_port_other _ _ (by decide)
  exact Prod.ext ((hpassenger _).trans (hconsole s)) (by rw [State.towardD, showViews_request]; rfl)

theorem showChanges_towardD (b s : State) : (showChanges b s).towardD = s.towardD := showViews_towardD ..

theorem passStep_keeps (i : Fin 4) (q : Quantity) (s : State) (e : Fin 12) :
    (passStep i q s e).fare.odometer = s.fare.odometer ∧ (passStep i q s e).towardD = s.towardD := by
  unfold passStep
  split
  · rw [firingTold_fare, firingTold_eq]
    refine ⟨rfl, ?_⟩
    dsimp only
    rw [notifyC_towardD, showChanges_towardD]
    rfl
  · exact ⟨rfl, rfl⟩

theorem runPass_keeps (i : Fin 4) (q : Quantity) (s : State) :
    (runPass i q s).fare.odometer = s.fare.odometer ∧ (runPass i q s).towardD = s.towardD := by
  rw [runPass_eq]
  exact ⟨foldl_keeps (fun s : State => s.fare.odometer) _ (fun s e => (passStep_keeps i q s e).1) entries s,
    foldl_keeps State.towardD _ (fun s e => (passStep_keeps i q s e).2) entries s⟩

theorem meterParty_keeps (q : Quantity) (grow : Party → Party) (s : State) (i : Fin 4) :
    (meterParty q grow s i).fare.odometer = s.fare.odometer ∧ (meterParty q grow s i).towardD = s.towardD := by
  unfold meterParty
  dsimp only
  split
  · split
    · exact runPass_keeps i q _
    · obtain ⟨h1, h2⟩ := runPass_keeps i .fare (runPass i q (s.setParty i (s.stepped (grow (s.party i)))))
      obtain ⟨h3, h4⟩ := runPass_keeps i q (s.setParty i (s.stepped (grow (s.party i))))
      exact ⟨h1.trans h3, h2.trans h4⟩
  · exact ⟨rfl, rfl⟩

theorem meterAll_keeps (q : Quantity) (grow : State → Party → Party) (s : State) :
    (meterAll q grow s).fare.odometer = s.fare.odometer ∧ (meterAll q grow s).towardD = s.towardD := by
  rw [meterAll, showViews_fare, showViews_towardD, meterEach_fst]
  exact ⟨foldl_keeps (fun s : State => s.fare.odometer) _ (fun s i => (meterParty_keeps q _ s i).1) slots s,
    foldl_keeps State.towardD _ (fun s i => (meterParty_keeps q _ s i).2) slots s⟩

/-! ### The count of a MOTION frame (R33 to R35) -/

section count
variable (n : Nat) (s : State)

/-- Whether the fare engine drops a frame's count: with none to compare it to, or too far from it (R33, R34). -/
def State.dropsCount (s : State) (n : Nat) : Prop := s.fare.countKnown = false ∨ s.implausible (s.delta n) = true

/-- A party when a count is dropped (R33, R34). -/
def Party.motionDropped (p : Party) : Party :=
  if p.state = .metering then { p with motionLost := true } else p

theorem markMotionLost_eq (s : State) : markMotionLost s = s.withParties Party.motionDropped := rfl

theorem takeCount_odometer : (takeCount n s).fare.lastCount = n ∧ (takeCount n s).fare.countKnown = true := by
  have hof : ∀ x : FareEngine, x.odometer = (n, true) → x.lastCount = n ∧ x.countKnown = true := fun x h => by
    obtain ⟨h1, h2⟩ := Prod.ext_iff.mp h
    exact ⟨h1, h2⟩
  apply hof
  unfold takeCount
  split
  · rw [resync, showChanges_fare]
    rfl
  · split
    · rw [dropDelta, showChanges_fare, whileLive]
      split <;> rfl
    · unfold applyDelta
      dsimp only
      split
      · rfl
      · rw [handPulses, whileLive]
        split
        · exact (meterAll_keeps .distance (Party.grownBy _) (setLastCount n s)).1
        · exact (meterAll_keeps .distance (Party.grownBy _) (setLastCount n s)).1

theorem takeCount_unknown {s : State} (h : s.fare.countKnown = false) (n : Nat) : takeCount n s = resync n s := by
  simp [takeCount, h]

theorem takeCount_implausible {s : State} (hk : s.fare.countKnown = true) {n : Nat} (h : s.implausible (s.delta n) = true) :
    takeCount n s = dropDelta n s := by
  simp [takeCount, hk, h]

theorem takeCount_accepted {s : State} {n : Nat} (h : ¬ s.dropsCount n) : takeCount n s = applyDelta n (s.delta n) s := by
  obtain ⟨hk, hd⟩ := not_or.mp h
  simp [takeCount, hk, hd]

/-- A dropped count charges no party. -/
theorem takeCount_party_of_dropped {s : State} {n : Nat} (h : s.dropsCount n) (i : Fin 4) : (takeCount n s).party i = (s.party i).motionDropped := by
  have hmarked : ∀ t : State, t.fare.parties = s.fare.parties → (markMotionLost t).party i = (s.party i).motionDropped := fun t ht => by
    rw [markMotionLost_eq, State.party_withParties, State.party, ht]
    rfl
  by_cases hk : s.fare.countKnown = true
  · rw [takeCount_implausible hk (h.resolve_left (by simp [hk])), dropDelta, showChanges_party]
    refine hmarked _ ?_
    rw [whileLive]
    split <;> rfl
  · rw [takeCount_unknown (by simpa using hk), resync, showChanges_party]
    exact hmarked _ rfl

theorem takeCount_shift_of_unknown {s : State} (h : s.fare.countKnown = false) (n : Nat) : (takeCount n s).shift = s.shift := by
  rw [takeCount_unknown h, resync, showChanges_shift]
  rfl

theorem takeCount_shift_of_implausible {s : State} (hk : s.fare.countKnown = true) {n : Nat} (h : s.implausible (s.delta n) = true) :
    (takeCount n s).shift = if s.shift.live then { s.shift with totals := s.shift.totals.countImplausible } else s.shift := by
  rw [takeCount_implausible hk h, dropDelta, showChanges_shift]
  have hsame : (notifyMotion false (setLastCount n s)).shift = s.shift := rfl
  change (whileLive Totals.countImplausible (notifyMotion false (setLastCount n s))).shift = _
  rw [whileLive, hsame]
  split <;> rfl

/-- An accepted delta leaves every party that is not METERING. -/
theorem takeCount_party_of_accepted {s : State} {n : Nat} (h : ¬ s.dropsCount n) {i : Fin 4} (hi : (s.party i).state ≠ .metering) :
    (takeCount n s).party i = s.party i := by
  rw [takeCount_accepted h, applyDelta]
  split
  · rfl
  · have hmeter : (meterAll .distance (Party.grownBy (s.delta n)) (setLastCount n s)).party i = s.party i :=
      meterAll_party (s := setLastCount n s) hi .distance (Party.grownBy (s.delta n))
    rw [handPulses, whileLive]
    split <;> exact hmeter

theorem takeCount_shift_of_accepted {s : State} {n : Nat} (h : ¬ s.dropsCount n) :
    (takeCount n s).shift = if s.delta n ≠ 0 ∧ s.shift.live then
      { s.shift with totals := if s.anyMetering then s.shift.totals.addHired (s.delta n) else s.shift.totals.addEmpty (s.delta n) } else s.shift := by
  rw [takeCount_accepted h, applyDelta]
  dsimp only
  by_cases h0 : s.delta n = 0
  · simp only [h0, if_true, ne_eq, not_true_eq_false, false_and, if_false]
    rfl
  · have hshift : (meterAll .distance (Party.grownBy (s.delta n)) (setLastCount n s)).shift = s.shift := meterAll_shift ..
    simp only [h0, if_false, ne_eq, not_false_eq_true, true_and, handPulses, whileLive, hshift]
    split
    · simp only [State.setTotals, hshift]
      rfl
    · exact hshift

theorem grownBy_congr {s t : State} (h : t.tariff.inForce = s.tariff.inForce) (d : Nat) : Party.grownBy d t = Party.grownBy d s := by
  funext p
  have hthreshold : t.distanceThreshold p = s.distanceThreshold p := by simp only [State.distanceThreshold, State.tariffAt, State.calibration, h]
  unfold Party.grownBy
  rw [hthreshold]

/-- An accepted delta with no milestone entry enabled: each METERING party grown and stepped. -/
theorem takeCount_party_of_off {s : State} {n : Nat} (h : ¬ s.dropsCount n) (hoff : s.milestonesOff = true) {i : Fin 4}
    (hi : (s.party i).state = .metering) :
    (takeCount n s).party i = if s.delta n = 0 then s.party i else s.stepped ((s.party i).grownBy (s.delta n) s) := by
  rw [takeCount_accepted h, applyDelta]
  split
  · rfl
  · have hmeter : (meterAll .distance (Party.grownBy (s.delta n)) (setLastCount n s)).party i = s.stepped ((s.party i).grownBy (s.delta n) s) := by
      rw [meterAll_party_of_off (s := setLastCount n s) hoff fun t ht => grownBy_congr (by rw [ht]) _]
      exact if_pos hi
    rw [handPulses, whileLive]
    split <;> exact hmeter

theorem whileLive_told (f : Totals → Totals) (s : State) :
    (whileLive f s).link = s.link ∧ (whileLive f s).request = s.request ∧ (whileLive f s).fare = s.fare := by
  rw [whileLive]
  split <;> exact ⟨rfl, rfl, rfl⟩

/-- A dropped count's MOTION notice, and behind it toward C the display of the marks. -/
theorem droppedCount_told {s v : State} {resync : Bool} {n : Nat} (hlink : v.link = (notifyMotion resync (setLastCount n s)).link)
    (hrequest : v.request = (notifyMotion resync (setLastCount n s)).request) :
    let u := showChanges s (markMotionLost v)
    u.port .c = ((s.port .c).placed (noticeFrame s.request.seqC .motion [flag resync])).shownConsole s u
      ∧ u.towardD = ((s.port .d).placed (noticeFrame s.request.seqD .motion [flag resync]), nextSeq s.request.seqD) := by
  intro u
  have hport : ∀ q, (markMotionLost v).port q = (notifyMotion resync (setLastCount n s)).port q := fun q => State.port_of_link hlink q
  refine ⟨?_, ?_⟩
  · have hnotice : (markMotionLost v).port .c = (s.port .c).placed (noticeFrame s.request.seqC .motion [flag resync]) :=
      (hport .c).trans (notifyBoth_port_c ..)
    rw [← hnotice]
    exact (showChanges_port_c _ _).trans (PortState.shownConsole_congr _ _ _ _ _ rfl (showChanges_fare ..).symm)
  · have hnotice : (markMotionLost v).port .d = (s.port .d).placed (noticeFrame s.request.seqD .motion [flag resync]) :=
      (hport .d).trans (notifyBoth_port_d ..)
    rw [showChanges_towardD, State.towardD, hnotice]
    exact congrArg _ (congrArg RequestUnit.seqD hrequest)

theorem takeCount_told_of_dropped {s : State} {n : Nat} (h : s.dropsCount n) :
    (takeCount n s).port .c =
        ((s.port .c).placed (noticeFrame s.request.seqC .motion [flag (!s.fare.countKnown)])).shownConsole s (takeCount n s)
      ∧ (takeCount n s).towardD =
        ((s.port .d).placed (noticeFrame s.request.seqD .motion [flag (!s.fare.countKnown)]), nextSeq s.request.seqD) := by
  by_cases hk : s.fare.countKnown = true
  · rw [takeCount_implausible hk (h.resolve_left (by simp [hk])), hk]
    obtain ⟨hlink, hrequest, -⟩ := whileLive_told Totals.countImplausible (notifyMotion false (setLastCount n s))
    exact droppedCount_told hlink hrequest
  · rw [takeCount_unknown (by simpa using hk), show s.fare.countKnown = false by simpa using hk]
    exact droppedCount_told rfl rfl

theorem takeCount_towardD_of_accepted {s : State} {n : Nat} (h : ¬ s.dropsCount n) : (takeCount n s).towardD = s.towardD := by
  rw [takeCount_accepted h, applyDelta]
  split
  · rfl
  · obtain ⟨hlink, hrequest, -⟩ := whileLive_told (fun t => if s.anyMetering then t.addHired (s.delta n) else t.addEmpty (s.delta n))
      (meterAll .distance (Party.grownBy (s.delta n)) (setLastCount n s))
    exact (Prod.ext (State.port_of_link hlink .d) (congrArg RequestUnit.seqD hrequest)).trans
      (meterAll_keeps .distance (Party.grownBy (s.delta n)) (setLastCount n s)).2

theorem PortState.shownConsole_unchanged (x : PortState) {s t : State} (h : ∀ i, t.party i = s.party i) : x.shownConsole s t = x := by
  rw [PortState.shownConsole_of_parties x (fun _ => rfl) h]
  simp [shownConsole]

theorem takeCount_port_c_of_off {s : State} {n : Nat} (h : ¬ s.dropsCount n) (hoff : s.milestonesOff = true) :
    (takeCount n s).port .c = (s.port .c).shownConsole s (takeCount n s) := by
  rw [takeCount_accepted h, applyDelta]
  split
  · exact (PortState.shownConsole_unchanged _ fun _ => rfl).symm
  · obtain ⟨hlink, -, hfare⟩ := whileLive_told (fun t => if s.anyMetering then t.addHired (s.delta n) else t.addEmpty (s.delta n))
      (meterAll .distance (Party.grownBy (s.delta n)) (setLastCount n s))
    have hmeter := meterAll_port_c_of_off (s := setLastCount n s) hoff (grow := Party.grownBy (s.delta n)) (fun t ht => grownBy_congr (by rw [ht]) _) .distance
    refine (State.port_of_link hlink .c).trans (hmeter.trans (PortState.shownConsole_of_parties _ (fun _ => rfl) fun i => ?_))
    exact congrArg (fun x : FareEngine => x.parties[i]) hfare.symm

end count

/-! ### The flags of a MOTION frame (R33, R113, R184, R186) -/

theorem compose_alarm (s : State) : (compose s).sign.alarmSeen = s.sign.alarmSeen := by
  unfold compose
  dsimp only
  split_ifs <;> rfl

theorem PowerUnit.judge_ignition (x : PowerUnit) (b : Bool) : (x.judge b).ignition = x.ignition := by
  unfold judge
  split_ifs <;> rfl

theorem changeLatch_sign (on : Bool) (s : State) : (changeLatch on s).sign.latch = on ∧ (changeLatch on s).sign.alarmSeen = s.sign.alarmSeen := by
  have hsign : (changeLatch on s).sign = (deriveSign { s with sign := { s.sign with latch := on } }).sign := by
    simp only [changeLatch, notifyEmergency_sign, deliverEmergency_sign]
  rw [hsign]
  refine ⟨?_, ?_⟩
  · have := congrArg SignInputs.latch (deriveSign_inputs (s := { s with sign := { s.sign with latch := on } }))
    exact this
  · rw [deriveSign, compose_alarm]

theorem takeAlarm_sign (on : Bool) (s : State) :
    (takeAlarm on s).sign.alarmSeen = on ∧ (takeAlarm on s).sign.latch = (s.sign.latch || (on && !s.sign.alarmSeen)) := by
  unfold takeAlarm
  dsimp only
  split
  · rename_i h
    simp only [Bool.and_eq_true] at h
    obtain ⟨hlatch, hseen⟩ := changeLatch_sign true { s with sign := { s.sign with alarmSeen := on } }
    refine ⟨hseen, ?_⟩
    rw [hlatch]
    simp [h.1]
  · rename_i h
    refine ⟨rfl, ?_⟩
    cases hl : s.sign.latch <;> simp_all

theorem takeAlarm_power (on : Bool) (s : State) :
    (takeAlarm on s).power.state = s.power.state ∧ (takeAlarm on s).power.ignition = s.power.ignition
      ∧ (takeAlarm on s).power.shutPending = s.power.shutPending := by
  unfold takeAlarm
  dsimp only
  split
  · simp only [changeLatch, notifyEmergency_power, PowerUnit.takeLatch, PowerUnit.judge_state, PowerUnit.judge_ignition, PowerUnit.judge_shutPending,
      deliverEmergency_power, deriveSign_power, and_self]
  · exact ⟨rfl, rfl, rfl⟩

/-- Whether a MOTION frame's ignition flag wakes the hub (R186). -/
def State.wokenBy (s : State) (on : Bool) : Prop := s.power.state = .parked ∧ on = true

theorem PowerUnit.takeIgnition_fields (x : PowerUnit) (on : Bool) :
    (x.takeIgnition on).state = x.state ∧ (x.takeIgnition on).ignition = on ∧ (x.takeIgnition on).shutPending = x.shutPending := by
  unfold takeIgnition
  exact ⟨judge_state _ _, judge_ignition _ _, judge_shutPending _ _⟩

theorem takeIgnitionFlag_of_woken {s : State} {on : Bool} (h : s.wokenBy on) :
    takeIgnitionFlag on s = wakeHub { s with power := s.power.takeIgnition on } := by
  obtain ⟨hparked, rfl⟩ := h
  refine if_pos ⟨rfl, ?_⟩
  simp [State.parked, (PowerUnit.takeIgnition_fields _ _).1, hparked]

theorem takeIgnitionFlag_of_not_woken {s : State} {on : Bool} (h : ¬ s.wokenBy on) :
    takeIgnitionFlag on s = { s with power := s.power.takeIgnition on } := by
  refine if_neg fun hw => h ⟨?_, hw.1⟩
  simpa [State.parked, (PowerUnit.takeIgnition_fields _ _).1] using hw.2

theorem wakeHub_fields (s : State) :
    (wakeHub s).power = s.power.wake ∧ (wakeHub s).fare = { s.fare with countKnown := false } := by
  unfold wakeHub
  simp [forgetCount]

theorem takeIgnitionFlag_power (on : Bool) (s : State) [Decidable (s.wokenBy on)] :
    (takeIgnitionFlag on s).power.state = (if s.wokenBy on then .run else s.power.state) ∧ (takeIgnitionFlag on s).power.ignition = on
      ∧ (takeIgnitionFlag on s).power.shutPending = (if s.wokenBy on then false else s.power.shutPending) := by
  obtain ⟨hstate, hignition, hpending⟩ := PowerUnit.takeIgnition_fields s.power on
  by_cases h : s.wokenBy on
  · rw [takeIgnitionFlag_of_woken h, (wakeHub_fields _).1, if_pos h, if_pos h]
    exact ⟨rfl, hignition, rfl⟩
  · rw [takeIgnitionFlag_of_not_woken h, if_neg h, if_neg h]
    exact ⟨hstate, hignition, hpending⟩

theorem takeIgnitionFlag_fare (on : Bool) (s : State) [Decidable (s.wokenBy on)] :
    (takeIgnitionFlag on s).fare = if s.wokenBy on then { s.fare with countKnown := false } else s.fare := by
  split
  · rw [takeIgnitionFlag_of_woken ‹_›, (wakeHub_fields _).2]
  · rw [takeIgnitionFlag_of_not_woken ‹_›]

/-- What the flags leave of the state they are handed on in. -/
structure State.FlagsTaken (flags : Byte) (s u : State) : Prop where
  state : u.power.state = if s.power.state = .parked ∧ flags.getLsbD 0 = true then .run else s.power.state
  ignition : u.power.ignition = flags.getLsbD 0
  pending : u.power.shutPending = if s.power.state = .parked ∧ flags.getLsbD 0 = true then false else s.power.shutPending
  alarmSeen : u.sign.alarmSeen = flags.getLsbD 1
  latch : u.sign.latch = (s.sign.latch || (flags.getLsbD 1 && !s.sign.alarmSeen))
  fare : u.fare = if s.power.state = .parked ∧ flags.getLsbD 0 = true then { s.fare with countKnown := false } else s.fare
  shift : u.shift = s.shift
  tariff : u.tariff = s.tariff
  milestone : u.milestone = s.milestone

theorem takeFlags_taken (flags : Byte) (s : State) : s.FlagsTaken flags (takeFlags flags s) := by
  have hdec : Decidable (s.wokenBy (flags.getLsbD 0)) := inferInstanceAs (Decidable (_ ∧ _))
  obtain ⟨hstate, hignition, hpending⟩ := takeIgnitionFlag_power (flags.getLsbD 0) s
  obtain ⟨hstate', hignition', hpending'⟩ := takeAlarm_power (flags.getLsbD 1) (takeIgnitionFlag (flags.getLsbD 0) s)
  obtain ⟨hseen, hlatch⟩ := takeAlarm_sign (flags.getLsbD 1) (takeIgnitionFlag (flags.getLsbD 0) s)
  rw [takeIgnitionFlag_sign] at hlatch
  have hfare := takeIgnitionFlag_fare (flags.getLsbD 0) s
  constructor
  case state => exact (hstate'.trans hstate).trans (by congr)
  case ignition => exact hignition'.trans hignition
  case pending => exact (hpending'.trans hpending).trans (by congr)
  case alarmSeen => exact hseen
  case latch => exact hlatch
  case fare => exact ((takeAlarm_fare ..).trans hfare).trans (by congr)
  case shift => simp
  case tariff => simp
  case milestone => simp

/-- What the alarm flag tells: D alone of a latch it sets, while D is UP (R115). -/
theorem takeAlarm_told (on : Bool) (s : State) :
    (takeAlarm on s).port .c = s.port .c ∧ (takeAlarm on s).request.seqC = s.request.seqC
      ∧ (takeAlarm on s).towardD =
        if on && !s.sign.alarmSeen && !s.sign.latch && s.isUp .d then
          ((s.port .d).placed (noticeFrame s.request.seqD .emergency [0]), nextSeq s.request.seqD)
        else s.towardD := by
  unfold takeAlarm
  by_cases h : on && !s.sign.alarmSeen && !s.sign.latch
  · let v : State := deliverEmergency true (deriveSign { s with sign := { s.sign with alarmSeen := on, latch := true } })
    have hport : ∀ q, q ≠ .s → v.port q = s.port q := fun q hq => deriveSign_port_other _ q hq
    have hup : v.isUp .d = s.isUp .d := congrArg PortState.up (hport .d (by decide))
    have hrequest : v.request = s.request := by simp [v]
    have hchange : changeLatch true { s with sign := { s.sign with alarmSeen := on } } = notifyEmergency true { v with power := v.power.takeLatch true } := rfl
    simp only [h, if_true, Bool.true_and, hchange]
    have hv : ({ v with power := v.power.takeLatch true } : State).isUp .d = s.isUp .d := hup
    rw [notifyEmergency, hv]
    split
    · have hseqC : v.request.seqC = s.request.seqC := congrArg RequestUnit.seqC hrequest
      refine ⟨(notifyD_port_other _ _ _ _ (by decide)).trans (hport .c (by decide)), hseqC, ?_⟩
      refine Prod.ext ((notifyD_port_d ..).trans ?_) (congrArg (fun r : RequestUnit => nextSeq r.seqD) hrequest)
      exact congr (congrArg PortState.placed (hport .d (by decide))) (congrArg (fun r : RequestUnit => noticeFrame r.seqD .emergency [0]) hrequest)
    · exact ⟨hport .c (by decide), congrArg RequestUnit.seqC hrequest, Prod.ext (hport .d (by decide)) (congrArg RequestUnit.seqD hrequest)⟩
  · dsimp only
    rw [if_neg h, if_neg fun hup => h (Bool.and_eq_true_iff.mp hup).1]
    exact ⟨rfl, rfl, rfl⟩

/-! ### A MOTION frame (R33 to R35) -/

/-- Whether a MOTION frame's flags wake the hub (R186). -/
def State.wakes (s : State) (flags : Byte) : Prop := s.power.state = .parked ∧ flags.getLsbD 0 = true

/-- Whether the last count is unknown when a frame's count is taken (R33, R187). -/
def State.countUnknown (s : State) (flags : Byte) (first : Bool) : Prop := s.fare.countKnown = false ∨ (s.wakes flags ∧ first = true)

/-- What a MOTION frame with this count and these flags leaves of the fare engine, the shift, the sign and the power unit. -/
structure State.Moved (n : Nat) (flags : Byte) (first : Bool) (s u : State) : Prop where
  lastCount : u.fare.lastCount = n
  known : u.fare.countKnown = true ↔ ¬ (s.wakes flags ∧ first = false)
  state : u.power.state = if s.power.state = .parked ∧ flags.getLsbD 0 = true then .run else s.power.state
  ignition : u.power.ignition = flags.getLsbD 0
  pending : u.power.shutPending = if s.power.state = .parked ∧ flags.getLsbD 0 = true then false else s.power.shutPending
  alarmSeen : u.sign.alarmSeen = flags.getLsbD 1
  latch : u.sign.latch = (s.sign.latch || (flags.getLsbD 1 && !s.sign.alarmSeen))
  dropped : s.countUnknown flags first ∨ s.implausible (s.delta n) = true → ∀ i, u.party i = (s.party i).motionDropped
  unknown : s.countUnknown flags first → u.shift = s.shift
  implausible : ¬ s.countUnknown flags first → s.implausible (s.delta n) = true →
    u.shift = if s.shift.live then { s.shift with totals := s.shift.totals.countImplausible } else s.shift
  standing : ¬ (s.countUnknown flags first ∨ s.implausible (s.delta n) = true) → ∀ i, (s.party i).state ≠ .metering → u.party i = s.party i
  pulses : ¬ (s.countUnknown flags first ∨ s.implausible (s.delta n) = true) →
    u.shift = if s.delta n ≠ 0 ∧ s.shift.live then
      { s.shift with totals := if s.anyMetering then s.shift.totals.addHired (s.delta n) else s.shift.totals.addEmpty (s.delta n) } else s.shift
  metered : ¬ (s.countUnknown flags first ∨ s.implausible (s.delta n) = true) → s.milestonesOff = true → ∀ i, (s.party i).state = .metering →
    u.party i = if s.delta n = 0 then s.party i else s.stepped ((s.party i).grownBy (s.delta n) s)

/-- The flags taken before the count. -/
theorem takeCount_moved {n : Nat} {flags : Byte} {s v : State} (hv : s.FlagsTaken flags v) : s.Moved n flags true (takeCount n v) := by
  have hparties : ∀ i, v.party i = s.party i := fun i => by
    rw [State.party, hv.fare]
    split <;> rfl
  have hlast : v.fare.lastCount = s.fare.lastCount := by
    rw [hv.fare]
    split <;> rfl
  have hunknown : s.countUnknown flags true ↔ v.fare.countKnown = false := by
    rw [hv.fare]
    by_cases hw : s.wakes flags
    · rw [if_pos (show s.power.state = .parked ∧ flags.getLsbD 0 = true from hw)]
      simp [State.countUnknown, hw]
    · rw [if_neg (show ¬ (s.power.state = .parked ∧ flags.getLsbD 0 = true) from hw)]
      simp [State.countUnknown, hw]
  have hdelta : v.delta n = s.delta n := by rw [State.delta, hlast]; rfl
  have himplausible : v.implausible (s.delta n) = s.implausible (s.delta n) := by rw [State.implausible, hv.tariff]; rfl
  have hdrops : s.countUnknown flags true ∨ s.implausible (s.delta n) = true ↔ v.dropsCount n := by
    rw [hunknown, State.dropsCount, hdelta, himplausible]
  have hany : v.anyMetering = s.anyMetering := by simp only [State.anyMetering, hparties]
  have hoff : s.milestonesOff = true → v.milestonesOff = true := fun h => by rw [← h, State.milestonesOff, hv.milestone]; rfl
  have hpower : (takeCount n v).power = v.power := takeCount_power n v
  have hsign : (takeCount n v).sign = v.sign := takeCount_sign n v
  obtain ⟨hn, hknown⟩ := takeCount_odometer n v
  constructor
  case lastCount => exact hn
  case known => simp [hknown]
  case state => rw [hpower, hv.state]
  case ignition => rw [hpower, hv.ignition]
  case pending => rw [hpower, hv.pending]
  case alarmSeen => rw [hsign, hv.alarmSeen]
  case latch => rw [hsign, hv.latch]
  case dropped => exact fun h i => (takeCount_party_of_dropped (hdrops.mp h) i).trans (by rw [hparties])
  case unknown => exact fun h => (takeCount_shift_of_unknown (hunknown.mp h) n).trans hv.shift
  case implausible =>
    intro h hi
    rw [takeCount_shift_of_implausible (by simpa using fun hk => h (hunknown.mpr hk)) (by rw [hdelta, himplausible, hi]), hv.shift]
  case standing =>
    exact fun h i hi => (takeCount_party_of_accepted (fun hd => h (hdrops.mpr hd)) (by rw [hparties]; exact hi)).trans (hparties i)
  case pulses => exact fun h => by rw [takeCount_shift_of_accepted fun hd => h (hdrops.mpr hd), hv.shift, hdelta, hany]
  case metered =>
    intro h ho i hi
    rw [takeCount_party_of_off (fun hd => h (hdrops.mpr hd)) (hoff ho) (by rw [hparties]; exact hi), hdelta, hparties]
    rw [grownBy_congr (s := s) (t := v) (by rw [hv.tariff]), State.stepped_congr (s := s) (t := v) hv.tariff]

/-- The flags taken behind the count. -/
theorem moved_of_flagsTaken {n : Nat} {flags : Byte} {s u : State} (hu : (takeCount n s).FlagsTaken flags u) : s.Moved n flags false u := by
  have hunknown : s.countUnknown flags false ↔ s.fare.countKnown = false := by simp [State.countUnknown]
  have hdrops : s.countUnknown flags false ∨ s.implausible (s.delta n) = true ↔ s.dropsCount n := by rw [hunknown]; rfl
  have hpower : (takeCount n s).power = s.power := takeCount_power n s
  have hsign : (takeCount n s).sign = s.sign := takeCount_sign n s
  have hparty : ∀ i, u.party i = (takeCount n s).party i := fun i => by
    rw [State.party, hu.fare]
    split <;> rfl
  obtain ⟨hlast, hknown⟩ := takeCount_odometer n s
  constructor
  case lastCount =>
    rw [hu.fare]
    split <;> exact hlast
  case known =>
    rw [hu.fare, hpower]
    by_cases hw : s.wakes flags
    · rw [if_pos (show s.power.state = .parked ∧ flags.getLsbD 0 = true from hw)]
      simp [hw]
    · rw [if_neg (show ¬ (s.power.state = .parked ∧ flags.getLsbD 0 = true) from hw)]
      simp [hw, hknown]
  case state => rw [hu.state, hpower]
  case ignition => exact hu.ignition
  case pending => rw [hu.pending, hpower]
  case alarmSeen => exact hu.alarmSeen
  case latch => rw [hu.latch, hsign]
  case dropped => exact fun h i => (hparty i).trans (takeCount_party_of_dropped (hdrops.mp h) i)
  case unknown => exact fun h => hu.shift.trans (takeCount_shift_of_unknown (hunknown.mp h) n)
  case implausible => exact fun h hi => hu.shift.trans (takeCount_shift_of_implausible (by simpa using fun hk => h (hunknown.mpr hk)) hi)
  case standing => exact fun h i hi => (hparty i).trans (takeCount_party_of_accepted (fun hd => h (hdrops.mpr hd)) hi)
  case pulses => exact fun h => hu.shift.trans (takeCount_shift_of_accepted fun hd => h (hdrops.mpr hd))
  case metered => exact fun h hoff i hi => (hparty i).trans (takeCount_party_of_off (fun hd => h (hdrops.mpr hd)) hoff hi)

theorem takeMotion_moved (o : Order) (hi lo flags : Byte) (s : State) : s.Moved (num [hi, lo]) flags o.flagsFirst (takeMotion o [hi, lo, flags] s) := by
  rw [takeMotion]
  cases ho : o.flagsFirst
  · exact moved_of_flagsTaken (takeFlags_taken flags _)
  · exact takeCount_moved (takeFlags_taken flags s)

/-- What a frame moves does not turn on the ports and the notice numbers. -/
theorem State.Moved.of_request {n : Nat} {flags : Byte} {first : Bool} {s u s' u' : State} (hs : s.changesOnly s' [.request]) (hu : u.changesOnly u' [.request])
    (h : s'.Moved n flags first u) : s.Moved n flags first u' := by
  have hof : ∀ {x y : State}, x.changesOnly y [.request] → y = { x with link := y.link, request := y.request } := fun {x y} hxy => by
    obtain ⟨h0, -, -, h3, h4, h5, h6, h7, h8, h9, h10, h11⟩ := hxy
    simp only [List.mem_cons, List.not_mem_nil, reduceCtorEq, or_self, false_or] at h3 h4 h5 h6 h7 h8 h9 h10 h11
    rw [← h0, ← h3, ← h4, ← h5, ← h6, ← h7, ← h8, ← h9, ← h10, ← h11]
  rw [hof hs] at h
  rw [hof hu]
  exact ⟨h.lastCount, h.known, h.state, h.ignition, h.pending, h.alarmSeen, h.latch, h.dropped, h.unknown, h.implausible, h.standing, h.pulses, h.metered⟩

theorem State.changesOnly_refl (s : State) (bs : List Block) : s.changesOnly s bs := by simp [changesOnly]

theorem copyTelemetry_changesOnly (q : Port) (f : Frame) (parked : Bool) (s : State) : s.changesOnly (copyTelemetry q f parked s) [.request] :=
  placeCopies_changesOnly ..

/-- A MOTION frame and its copies, in either order. -/
theorem copiedMotion_moved (f : Frame) (o : Order) (parked : Bool) (hi lo flags : Byte) (s : State) :
    s.Moved (num [hi, lo]) flags o.flagsFirst (handAndCopy .v f o parked (takeMotion o [hi, lo, flags]) s) := by
  unfold handAndCopy
  split
  · exact .of_request (copyTelemetry_changesOnly ..) (State.changesOnly_refl _ _) (takeMotion_moved o hi lo flags _)
  · exact .of_request (State.changesOnly_refl _ _) (copyTelemetry_changesOnly ..) (takeMotion_moved o hi lo flags s)

/-- Port D and its notice number behind the notice of an alarm flag (R115). -/
def State.alarmed (s : State) (on : Bool) (y : PortState × Nat) : PortState × Nat :=
  if on && !s.sign.alarmSeen && !s.sign.latch && s.isUp .d then (y.1.placed (noticeFrame y.2 .emergency [0]), nextSeq y.2) else y

/-- Port D and its notice number behind the notice of a dropped count (R33, R34). -/
def State.droppedTold (s : State) (y : PortState × Nat) : PortState × Nat :=
  (y.1.placed (noticeFrame y.2 .motion [flag (!s.fare.countKnown)]), nextSeq y.2)

theorem takeFlags_told {s : State} (hw : ¬ s.wakes flags) :
    (takeFlags flags s).port .c = s.port .c ∧ (takeFlags flags s).request.seqC = s.request.seqC
      ∧ (takeFlags flags s).towardD = s.alarmed (flags.getLsbD 1) s.towardD ∧ (takeFlags flags s).fare = s.fare := by
  rw [takeFlags, takeIgnitionFlag_of_not_woken hw]
  obtain ⟨hc, hseqC, hd⟩ := takeAlarm_told (flags.getLsbD 1) { s with power := s.power.takeIgnition (flags.getLsbD 0) }
  exact ⟨hc, hseqC, hd, takeAlarm_fare ..⟩

theorem takeFlags_dropsCount {flags : Byte} {s : State} (hw : ¬ s.wakes flags) (n : Nat) : (takeFlags flags s).dropsCount n ↔ s.dropsCount n := by
  have hv := takeFlags_taken flags s
  have hfare : (takeFlags flags s).fare = s.fare := (takeFlags_told hw).2.2.2
  simp only [State.dropsCount, State.implausible, State.delta, hfare, hv.tariff]
  rfl

/-- What a MOTION frame that wakes nothing tells: the count and the flags in their order. -/
theorem takeMotion_told {flags : Byte} {s : State} (hw : ¬ s.wakes flags) (o : Order) (hi lo : Byte) :
    (s.dropsCount (num [hi, lo]) → (takeMotion o [hi, lo, flags] s).port .c
        = ((s.port .c).placed (noticeFrame s.request.seqC .motion [flag (!s.fare.countKnown)])).shownConsole s (takeMotion o [hi, lo, flags] s)
      ∧ (takeMotion o [hi, lo, flags] s).towardD = if o.flagsFirst then s.droppedTold (s.alarmed (flags.getLsbD 1) s.towardD)
          else s.alarmed (flags.getLsbD 1) (s.droppedTold s.towardD))
      ∧ (¬ s.dropsCount (num [hi, lo]) →
        (s.milestonesOff = true → (takeMotion o [hi, lo, flags] s).port .c = (s.port .c).shownConsole s (takeMotion o [hi, lo, flags] s))
        ∧ (takeMotion o [hi, lo, flags] s).towardD = s.alarmed (flags.getLsbD 1) s.towardD) := by
  rw [takeMotion]
  generalize num [hi, lo] = n
  cases o.flagsFirst
  · -- the count first
    simp only [Bool.false_eq_true, if_false]
    have hw' : ¬ (takeCount n s).wakes flags := by rw [State.wakes, takeCount_power]; exact hw
    obtain ⟨hc, -, hd, hfare⟩ := takeFlags_told hw'
    have hshown : ∀ x : PortState, x.shownConsole s (takeCount n s) = x.shownConsole s (takeFlags flags (takeCount n s)) := fun x =>
      PortState.shownConsole_congr _ _ _ _ _ rfl hfare.symm
    have halarmed : ((takeCount n s).port .d).up = (s.port .d).up → ∀ y, (takeCount n s).alarmed (flags.getLsbD 1) y = s.alarmed (flags.getLsbD 1) y := fun hup y => by
      simp only [State.alarmed, takeCount_sign, State.isUp, hup]
      rfl
    refine ⟨fun h => ?_, fun h => ⟨fun hoff => ?_, ?_⟩⟩
    · obtain ⟨hcount, htoward⟩ := takeCount_told_of_dropped h
      refine ⟨hc.trans (hcount.trans (hshown _)), ?_⟩
      rw [hd, halarmed ((congrArg (fun y : PortState × Nat => y.1.up) htoward).trans (congrArg PortFace.up (PortState.face_placeGeneral _ _))), htoward]
      rfl
    · exact hc.trans ((takeCount_port_c_of_off h hoff).trans (hshown _))
    · have htoward := takeCount_towardD_of_accepted h
      rw [hd, halarmed (congrArg (fun y : PortState × Nat => y.1.up) htoward), htoward]
  · -- the flags first
    simp only [if_true]
    obtain ⟨hc, hseqC, hd, hfare⟩ := takeFlags_told hw
    have hshown : ∀ (x : PortState) (u : State), x.shownConsole (takeFlags flags s) u = x.shownConsole s u := fun x u =>
      PortState.shownConsole_congr _ _ _ _ _ hfare rfl
    refine ⟨fun h => ?_, fun h => ⟨fun hoff => ?_, ?_⟩⟩
    · obtain ⟨hcount, htoward⟩ := takeCount_told_of_dropped ((takeFlags_dropsCount hw n).mpr h)
      refine ⟨?_, ?_⟩
      · rw [hcount, hshown, hc, hseqC, hfare]
      · rw [htoward, ← hd, hfare]
        rfl
    · rw [takeCount_port_c_of_off (mt (takeFlags_dropsCount hw n).mp h) ((State.milestonesOff_congr (takeFlags_taken flags s).milestone).trans hoff), hshown, hc]
    · exact (takeCount_towardD_of_accepted (mt (takeFlags_dropsCount hw n).mp h)).trans hd

/-- A MOTION frame that wakes nothing leaves the face of the link and the payment unit. -/
theorem takeMotion_beside {flags : Byte} {s : State} (hw : ¬ s.wakes flags) (o : Order) (hi lo : Byte) :
    (takeMotion o [hi, lo, flags] s).link.face = s.link.face ∧ (takeMotion o [hi, lo, flags] s).payment = s.payment := by
  have hflags : ∀ t : State, ¬ t.wakes flags → (takeFlags flags t).link.face = t.link.face ∧ (takeFlags flags t).payment = t.payment := fun t ht => by
    rw [takeFlags, takeIgnitionFlag_of_not_woken ht]
    exact ⟨takeAlarm_face .., takeAlarm_payment ..⟩
  rw [takeMotion]
  split
  · obtain ⟨hface, hpayment⟩ := hflags s hw
    exact ⟨(takeCount_face ..).trans hface, (takeCount_payment ..).trans hpayment⟩
  · obtain ⟨hface, hpayment⟩ := hflags (takeCount (num [hi, lo]) s) (by rw [State.wakes, takeCount_power]; exact hw)
    exact ⟨hface.trans (takeCount_face ..), hpayment.trans (takeCount_payment ..)⟩

/-- The blocks a MOTION frame and its copies reach (R33 to R35, R113, R186). -/
theorem copiedMotion_changesOnly (f : Frame) (o : Order) (parked : Bool) (hi lo flags : Byte) (s : State) {bs : List Block}
    (hbs : [Block.request, .fare, .milestone, .shift, .sign, .intercom, .power] ⊆ bs) (hw : s.wakes flags → [Block.link, .payment] ⊆ bs) :
    s.changesOnly (handAndCopy .v f o parked (takeMotion o [hi, lo, flags]) s) bs := by
  have hbeside : ¬ s.wakes flags → (handAndCopy .v f o parked (takeMotion o [hi, lo, flags]) s).link.face = s.link.face
      ∧ (handAndCopy .v f o parked (takeMotion o [hi, lo, flags]) s).payment = s.payment := fun h => by
    unfold handAndCopy
    split
    · obtain ⟨hface, hpayment⟩ := takeMotion_beside (s := copyTelemetry .v f parked s) (by rw [State.wakes, copyTelemetry_power]; exact h) o hi lo
      exact ⟨hface.trans (copyTelemetry_face ..), hpayment.trans (copyTelemetry_payment ..)⟩
    · obtain ⟨hface, hpayment⟩ := takeMotion_beside h o hi lo
      exact ⟨(copyTelemetry_face ..).trans hface, (copyTelemetry_payment ..).trans hpayment⟩
  have hfixed : (handAndCopy .v f o parked (takeMotion o [hi, lo, flags]) s).tariff = s.tariff
      ∧ (handAndCopy .v f o parked (takeMotion o [hi, lo, flags]) s).cadence = s.cadence
      ∧ (handAndCopy .v f o parked (takeMotion o [hi, lo, flags]) s).pending = s.pending := by
    unfold handAndCopy
    split <;> simp
  obtain ⟨htariff, hcadence, hpending⟩ := hfixed
  refine ⟨hpending, ?_, .inl (hbs (by simp)), .inr htariff, .inl (hbs (by simp)), .inl (hbs (by simp)), ?_, .inl (hbs (by simp)),
    .inl (hbs (by simp)), .inr hcadence, .inl (hbs (by simp)), .inl (hbs (by simp))⟩
  · by_cases h : s.wakes flags
    · exact .inl (hw h (by simp))
    · exact .inr (hbeside h).1
  · by_cases h : s.wakes flags
    · exact .inl (hw h (by simp))
    · exact .inr (hbeside h).2

/-! ### The command -/

/-- A port that takes frames in RUN or in PARKED: an UP port that is not shut, D in PARKED apart. -/
theorem arrive_of_up (a : Arrival) (kind : Kind) (payload : List Byte) {s : State} (hup : s.isUp a.port = true) (hshut : (s.port a.port).shut = false)
    (hd : a.port ≠ .d) (hi : ingressFailure a.port (frameOf kind a.route a.tag payload) = none) :
    arrive a kind payload s = handOn a.port (frameOf kind a.route a.tag payload) a.order s.parked (s.heard a) := by
  rw [arrive, receive]
  simp only [hshut, Bool.false_eq_true, if_false, hup, if_true]
  rw [takeGood, if_neg (fun h => hd h.2), hi]
  rfl

theorem copyTelemetry_nowhere {q : Port} (f : Frame) (parked : Bool) {s : State} (h : (s.link.telemetryRoutes.get q).targets = 0) :
    copyTelemetry q f parked s = s := by
  have hnone : ∀ r, ((s.link.telemetryRoutes.get q).targets.without q).has r = false := fun r => by
    rw [PortSet.has_without, h]
    cases r <;> rfl
  simp only [copyTelemetry, placeCopies, hnone, Bool.false_eq_true, if_false, List.foldl_fixed]

theorem State.changesOnly.mono {s t : State} {bs bs' : List Block} (h : s.changesOnly t bs) (hbs : bs ⊆ bs') : s.changesOnly t bs' := by
  obtain ⟨hpending, hlink, hrequest, htariff, hfare, hmilestone, hpayment, hshift, hsign, hcadence, hintercom, hpower⟩ := h
  exact ⟨hpending, hlink.imp_left (@hbs _), hrequest.imp_left (@hbs _), htariff.imp_left (@hbs _), hfare.imp_left (@hbs _), hmilestone.imp_left (@hbs _),
    hpayment.imp_left (@hbs _), hshift.imp_left (@hbs _), hsign.imp_left (@hbs _), hcadence.imp_left (@hbs _), hintercom.imp_left (@hbs _),
    hpower.imp_left (@hbs _)⟩

theorem settleSign_power (s : State) : (settleSign s).power.state = s.power.state ∧ (settleSign s).power.ignition = s.power.ignition := by
  unfold settleSign shutPort goDown deliverDown
  dsimp only
  split_ifs <;> simp [notifyLink]

/-- Settles O39: the fare engine, the shift and the units by `copiedMotion_moved`, what is told by `takeMotion_told`. -/
theorem motionTaken : Obligations.MotionTaken := by
  unfold Obligations.MotionTaken
  intro a s hi lo flags ha hon hup hshut count delta wakes unknown dropped
  have hframe : arrive a .motion [hi, lo, flags] s
      = handAndCopy .v (frameOf .motion a.route a.tag [hi, lo, flags]) a.order s.parked (takeMotion a.order [hi, lo, flags]) (s.heard a) := by
    rw [arrive_of_up a .motion _ (by rw [ha]; exact hup) (by rw [ha]; exact hshut) (by rw [ha]; decide) (by rw [ha]; rfl), ha]
    rfl
  let t := handAndCopy .v (frameOf .motion a.route a.tag [hi, lo, flags]) a.order s.parked (takeMotion a.order [hi, lo, flags]) (s.heard a)
  have hexec : exec (.motion a [hi, lo, flags]) s = .next (settleSign t) := (event_of_on _ _ hon).trans (by rw [hframe])
  have hmoved : (s.heard a).Moved count flags a.order.flagsFirst t := copiedMotion_moved ..
  have hfare : (settleSign t).fare = t.fare := (settleSign_fare t).1
  have hparty : ∀ i, (settleSign t).party i = t.party i := settleSign_party t
  have hshift : (settleSign t).shift = t.shift := settleSign_shift t
  obtain ⟨hstate, hignition⟩ := settleSign_power t
  have hsign : (settleSign t).sign = t.sign := (settleSign_intercom t).2
  refine ⟨settleSign t, hexec, by rw [hfare]; exact hmoved.lastCount, by rw [hfare]; exact hmoved.known, hstate.trans hmoved.state,
    hignition.trans hmoved.ignition, by rw [hsign]; exact hmoved.alarmSeen, by rw [hsign]; exact hmoved.latch,
    fun h i => (hparty i).trans (hmoved.dropped h i), fun h => hshift.trans (hmoved.unknown h), fun h hi => hshift.trans (hmoved.implausible h hi),
    fun h => ⟨fun i hm => (hparty i).trans (hmoved.standing h i hm), hshift.trans (hmoved.pulses h), fun hoff i hm => (hparty i).trans (hmoved.metered h hoff i hm)⟩,
    fun hrun hnowhere => ?_, ?_⟩
  · have hw : ¬ (s.heard a).wakes flags := fun h => by
      have : s.power.state = .parked := h.1
      simp [hrun] at this
    have hdrops : dropped ↔ (s.heard a).dropsCount count := by
      have : ¬ wakes := hw
      simp only [dropped, unknown, this, false_and, or_false]
      rfl
    have ht : t = takeMotion a.order [hi, lo, flags] (s.heard a) := by
      have hcopy : ∀ u : State, u.link.face = (s.heard a).link.face → copyTelemetry .v (frameOf .motion a.route a.tag [hi, lo, flags]) s.parked u = u := fun u hu =>
        copyTelemetry_nowhere _ _ ((congrArg (fun x : LinkFace => x.telemetryRoutes.v.targets) hu).trans hnowhere)
      simp only [t, handAndCopy, hcopy _ rfl, hcopy _ (takeMotion_beside hw a.order hi lo).1, ite_self]
    have hsettled : settleSign t = t := settleSign_of_run _ (hmoved.state.trans ((if_neg hw).trans hrun))
    rw [hsettled, ht]
    obtain ⟨hdropped, haccepted⟩ := takeMotion_told hw a.order hi lo
    have hc : (s.heard a).port .c = s.port .c := State.port_setPort_other _ _ _ _ (by rw [ha]; decide)
    have hd : (s.heard a).port .d = s.port .d := State.port_setPort_other _ _ _ _ (by rw [ha]; decide)
    have hshown : ∀ x : PortState, x.shownConsole (s.heard a) (takeMotion a.order [hi, lo, flags] (s.heard a))
        = x.shownConsole s (takeMotion a.order [hi, lo, flags] (s.heard a)) := fun x => PortState.shownConsole_congr _ _ _ _ _ rfl rfl
    refine ⟨fun h => ?_, fun h hoff => ?_, ?_⟩
    · rw [← hshown, (hdropped (hdrops.mp h)).1, hc]
      rfl
    · rw [← hshown, (haccepted (mt hdrops.mpr h)).1 hoff, hc]
    · intro rises alarm motion began
      have hbegan : (s.heard a).towardD = began := Prod.ext hd rfl
      have halarm : (s.heard a).alarmed (flags.getLsbD 1) = alarm := funext fun y => by
        simp only [State.alarmed, alarm, rises, State.isUp, hd]
        rfl
      change (takeMotion a.order [hi, lo, flags] (s.heard a)).towardD = _
      by_cases h : dropped
      · have hmotion : motion = (s.heard a).droppedTold := funext fun y => if_pos h
        rw [(hdropped (hdrops.mp h)).2, halarm, hmotion, hbegan]
      · have hmotion : motion = id := funext fun y => if_neg h
        rw [(haccepted (mt hdrops.mpr h)).2, halarm, hmotion, hbegan]
        exact (ite_self _).symm
  · by_cases hw : wakes
    · rw [settleSign_of_not_pending (hmoved.pending.trans (if_pos hw)), if_pos hw]
      exact copiedMotion_changesOnly _ _ _ _ _ _ _ (by simp) fun _ => by simp
    · rw [if_neg hw]
      have hpending : t.power.shutPending = (s.heard a).power.shutPending := hmoved.pending.trans (if_neg hw)
      refine (State.changesOnly_settleSign (bs := [.fare, .milestone, .shift, .sign, .intercom, .power]) hpending
        (copiedMotion_changesOnly _ _ _ _ _ _ _ (by simp) fun h => absurd h hw)).mono ?_
      change (if s.power.shutPending = true then [Block.link, .power] else []) ++ _ ⊆ (_ : List Block)
      split <;> simp

end Sys2Proof.Machine
end

