-- ==== Sys2Proof/Proofs/MilestoneTable.lean ====
section
/-! PROOFS. The milestone table's write and reads (R49, R51, R52, R61), and the statements `MilestoneSetRearms`, `PartyReads` and `MilestoneReads`. -/
set_option Elab.async false
namespace Sys2Proof.Machine

/-! ### Rearming (R52) -/

/-- What one slot's step alone changes, read after all four slots. -/
theorem foldl_slots_read {β : Type} {read : State → β} {C : State → Prop} {step : State → Fin 4 → State} {i : Fin 4} {y : β} {s : State} (hs : C s)
    (hC : ∀ t k, C t → C (step t k)) (hother : ∀ t k, k ≠ i → read (step t k) = read t) (hself : ∀ t, C t → read t = read s → read (step t i) = y) :
    read (slots.foldl step s) = y := by
  have hskip : ∀ (ks : List (Fin 4)) (t : State), i ∉ ks → read (ks.foldl step t) = read t := by
    intro ks
    induction ks with
    | nil => exact fun _ _ => rfl
    | cons k ks ih => exact fun t hi => (ih _ fun h => hi (List.mem_cons_of_mem _ h)).trans (hother t k fun h => hi (h ▸ List.mem_cons_self))
  have hreach : ∀ (ks : List (Fin 4)) (t : State), ks.Nodup → i ∈ ks → C t → read t = read s → read (ks.foldl step t) = y := by
    intro ks
    induction ks with
    | nil => simp
    | cons k ks ih =>
      intro t hnodup hi ht hread
      obtain ⟨hk, hks⟩ := List.nodup_cons.mp hnodup
      by_cases h : k = i
      · subst h
        exact (hskip ks _ hk).trans (hself t ht hread)
      · exact ih _ hks ((List.mem_cons.mp hi).resolve_left (Ne.symm h)) (hC t k ht) ((hother t k h).trans hread)
  have hmem : ∀ i : Fin 4, i ∈ slots := by decide
  exact hreach slots s (by decide) (hmem i) hs rfl

/-- A cell of a written entry, rearmed from what its slot has reached (R52). -/
def State.rearmed (s : State) (e : Fin 12) (m : Milestone) (i : Fin 4) : Armed :=
  if (s.party i).riding then ⟨s.quantityOf m.quantity (s.party i) / m.threshold + 1, false⟩ else s.armed e i

theorem rearmEntry_armed_same (e : Fin 12) (m : Milestone) (s : State) (i : Fin 4) : (rearmEntry e m s).armed e i = s.rearmed e m i := by
  rw [rearmEntry]
  refine foldl_slots_read (i := i) (read := fun t => t.armed e i) (C := fun t => t.fare = s.fare ∧ t.tariff = s.tariff) ⟨rfl, rfl⟩
    (fun t k ht => ?_) (fun t k hk => ?_) fun t ht hread => ?_
  · split <;> exact ht
  · split
    · exact State.armed_setArmed_other _ _ _ _ _ _ (.inr hk.symm)
    · rfl
  · obtain ⟨hfare, htariff⟩ := ht
    have hparty : t.party i = s.party i := by rw [State.party, hfare]; rfl
    rw [State.rearmed, hparty, State.quantityOf_of_tariff _ _ _ _ htariff]
    split
    · exact State.armed_setArmed_same ..
    · exact hread

theorem rearmEntry_armed_other {e e' : Fin 12} (h : e' ≠ e) (m : Milestone) (s : State) (i : Fin 4) : (rearmEntry e m s).armed e' i = s.armed e' i := by
  refine foldl_keeps (fun t : State => t.armed e' i) _ (fun t k => ?_) slots s
  split
  · exact State.armed_setArmed_other _ _ _ _ _ _ (.inl h)
  · rfl

theorem rearmEntry_table (e : Fin 12) (m : Milestone) (s : State) : (rearmEntry e m s).milestone.table = s.milestone.table := by
  rw [rearmEntry]
  refine foldl_keeps (fun t : State => t.milestone.table) _ (fun t k => ?_) slots s
  split <;> rfl

/-! ### MILESTONE_SET (R51) -/

section set
variable {n : Byte} {m : Milestone} {s : State}

/-- Whether a written entry is refused for its own fields, by R51. -/
def Milestone.outOfRange (m : Milestone) (arg : Nat) : Prop :=
  m.threshold = 0 ∨ (∃ f, m.filter = some f ∧ 7 < f) ∨ (m.action ≠ .notify ∧ 7 < arg)

theorem actMilestoneSet_refused {arg : Nat} (h : 12 ≤ n.toNat ∨ m.outOfRange arg) : actMilestoneSet n { m with argument := arg } s = (s, .refuse .range) := by
  unfold actMilestoneSet
  split
  · rfl
  · rename_i e he
    have hn : ¬ 12 ≤ n.toNat := fun hge => by simp [index_of_ge hge] at he
    by_cases h0 : m.threshold = 0
    · exact if_pos h0
    · rw [if_neg (show ¬ ({ m with argument := arg } : Milestone).threshold = 0 from h0)]
      rcases (h.resolve_left hn).resolve_left h0 with ⟨f, hfilter, hgt⟩ | ha
      · rw [if_pos (by simp [hfilter, hgt])]
      · simp [ha.1, ha.2]

theorem actMilestoneSet_done {e : Fin 12} {arg : Nat} (hn : n.toNat = e.val) (h : ¬ m.outOfRange arg) (harg : m.argument = if m.action = .notify then 0 else arg) :
    actMilestoneSet n { m with argument := arg } s
      = (rearmEntry e m { s with milestone := { s.milestone with table := s.milestone.table.set e m } }, .ok [n]) := by
  obtain ⟨h0, h⟩ := not_or.mp h
  obtain ⟨hfilter, haction⟩ := not_or.mp h
  have hf : (match m.filter with | some t => decide (7 < t) | none => false) = false := by
    cases hm : m.filter with
    | none => rfl
    | some f => exact decide_eq_false fun hgt => hfilter ⟨f, hm, hgt⟩
  have hm : (if m.action = .notify then { m with argument := 0 } else { m with argument := arg }) = m := by
    cases m
    split at harg <;> simp_all
  simp only [actMilestoneSet, index_of_toNat hn]
  refine (if_neg h0).trans ((if_neg (Bool.eq_false_iff.mp hf)).trans ((if_neg haction).trans ?_))
  rw [hm]

end set

theorem readMilestoneSet_eq {n en q t2 t1 t0 rep fk fi act arg : Byte} {m : Milestone} (hen : flagOf en = some m.enabled)
    (hq : dec Quantity.all q = some m.quantity) (ht : m.threshold = num [t2, t1, t0]) (hrep : dec Repetition.all rep = some m.repetition)
    (hf : readFilter fk fi = some m.filter) (hact : dec MilestoneAction.all act = some m.action) :
    readMilestoneSet [n, en, q, t2, t1, t0, rep, fk, fi, act, arg] = some (actMilestoneSet n { m with argument := arg.toNat }) := by
  simp only [readMilestoneSet, hen, hq, hrep, hf, hact, ht]

/-- Settles O41: the write by `actMilestoneSet_done`, the cells by `rearmEntry_armed_same` and `rearmEntry_armed_other`. -/
theorem milestoneSetRearms : Obligations.MilestoneSetRearms := by
  unfold Obligations.MilestoneSetRearms
  intro a s n en q t2 t1 t0 rep fk fi act arg m e h hen hq ht hrep hf hact harg args bad
  have hread : RequestName.milestoneSet.read a.port args = some (actMilestoneSet n { m with argument := arg.toNat }) :=
    readMilestoneSet_eq hen hq ht hrep hf hact
  refine ⟨fun hbad => ?_, fun hgood hn => ?_⟩
  · exact exec_refused (r := .milestoneSet) h (by simp [args]) hread (actMilestoneSet_refused hbad)
  · have hset := actMilestoneSet_done (s := s.heard a) hn (fun h => hgood (.inr h)) harg
    obtain ⟨hexec, hreach⟩ := exec_reaches (r := .milestoneSet) (args := args) h (by simp [args]) hread hset
    refine ⟨_, hexec, rearmEntry_table .., fun i => ?_, fun e' i he => rearmEntry_armed_other he _ _ _, hreach⟩
    rw [rearmEntry_armed_same, State.rearmed]
    have hriding : (s.party i).riding = true ↔ ¬ (s.party i).state = .idle := by simp [Party.riding]
    by_cases hidle : (s.party i).state = .idle
    · rw [if_pos hidle]
      exact if_neg fun hr => hriding.mp hr hidle
    · rw [if_neg hidle]
      exact if_pos (hriding.mpr hidle)

/-! ### The reads (R49, R61) -/

theorem readByte_one (f : Byte → Action) (n : Byte) : readByte f [n] = some (f n) := rfl

/-- Settles O42. -/
theorem partyReads : Obligations.PartyReads := by
  unfold Obligations.PartyReads
  intro a s n hp h
  have ht : s.takes a .partyRead := takes_either h hp rfl
  refine ⟨fun i hn => ?_, fun hn => ?_⟩
  · exact exec_answered (r := .partyRead) ht (by simp) (readByte_one actPartyRead n) (by simp [actPartyRead, onSlot, index_of_toNat hn]; rfl)
  · exact exec_refused (r := .partyRead) ht (by simp) (readByte_one actPartyRead n) (onSlot_of_ge hn _ _ _)

/-- Settles O43. -/
theorem milestoneReads : Obligations.MilestoneReads := by
  unfold Obligations.MilestoneReads
  intro a s n hp h
  have ht : s.takes a .milestoneRead := takes_either h hp rfl
  refine ⟨fun e hn => ?_, fun hn => ?_⟩
  · exact exec_answered (r := .milestoneRead) ht (by simp) (readByte_one actMilestoneRead n) (by simp [actMilestoneRead, index_of_toNat hn]; rfl)
  · exact exec_refused (r := .milestoneRead) ht (by simp) (readByte_one actMilestoneRead n) (by simp [actMilestoneRead, index_of_ge hn])

end Sys2Proof.Machine
end

