-- ==== Sys2Proof/Proofs/PaymentQueue.lean ====
section
/-! PROOFS. The payment queue as commands: how a PAY frame reaches the payment unit (R165, R193), offers, stages and cancellations (R64 to R67), and the
statements `OfferCardJoinsQueue` and `CardStagesAndCancellations`. -/
set_option Elab.async false
namespace Sys2Proof.Machine

/-! ### Codes -/

/-- The byte of a slot is taken as that slot. -/
theorem toNat_byte_slot (i : Fin 4) : (byte i.val).toNat = i.val := by
  simp only [byte, BitVec.toNat_ofNat]
  omega

/-! ### The arrival of a PAY frame (R164, R165) -/

section pay
variable {x : PaySub} {a : Arrival} {fields : List Byte} {s t : State}

theorem paySubOf_code (x : PaySub) : paySubOf (paySubCode x) = some x := by cases x <;> rfl

theorem ingressFailure_pay (hsub : x ∈ acceptedSubs a.port) (htest : paySubFieldsTest x fields = true) (hl : fields.length < 200) :
    ingressFailure a.port (frameOf .pay a.route a.tag (paySubCode x :: fields)) = none := by
  have h8 : (byte (paySubCode x :: fields).length).toNat = (paySubCode x :: fields).length := by
    rw [show (paySubCode x :: fields).length = fields.length + 1 from rfl]
    simp only [byte, BitVec.toNat_ofNat]
    omega
  have hk : kindOf (frameOf .pay a.route a.tag (paySubCode x :: fields)) = some .pay := rfl
  have ht : lengthTest (frameOf .pay a.route a.tag (paySubCode x :: fields)) = true := by
    have h200 : (paySubCode x :: fields).length ≤ 200 := by
      rw [List.length_cons]
      omega
    simp [lengthTest, frameOf, h8, Config.maxPayload, h200, -List.length_cons]
  have hport : a.port = .d ∨ a.port = .k := by cases hp : a.port <;> simp [acceptedSubs, hp] at hsub <;> simp
  simp only [ingressFailure, ht, hk]
  rcases hport with hp | hp <;>
    simp_all [acceptedKinds, frameOf, subTest, payloadTest, paySubOf_code]

/-- A PAY frame a port may send, as a command, where what it does leaves the hub in RUN. -/
theorem event_pay (h : s.hears a.port) (hsub : x ∈ acceptedSubs a.port) (htest : paySubFieldsTest x fields = true) (hl : fields.length < 200)
    (htake : takePay (paySubCode x :: fields) (s.heard a) = t) (hrun : t.power.state = .run) : event (arrivePay x a fields) s = .next t := by
  have harrive : arrivePay x a fields s = t := (arrive_of_hears a .pay _ s h (ingressFailure_pay hsub htest hl)).trans htake
  rw [event_of_run _ _ h.1 (by rw [harrive]; exact hrun), harrive]

end pay

/-! ### OFFER_CARD (R64) -/

/-- What is told of a party, with nothing told beside it. -/
theorem State.tripTold.beside {b v u : State} {i : Fin 4} {trip : Nat} (h : b.tripTold v i trip) (hu : v.Beside u) (hr : u.request = v.request) :
    b.tripTold u i trip := by
  obtain ⟨hrequest, hportC, hportP⟩ := h
  refine ⟨hr.trans hrequest, ?_, ?_⟩
  · rw [hu.portC, hportC]
    exact (PortState.tripShown_congr _ i trip rfl rfl hu.fare).symm
  · rw [hu.portP, hportP]
    exact (PortState.shownPassenger_congr _ _ _ _ _ rfl hu.fare).symm

/-- A record at the tail of the queue (R63, R64). -/
def offerJoined (i : Fin 4) (offered : Nat) (s : State) : State :=
  let t := offerTaken i s
  let u := t.setPayment { t.payment with queue := t.payment.queue ++ [⟨i, offered, .queued, none, none, none, none⟩] }
  if s.payment.queue = [] then promote u else u

theorem promote_port_k (s : State) : (promote s).port .k = (s.port .k).offeredNext s.payment.policy.tipPercent s.payment.queue := by
  unfold promote
  cases s.payment.queue with
  | nil => rfl
  | cons r rest => exact emit_port_same ..

section offer
variable (i : Fin 4) (offered : Nat) (s : State)

theorem offerJoined_fare : (offerJoined i offered s).fare = s.fare.withParty i { s.party i with state := .paying } := by
  unfold offerJoined
  split <;> simp [offerTaken_eq, State.setPayment]

theorem offerJoined_payment : (offerJoined i offered s).payment = { s.payment with
    queue := s.payment.queue ++ [(⟨i, offered, if s.payment.queue = [] then .offered else .queued, none, none, none, none⟩ : Record)],
    offerTimer := if s.payment.queue = [] then some 120000 else s.payment.offerTimer } := by
  unfold offerJoined
  by_cases hq : s.payment.queue = []
  · simp [hq, promote_payment, State.setPayment, offerTaken_eq, promotedQueue]
  · simp [hq, State.setPayment, offerTaken_eq]

theorem offerJoined_tripTold : s.tripTold (offerJoined i offered s) i (s.party i).trip := by
  refine (tripTold_partyMoved i { s.party i with state := .paying } s).beside ?_ ?_
  · exact .ite ((State.Beside.setPayment _ _).trans (.promote _)) (.setPayment _ _)
  · unfold offerJoined
    split
    · rw [promote_request]
      rfl
    · rfl

theorem offerJoined_port_k : (offerJoined i offered s).port .k = if s.payment.queue = [] then
    (s.port .k).placed (payFrame .chargeOffer (byte i.val :: be 4 offered ++ [byte s.payment.policy.tipPercent])) else s.port .k := by
  have hk : (offerTaken i s).port .k = s.port .k := partyMoved_port_other _ _ _ _ (by decide) (by decide) (by decide)
  unfold offerJoined
  split
  · rename_i hq
    have hpayment : (offerTaken i s).payment = s.payment := by simp [offerTaken_eq]
    rw [promote_port_k, State.setPayment_port, hk]
    simp [State.setPayment, hq, PortState.offeredNext]
  · exact hk

theorem actOfferCard_eq {n : Byte} {i : Fin 4} (hn : n.toNat = i.val) {amount : Nat} {s : State} (hhold : (s.party i).state = .hold) (hup : s.isUp .k = true)
    (hdue : amount ≤ (s.party i).due) :
    actOfferCard n amount s = (offerJoined i (if amount = 0 then (s.party i).due else amount) s,
      .ok (be 4 (if amount = 0 then (s.party i).due else amount) ++ [enc RecordState.all (if s.payment.queue = [] then .offered else .queued)])) := by
  have hd : ¬ (s.party i).due < amount := Nat.not_lt.mpr hdue
  simp only [actOfferCard, onSlot, index_of_toNat hn, hhold, beq_self_eq_true, if_true, hup, Bool.not_true, Bool.false_eq_true, if_false, hd,
    List.isEmpty_iff, offerJoined]

end offer

/-- Settles O45: the refusals in their order, and the record by `actOfferCard_eq`. -/
theorem offerCardJoinsQueue : Obligations.OfferCardJoinsQueue := by
  unfold Obligations.OfferCardJoinsQueue
  intro a s i a3 a2 a1 a0 h p amount offered refused
  have hn := toNat_byte_slot i
  have hread : RequestName.offerCard.read a.port [byte i.val, a3, a2, a1, a0] = some (actOfferCard (byte i.val) amount) := rfl
  have hup : (s.heard a).isUp .k = s.isUp .k := port_restartSilence_up ..
  have hslot : ∀ f : Fin 4 → State → State × Result, p.state = .hold → onSlot (byte i.val) (fun x => x == .hold) f (s.heard a) = f i (s.heard a) := fun f hhold => by
    rw [onSlot, index_of_toNat hn]
    exact if_pos (beq_iff_eq.mpr hhold)
  have hrefused : ∀ {reason : Reason}, actOfferCard (byte i.val) amount (s.heard a) = (s.heard a, .refuse reason) → refused reason := fun hact =>
    exec_refused (r := .offerCard) (args := [byte i.val, a3, a2, a1, a0]) h (by simp) hread hact
  refine ⟨fun hno => hrefused ?_, fun hhold hk => hrefused ?_, fun hhold hk hdue => hrefused ?_, fun hhold hk hdue => ?_⟩
  · exact onSlot_of_not_takes hn (by simpa using hno) _
  · rw [actOfferCard, hslot _ hhold]
    simp [hup, hk]
  · rw [actOfferCard, hslot _ hhold]
    have hdue' : ¬ amount ≤ (s.party i).due := Nat.not_le.mpr hdue
    simp [hup, hk, hdue']
  · intro st
    obtain ⟨hexec, hreach⟩ := exec_reaches (r := .offerCard) (args := [byte i.val, a3, a2, a1, a0]) h (by simp) hread
      (actOfferCard_eq (s := s.heard a) hn hhold (hup.trans hk) hdue)
    refine ⟨offerJoined i offered (s.heard a), hexec, offerJoined_fare .., offerJoined_tripTold .., offerJoined_payment .., ?_, hreach⟩
    have hport : (s.heard a).port .k = s.port .k :=
      State.port_setPort_other _ _ _ _ (by rcases permits_port _ _ h.2 with hp | hp <;> rw [hp] <;> decide)
    rw [offerJoined_port_k, hport]
    rfl

/-! ### Cancellations (R65 to R67) -/

theorem cancelRecord_power_state (i : Fin 4) (c : CancelCause) (s : State) : (cancelRecord i c s).power.state = s.power.state := by
  simp only [cancelRecord_eq, withdrawn, paymentReleased_eq]
  split_ifs <;> simp [State.setPayment]

/-- A cancelled head: its party back in HOLD, K told, the next record promoted (R63, R65). -/
theorem cancelRecord_gone {b : State} {r : Record} {rest : List Record} (hq : b.payment.queue = r :: rest) {c : CancelCause} (hc : c ≠ .link) :
    (cancelRecord r.slot c b).fare = b.fare.withParty r.slot { b.party r.slot with state := .hold }
      ∧ b.payTold (cancelRecord r.slot c b) r.slot (b.party r.slot).trip 5 (causeCode c) 0
      ∧ (cancelRecord r.slot c b).request.seqD = b.request.seqD
      ∧ (cancelRecord r.slot c b).payment = { b.payment with queue := promotedQueue rest, offerTimer := promotedTimer rest }
      ∧ (cancelRecord r.slot c b).port .k =
        ((b.port .k).placed (payFrame .chargeWithdraw [byte r.slot.val])).offeredNext b.payment.policy.tipPercent rest
      ∧ b.changesOnly (cancelRecord r.slot c b) [.request, .fare, .payment, .sign, .power] :=
  ⟨cancelRecord_fare .., cancelRecord_payTold .., cancelRecord_seqD .., cancelRecord_head_payment hq c, cancelRecord_head_port_k hq c hc,
    cancelRecord_changesOnly ..⟩

section console
variable {s : State} {i : Fin 4} {x : Record}

theorem actCancelCard_eq {n : Byte} (hn : n.toNat = i.val) (hpaying : (s.party i).state = .paying) (hx : s.recordOf i = some x) :
    actCancelCard n s = if x.state = .authorizing then (s, .refuse .paymentState) else (cancelRecord i .console s, .ok []) := by
  simp only [actCancelCard, onSlot, index_of_toNat hn, hpaying, beq_self_eq_true, if_true, hx]

theorem State.recordOf_head {r : Record} {rest : List Record} (hq : s.payment.queue = r :: rest) : s.recordOf r.slot = some r := by
  simp [recordOf, hq]

end console

/-! ### Stages (R66) -/

section stage
variable {s : State} {r : Record} {rest : List Record}

/-- PIN_START at an OFFERED head. -/
def pinTaken (r : Record) (rest : List Record) (s : State) : State :=
  pinStarted (s.setPayment { s.payment with queue := { r with state := .pin } :: rest, offerTimer := none })

theorem purgeVoice_voice (q r : Port) (s : State) : ((purgeVoice q s).port r).voice = if r = q then [] else (s.port r).voice := by
  unfold purgeVoice
  split
  · rename_i h
    rw [h, State.port_setPort_same]
  · rename_i h
    rw [State.port_setPort_other _ _ _ _ h]

theorem takeStage_offered (h : r.state = .offered) (hq : s.payment.queue = r :: rest) :
    takeStage .pinStart r s = pinTaken r rest s ∧ takeStage .pinEnd r s = s ∧ takeStage .cancelled r s = cancelRecord r.slot .terminal s := by
  simp only [takeStage, h, pinTaken, State.setHead, State.setPayment, hq, List.drop_one, List.tail_cons, and_self]

theorem takeStage_pin (h : r.state = .pin) (hq : s.payment.queue = r :: rest) :
    takeStage .pinStart r s = s ∧ takeStage .pinEnd r s = s.setPayment { s.payment with queue := { r with state := .offered } :: rest, offerTimer := some 120000 }
      ∧ takeStage .cancelled r s = cancelRecord r.slot .terminal s := by
  simp only [takeStage, h, State.setHead, State.setPayment, hq, List.drop_one, List.tail_cons, Config.offerPeriod, and_self]

theorem takeStage_authorizing (h : r.state = .authorizing) (stage : CardStage) : takeStage stage r s = s := by
  simp only [takeStage, h]

theorem takeCardStage_eq (hq : s.payment.queue = r :: rest) {slot stage : Byte} {x : CardStage} (hx : dec CardStage.all stage = some x) :
    takeCardStage [slot, stage] s = if r.slot.val = slot.toNat then takeStage x r s else s := by
  simp only [takeCardStage, hq, hx]

/-- A CARD_STAGE as a command. -/
theorem exec_cardStage {a : Arrival} {slot stage : Byte} {t : State} (ha : a.port = .k) (h : s.hears .k) (hstage : (dec CardStage.all stage).isSome = true)
    (htake : takeCardStage [slot, stage] (s.heard a) = t) (hrun : t.power.state = .run) : exec (.cardStage a [slot, stage]) s = .next t := by
  refine event_pay (by rw [ha]; exact h) (by rw [ha]; decide) hstage (by simp) ?_ hrun
  rw [takePay, paySubOf_code]
  exact htake

end stage

/-- Settles O46: each cancellation by `cancelRecord_gone`, each stage by `takeStage_offered` and `takeStage_pin`. -/
theorem cardStagesAndCancellations : Obligations.CardStagesAndCancellations := by
  unfold Obligations.CardStagesAndCancellations
  intro a s r rest hq gone
  have hn : ∀ i : Fin 4, (byte i.val).toNat = i.val := toNat_byte_slot
  have hread : ∀ i : Fin 4, RequestName.cancelCard.read a.port [byte i.val] = some (actCancelCard (byte i.val)) := fun _ => rfl
  refine ⟨fun h => ⟨fun hpaying hstate => ?_, fun hpaying hstate => ?_, fun i r' hi hpaying hr' hstate => ?_⟩,
    fun ha h => ⟨fun hoffered => ?_, fun hpin => ?_, fun hstate => ?_, fun slot stage hstage hno => ?_⟩, fun hrun htimer hoffered => ?_⟩
  · have hact := (actCancelCard_eq (s := s.heard a) (hn r.slot) hpaying (State.recordOf_head hq)).trans (if_neg hstate)
    exact ⟨_, exec_done (r := .cancelCard) (args := [byte r.slot.val]) h (by simp) (hread _) hact, cancelRecord_gone (b := s.heard a) hq (by decide)⟩
  · have hact := (actCancelCard_eq (s := s.heard a) (hn r.slot) hpaying (State.recordOf_head hq)).trans (if_pos hstate)
    exact exec_refused (r := .cancelCard) (args := [byte r.slot.val]) h (by simp) (hread _) hact
  · have hact := (actCancelCard_eq (s := s.heard a) (hn i) hpaying hr').trans (if_neg hstate)
    have hk : (s.heard a).port .k = s.port .k :=
      State.port_setPort_other _ _ _ _ (by rcases permits_port _ _ h.2 with hp | hp <;> rw [hp] <;> decide)
    exact ⟨_, exec_done (r := .cancelCard) (args := [byte i.val]) h (by simp) (hread _) hact, cancelRecord_fare .., cancelRecord_payTold ..,
      cancelRecord_seqD .., cancelRecord_later_payment (s := s.heard a) hq i .console hi,
      (cancelRecord_later_port_k (s := s.heard a) hq i .console hi).trans hk, cancelRecord_changesOnly ..⟩
  · have htake : takeCardStage [byte r.slot.val, 0] (s.heard a) = pinTaken r rest (s.heard a) := by
      rw [takeCardStage_eq (s := s.heard a) hq (x := .pinStart) rfl, if_pos (hn _).symm, (takeStage_offered (s := s.heard a) hoffered hq).1]
    refine ⟨_, exec_cardStage ha h rfl htake h.1, rfl, ?_, ?_, ?_⟩
    · simp [pinTaken, pinStarted, purgeVoice_voice]
    · simp [pinTaken, pinStarted, purgeVoice_voice]
    · simp [State.changesOnly, pinTaken, State.setPayment]
  · have htake : takeCardStage [byte r.slot.val, 1] (s.heard a) =
        (s.heard a).setPayment { s.payment with queue := { r with state := .offered } :: rest, offerTimer := some 120000 } := by
      rw [takeCardStage_eq (s := s.heard a) hq (x := .pinEnd) rfl, if_pos (hn _).symm, (takeStage_pin (s := s.heard a) hpin hq).2.1]
      rfl
    exact exec_cardStage ha h rfl htake h.1
  · have htake : takeCardStage [byte r.slot.val, 2] (s.heard a) = cancelRecord r.slot .terminal (s.heard a) := by
      rw [takeCardStage_eq (s := s.heard a) hq (x := .cancelled) rfl, if_pos (hn _).symm]
      rcases hstate with hs | hs
      · exact (takeStage_offered (s := s.heard a) hs hq).2.2
      · exact (takeStage_pin (s := s.heard a) hs hq).2.2
    exact ⟨_, exec_cardStage ha h rfl htake ((cancelRecord_power_state ..).trans h.1), cancelRecord_gone (b := s.heard a) hq (by decide)⟩
  · have hcodes : stage = 0 ∨ stage = 1 ∨ stage = 2 := by bv_omega
    have hignored : ∀ x, dec CardStage.all stage = some x → takeCardStage [slot, stage] (s.heard a) = s.heard a := fun x hx => by
      rw [takeCardStage_eq (s := s.heard a) hq hx]
      split
      · rename_i hslot
        rcases hno with hne | hs | ⟨hs, rfl⟩ | ⟨hs, rfl⟩
        · exact absurd hslot.symm hne
        · exact takeStage_authorizing hs x
        · cases hx
          exact (takeStage_pin (s := s.heard a) hs hq).1
        · cases hx
          exact (takeStage_offered (s := s.heard a) hs hq).2.1
      · rfl
    obtain ⟨x, hx⟩ : ∃ x, dec CardStage.all stage = some x := by rcases hcodes with rfl | rfl | rfl <;> exact ⟨_, rfl⟩
    exact exec_cardStage ha h (by rw [hx]; rfl) (hignored x hx) h.1
  · have hexpiry : offerExpiry s = cancelRecord r.slot .timeout s := by
      obtain ⟨n, hn⟩ := Option.isSome_iff_exists.mp htimer
      simp only [offerExpiry, hn, hq, hoffered, if_true]
    refine ⟨_, ?_, cancelRecord_gone (b := s) hq (c := .timeout) (by decide)⟩
    exact (event_of_run _ _ hrun (by rw [hexpiry, cancelRecord_power_state]; exact hrun)).trans (by rw [hexpiry])

end Sys2Proof.Machine
end

