-- ==== Sys2Proof/Proofs/Authorization.lean ====
section
/-! PROOFS. Authorizations as commands: an ask and its path (R68 to R77), an answer (R71 to R73) and its timeout (R74), and the statements
`AuthAskTakesItsPath` and `AnswersAndTimeout`. -/
set_option Elab.async false
namespace Sys2Proof.Machine

/-! ### What an event of the payment unit keeps -/

section keeps
variable (r : Record) (x : Ask) (reason : OfflineReason) (s : State)

theorem refuseOffline_power_state : (refuseOffline r x reason s).power.state = s.power.state := by
  simp [refuseOffline, paymentReleased_eq]

theorem approveOffline_power_state : (approveOffline r x s).power.state = s.power.state := by
  simp [approveOffline_eq, committed]

theorem answerApproved_power_state : (answerApproved r s).power.state = s.power.state := by
  simp [answerApproved, postedOnline_eq]

theorem answerDeclined_power_state : (answerDeclined r s).power.state = s.power.state := by
  simp [answerDeclined, paymentReleased_eq]

theorem answerTimedOut_power_state : (answerTimedOut r s).power.state = s.power.state := by
  simp [answerTimedOut_eq, timedOut]

theorem refuseOffline_changesOnly : s.changesOnly (refuseOffline r x reason s) [.request, .fare, .payment, .sign, .power] := by
  simp [State.changesOnly]

theorem approveOffline_changesOnly :
    s.changesOnly (approveOffline r x s) [.request, .fare, .payment, .shift, .sign, .intercom, .power] := by
  simp [State.changesOnly]

theorem answerApproved_changesOnly : s.changesOnly (answerApproved r s) [.request, .fare, .payment, .sign, .intercom, .power] := by
  simp [State.changesOnly]

theorem answerDeclined_changesOnly : s.changesOnly (answerDeclined r s) [.request, .fare, .payment, .sign, .power] := by
  simp [State.changesOnly]

theorem answerTimedOut_changesOnly : s.changesOnly (answerTimedOut r s) [.request, .fare, .payment, .shift, .sign, .power] := by
  simp [State.changesOnly]

end keeps

/-! ### AUTH_ASK (R68) -/

/-- An AUTH_ASK as a command. -/
theorem exec_authAsk {a : Arrival} {s t : State} {slot : Byte} {bytes : List Byte} (ha : a.port = .k) (h : s.hears .k) (hl : bytes.length = 28)
    (htake : takeAuthAsk (slot :: bytes) (s.heard a) = t) (hrun : t.power.state = .run) : exec (.authAsk a (slot :: bytes)) s = .next t := by
  refine event_pay (by rw [ha]; exact h) (by rw [ha]; decide) ?_ (by simp [hl]) ?_ hrun
  · simp [paySubFieldsTest, hl]
  · rw [takePay, paySubOf_code]
    exact htake

/-- An ask that no head takes. -/
theorem takeAuthAsk_unasked {s : State} {slot : Byte} {bytes : List Byte}
    (h : ∀ r rest, s.payment.queue = r :: rest → r.slot.val ≠ slot.toNat ∨ (r.state ≠ .offered ∧ r.state ≠ .pin)) :
    takeAuthAsk (slot :: bytes) s = authResult slot .refusedState 0 (askOf bytes).terminalRef 0 0 s := by
  unfold takeAuthAsk
  dsimp only
  split
  · rfl
  · rename_i r rest hq
    rw [if_pos]
    simpa [Record.asks] using h r rest hq

/-- An ask of the head's slot, OFFERED or in PIN. -/
theorem takeAuthAsk_asked {s : State} {slot : Byte} {bytes : List Byte} {r : Record} {rest : List Record} (hq : s.payment.queue = r :: rest)
    (hslot : r.slot.val = slot.toNat) (hstate : r.state = .offered ∨ r.state = .pin) :
    takeAuthAsk (slot :: bytes) s =
      if !(askOf bytes).passes r.offered s.payment.policy.tipPercent then authResult slot .refusedAmount 0 (askOf bytes).terminalRef 0 0 s
      else if s.online then forwardAsk r (askOf bytes) s else decideOffline r (askOf bytes) s := by
  have hasks : r.asks = true := by simpa [Record.asks] using hstate
  simp only [takeAuthAsk, hq, hslot, hasks, ne_eq, not_true_eq_false, Bool.not_true, Bool.false_eq_true, or_self, if_false]

theorem State.online_iff (s : State) :
    s.online = true ↔ s.isUp .d = true ∧ s.payment.policy.forceOffline = false ∧ s.payment.store.length < 32 := by
  simp only [online, Bool.and_eq_true, Bool.not_eq_true', decide_eq_true_eq, and_assoc]
  rfl

theorem offlineFault_cases (x : Ask) (s : State) :
    let sum := x.amount + x.tip
    let policy := s.payment.policy
    (policy.floorLimit < sum → offlineFault x s = some .floor)
    ∧ (sum ≤ policy.floorLimit → policy.shiftCap < s.shift.totals.committed + sum → offlineFault x s = some .cap)
    ∧ (sum ≤ policy.floorLimit → s.shift.totals.committed + sum ≤ policy.shiftCap →
      (28 ≤ s.payment.store.length → offlineFault x s = some .queue)
      ∧ (s.payment.store.length < 28 →
        (tokenPrefix x.token ∈ s.payment.refusalList → offlineFault x s = some .listed)
        ∧ (tokenPrefix x.token ∉ s.payment.refusalList → offlineFault x s = none))) := by
  intro sum policy
  have hsum : s.shift.totals.committed + sum = s.shift.totals.committed + x.amount + x.tip := (Nat.add_assoc _ _ _).symm
  rw [hsum]
  refine ⟨fun h => if_pos h, fun h hcap => ?_, fun h hcap => ⟨fun hlen => ?_, fun hlen => ⟨fun hlist => ?_, fun hlist => ?_⟩⟩⟩ <;>
    rw [offlineFault, if_neg (Nat.not_lt.mpr h)]
  · exact if_pos hcap
  all_goals rw [if_neg (Nat.not_lt.mpr hcap)]
  · exact if_pos hlen
  all_goals rw [if_neg (show ¬ Config.offlineLimit ≤ s.payment.store.length from Nat.not_le.mpr hlen)]
  · exact if_pos hlist
  · exact if_neg hlist

/-- An approved offline ask finds fewer than 28 entries held. -/
theorem store_of_offlineFault {x : Ask} {s : State} (h : offlineFault x s = none) : s.payment.store.length < 28 := by
  by_contra hlen
  obtain ⟨hfloor, hcap, hrest⟩ := offlineFault_cases x s
  by_cases h1 : x.amount + x.tip ≤ s.payment.policy.floorLimit
  · by_cases h2 : s.shift.totals.committed + (x.amount + x.tip) ≤ s.payment.policy.shiftCap
    · simp [(hrest h1 h2).1 (Nat.not_lt.mp hlen)] at h
    · simp [hcap h1 (Nat.not_le.mp h2)] at h
  · simp [hfloor (Nat.not_le.mp h1)] at h

/-- A fresh reference, with few entries held (R69). -/
theorem allocate_fresh {x : PaymentUnit} (hlen : x.store.length < 32) (hc : x.refCounter ≤ 65535) :
    1 ≤ x.allocate ∧ x.allocate ≤ 65535 ∧ ∀ e ∈ x.store, e.hubRef ≠ x.allocate := by
  obtain ⟨hlow, hhigh⟩ := allocate_bounds x hc
  exact ⟨hlow, hhigh, fun e he heq => allocate_not_mem x hc (by omega) (List.mem_map.mpr ⟨e, he, heq⟩)⟩

section forward
variable {r : Record} {rest : List Record} {s : State} {x : Ask}

theorem forwardAsk_told : (forwardAsk r x s).port .d = (s.port .d).placed (payFrame .authForward
      (be 2 s.payment.allocate ++ be 4 s.tariff.cabNumber.toNat ++ be 2 s.shift.number ++ be 4 (s.party r.slot).trip ++ be 4 x.amount ++ be 4 x.tip
        ++ be 16 x.token.toNat ++ stampBytes s.tariff.clock))
    ∧ ∀ q, q ≠ .d → (forwardAsk r x s).port q = s.port q :=
  ⟨emit_port_same .., fun _ hq => emit_port_other _ _ _ _ hq⟩

theorem forwardAsk_changesOnly : s.changesOnly (forwardAsk r x s) [.payment] := by simp [State.changesOnly]

end forward

theorem byte_slot {i : Fin 4} {slot : Byte} (h : i.val = slot.toNat) : byte i.val = slot := by
  rw [h]
  exact byte_toNat slot

/-- Settles O47: the path by `takeAuthAsk_asked`, the effects by the lemmas of `forwardAsk`, `refuseOffline` and `approveOffline`. -/
theorem authAskTakesItsPath : Obligations.AuthAskTakesItsPath := by
  unfold Obligations.AuthAskTakesItsPath
  refine ⟨offlineFault_cases, fun a s slot bytes ha h hl => ?_⟩
  intro x result
  have hdown : (s.heard a).isUp .d = s.isUp .d := port_restartSilence_up ..
  have hother : ∀ q, q ≠ .k → (s.heard a).port q = s.port q := fun q hq => State.port_setPort_other _ _ _ _ (by rw [ha]; exact hq)
  have hmark : flag (!(s.heard a).isUp .k) = 0 := by
    have hup : (s.heard a).isUp .k = true := (port_restartSilence_up ..).trans h.2.1
    rw [hup]
    rfl
  have honline : (s.heard a).online = true ↔ s.isUp .d = true ∧ s.payment.policy.forceOffline = false ∧ s.payment.store.length < 32 := by
    rw [State.online_iff, hdown]
    rfl
  refine ⟨fun hno => ?_, fun r rest hq hslot hstate => ?_⟩
  · exact exec_authAsk ha h hl (takeAuthAsk_unasked (s := s.heard a) hno) h.1
  intro passes online p
  have hasked := takeAuthAsk_asked (s := s.heard a) (bytes := bytes) hq hslot hstate
  have hpasses : x.passes r.offered s.payment.policy.tipPercent = true ↔ passes := x.passes_iff _ _
  have hpass : passes → takeAuthAsk (slot :: bytes) (s.heard a) = if (s.heard a).online then forwardAsk r x (s.heard a) else decideOffline r x (s.heard a) :=
    fun hp => hasked.trans (if_neg fun hno => by
      have hyes : (askOf bytes).passes r.offered (s.heard a).payment.policy.tipPercent = true := hpasses.mpr hp
      rw [hyes] at hno
      cases hno)
  refine ⟨fun hp => ?_, fun hp ho => ?_, fun hp ho reason hfault => ?_, fun hp ho hfault => ?_⟩
  · refine exec_authAsk ha h hl (hasked.trans (if_pos ?_)) h.1
    rw [Bool.not_eq_true', ← Bool.not_eq_true]
    exact mt hpasses.mp hp
  · have htake := (hpass hp).trans (if_pos (honline.mpr ho))
    obtain ⟨hd, hkeep⟩ := forwardAsk_told (r := r) (s := s.heard a) (x := x)
    exact ⟨_, s.payment.allocate, exec_authAsk ha h hl htake h.1, allocate_fresh ho.2.2, forwardAsk_payment (s := s.heard a) hq x,
      hd.trans (by rw [hother .d (by decide)]; rfl), hkeep .k (by decide), (hkeep .c (by decide)).trans (hother .c (by decide)),
      (hkeep .p (by decide)).trans (hother .p (by decide)), forwardAsk_changesOnly⟩
  · have htake : takeAuthAsk (slot :: bytes) (s.heard a) = refuseOffline r x reason (s.heard a) := by
      rw [hpass hp, if_neg (mt honline.mp ho), decideOffline, show offlineFault x (s.heard a) = some reason from hfault]
    refine ⟨_, exec_authAsk ha h hl htake ((refuseOffline_power_state ..).trans h.1), refuseOffline_fare, refuseOffline_payment (s := s.heard a) hq, ?_, ?_,
      refuseOffline_port_d.trans (hother .d (by decide)), refuseOffline_seqD, refuseOffline_changesOnly ..⟩
    · rw [refuseOffline_port_k (s := s.heard a) hq, byte_slot hslot]
      rfl
    · have htold := refuseOffline_payTold (r := r) (x := x) (reason := reason) (s := s.heard a)
      rw [hmark] at htold
      exact htold
  · have htake : takeAuthAsk (slot :: bytes) (s.heard a) = approveOffline r x (s.heard a) := by
      rw [hpass hp, if_neg (mt honline.mp ho), decideOffline, show offlineFault x (s.heard a) = none from hfault]
    have hlen := store_of_offlineFault hfault
    intro q
    refine ⟨_, s.payment.allocate, exec_authAsk ha h hl htake ((approveOffline_power_state ..).trans h.1), allocate_fresh (by omega), ?_, ?_,
      approveOffline_shift, ?_, ?_, ?_, approveOffline_changesOnly ..⟩
    · exact approveOffline_fare (s := s.heard a)
    · intro stored
      refine ⟨?_, ?_, approveOffline_seqD⟩
      · rw [approveOffline_payment (s := s.heard a) hq, State.uploads_of_run (s := s.heard a) h.1, hdown]
        rfl
      · rw [approveOffline_port_d (s := s.heard a) h.1, hother .d (by decide)]
        rfl
    · exact approveOffline_intercom.trans (State.paidChimed_congr (port_restartSilence_up ..) rfl)
    · rw [approveOffline_port_k (s := s.heard a) hq, byte_slot hslot]
      rfl
    · have htold := approveOffline_payTold (r := r) (x := x) (s := s.heard a)
      rw [hmark] at htold
      exact htold

/-! ### AUTH_ANSWER and the answer timer (R71 to R74) -/

/-- An AUTH_ANSWER as a command. -/
theorem exec_authAnswer {a : Arrival} {s t : State} {hi lo result : Byte} (ha : a.port = .d) (h : s.hears .d)
    (hresult : (dec AnswerResult.all result).isSome = true) (htake : takeAuthAnswer [hi, lo, result] (s.heard a) = t) (hrun : t.power.state = .run) :
    exec (.authAnswer a [hi, lo, result]) s = .next t := by
  refine event_pay (by rw [ha]; exact h) (by rw [ha]; decide) hresult (by simp) ?_ hrun
  rw [takePay, paySubOf_code]
  exact htake

theorem takeAuthAnswer_unmatched {s : State} {hi lo result : Byte} (h : s.authorizing (num [hi, lo]) = none) :
    takeAuthAnswer [hi, lo, result] s = countUnmatched s := by
  simp only [takeAuthAnswer, h]
  rcases dec AnswerResult.all result with _ | _ | _ <;> rfl

theorem takeAuthAnswer_matched {s : State} {hi lo : Byte} {r : Record} (h : s.authorizing (num [hi, lo]) = some r) :
    takeAuthAnswer [hi, lo, 0] s = answerApproved r s ∧ takeAuthAnswer [hi, lo, 1] s = answerDeclined r s := by
  have h0 : dec AnswerResult.all 0 = some .approved := rfl
  have h1 : dec AnswerResult.all 1 = some .declined := rfl
  simp only [takeAuthAnswer, h, h0, h1, and_self]

theorem State.authorizing_head {s : State} {r : Record} {rest : List Record} {ref : Nat} (hq : s.payment.queue = r :: rest) (hstate : r.state = .authorizing)
    (href : r.hubRef = some ref) : s.authorizing ref = some r := by
  simp [authorizing, hq, hstate, href]

/-- Settles O48: the answers by the lemmas of `answerApproved` and `answerDeclined`, the timeout by those of `answerTimedOut`. -/
theorem answersAndTimeout : Obligations.AnswersAndTimeout := by
  unfold Obligations.AnswersAndTimeout
  intro a s hi lo
  refine ⟨fun ha h hnone result hresult => ?_, fun r rest amount tip ref hq hstate hamount htip href htimer => ?_⟩
  · refine exec_authAnswer ha h ?_ (takeAuthAnswer_unmatched (s := s.heard a) hnone) h.1
    rcases hresult with rfl | rfl <;> rfl
  intro p result told marker
  refine ⟨fun ha h hmatch => ?_, fun hrun hanswer => ?_⟩
  · have hhead : (s.heard a).authorizing (num [hi, lo]) = some r := State.authorizing_head (s := s.heard a) hq hstate (href.trans (by rw [hmatch]))
    obtain ⟨happroved, hdeclined⟩ := takeAuthAnswer_matched hhead
    have hk : (s.heard a).port .k = s.port .k := State.port_setPort_other _ _ _ _ (by rw [ha]; decide)
    have hmark : flag (!(s.heard a).isUp .k) = marker := by rw [State.isUp, hk]; rfl
    have hgiven : r.amountAsked.getD 0 = amount ∧ r.tipAsked.getD 0 = tip := by simp [hamount, htip]
    obtain ⟨hamount', htip'⟩ := hgiven
    refine ⟨?_, ?_⟩
    · refine ⟨_, exec_authAnswer ha h rfl happroved ((answerApproved_power_state ..).trans h.1), ?_, answerApproved_payment (s := s.heard a) hq htimer,
        ?_, ?_, ?_, answerApproved_port_d, answerApproved_seqD, answerApproved_changesOnly ..⟩
      · rw [answerApproved_fare, hamount', htip']
        rfl
      · exact answerApproved_intercom.trans (State.paidChimed_congr (port_restartSilence_up ..) rfl)
      · rw [answerApproved_port_k (s := s.heard a) hq, hamount', htip', hk]
        rfl
      · rw [← hmark]
        exact answerApproved_payTold
    · refine ⟨_, exec_authAnswer ha h rfl hdeclined ((answerDeclined_power_state ..).trans h.1), answerDeclined_fare,
        answerDeclined_payment (s := s.heard a) hq htimer, ?_, ?_, answerDeclined_port_d, answerDeclined_seqD, answerDeclined_changesOnly ..⟩
      · rw [answerDeclined_port_k (s := s.heard a) hq, hk]
        rfl
      · rw [← hmark]
        exact answerDeclined_payTold
  · have hexpiry : answerExpiry s = answerTimedOut r s := by
      obtain ⟨n, hn⟩ := Option.isSome_iff_exists.mp hanswer
      simp only [answerExpiry, hn, hq, hstate, if_true]
    have hexec : exec .answerTimerExpiry s = .next (answerTimedOut r s) :=
      (event_of_run _ _ hrun (by rw [hexpiry, answerTimedOut_power_state]; exact hrun)).trans (by rw [hexpiry])
    have hentry : s.reversalOf r = ⟨.reversal, ref, r.slot, p.trip, s.shift.number, s.tariff.clock⟩ := by
      rw [State.reversalOf, href]
      rfl
    refine ⟨_, hexec, ?_, ?_, answerTimedOut_shift .., answerTimedOut_port_k hq, answerTimedOut_payTold .., answerTimedOut_changesOnly ..⟩
    · exact answerTimedOut_fare ..
    · intro stored
      refine ⟨?_, ?_, ?_⟩
      · rw [answerTimedOut_payment hq htimer, State.uploads_of_run hrun, hentry]
        rfl
      · rw [answerTimedOut_port_d hrun, hentry]
        rfl
      · rw [answerTimedOut_seqD, hentry]
        rfl

end Sys2Proof.Machine
end

