-- ==== Sys2Proof/Proofs/PaymentSettings.lean ====
section
/-! PROOFS. The upload of the store (R79 to R81), the payment policy, the refusal list and PAY_STATUS (R84 to R86, R90), and the statements
`UploadsInOrder` and `PaymentSettings`. -/
set_option Elab.async false
namespace Sys2Proof.Machine

/-! ### UPLOAD_ACK and the upload timer (R80, R81) -/

section upload
variable {a : Arrival} {s t : State} {hi lo : Byte} {e : StoreEntry} {rest : List StoreEntry}

/-- An UPLOAD_ACK as a command. -/
theorem exec_uploadAck (ha : a.port = .d) (h : s.hears .d) (htake : takeUploadAck [hi, lo] (s.heard a) = t) (hrun : t.power.state = .run) :
    exec (.uploadAck a [hi, lo]) s = .next t := by
  refine event_pay (by rw [ha]; exact h) (by rw [ha]; decide) rfl (by simp) ?_ hrun
  rw [takePay, paySubOf_code]
  exact htake

theorem takeUploadAck_unmatched (h : ∀ e rest, s.payment.store = e :: rest → e.hubRef ≠ num [hi, lo]) : takeUploadAck [hi, lo] s = countUnmatched s := by
  unfold takeUploadAck
  split
  · rfl
  · rename_i e rest hstore
    exact if_neg (h e rest hstore)

/-- The head entry removed, and the STORE notice of a fall to 27 (R79, R81). -/
def acknowledged (rest : List StoreEntry) (s : State) : State :=
  let t := s.setPayment { s.payment with store := rest, upload := .idle, uploadTimer := none }
  if rest.length = 27 then notifyStore t else t

theorem takeUploadAck_matched (hstore : s.payment.store = e :: rest) (href : e.hubRef = num [hi, lo]) :
    takeUploadAck [hi, lo] s = sendUpload (acknowledged rest s) := by
  simp only [takeUploadAck, hstore, href, if_true, acknowledged, Config.offlineLimit, Nat.reduceEqDiff]

variable (rest s)

theorem acknowledged_payment : (acknowledged rest s).payment = { s.payment with store := rest, upload := .idle, uploadTimer := none } := by
  unfold acknowledged
  dsimp only
  split <;> rfl

theorem acknowledged_power : (acknowledged rest s).power = s.power := by
  unfold acknowledged
  dsimp only
  split <;> rfl

theorem acknowledged_tariff : (acknowledged rest s).tariff = s.tariff := by
  unfold acknowledged
  dsimp only
  split <;> rfl

theorem acknowledged_request :
    (acknowledged rest s).request = if rest.length = 27 then { s.request with seqD := nextSeq s.request.seqD } else s.request := by
  unfold acknowledged
  dsimp only
  split <;> rfl

theorem acknowledged_port_d : (acknowledged rest s).port .d =
    if rest.length = 27 then (s.port .d).placed (noticeFrame s.request.seqD .store [27]) else s.port .d := by
  unfold acknowledged
  dsimp only
  split
  · rename_i h
    rw [notifyStore_port_d]
    simp only [State.setPayment, h]
    rfl
  · rfl

theorem acknowledged_face : (acknowledged rest s).link.face = s.link.face := by
  unfold acknowledged
  dsimp only
  split
  · rw [notifyStore_face]
    rfl
  · rfl

end upload

theorem uploadHead_of_store {s : State} {e : StoreEntry} {rest : List StoreEntry} (h : s.payment.store = e :: rest) :
    uploadHead s = emit .d (payFrame .upload (uploadFields s.tariff.cabNumber e))
      { s with payment := { s.payment with upload := .awaiting, uploadTimer := some 20000 } } := by
  unfold uploadHead
  split
  · simp_all
  · rename_i e' rest' h'
    obtain ⟨rfl, rfl⟩ : e' = e ∧ rest' = rest := by simpa using h'.symm.trans h
    rfl

/-- Settles O49. -/
theorem uploadsInOrder : Obligations.UploadsInOrder := by
  unfold Obligations.UploadsInOrder
  intro a s hi lo
  refine ⟨fun ha h => ⟨fun hno => ?_, fun e rest hstore href => ?_⟩, fun hrun htimer hawait e rest hstore => ?_⟩
  · exact exec_uploadAck ha h (takeUploadAck_unmatched (s := s.heard a) hno) h.1
  · intro d told
    have htake := takeUploadAck_matched (s := s.heard a) hstore href
    have hpower : (acknowledged rest (s.heard a)).power.state = .run := (congrArg PowerUnit.state (acknowledged_power ..)).trans h.1
    have hup : (acknowledged rest (s.heard a)).isUp .d = true :=
      (isUp_of_face (s.heard a) _ (acknowledged_face ..) .d).trans ((port_restartSilence_up ..).trans h.2.1)
    refine ⟨_, exec_uploadAck ha h htake (by rw [sendUpload_power]; exact hpower), ?_, ?_, ?_, ?_⟩
    · rw [sendUpload_payment, State.uploads_of_run hpower, hup, acknowledged_payment]
      cases rest <;> rfl
    · have htold : (acknowledged rest (s.heard a)).port .d = told := acknowledged_port_d ..
      have htoldUp : told.up = true := by rw [← htold]; exact hup
      rw [sendUpload_port_d _ hpower, acknowledged_payment, htold, acknowledged_tariff]
      cases rest with
      | nil => rfl
      | cons e' rest => simp [PortState.uploaded, htoldUp]
    · rw [sendUpload_request, acknowledged_request]
      rfl
    · unfold acknowledged
      dsimp only
      split <;> simp [State.changesOnly]
  · have hexpiry : uploadExpiry s = emit .d (payFrame .upload (uploadFields s.tariff.cabNumber e)) { s with payment := { s.payment with uploadTimer := some 20000 } } := by
      obtain ⟨n, hn⟩ := Option.isSome_iff_exists.mp htimer
      have hstill : ({ s.payment with upload := .awaiting, uploadTimer := some 20000 } : PaymentUnit) = { s.payment with uploadTimer := some 20000 } := by
        rw [← hawait]
      simp only [uploadExpiry, hn, hawait]
      rw [uploadHead_of_store hstore, hstill]
    exact (event_of_run _ _ hrun (by rw [hexpiry]; exact hrun)).trans (by rw [hexpiry])

/-! ### Policy, refusal list and status (R84 to R86, R90) -/

theorem flagOf_flag (b : Bool) : flagOf (flag b) = some b := by cases b <;> rfl

theorem readPolicySet_eq (f3 f2 f1 f0 c3 c2 c1 c0 timeout tip : Byte) (force listen : Bool) :
    readPolicySet [f3, f2, f1, f0, c3, c2, c1, c0, timeout, tip, flag force, flag listen]
      = some (actPolicySet ⟨num [f3, f2, f1, f0], num [c3, c2, c1, c0], timeout.toNat, tip.toNat, force, listen⟩) := by
  simp only [readPolicySet, flagOf_flag]

theorem actPolicySet_closed {p : Policy} {s : State} (h : s.shift.state = .closed) :
    (∀ n, p.fault = some n → actPolicySet p s = (s, .refused .range (0, byte n)))
      ∧ (p.fault = none → actPolicySet p s =
        ({ s with payment := { s.payment with policy := p }, intercom := { s.intercom with listen := p.listen } }, .ok [])) := by
  refine ⟨fun n hn => ?_, fun hn => ?_⟩ <;> simp only [actPolicySet, h, ne_eq, not_true_eq_false, if_false, hn]
  rfl

theorem Policy.fault_cases (p : Policy) :
    (999999 < p.floorLimit → p.fault = some 0)
    ∧ (p.floorLimit ≤ 999999 → 9999999 < p.shiftCap → p.fault = some 1)
    ∧ (p.floorLimit ≤ 999999 → p.shiftCap ≤ 9999999 → p.answerTimeout < 10 ∨ 90 < p.answerTimeout → p.fault = some 2)
    ∧ (p.floorLimit ≤ 999999 → p.shiftCap ≤ 9999999 → 10 ≤ p.answerTimeout → p.answerTimeout ≤ 90 → 100 < p.tipPercent → p.fault = some 3)
    ∧ (p.floorLimit ≤ 999999 → p.shiftCap ≤ 9999999 → 10 ≤ p.answerTimeout → p.answerTimeout ≤ 90 → p.tipPercent ≤ 100 → p.fault = none) := by
  refine ⟨fun h => if_pos h, fun h1 h => ?_, fun h1 h2 h => ?_, fun h1 h2 h3 h4 h => ?_, fun h1 h2 h3 h4 h => ?_⟩ <;>
    rw [fault, if_neg (Nat.not_lt.mpr h1)]
  · exact if_pos h
  all_goals rw [if_neg (Nat.not_lt.mpr h2)]
  · exact if_pos h
  all_goals rw [if_neg (by omega)]
  · exact if_pos h
  · exact if_neg (Nat.not_lt.mpr h)

/-- Settles O50. -/
theorem paymentSettings : Obligations.PaymentSettings := by
  unfold Obligations.PaymentSettings
  intro a s
  refine ⟨fun h f3 f2 f1 f0 c3 c2 c1 c0 timeout tip force listen => ?_, ?_, ?_⟩
  · intro p args named
    have hread : RequestName.policySet.read a.port args = some (actPolicySet p) := readPolicySet_eq ..
    refine ⟨fun hopen => ?_, fun hclosed => ?_⟩
    · refine exec_refused (r := .policySet) (args := args) h (by simp [args]) hread ?_
      exact if_pos hopen
    · obtain ⟨hfault, hnone⟩ := actPolicySet_closed (p := p) (s := s.heard a) hclosed
      have hnamed : ∀ n, p.fault = some n → named (byte n) := fun n hn =>
        exec_answered (r := .policySet) (args := args) h (by simp [args]) hread (hfault n hn)
      obtain ⟨h0, h1, h2, h3, h4⟩ := p.fault_cases
      exact ⟨fun k0 => hnamed 0 (h0 k0), fun k0 k1 => hnamed 1 (h1 k0 k1), fun k0 k1 k2 => hnamed 2 (h2 k0 k1 k2),
        fun k0 k1 k2 k3 k4 => hnamed 3 (h3 k0 k1 k2 k3 k4), fun k0 k1 k2 k3 k4 =>
        exec_done (r := .policySet) (args := args) h (by simp [args]) hread (hnone (h4 k0 k1 k2 k3 k4))⟩
  · intro list holding
    refine ⟨fun bytes hl => ?_, fun h => ?_⟩
    · intro v
      have hlen : bytes.length < 200 := by omega
      have hread : ∀ act : BitVec 64 → Action, readPrefix act bytes = some (act v) := fun act => if_pos hl
      refine ⟨fun h => ⟨fun hin => ?_, fun hout hroom => ?_, fun hout hfull => ?_⟩, fun h => ⟨fun hin => ?_, fun hout => ?_⟩⟩
      · exact exec_done (r := .refusalListAdd) h hlen (hread _) (if_pos hin)
      · exact exec_done (r := .refusalListAdd) h hlen (hread _) ((if_neg hout).trans (if_neg (Nat.not_le.mpr hroom)))
      · exact exec_refused (r := .refusalListAdd) h hlen (hread _) ((if_neg hout).trans (if_pos hfull))
      · exact exec_done (r := .refusalListRemove) h hlen (hread _) (if_pos hin)
      · exact exec_refused (r := .refusalListRemove) h hlen (hread _) (if_neg hout)
    · exact exec_done (r := .refusalListClear) (args := []) h (by simp) rfl rfl
  · intro h x p fields
    exact ⟨exec_answered (r := .payStatus) (args := [0]) h (by simp) rfl rfl, exec_done (r := .payStatus) (args := [1]) h (by simp) rfl rfl⟩

end Sys2Proof.Machine
end

