-- ==== Sys2Proof/Proofs/ShiftRequests.lean ====
section
/-! PROOFS. The shift's requests (R92 to R97), the totals and the reports (R105 to R110), and the statements `ShiftRequests` and `TotalsAndReports`. -/
set_option Elab.async false
namespace Sys2Proof.Machine

/-! ### The sign under a new shift state (R112) -/

theorem deliverShift_sign_shift (s : State) : (deliverShift s).sign.shift = s.shift.state :=
  congrArg SignInputs.shift (deriveSign_inputs (s := { s with sign := { s.sign with shift := s.shift.state } }))

theorem deliverShift_port_other (s : State) (r : Port) (h : r ≠ .s) : (deliverShift s).port r = s.port r := deriveSign_port_other _ r h

theorem bothTold_notifyBoth {b v : State} (n : Notice) (fields : List Byte) (hrequest : v.request = b.request) (hc : v.port .c = b.port .c)
    (hd : v.port .d = b.port .d) : b.bothTold (notifyBoth n fields v) n fields := by
  refine ⟨?_, ?_, ?_⟩
  · rw [notifyBoth_request, hrequest]
  · rw [notifyBoth_port_c, hrequest, hc]
  · rw [notifyBoth_port_d, hrequest, hd]

/-- The shift's state moved, and the sign told (R95, R112). -/
def shiftMoved (x : ShiftUnit) (s : State) : State := deliverShift (s.setShift x)

/-- The shift closed: the share flag and the override cleared with it in one derivation (R96, R97). -/
def shiftClosed (s : State) : State :=
  let x := { s.shift with state := .closed, snapshot := none, reports := s.shift.reports ++ [{ s.livePages with state := .closed }] }
  let t : State := { s with shift := x, fare := { s.fare with share := false } }
  deriveSign
    { t with sign := { t.sign with offDuty := false, riding := t.ridingCount, share := false, seatLimit := t.seatLimit, shift := .closed } }

/-- The shift unit that an accepted SHIFT_OPEN leaves (R93, R94). -/
def State.openedShift (s : State) (driver : Nat) : ShiftUnit :=
  { s.shift with
    state := .opened, number := nextShiftNumber s.shift.number, driverId := driver, openTime := s.tariff.clock,
    setId := s.tariff.setId, changes := s.tariff.changes, totals := .zero }

section shift
variable (s : State)

theorem shiftMoved_told (x : ShiftUnit) :
    (shiftMoved x s).shift = x ∧ (shiftMoved x s).sign.shift = x.state ∧ (∀ r, r ≠ .s → (shiftMoved x s).port r = s.port r)
      ∧ (shiftMoved x s).request = s.request :=
  ⟨deriveSign_shift _, deliverShift_sign_shift _, deliverShift_port_other (s.setShift x), deriveSign_request _⟩

theorem actShiftOpen_done {s : State} {driver : Nat} (hclosed : s.shift.state = .closed) (hset : s.setInForce = true) (hdriver : driver ≤ 999999)
    (hroom : s.shift.reports.length < 8) :
    actShiftOpen driver s = (notifyShift false (shiftMoved (s.openedShift driver) s), .ok (be 2 (nextShiftNumber s.shift.number))) := by
  have hd : ¬ 999999 < driver := Nat.not_lt.mpr hdriver
  have hr : ¬ Config.reportCapacity ≤ s.shift.reports.length := Nat.not_le.mpr hroom
  simp only [actShiftOpen, hclosed, ne_eq, not_true_eq_false, if_false, hset, Bool.not_true, Bool.false_eq_true, hd, hr]
  rfl

theorem actShiftClose_done {s : State} (hopen : s.shift.state ≠ .closed) (hidle : s.everyIdle = true) :
    actShiftClose s = (notifyShift true (shiftClosed s), .ok (be 2 s.shift.number ++ [byte (s.shift.reports.length + 1)])) := by
  simp only [actShiftClose, hopen, if_false, hidle, Bool.not_true, Bool.false_eq_true, List.length_append, List.length_singleton]
  rfl

theorem shiftClosed_inputs : (shiftClosed s).sign.offDuty = false ∧ (shiftClosed s).sign.shift = .closed := by
  have hinputs := fun t => deriveSign_inputs (s := t)
  exact ⟨congrArg SignInputs.offDuty (hinputs _), congrArg SignInputs.shift (hinputs _)⟩

end shift

/-- Settles O51. -/
theorem shiftRequests : Obligations.ShiftRequests := by
  unfold Obligations.ShiftRequests
  intro a s
  have hheardC : (s.heard a).shift = s.shift := rfl
  refine ⟨fun h d2 d1 d0 => ?_, fun h => ⟨fun hno => ?_, fun hopen hidle => ?_, fun hopen hidle => ?_⟩, fun h => ⟨fun hno => ?_, fun hbreak => ?_⟩,
    fun h => ⟨fun hclosed => ?_, fun hopen hidle => ?_, fun hopen hidle => ?_⟩⟩
  · intro refused
    have hread : RequestName.shiftOpen.read a.port [d2, d1, d0] = some (actShiftOpen (num [d2, d1, d0])) := rfl
    have hrefused : ∀ {reason : Reason}, actShiftOpen (num [d2, d1, d0]) (s.heard a) = (s.heard a, .refuse reason) → refused reason := fun hact =>
      exec_refused (r := .shiftOpen) (args := [d2, d1, d0]) h (by simp) hread hact
    refine ⟨fun hno => hrefused (if_pos hno), fun hclosed => ?_⟩
    have hstate : ¬ (s.heard a).shift.state ≠ .closed := not_not.mpr hclosed
    refine ⟨fun hset => hrefused ?_, fun hset hdriver => hrefused ?_, fun hset hdriver hfull => hrefused ?_, fun hset hdriver hroom => ?_⟩
    · exact (if_neg hstate).trans (if_pos (by rw [Bool.not_eq_true']; exact hset))
    · exact (if_neg hstate).trans ((if_neg (by rw [Bool.not_eq_true', Bool.not_eq_false]; exact hset)).trans (if_pos hdriver))
    · exact (if_neg hstate).trans ((if_neg (by rw [Bool.not_eq_true', Bool.not_eq_false]; exact hset)).trans
        ((if_neg (Nat.not_lt.mpr hdriver)).trans (if_pos hfull)))
    · intro number
      have hdone := actShiftOpen_done (s := s.heard a) hclosed hset hdriver hroom
      obtain ⟨hexec, hreach⟩ := exec_reaches (r := .shiftOpen) (args := [d2, d1, d0]) h (by simp) hread hdone
      obtain ⟨hshift, hsign, hport, hrequest⟩ := shiftMoved_told (s.heard a) ((s.heard a).openedShift (num [d2, d1, d0]))
      refine ⟨_, hexec, ?_, ?_, ?_, hreach⟩
      · exact (notifyBoth_shift ..).trans hshift
      · exact (congrArg SignUnit.shift (notifyBoth_sign ..)).trans hsign
      · have htold := bothTold_notifyBoth (b := s.heard a) .shift (0 :: be 2 number) hrequest (hport .c (by decide)) (hport .d (by decide))
        rw [notifyShift, hshift]
        exact htold
  · exact exec_refused (r := .shiftBreak) (args := []) h (by simp) rfl (if_pos hno)
  · exact exec_refused (r := .shiftBreak) (args := []) h (by simp) rfl
      ((if_neg (not_not.mpr hopen)).trans (if_pos (by rw [Bool.not_eq_true']; exact hidle)))
  · have hdone : actShiftBreak (s.heard a) = (shiftMoved { s.shift with state := .onBreak } (s.heard a), .ok [2]) :=
      (if_neg (not_not.mpr hopen)).trans (if_neg (by rw [Bool.not_eq_true', Bool.not_eq_false]; exact hidle))
    obtain ⟨hexec, hreach⟩ := exec_reaches (r := .shiftBreak) (args := []) h (by simp) rfl hdone
    obtain ⟨hshift, hsign, hport, -⟩ := shiftMoved_told (s.heard a) { s.shift with state := .onBreak }
    exact ⟨_, hexec, hshift, hsign, hport .c (by decide), hport .d (by decide), hreach⟩
  · exact exec_refused (r := .shiftResume) (args := []) h (by simp) rfl (if_pos hno)
  · have hdone : actShiftResume (s.heard a) = (shiftMoved { s.shift with state := .opened } (s.heard a), .ok [1]) := if_neg (not_not.mpr hbreak)
    obtain ⟨hexec, hreach⟩ := exec_reaches (r := .shiftResume) (args := []) h (by simp) rfl hdone
    obtain ⟨hshift, hsign, hport, -⟩ := shiftMoved_told (s.heard a) { s.shift with state := .opened }
    exact ⟨_, hexec, hshift, hsign, hport .c (by decide), hport .d (by decide), hreach⟩
  · exact exec_refused (r := .shiftClose) (args := []) h (by simp) rfl (if_pos hclosed)
  · exact exec_refused (r := .shiftClose) (args := []) h (by simp) rfl
      ((if_neg hopen).trans (if_pos (by rw [Bool.not_eq_true']; exact hidle)))
  · obtain ⟨hexec, hreach⟩ := exec_reaches (r := .shiftClose) (args := []) h (by simp) rfl (actShiftClose_done (s := s.heard a) hopen hidle)
    obtain ⟨hduty, hstate⟩ := shiftClosed_inputs (s.heard a)
    have hport : ∀ r, r ≠ .s → (shiftClosed (s.heard a)).port r = (s.heard a).port r := fun r hr => deriveSign_port_other _ r hr
    have hnumber : (shiftClosed (s.heard a)).shift.number = s.shift.number := by
      rw [shiftClosed, deriveSign_shift]
      rfl
    have hrequest : (shiftClosed (s.heard a)).request = (s.heard a).request := by
      rw [shiftClosed, deriveSign_request]
    refine ⟨_, hexec, (notifyBoth_shift ..).trans (deriveSign_shift _), (notifyBoth_fare ..).trans (deriveSign_fare _),
      (congrArg SignUnit.offDuty (notifyBoth_sign ..)).trans hduty, (congrArg SignUnit.shift (notifyBoth_sign ..)).trans hstate, ?_, hreach⟩
    have htold := bothTold_notifyBoth (b := s.heard a) .shift (1 :: be 2 s.shift.number) hrequest (hport .c (by decide)) (hport .d (by decide))
    rw [notifyShift, hnumber]
    exact htold

/-! ### Totals and reports (R105 to R110) -/

theorem Snapshot.mark_eq (x : Snapshot) (page : Fin 3) : x.mark page =
    if (x.read0 || page == 0) && (x.read1 || page == 1) && (x.read2 || page == 2) then none
    else some ⟨x.pages, x.read0 || page == 0, x.read1 || page == 1, x.read2 || page == 2⟩ := by
  fin_cases page <;> simp [mark]

theorem Snapshot.mark_fresh (p : Pages) (page : Fin 3) : mark ⟨p, false, false, false⟩ page = some ⟨p, page == 0, page == 1, page == 2⟩ := by
  fin_cases page <;> rfl

section totals
variable {n : Byte} {page : Fin 3} {s : State}

theorem actTotalsRead_held {x : Snapshot} (hn : n.toNat = page.val) (hx : s.shift.snapshot = some x) (freeze : Bool) :
    actTotalsRead n freeze s = ({ s with shift := { s.shift with snapshot := x.mark page } }, .ok (pageBytes .snapshot 0 x.pages page)) := by
  simp only [actTotalsRead, index_of_toNat hn, hx]
  rfl

theorem actTotalsRead_free (hn : n.toNat = page.val) (hx : s.shift.snapshot = none) (freeze : Bool) :
    actTotalsRead n freeze s = if freeze ∧ s.shift.live then
        ({ s with shift := { s.shift with snapshot := some ⟨s.livePages, page == 0, page == 1, page == 2⟩ } },
          .ok (pageBytes .snapshot 0 s.livePages page))
      else (s, .ok (pageBytes .live 0 s.livePages page)) := by
  simp only [actTotalsRead, index_of_toNat hn, hx, Snapshot.mark_fresh]
  rfl

theorem ShiftUnit.live_iff (x : ShiftUnit) : x.live = true ↔ x.state ≠ .closed := by
  simp [live]

end totals

/-- Settles O52. -/
theorem totalsAndReports : Obligations.TotalsAndReports := by
  unfold Obligations.TotalsAndReports
  have hread : ∀ (n : Byte) (freeze : Bool), readTotalsRead [n, flag freeze] = some (actTotalsRead n freeze) := fun n freeze => by
    simp only [readTotalsRead, flagOf_flag, Option.map_some]
  refine ⟨fun a s n hn => ⟨fun h freeze => ?_, fun h k => ?_⟩, fun a s n page hn => ⟨fun h => ⟨fun x freeze hx => ?_, fun hx hopen => ?_, fun freeze hx hlive => ?_⟩,
    fun h => ?_, fun h k => ⟨fun p hp hk => ?_, fun hk hle => ?_, fun hk => ?_⟩, fun h hi lo => ⟨fun hempty => ?_, fun p rest hreports => ⟨fun hne => ?_, fun heq => ?_⟩⟩⟩⟩
  · exact exec_refused (r := .totalsRead) (args := [n, flag freeze]) h (by simp) (hread n freeze) (by simp [actTotalsRead, index_of_ge hn])
  · exact exec_refused (r := .reportRead) (args := [k, n]) h (by simp) rfl (by simp [actReportRead, index_of_ge hn])
  · have hdone := actTotalsRead_held (s := s.heard a) hn hx freeze
    rw [Snapshot.mark_eq] at hdone
    exact exec_done (r := .totalsRead) (args := [n, flag freeze]) h (by simp) (hread n freeze) hdone
  · have hdone := (actTotalsRead_free (s := s.heard a) hn hx true).trans (if_pos ⟨rfl, (ShiftUnit.live_iff _).mpr hopen⟩)
    exact exec_done (r := .totalsRead) (args := [n, 1]) h (by simp) (hread n true) hdone
  · refine exec_answered (r := .totalsRead) (args := [n, flag freeze]) h (by simp) (hread n freeze) ((actTotalsRead_free (s := s.heard a) hn hx freeze).trans (if_neg ?_))
    rintro ⟨hfreeze, hopen⟩
    rcases hlive with hclosed | hno
    · exact (ShiftUnit.live_iff _).mp hopen hclosed
    · simp [hno] at hfreeze
  · exact exec_done (r := .totalsThaw) (args := []) h (by simp) rfl rfl
  · refine exec_answered (r := .reportRead) (args := [k, n]) h (by simp) rfl ?_
    have hp' : (s.heard a).shift.reports[k.toNat]? = some p := hp
    simp only [actReportRead, index_of_toNat hn, if_neg (Nat.not_lt.mpr hk), hp']
    rfl
  · refine exec_refused (r := .reportRead) (args := [k, n]) h (by simp) rfl ?_
    have hp' : (s.heard a).shift.reports[k.toNat]? = none := List.getElem?_eq_none hk
    simp only [actReportRead, index_of_toNat hn, if_neg (Nat.not_lt.mpr hle), hp']
  · refine exec_refused (r := .reportRead) (args := [k, n]) h (by simp) rfl ?_
    simp only [actReportRead, index_of_toNat hn, if_pos hk]
  · refine exec_refused (r := .reportDrop) (args := [hi, lo]) h (by simp) rfl ?_
    have hreports : (s.heard a).shift.reports = [] := hempty
    simp only [actReportDrop, hreports]
  · refine exec_refused (r := .reportDrop) (args := [hi, lo]) h (by simp) rfl ?_
    have hreports' : (s.heard a).shift.reports = p :: rest := hreports
    simp only [actReportDrop, hreports', if_pos hne]
  · have hdone : actReportDrop (num [hi, lo]) (s.heard a) = ((s.heard a).setShift { s.shift with reports := rest }, .ok [byte rest.length]) := by
      have hreports' : (s.heard a).shift.reports = p :: rest := hreports
      simp only [actReportDrop, hreports', if_neg (not_not.mpr heq)]
      rfl
    exact exec_done (r := .reportDrop) (args := [hi, lo]) h (by simp) rfl hdone

end Sys2Proof.Machine
end

