-- ==== Sys2Proof/Proofs/SignTables.lean ====
section
/-! PROOFS. The tables of the sign (R117, R119 to R121, R126), and the statement `SignTables`. -/
set_option Elab.async false
namespace Sys2Proof.Machine

/-! ### Codes read back -/

theorem dec_enc {α : Type} [DecidableEq α] {all : List α} {x : α} (hx : x ∈ all) (hl : all.length ≤ 256) : dec all (enc all x) = some x := by
  have hlt := List.idxOf_lt_length_iff.mpr hx
  have hbyte : (byte (all.idxOf x)).toNat = all.idxOf x := by
    simp only [byte, BitVec.toNat_ofNat]
    omega
  rw [dec, enc, hbyte, List.getElem?_eq_getElem hlt, List.getElem_idxOf]

theorem dec_enc_signMode (x : SignMode) : dec SignMode.all (enc SignMode.all x) = some x := dec_enc (by cases x <;> decide) (by decide)
theorem dec_enc_panelSource (x : PanelSource) : dec PanelSource.all (enc PanelSource.all x) = some x := dec_enc (by cases x <;> decide) (by decide)
theorem dec_enc_animation (x : Animation) : dec Animation.all (enc Animation.all x) = some x := dec_enc (by cases x <;> decide) (by decide)
theorem dec_enc_timerId (x : TimerId) : dec TimerId.all (enc TimerId.all x) = some x := dec_enc (by cases x <;> decide) (by decide)
theorem dec_enc_lampProgram (x : LampProgram) : dec LampProgram.all (enc LampProgram.all x) = some x := dec_enc (by cases x <;> decide) (by decide)

/-! ### Layouts of the sign's requests -/

theorem readViewSet_enc (mode : SignMode) (source : PanelSource) (base : Byte) (an : Animation) (t : TimerId) (ti : Bool) (l0 l1 l2 l3 : LampProgram) :
    readViewSet [enc SignMode.all mode, enc PanelSource.all source, base, enc Animation.all an, enc TimerId.all t, flag ti,
        enc LampProgram.all l0, enc LampProgram.all l1, enc LampProgram.all l2, enc LampProgram.all l3]
      = some (actViewSet mode source base.toNat an t ti #v[l0, l1, l2, l3]) := by
  simp only [readViewSet, dec_enc_signMode, dec_enc_panelSource, dec_enc_animation, dec_enc_timerId, dec_enc_lampProgram, flagOf_flag]

theorem toNat_byte_of_lt {n : Nat} (h : n < 256) : (byte n).toNat = n := by
  simp only [byte, BitVec.toNat_ofNat]
  omega

theorem readStripes_flatMap {pairs : List Stripe} (h : ∀ x ∈ pairs, x.width ≤ 255) :
    readStripes (pairs.flatMap fun x => [byte x.width, x.column]) = some pairs := by
  induction pairs with
  | nil => rfl
  | cons x pairs ih =>
    have hx : (byte x.width).toNat = x.width := toNat_byte_of_lt (by have := h x List.mem_cons_self; omega)
    simp [readStripes, ih fun y hy => h y (List.mem_cons_of_mem _ hy), hx]

theorem readStripesSet_flatMap {pairs : List Stripe} (h : ∀ x ∈ pairs, x.width ≤ 255) (hl : pairs.length ≤ 99) :
    readStripesSet (byte pairs.length :: pairs.flatMap fun x => [byte x.width, x.column]) = some (actStripesSet pairs) := by
  have hlen : pairs.length = (byte pairs.length).toNat := (toNat_byte_of_lt (by omega)).symm
  simp only [readStripesSet, readStripes_flatMap h]
  exact if_pos hlen

/-- The first stripe wider than the panel is the one named (R120). -/
theorem findIdx?_wide {before after : List Stripe} {x : Stripe} (hbefore : ∀ y ∈ before, y.width ≤ 80) (hx : 80 < x.width) :
    ((before ++ x :: after).findIdx? fun x => decide (Config.panelColumns < x.width)) = some before.length := by
  have hp : decide (Config.panelColumns < x.width) = true := decide_eq_true hx
  have hnone : (before.findIdx? fun x => decide (Config.panelColumns < x.width)) = none :=
    List.findIdx?_eq_none_iff.mpr fun y hy => decide_eq_false (Nat.not_lt.mpr (hbefore y hy))
  rw [List.findIdx?_append, hnone, List.findIdx?_cons, hp]
  simp

section stripes
variable {pairs : List Stripe} {s : State}

theorem actStripesSet_done (hl : pairs.length ≤ 8) (h : ∀ x ∈ pairs, x.width ≤ 80) : actStripesSet pairs s =
    ({ s with sign := { s.sign with stripes := Vector.ofFn fun i : Fin 8 => pairs.getD i.val ⟨0, 0⟩ } }, .ok []) := by
  have hnone : (pairs.findIdx? fun x => decide (Config.panelColumns < x.width)) = none :=
    List.findIdx?_eq_none_iff.mpr fun y hy => decide_eq_false (Nat.not_lt.mpr (h y hy))
  simp only [actStripesSet, if_neg (Nat.not_lt.mpr hl), hnone]
  rfl

theorem actStripesSet_wide {before after : List Stripe} {x : Stripe} (hpairs : pairs = before ++ x :: after) (hl : pairs.length ≤ 8)
    (hbefore : ∀ y ∈ before, y.width ≤ 80) (hx : 80 < x.width) : actStripesSet pairs s = (s, .refused .range (0, byte before.length)) := by
  have hsome : (pairs.findIdx? fun x => decide (Config.panelColumns < x.width)) = some before.length := by
    rw [hpairs]
    exact findIdx?_wide hbefore hx
  simp only [actStripesSet, if_neg (Nat.not_lt.mpr hl), hsome]

end stripes

theorem stripeFlat_length (pairs : List Stripe) : (pairs.flatMap fun x => [byte x.width, x.column]).length = 2 * pairs.length := by
  induction pairs with
  | nil => rfl
  | cons x pairs ih =>
    rw [List.flatMap_cons, List.length_append, ih, List.length_cons]
    simp
    omega

/-- Settles O53. -/
theorem signTables : Obligations.SignTables := by
  unfold Obligations.SignTables
  intro a s wrote range
  refine ⟨fun h mode source base an t ti l0 l1 l2 l3 => ?_, fun h columns hl => ⟨fun i => ?_, fun n hn => ?_⟩, fun h pairs hwidth hl => ?_,
    fun h bytes hl => ⟨fun h1 h16 => ?_, fun hbad => ?_⟩, fun h => ?_⟩
  · intro args
    have hread : RequestName.viewSet.read a.port args = some (actViewSet mode source base.toNat an t ti #v[l0, l1, l2, l3]) := readViewSet_enc ..
    exact ⟨fun hbase => exec_done (r := .viewSet) (args := args) h (by simp [args]) hread (if_neg (Nat.not_lt.mpr hbase)),
      fun hbase => exec_refused (r := .viewSet) (args := args) h (by simp [args]) hread (if_pos hbase)⟩
  · refine exec_done (r := .imageSet) h (by simp [hl]) (if_pos hl) ?_
    simp only [actImageSet, index_of_toNat (toNat_byte_of_lt (n := i.val) (by omega))]
    rfl
  · refine exec_refused (r := .imageSet) h (by simp [hl]) (if_pos hl) ?_
    simp only [actImageSet, index_of_ge hn]
  · intro args
    have hread : RequestName.stripesSet.read a.port args = some (actStripesSet pairs) := readStripesSet_flatMap hwidth hl
    have hlen : args.length < 200 := by
      rw [show args = byte pairs.length :: pairs.flatMap _ from rfl, List.length_cons, stripeFlat_length]
      omega
    exact ⟨fun h8 hall => exec_done (r := .stripesSet) h hlen hread (actStripesSet_done h8 hall),
      fun h8 => exec_refused (r := .stripesSet) h hlen hread (if_pos h8),
      fun before x after hpairs h8 hbefore hx => exec_answered (r := .stripesSet) h hlen hread (actStripesSet_wide hpairs h8 hbefore hx)⟩
  · have hread : RequestName.blockSet.read a.port (byte bytes.length :: bytes) = some (actBlockSet bytes) :=
      if_pos (toNat_byte_of_lt (by omega)).symm
    exact exec_done (r := .blockSet) h (by simp; omega) hread (if_neg (by omega))
  · have hread : RequestName.blockSet.read a.port (byte bytes.length :: bytes) = some (actBlockSet bytes) :=
      if_pos (toNat_byte_of_lt (by omega)).symm
    exact exec_refused (r := .blockSet) h (by simp; omega) hread (if_pos hbad)
  · intro reads
    refine ⟨fun i => ?_, fun i => ?_, ?_, ?_, fun table n hbad => ?_⟩
    · refine exec_answered (r := .signRead) (args := [0, byte i.val]) h (by simp) (act := actSignRead .view (byte i.val)) rfl ?_
      simp only [actSignRead, index_of_toNat (toNat_byte_of_lt (n := i.val) (by omega))]
      rfl
    · refine exec_answered (r := .signRead) (args := [1, byte i.val]) h (by simp) (act := actSignRead .image (byte i.val)) rfl ?_
      simp only [actSignRead, index_of_toNat (toNat_byte_of_lt (n := i.val) (by omega))]
      rfl
    · exact exec_answered (r := .signRead) (args := [2, 0]) h (by simp) (act := actSignRead .stripes 0) rfl rfl
    · exact exec_answered (r := .signRead) (args := [3, 0]) h (by simp) (act := actSignRead .block 0) rfl rfl
    · rcases hbad with ⟨rfl, hn⟩ | ⟨rfl, hn⟩ | ⟨rfl | rfl, hn⟩
      · exact exec_refused (r := .signRead) (args := [0, n]) h (by simp) (act := actSignRead .view n) rfl (by simp only [actSignRead, index_of_ge hn])
      · exact exec_refused (r := .signRead) (args := [1, n]) h (by simp) (act := actSignRead .image n) rfl (by simp only [actSignRead, index_of_ge hn])
      · exact exec_refused (r := .signRead) (args := [2, n]) h (by simp) (act := actSignRead .stripes n) rfl (if_neg hn)
      · exact exec_refused (r := .signRead) (args := [3, n]) h (by simp) (act := actSignRead .block n) rfl (if_neg hn)

end Sys2Proof.Machine
end

