-- ==== Sys2Proof/Proofs/SignMode.lean ====
section
/-! PROOFS. The override, the emergency latch, the sign's status and its health (R111 to R116, R122, R124, R125), and the statement `SignModeRequests`. -/
set_option Elab.async false
namespace Sys2Proof.Machine

/-! ### What a composition shows (R118, R122) -/

/-- The part of the sign unit a composition is made from. -/
def SignUnit.scene (x : SignUnit) : SignMode × Vector View 5 × Vector (List Byte) 8 × Vector Stripe 8 × List Byte :=
  (x.mode, x.views, x.images, x.stripes, x.block)

/-- From `s` to `t` nothing has changed that a composition is made from. -/
structure State.SameScene (s t : State) : Prop where
  scene : t.sign.scene = s.sign.scene
  cadence : t.cadence = s.cadence
  fare : t.fare = s.fare

theorem State.SameScene.composed {s t : State} (h : s.SameScene t) : t.composed = s.composed ∧ t.imageChosen = s.imageChosen := by
  obtain ⟨hscene, hcadence, hfare⟩ := h
  simp only [SignUnit.scene, Prod.mk.injEq] at hscene
  obtain ⟨hmode, hviews, himages, hstripes, hblock⟩ := hscene
  have hview : t.sign.view = s.sign.view := by simp only [SignUnit.view, hmode, hviews]
  have himage : ∀ i, t.sign.image i = s.sign.image i := fun i => by rw [SignUnit.image, himages]; rfl
  have heffective : t.effectiveImage = s.effectiveImage := by
    simp only [effectiveImage, hview, hmode, lowestRiding, party, hfare]
    rfl
  have hcontent : t.panelContent = s.panelContent := by simp only [panelContent, hview, himage, heffective, hstripes, hblock]
  have halternate : t.alternatePanel = s.alternatePanel := by simp only [alternatePanel, hview, himage, heffective]
  refine ⟨?_, by simp only [imageChosen, hview, heffective]⟩
  simp only [State.composed, panelShown, hview, hcontent, halternate, hcadence]

/-- A composition outside PARKED writes the output, the image in use and perhaps the refresh count. -/
theorem compose_sign {s : State} (h : s.parked = false) :
    ∃ n, (compose s).sign = { s.sign with output := s.composed, imageInUse := s.imageChosen, refresh := n } := by
  unfold compose repaintSign
  simp only [h, Bool.false_eq_true, if_false]
  split
  · exact ⟨_, rfl⟩
  · exact ⟨_, rfl⟩

section derive
variable {s : State} (h : s.parked = false)
include h

/-- A derivation of the mode, and the composition of its event (R111, R122). -/
theorem deriveSign_composed : (deriveSign s).sign.output = (deriveSign s).composed ∧ (deriveSign s).sign.imageInUse = (deriveSign s).imageChosen := by
  obtain ⟨n, hsign⟩ := compose_sign (s := { s with sign := { s.sign with mode := s.sign.derived } }) h
  have hsame : State.SameScene { s with sign := { s.sign with mode := s.sign.derived } } (deriveSign s) :=
    ⟨by rw [deriveSign, hsign]; rfl, deriveSign_cadence _, deriveSign_fare _⟩
  obtain ⟨hcomposed, hchosen⟩ := hsame.composed
  rw [hcomposed, hchosen, deriveSign, hsign]
  exact ⟨rfl, rfl⟩

end derive

theorem parked_of_run {s : State} (h : s.power.state = .run) : s.parked = false := by simp [State.parked, h]

/-! ### The latch cleared (R114, R115) -/

section clear
variable {s : State}

/-- The hub at a clearing of the latch, up to the notice. -/
def latchCleared (s : State) : State :=
  let t := deliverEmergency false (deriveSign { s with sign := { s.sign with latch := false } })
  { t with power := t.power.takeLatch false }

theorem latchCleared_port_d : (latchCleared s).port .d = { s.port .d with voice := [] } := by
  have hderive : (deriveSign { s with sign := { s.sign with latch := false } }).port .d = s.port .d := deriveSign_port_other _ _ (by decide)
  rw [← hderive]
  exact State.port_setPort_same ..

theorem changeLatch_clear (hup : s.isUp .d = true) : changeLatch false s = notifyD .emergency [1] (latchCleared s) := by
  have hface : (latchCleared s).isUp .d = true := (congrArg PortState.up latchCleared_port_d).trans hup
  rw [show changeLatch false s = notifyEmergency false (latchCleared s) from rfl, notifyEmergency, hface]
  rfl

theorem latchCleared_port_c : (latchCleared s).port .c = s.port .c :=
  (State.port_setPort_other _ _ _ _ (by decide)).trans (deriveSign_port_other _ _ (by decide))

theorem changeLatch_sign_eq (on : Bool) : (changeLatch on s).sign = (deriveSign { s with sign := { s.sign with latch := on } }).sign := by
  simp only [changeLatch, notifyEmergency_sign, deliverEmergency_sign]

theorem changeLatch_composed (h : s.parked = false) (on : Bool) :
    (changeLatch on s).sign.output = (changeLatch on s).composed ∧ (changeLatch on s).sign.imageInUse = (changeLatch on s).imageChosen := by
  have hsame : State.SameScene (deriveSign { s with sign := { s.sign with latch := on } }) (changeLatch on s) :=
    ⟨by rw [changeLatch_sign_eq], by simp, by simp⟩
  obtain ⟨hcomposed, hchosen⟩ := hsame.composed
  rw [hcomposed, hchosen, changeLatch_sign_eq]
  exact deriveSign_composed h

end clear

/-! ### Health (R124) -/

theorem lampByte_lampsOf : ∀ b : Byte, lampByte (lampsOf b) = b &&& 0x0F := by decide +revert

theorem lampByte_eq_zero_iff (l : Lamps) : lampByte l = 0 ↔ l = #v[false, false, false, false] := by
  have hall : ∀ a b c d : Bool, lampByte #v[a, b, c, d] = 0 ↔ a = false ∧ b = false ∧ c = false ∧ d = false := by decide
  have hl : l = #v[l[0], l[1], l[2], l[3]] := by
    ext i hi
    interval_cases i <;> rfl
  rw [hl]
  exact (hall _ _ _ _).trans (by simp)

/-- The sign unit with a reported health (R124). -/
def SignUnit.reported (x : SignUnit) (lamps : Lamps) (panel : Bool) : SignUnit := { x with lampFaults := lamps, panelFault := panel }

section health
variable {s : State} {lamps : Lamps} {panel : Bool}

theorem takeHealth_same (h : ¬ (lamps ≠ s.sign.lampFaults ∨ panel ≠ s.sign.panelFault)) : takeHealth lamps panel s = s :=
  if_pos (by simpa [not_or] using h)

theorem takeHealth_changed (h : lamps ≠ s.sign.lampFaults ∨ panel ≠ s.sign.panelFault) : takeHealth lamps panel s =
    if !s.sign.faulty && (s.sign.reported lamps panel).faulty then
      whileLive Totals.countSignFault (notifyBoth .signHealth [lampByte lamps, flag panel] { s with sign := s.sign.reported lamps panel })
    else notifyBoth .signHealth [lampByte lamps, flag panel] { s with sign := s.sign.reported lamps panel } :=
  if_neg (by
    rintro ⟨h1, h2⟩
    exact h.elim (fun h => h h1) (fun h => h h2))

/-- A change of a healthy sign is a fall to faulty. -/
theorem SignUnit.faulty_of_changed {x : SignUnit} (hhealthy : lampByte x.lampFaults = 0 ∧ x.panelFault = false)
    (h : lamps ≠ x.lampFaults ∨ panel ≠ x.panelFault) : (x.reported lamps panel).faulty = true := by
  obtain ⟨hlamps, hpanel⟩ := hhealthy
  rw [lampByte_eq_zero_iff] at hlamps
  rw [hlamps, hpanel] at h
  simp only [faulty, reported, Bool.or_eq_true, bne_iff_ne]
  rcases h with h | h
  · exact .inl fun hz => h ((lampByte_eq_zero_iff _).mp hz)
  · exact .inr (by simpa using h)

theorem SignUnit.faulty_eq_false_iff (x : SignUnit) : x.faulty = false ↔ lampByte x.lampFaults = 0 ∧ x.panelFault = false := by
  simp [faulty]

theorem takeHealth_sign : (takeHealth lamps panel s).sign = s.sign.reported lamps panel := by
  by_cases h : lamps ≠ s.sign.lampFaults ∨ panel ≠ s.sign.panelFault
  · rw [takeHealth_changed h]
    split <;> simp
  · rw [takeHealth_same h]
    simp only [not_or, ne_eq, not_not] at h
    rw [SignUnit.reported, h.1, h.2]

theorem takeHealth_told : (takeHealth lamps panel s).request =
      (if lamps ≠ s.sign.lampFaults ∨ panel ≠ s.sign.panelFault then ⟨nextSeq s.request.seqC, nextSeq s.request.seqD⟩ else s.request)
    ∧ (takeHealth lamps panel s).port .c = (if lamps ≠ s.sign.lampFaults ∨ panel ≠ s.sign.panelFault then
        (s.port .c).placed (noticeFrame s.request.seqC .signHealth [lampByte lamps, flag panel]) else s.port .c)
    ∧ (takeHealth lamps panel s).port .d = (if lamps ≠ s.sign.lampFaults ∨ panel ≠ s.sign.panelFault then
        (s.port .d).placed (noticeFrame s.request.seqD .signHealth [lampByte lamps, flag panel]) else s.port .d) := by
  by_cases h : lamps ≠ s.sign.lampFaults ∨ panel ≠ s.sign.panelFault
  · simp only [if_pos h]
    have hlink : (takeHealth lamps panel s).link
        = (notifyBoth .signHealth [lampByte lamps, flag panel] { s with sign := s.sign.reported lamps panel }).link := by
      rw [takeHealth_changed h]
      split
      · exact (whileLive_told ..).1
      · rfl
    refine ⟨?_, (State.port_of_link hlink .c).trans (notifyBoth_port_c ..), (State.port_of_link hlink .d).trans (notifyBoth_port_d ..)⟩
    rw [takeHealth_changed h]
    split
    · exact (whileLive_told ..).2.1
    · rfl
  · simp only [if_neg h, takeHealth_same h, and_self]

theorem takeHealth_shift : (takeHealth lamps panel s).shift =
    if (lampByte s.sign.lampFaults = 0 ∧ s.sign.panelFault = false) ∧ (lamps ≠ s.sign.lampFaults ∨ panel ≠ s.sign.panelFault) ∧ s.shift.state ≠ .closed then
      { s.shift with totals := s.shift.totals.countSignFault } else s.shift := by
  by_cases h : lamps ≠ s.sign.lampFaults ∨ panel ≠ s.sign.panelFault
  · rw [takeHealth_changed h]
    by_cases hhealthy : lampByte s.sign.lampFaults = 0 ∧ s.sign.panelFault = false
    · rw [(SignUnit.faulty_eq_false_iff _).mpr hhealthy, SignUnit.faulty_of_changed hhealthy h]
      simp only [Bool.not_false, Bool.and_self, if_true, whileLive, notifyBoth_shift, ShiftUnit.live_iff]
      by_cases hopen : s.shift.state ≠ .closed
      · rw [if_pos hopen, if_pos ⟨hhealthy, h, hopen⟩]
        rfl
      · rw [if_neg hopen, if_neg fun hc => hopen hc.2.2]
        exact notifyBoth_shift ..
    · have hfaulty : ¬ (!s.sign.faulty && (s.sign.reported lamps panel).faulty) = true := by
        simp only [Bool.and_eq_true, Bool.not_eq_true', SignUnit.faulty_eq_false_iff]
        exact fun hc => hhealthy hc.1
      rw [if_neg hfaulty, if_neg fun hc => hhealthy hc.1]
      exact notifyBoth_shift ..
  · rw [takeHealth_same h, if_neg fun hc => h hc.2.1]

theorem takeHealth_changesOnly : s.changesOnly (takeHealth lamps panel s) [.request, .shift, .sign] := by
  by_cases h : lamps ≠ s.sign.lampFaults ∨ panel ≠ s.sign.panelFault
  · rw [takeHealth_changed h]
    split <;> simp [State.changesOnly]
  · rw [takeHealth_same h]
    exact State.changesOnly_refl _ _

end health

/-! ### The statement -/

theorem signStat_taken {a : Arrival} {s : State} {lamps : Byte} {panel : Bool} (ha : a.port = .s) (hup : s.isUp .s = true) (hshut : (s.port .s).shut = false) :
    arrive a .signStat [lamps, flag panel] s = handAndCopy .s (frameOf .signStat a.route a.tag [lamps, flag panel]) a.order s.parked
      (takeHealth (lampsOf lamps) panel) (s.heard a) := by
  rw [arrive_of_up a .signStat _ (by rw [ha]; exact hup) (by rw [ha]; exact hshut) (by rw [ha]; decide) (by rw [ha]; cases panel <;> rfl), ha]
  have htake : takeSignStat [lamps, flag panel] = takeHealth (lampsOf lamps) panel := by
    funext t
    simp only [takeSignStat, flagOf_flag]
  rw [← htake]
  rfl

theorem State.changesOnly.trans {s t u : State} {bs : List Block} (h : s.changesOnly t bs) (h' : t.changesOnly u bs) : s.changesOnly u bs := by
  have hor : ∀ {α : Type} {p : Prop} {x y z : α}, p ∨ y = x → p ∨ z = y → p ∨ z = x := fun h h' =>
    h.elim .inl fun hy => h'.imp_right fun hz => hz.trans hy
  obtain ⟨hpending, hlink, hrequest, htariff, hfare, hmilestone, hpayment, hshift, hsign, hcadence, hintercom, hpower⟩ := h
  obtain ⟨kpending, klink, krequest, ktariff, kfare, kmilestone, kpayment, kshift, ksign, kcadence, kintercom, kpower⟩ := h'
  exact ⟨kpending.trans hpending, hor hlink klink, hor hrequest krequest, hor htariff ktariff, hor hfare kfare, hor hmilestone kmilestone,
    hor hpayment kpayment, hor hshift kshift, hor hsign ksign, hor hcadence kcadence, hor hintercom kintercom, hor hpower kpower⟩

/-- A health report and its copies, in either order. -/
theorem copiedHealth_taken (f : Frame) (o : Order) (parked : Bool) (lamps : Lamps) (panel : Bool) (s : State) :
    let t := handAndCopy .s f o parked (takeHealth lamps panel) s
    t.sign = s.sign.reported lamps panel
      ∧ t.shift = (if (lampByte s.sign.lampFaults = 0 ∧ s.sign.panelFault = false) ∧ (lamps ≠ s.sign.lampFaults ∨ panel ≠ s.sign.panelFault)
          ∧ s.shift.state ≠ .closed then { s.shift with totals := s.shift.totals.countSignFault } else s.shift)
      ∧ t.power = s.power ∧ s.changesOnly t [.request, .shift, .sign] := by
  have hpower : ∀ u : State, (takeHealth lamps panel u).power = u.power := fun u => by
    obtain ⟨-, -, -, -, -, -, -, -, -, -, -, hpower⟩ := takeHealth_changesOnly (s := u) (lamps := lamps) (panel := panel)
    exact hpower.resolve_left (by decide)
  have hcopy : ∀ u : State, u.changesOnly (copyTelemetry .s f parked u) [.request, .shift, .sign] := fun u =>
    (copyTelemetry_changesOnly ..).mono (by simp)
  intro t
  by_cases ho : o.copyFirst = true
  · have ht : t = takeHealth lamps panel (copyTelemetry .s f parked s) := if_pos ho
    rw [ht, takeHealth_sign, takeHealth_shift, hpower, copyTelemetry_sign, copyTelemetry_shift, copyTelemetry_power]
    exact ⟨rfl, rfl, rfl, (hcopy s).trans takeHealth_changesOnly⟩
  · have ht : t = copyTelemetry .s f parked (takeHealth lamps panel s) := if_neg ho
    rw [ht, copyTelemetry_sign, copyTelemetry_shift, copyTelemetry_power, takeHealth_sign, takeHealth_shift, hpower]
    exact ⟨rfl, rfl, rfl, takeHealth_changesOnly.trans (hcopy _)⟩

theorem copied_nowhere {q : Port} {f : Frame} {o : Order} {parked : Bool} {block : State → State} {s : State}
    (h : (s.link.telemetryRoutes.get q).targets = 0) {bs : List Block} (hblock : s.changesOnly (block s) bs) (hlink : .link ∉ bs := by decide) :
    handAndCopy q f o parked block s = block s := by
  have hkeep : ((block s).link.telemetryRoutes.get q).targets = 0 := by
    have hface : (block s).link.face = s.link.face := hblock.2.1.resolve_left hlink
    have hroutes : (block s).link.telemetryRoutes = s.link.telemetryRoutes := congrArg LinkFace.telemetryRoutes hface
    rw [hroutes, h]
  rw [handAndCopy, copyTelemetry_nowhere f parked h, copyTelemetry_nowhere f parked hkeep, ite_self]

/-- Settles O54. -/
theorem signModeRequests : Obligations.SignModeRequests := by
  unfold Obligations.SignModeRequests
  intro a s x
  refine ⟨fun h on => ?_, fun h => ⟨fun hclear => ?_, fun hset => ?_⟩, fun h => ?_, fun ha hon hup hshut lamps panel => ?_⟩
  · intro told
    have hrun : (s.heard a).parked = false := parked_of_run (s := s.heard a) h.1.1
    obtain ⟨hexec, hreach⟩ := exec_reaches (r := .offDutyOverride) (args := [flag on]) (act := actOffDutyOverride on) h (by simp)
      (readFlag_flag ..) rfl
    have hinputs := deriveSign_inputs (s := { s.heard a with sign := { s.sign with offDuty := on } })
    obtain ⟨hcomposed, hchosen⟩ := deriveSign_composed (s := { s.heard a with sign := { s.sign with offDuty := on } }) hrun
    have hmode := congrArg SignInputs.mode hinputs
    refine ⟨_, ?_, congrArg SignInputs.offDuty hinputs, hmode, hcomposed, hchosen, hreach⟩
    have htold : (deriveSign { s.heard a with sign := { s.sign with offDuty := on } }).sign.publicMode = told :=
      congrArg (fun y : SignInputs => deriveMode false y.riding y.share y.seatLimit y.shift y.offDuty) hinputs
    rw [← htold]
    exact hexec
  · exact exec_answered (r := .emergencyClear) (args := []) h (by simp) rfl (if_neg (by rw [show (s.heard a).sign.latch = false from hclear]; decide))
  · have ha : a.port = .d := by
      have hperm : Authority.permits .fleet a.port = true := h.2
      cases hp : a.port <;> simp [hp, Authority.permits] at hperm ⊢
    have hrun : (s.heard a).parked = false := parked_of_run (s := s.heard a) h.1.1
    have hup : (s.heard a).isUp .d = true := (port_restartSilence_up ..).trans (by rw [← ha]; exact h.1.2.1)
    have hc : (s.heard a).port .c = s.port .c := State.port_setPort_other _ _ _ _ (by rw [ha]; decide)
    obtain ⟨hexec, hreach⟩ := exec_reaches (r := .emergencyClear) (args := []) h (by simp) rfl
      (if_pos (show (s.heard a).sign.latch = true from hset) : actEmergencyClear (s.heard a) = (changeLatch false (s.heard a), .ok [flag true]))
    obtain ⟨hlatch, hseen⟩ := changeLatch_sign false (s.heard a)
    obtain ⟨hcomposed, hchosen⟩ := changeLatch_composed hrun false
    have hrequest : (latchCleared (s.heard a)).request = s.request := by simp [latchCleared]
    refine ⟨_, hexec, hlatch, hseen, ?_, hcomposed, hchosen, changeLatch_intercom false (s.heard a), ?_, ?_, ?_, ?_,
      hreach.mono (by simp [RequestName.reach])⟩
    · rw [changeLatch_sign_eq]
      exact congrArg SignInputs.mode (deriveSign_inputs (s := { s.heard a with sign := { s.sign with latch := false } }))
    · rw [changeLatch_clear hup]
      simp [latchCleared, PowerUnit.takeLatch]
    · rw [changeLatch_clear hup, notifyD_port_d, latchCleared_port_d, hrequest]
    · rw [changeLatch_clear hup, notifyD_port_other _ _ _ _ (by decide), latchCleared_port_c, hc]
    · rw [changeLatch_clear hup]
      exact congrArg (fun r : RequestUnit => { r with seqD := nextSeq r.seqD }) hrequest
  · intro inputs health
    refine ⟨fun hd => ?_, fun hc => ?_⟩
    · refine exec_answered (r := .signStatus) (args := []) (act := actSignStatus a.port) h (by simp) rfl ?_
      have himage : byte x.imageReported = if x.view.source = .image then byte (x.imageInUse.getD 0) else 0 := by
        rw [SignUnit.imageReported]
        split <;> rfl
      rw [actSignStatus, hd, ← himage]
      rfl
    · refine exec_answered (r := .signStatus) (args := []) (act := actSignStatus a.port) h (by simp) rfl ?_
      rw [actSignStatus, hc]
      rfl
  · intro healthy changed onset
    let f := frameOf .signStat a.route a.tag [lamps, flag panel]
    let t := handAndCopy .s f a.order s.parked (takeHealth (lampsOf lamps) panel) (s.heard a)
    have hexec : exec (.signStat a [lamps, flag panel]) s = .next (settleSign t) := (event_of_on _ _ hon).trans (by rw [signStat_taken ha hup hshut])
    obtain ⟨hsign, hshift, hpower, hchanges⟩ := copiedHealth_taken f a.order s.parked (lampsOf lamps) panel (s.heard a)
    refine ⟨settleSign t, hexec, (settleSign_intercom t).2.trans hsign, (settleSign_shift t).trans (hshift.trans ?_), fun hnowhere hsettles => ?_, ?_⟩
    · simp only [onset, healthy, changed, and_assoc]
      rfl
    · have hsettled : settleSign t = t := by
        rcases hsettles with hrun | hpending
        · exact settleSign_of_run _ ((congrArg PowerUnit.state hpower).trans hrun)
        · exact settleSign_of_not_pending ((congrArg PowerUnit.shutPending hpower).trans hpending)
      have ht : t = takeHealth (lampsOf lamps) panel (s.heard a) := copied_nowhere (s := s.heard a) hnowhere takeHealth_changesOnly
      have hother : ∀ q, q ≠ .s → (s.heard a).port q = s.port q := fun q hq => State.port_setPort_other _ _ _ _ (by rw [ha]; exact hq)
      have htold := takeHealth_told (s := s.heard a) (lamps := lampsOf lamps) (panel := panel)
      rw [hother .c (by decide), hother .d (by decide), lampByte_lampsOf] at htold
      rw [hsettled, ht]
      exact htold
    · exact State.changesOnly_settleSign (bs := [.shift, .sign]) (congrArg PowerUnit.shutPending hpower) hchanges

end Sys2Proof.Machine
end

