-- ==== Sys2Proof/Proofs/ComparatorStage.lean ====
section
/-! PROOFS. The comparator stage (R135 to R139): each comparator's requests, their combination on a latch, and one comparator or one pair alone. -/
set_option Elab.async false
namespace Sys2Proof.Machine

/-! ### One comparator -/

section comparator
variable (y : Comparator) (e : CadenceEvent)

/-- The count an event offered a timer, and whether it loaded the timer and ended its period, as the comparators see it. -/
def CadenceEvent.offeredTo (e : CadenceEvent) (t : TimerId) : Option Nat := (e.at t).offered
def CadenceEvent.loads (e : CadenceEvent) (t : TimerId) : Bool := (e.at t).loaded
def CadenceEvent.ends (e : CadenceEvent) (t : TimerId) : Bool := (e.at t).terminal

theorem Comparator.rearm_eq : y.rearm e = { y with armed := y.armedFor e.loads } := by
  unfold rearm armedFor
  by_cases h : y.mode = .onceToggle ∧ (e.at y.timer).loaded = true
  · have hl : e.loads y.timer = true := h.2
    simp [h.1, h.2, hl]
  · rw [if_neg h]
    have hl : (y.mode == .onceToggle && e.loads y.timer) = false := by
      rw [Bool.and_eq_false_iff]
      by_cases hm : y.mode = .onceToggle
      · exact .inr (Bool.eq_false_iff.mpr fun hl => h ⟨hm, hl⟩)
      · exact .inl (beq_eq_false_iff_ne.mpr hm)
    rw [hl, Bool.or_false]

@[simp] theorem Comparator.lamp_rearm : (y.rearm e).lamp = y.lamp := by rw [rearm_eq]
@[simp] theorem Comparator.mode_rearm : (y.rearm e).mode = y.mode := by rw [rearm_eq]
@[simp] theorem Comparator.value_rearm : (y.rearm e).value = y.value := by rw [rearm_eq]
@[simp] theorem Comparator.timer_rearm : (y.rearm e).timer = y.timer := by rw [rearm_eq]

theorem Comparator.matches_rearm : (y.rearm e).matches e = y.hit e.offeredTo := by
  rw [rearm_eq]
  rfl

theorem Comparator.toggles_rearm : (y.rearm e).toggles e = y.asksToggle e.offeredTo e.loads := by
  rw [toggles, matches_rearm, rearm_eq]
  rfl

theorem Comparator.spend_rearm : (y.rearm e).spend e =
    { y with armed := y.armedFor e.loads && !(y.mode == .onceToggle && y.hit e.offeredTo) } := by
  rw [spend, matches_rearm, rearm_eq]
  dsimp only
  by_cases h : y.mode = .onceToggle ∧ y.hit e.offeredTo = true
  · rw [if_pos h, h.1, h.2]
    simp
  · rw [if_neg h]
    have hs : (y.mode == .onceToggle && y.hit e.offeredTo) = false := by
      rw [Bool.and_eq_false_iff]
      by_cases hm : y.mode = .onceToggle
      · exact .inr (Bool.eq_false_iff.mpr fun hl => h ⟨hm, hl⟩)
      · exact .inl (beq_eq_false_iff_ne.mpr hm)
    rw [hs, Bool.not_false, Bool.and_true]

end comparator

/-! ### The stage -/

/-- The toggles of lamp `l` that comparators LC(i) and LC(i+4) ask between them (R138). -/
def toggleCount (offered : TimerId → Option Nat) (loaded : TimerId → Bool) (y z : Comparator) (l : Fin 4) : Nat :=
  (if y.lamp = l && (y.asksToggle offered loaded || (z.mode == .pair && z.hit offered && y.mode == .toggle)) then 1 else 0)
    + (if z.lamp = l && z.asksToggle offered loaded then 1 else 0)

theorem pairToggles_rearm (y z : Comparator) (e : CadenceEvent) (l : Fin 4) :
    pairToggles (y.rearm e) (z.rearm e) e l = toggleCount e.offeredTo e.loads y z l := by
  rw [pairToggles, toggleCount, Comparator.toggles_rearm, Comparator.toggles_rearm, Comparator.pairs, Comparator.matches_rearm,
    Comparator.lamp_rearm, Comparator.lamp_rearm, Comparator.mode_rearm, Comparator.mode_rearm]
  simp only [Bool.and_eq_true, Bool.or_eq_true, decide_eq_true_eq]

/-- What the requests make of a latch (R139). -/
def combined (set clear : Bool) (toggles : Nat) (old : Bool) : Bool :=
  if set && !clear then true else if clear && !set then false else xor old (toggles % 2 == 1)

namespace CadenceUnit
variable (x : CadenceUnit) (offered : TimerId → Option Nat) (loaded terminal : TimerId → Bool) (l : Fin 4)

/-- Whether a SET_CLEAR comparator asks to set, or to clear, latch `l` (R137). -/
def setsAt : Bool := x.comparators.toList.any fun y => y.mode == .setClear && y.lamp == l && y.hit offered
def clearsAt : Bool := x.comparators.toList.any fun y => y.mode == .setClear && y.lamp == l && (y.value != 0 && terminal y.timer)

/-- The toggles asked of latch `l`. -/
def togglesAt : Nat := ∑ i : Fin 4, toggleCount offered loaded x.comparators[i.val] x.comparators[i.val + 4] l

theorem latchAfter_eq : x.latchAfter offered loaded terminal l
    = combined (x.setsAt offered l) (x.clearsAt terminal l) (x.togglesAt offered loaded l) x.latches[l] := by
  simp only [latchAfter, combined, setsAt, clearsAt, togglesAt, List.any_filter, Fin.sum_univ_def]
  rfl

theorem compare_comparators (e : CadenceEvent) (i : Fin 8) :
    (x.compare e).comparators[i] = x.comparatorAfter e.offeredTo e.loads i := by
  have hmap : (x.compare e).comparators[i] = ((x.comparators[i]).rearm e).spend e := by
    simp [compare]
  rw [hmap, Comparator.spend_rearm]
  rfl

theorem compare_latches (e : CadenceEvent) : (x.compare e).latches[l] = x.latchAfter e.offeredTo e.loads e.ends l := by
  have hcombine : (x.compare e).latches[l] = combineLatch (x.comparators.map fun y => y.rearm e) e l x.latches[l] := by
    match l with
    | 0 => rfl
    | 1 => rfl
    | 2 => rfl
    | 3 => rfl
  have hsets : ((x.comparators.map fun y => y.rearm e).any fun y => y.lamp == l && y.sets e) = x.setsAt e.offeredTo l := by
    rw [Vector.any_map, setsAt, ← Vector.any_toList]
    congr 1
    funext y
    simp only [Function.comp, Comparator.sets, Comparator.matches_rearm, Comparator.lamp_rearm, Comparator.mode_rearm]
    cases (y.mode == .setClear) <;> cases (y.lamp == l) <;> simp
  have hclears : ((x.comparators.map fun y => y.rearm e).any fun y => y.lamp == l && y.clears e) = x.clearsAt e.ends l := by
    rw [Vector.any_map, clearsAt, ← Vector.any_toList]
    congr 1
    funext y
    simp only [Function.comp, Comparator.clears, Comparator.lamp_rearm, Comparator.mode_rearm, Comparator.value_rearm, Comparator.timer_rearm]
    cases (y.mode == .setClear) <;> cases (y.lamp == l) <;> simp [CadenceEvent.ends]
  have htoggles : pairToggles (x.comparators[0].rearm e) (x.comparators[4].rearm e) e l + pairToggles (x.comparators[1].rearm e) (x.comparators[5].rearm e) e l
      + pairToggles (x.comparators[2].rearm e) (x.comparators[6].rearm e) e l + pairToggles (x.comparators[3].rearm e) (x.comparators[7].rearm e) e l
      = x.togglesAt e.offeredTo e.loads l := by
    simp only [pairToggles_rearm, togglesAt, Fin.sum_univ_four]
    rfl
  rw [hcombine, latchAfter_eq, combineLatch, hsets, hclears]
  simp only [Vector.getElem_map, htoggles, combined]
  generalize x.togglesAt e.offeredTo e.loads l = n
  have hodd : (if n % 2 = 1 then !x.latches[l] else x.latches[l]) = xor x.latches[l] (n % 2 == 1) := by
    by_cases h : n % 2 = 1
    · simp [h]
    · simp [h, beq_eq_false_iff_ne.mpr h]
  rw [hodd]

theorem compare_timer (e : CadenceEvent) (t : TimerId) : (x.compare e).timer t = x.timer t := by cases t <;> rfl

end CadenceUnit

/-! ### A comparator or a pair alone -/

/-- A comparator in mode OFF asks for nothing. -/
theorem Comparator.hit_of_off {y : Comparator} (h : y.mode = .off) (offered : TimerId → Option Nat) : y.hit offered = false := by
  simp [hit, h]

theorem Comparator.asksToggle_of_off {y : Comparator} (h : y.mode = .off) (offered : TimerId → Option Nat) (loaded : TimerId → Bool) :
    y.asksToggle offered loaded = false := by
  simp [asksToggle, hit_of_off h]

namespace CadenceUnit
variable {x : CadenceUnit} {offered : TimerId → Option Nat} {loaded terminal : TimerId → Bool} {l : Fin 4}

/-- With every comparator but LC(k) and LC(k+4) off, theirs are the only toggles. -/
theorem togglesAt_of_pair {k : Fin 4} (h : ∀ j : Fin 8, j.val ≠ k.val → j.val ≠ k.val + 4 → (x.comparators[j]).mode = .off) :
    x.togglesAt offered loaded l = toggleCount offered loaded x.comparators[k.val] x.comparators[k.val + 4] l := by
  refine Finset.sum_eq_single k (fun i _ hi => ?_) (fun hk => absurd (Finset.mem_univ k) hk)
  have hne : i.val ≠ k.val := fun hv => hi (Fin.ext hv)
  have hlow : (x.comparators[i.val]).mode = .off := h ⟨i.val, by omega⟩ hne (by simp; omega)
  have hhigh : (x.comparators[i.val + 4]).mode = .off := h ⟨i.val + 4, by omega⟩ (by simp; omega) (by simp; omega)
  simp [toggleCount, Comparator.asksToggle_of_off hlow, Comparator.asksToggle_of_off hhigh, Comparator.hit_of_off hhigh]

/-- With every comparator off but those of a list, theirs are the only sets and clears. -/
theorem any_of_others_off {p : Comparator → Bool} (hp : ∀ y : Comparator, y.mode = .off → p y = false) {i k : Fin 8}
    (h : ∀ j : Fin 8, j ≠ i → j ≠ k → (x.comparators[j]).mode = .off) : x.comparators.toList.any p = (p x.comparators[i] || p x.comparators[k]) := by
  rw [Bool.eq_iff_iff, Vector.any_toList, Vector.any_iff_exists, Bool.or_eq_true]
  constructor
  · rintro ⟨j, hj, hpj⟩
    by_cases hi : (⟨j, hj⟩ : Fin 8) = i
    · exact .inl (hi ▸ hpj)
    · by_cases hk : (⟨j, hj⟩ : Fin 8) = k
      · exact .inr (hk ▸ hpj)
      · exact absurd (hpj.symm.trans (hp _ (h ⟨j, hj⟩ hi hk))) (by decide)
  · rintro (hpi | hpk)
    · exact ⟨i.val, i.isLt, hpi⟩
    · exact ⟨k.val, k.isLt, hpk⟩

theorem togglesAt_of_alone {i : Fin 8} (h : ∀ j : Fin 8, j ≠ i → (x.comparators[j]).mode = .off) :
    x.togglesAt offered loaded l = if (x.comparators[i]).lamp = l && (x.comparators[i]).asksToggle offered loaded then 1 else 0 := by
  have hoff : ∀ (n : Nat) (hn : n < 8), n ≠ i.val → (x.comparators[n]).mode = .off := fun n hn hne => h ⟨n, hn⟩ fun heq => hne (congrArg Fin.val heq)
  by_cases hi : i.val < 4
  · rw [togglesAt_of_pair (k := ⟨i.val, hi⟩) fun j h1 _ => h j fun heq => h1 (congrArg Fin.val heq)]
    have hz := hoff (i.val + 4) (by omega) (by omega)
    simp [toggleCount, Comparator.asksToggle_of_off hz, Comparator.hit_of_off hz]
  · rw [togglesAt_of_pair (k := ⟨i.val - 4, by omega⟩) fun j _ h2 => h j fun heq => h2 (by rw [heq]; simp; omega)]
    have hy := hoff (i.val - 4) (by omega) (by omega)
    have hz : x.comparators[i.val - 4 + 4] = x.comparators[i] := by simp [show i.val - 4 + 4 = i.val by omega]
    simp [toggleCount, Comparator.asksToggle_of_off hy, hy, hz]

theorem latchAfter_of_alone {i : Fin 8} (h : ∀ j : Fin 8, j ≠ i → (x.comparators[j]).mode = .off) :
    let y := x.comparators[i]
    x.latchAfter offered loaded terminal l = if y.lamp = l then
      combined (y.mode == .setClear && y.hit offered) (y.mode == .setClear && y.value != 0 && terminal y.timer)
        (if y.asksToggle offered loaded then 1 else 0) x.latches[l]
    else x.latches[l] := by
  intro y
  have hset : x.setsAt offered l = (y.mode == .setClear && y.lamp == l && y.hit offered) :=
    (any_of_others_off (i := i) (k := i) (fun z hz => by simp [hz]) fun j hj _ => h j hj).trans (Bool.or_self _)
  have hclear : x.clearsAt terminal l = (y.mode == .setClear && y.lamp == l && (y.value != 0 && terminal y.timer)) :=
    (any_of_others_off (i := i) (k := i) (fun z hz => by simp [hz]) fun j hj _ => h j hj).trans (Bool.or_self _)
  rw [latchAfter_eq, hset, hclear, togglesAt_of_alone h]
  by_cases hl : y.lamp = l
  · have hbeq : (y.lamp == l) = true := beq_iff_eq.mpr hl
    have hl' : (x.comparators[i]).lamp = l := hl
    rw [if_pos hl, hbeq]
    simp only [hl', decide_true, Bool.true_and, Bool.and_true, Bool.and_assoc]
    rfl
  · have hbeq : (y.lamp == l) = false := beq_eq_false_iff_ne.mpr hl
    have hl' : ¬ (x.comparators[i]).lamp = l := hl
    rw [if_neg hl, hbeq]
    simp only [combined, hl', decide_false, Bool.false_and, Bool.and_false]
    simp

end CadenceUnit


end Sys2Proof.Machine
end

