-- ==== Sys2Proof/Proofs/CadenceCount.lean ====
section
/-! PROOFS. A cadence count at the timers, the comparators and the sign (R122, R123, R129, R135 to R139), and the statement `CadenceCounts`. -/
set_option Elab.async false
namespace Sys2Proof.Machine

/-! ### The timers (R129) -/

/-- The count a cadence count sets at a timer, if it sets one. -/
def CadenceTimer.offers (w : CadenceTimer) : Option Nat :=
  if w.state = .stopped then none
  else if 1 < w.count then some (w.count - 1)
  else if w.state = .running ∧ w.mode = .repeating then some w.programmed
  else none

/-- Whether a cadence count is a timer's terminal count, and whether it reloads the timer. -/
def CadenceTimer.ends (w : CadenceTimer) : Bool := w.state != .stopped && decide (w.count ≤ 1)
def CadenceTimer.reloads (w : CadenceTimer) : Bool := w.ends && w.state == .running && w.mode == .repeating

theorem CadenceTimer.tick_event (w : CadenceTimer) : w.tick.2 = ⟨w.offers, w.reloads, w.ends⟩ := by
  unfold tick offers reloads ends
  by_cases hs : w.state = .stopped
  · simp [hs, TimerEvent.nothing]
  · by_cases hc : 1 < w.count
    · simp [hs, hc, Nat.not_le.mpr hc]
    · by_cases hr : w.state = .running ∧ w.mode = .repeating
      · simp [hc, hr.1, hr.2, Nat.not_lt.mp hc]
      · have hno : (w.state == .running && w.mode == .repeating) = false := by
          rw [Bool.eq_false_iff, ne_eq, Bool.and_eq_true, beq_iff_eq, beq_iff_eq]
          exact hr
        have hr' : w.state = .running → ¬ w.mode = .repeating := fun h1 h2 => hr ⟨h1, h2⟩
        simp [hs, hc, hr, Nat.not_lt.mp hc]
        exact hr'

namespace CadenceUnit
variable (x : CadenceUnit)

/-- The events of the two timers at a cadence count. -/
def counted : CadenceEvent := ⟨x.ct0.tick.2, x.ct1.tick.2⟩

theorem counted_at (t : TimerId) : x.counted.at t = ⟨(x.timer t).offers, (x.timer t).reloads, (x.timer t).ends⟩ := by
  cases t
  · exact CadenceTimer.tick_event _
  · exact CadenceTimer.tick_event _

theorem counted_fields : x.counted.offeredTo = (fun t => (x.timer t).offers) ∧ x.counted.loads = (fun t => (x.timer t).reloads)
    ∧ x.counted.ends = fun t => (x.timer t).ends := by
  refine ⟨funext fun t => ?_, funext fun t => ?_, funext fun t => ?_⟩
  · rw [CadenceEvent.offeredTo, counted_at]
  · rw [CadenceEvent.loads, counted_at]
  · rw [CadenceEvent.ends, counted_at]

theorem count_timer (t : TimerId) : x.count.timer t = (x.timer t).tick.1 := by cases t <;> rfl

theorem count_latches (l : Fin 4) :
    x.count.latches[l] = x.latchAfter (fun t => (x.timer t).offers) (fun t => (x.timer t).reloads) (fun t => (x.timer t).ends) l := by
  obtain ⟨hoffered, hloads, hends⟩ := x.counted_fields
  rw [← hoffered, ← hloads, ← hends]
  exact compare_latches _ _ _

theorem count_comparators (i : Fin 8) :
    x.count.comparators[i] = x.comparatorAfter (fun t => (x.timer t).offers) (fun t => (x.timer t).reloads) i := by
  obtain ⟨hoffered, hloads, -⟩ := x.counted_fields
  rw [← hoffered, ← hloads]
  exact compare_comparators _ _ _

theorem latches_eq_set {u v : Lamps} {k : Fin 4} {b : Bool} (h : ∀ l : Fin 4, v[l] = if k = l then b else u[l]) : v = u.set k b := by
  ext n hn
  rw [Vector.getElem_set]
  have hv := h ⟨n, hn⟩
  by_cases hk : k.val = n
  · rw [if_pos hk]
    exact hv.trans (if_pos (Fin.ext hk))
  · rw [if_neg hk]
    exact hv.trans (if_neg fun heq => hk (congrArg Fin.val heq))

section alone
variable {x} {i : Fin 8} (h : ∀ j : Fin 8, j ≠ i → (x.comparators[j]).mode = .off)
include h

/-- The latches after a count that one comparator alone takes. -/
theorem count_latches_of_alone :
    let y := x.comparators[i]
    let hit := y.hit fun t => (x.timer t).offers
    x.count.latches = x.latches.set y.lamp
      (combined (y.mode == .setClear && hit) (y.mode == .setClear && y.value != 0 && (x.timer y.timer).ends)
        (if y.asksToggle (fun t => (x.timer t).offers) (fun t => (x.timer t).reloads) then 1 else 0) x.latches[y.lamp]) := by
  intro y hit
  refine latches_eq_set fun l => ?_
  rw [count_latches, latchAfter_of_alone h]
  by_cases hl : y.lamp = l
  · rw [if_pos hl, if_pos hl, ← hl]
  · rw [if_neg hl, if_neg hl]

end alone

end CadenceUnit

/-- What one comparator's requests make of its lamp. -/
theorem combined_quiet (old : Bool) : combined false false 0 old = old := by cases old <;> rfl

theorem combined_toggle (b old : Bool) : combined false false (if b then 1 else 0) old = if b then !old else old := by
  cases b <;> cases old <;> rfl

theorem combined_setClear (set clear old : Bool) :
    combined set clear 0 old = if set = true ∧ ¬ clear = true then true else if clear = true ∧ ¬ set = true then false else old := by
  cases set <;> cases clear <;> cases old <;> rfl

namespace CadenceUnit
variable {x : CadenceUnit} {i : Fin 4}

/-- The latches after a count that one TOGGLE comparator and its PAIR alone take (R138). -/
theorem count_latches_of_pair (hy : (x.comparators[i.val]).mode = .toggle) (hz : (x.comparators[i.val + 4]).mode = .pair)
    (h : ∀ j : Fin 8, j.val ≠ i.val → j.val ≠ i.val + 4 → (x.comparators[j]).mode = .off) :
    let y := x.comparators[i.val]
    let z := x.comparators[i.val + 4]
    x.count.latches = x.latches.set y.lamp
      (if y.hit (fun t => (x.timer t).offers) || z.hit (fun t => (x.timer t).offers) then !x.latches[y.lamp] else x.latches[y.lamp]) := by
  intro y z
  let offered := fun t => (x.timer t).offers
  have hymode : y.mode = .toggle := hy
  have hzmode : z.mode = .pair := hz
  have hothers : ∀ j : Fin 8, j ≠ ⟨i.val, by omega⟩ → j ≠ ⟨i.val + 4, by omega⟩ → (x.comparators[j]).mode = .off := fun j h1 h2 =>
    h j (fun hv => h1 (Fin.ext hv)) (fun hv => h2 (Fin.ext hv))
  refine latches_eq_set fun l => ?_
  have hset : x.setsAt offered l = false :=
    (any_of_others_off (fun w hw => by simp [hw]) hothers).trans (by simp [hy, hz])
  have hclear : x.clearsAt (fun t => (x.timer t).ends) l = false :=
    (any_of_others_off (fun w hw => by simp [hw]) hothers).trans (by simp [hy, hz])
  have htoggles : x.togglesAt offered (fun t => (x.timer t).reloads) l =
      if y.lamp = l && (y.hit offered || z.hit offered) then 1 else 0 := by
    rw [togglesAt_of_pair h]
    simp only [toggleCount, Comparator.asksToggle]
    simp [hy, hz]
    rfl
  rw [count_latches, latchAfter_eq, hset, hclear, htoggles]
  by_cases hl : y.lamp = l
  · rw [if_pos hl, ← hl]
    simpa using combined_toggle (y.hit offered || z.hit offered) x.latches[y.lamp]
  · rw [if_neg hl]
    simpa [hl] using combined_quiet x.latches[l]

end CadenceUnit

/-! ### The sign at a cadence count (R122, R123) -/

section sign
variable {s : State} (h : s.parked = false)
include h

theorem compose_of_same (hsame : s.composed = s.sign.output) :
    compose s = { s with sign := { s.sign with output := s.composed, imageInUse := s.imageChosen } } := by
  simp [compose, h, hsame]

theorem compose_of_changed (hup : s.isUp .s = true) (hne : s.composed ≠ s.sign.output) :
    compose s = repaintSign { s with sign := { s.sign with output := s.composed, imageInUse := s.imageChosen } } := by
  simp [compose, h, hup, hne]

theorem signCount_down (hup : s.isUp .s = false) :
    signCount s = { s with sign := { s.sign with output := s.composed, imageInUse := s.imageChosen } } := by
  have hcompose : compose s = { s with sign := { s.sign with output := s.composed, imageInUse := s.imageChosen } } := by
    simp [compose, h, hup]
  have hup' : ({ s with sign := { s.sign with output := s.composed, imageInUse := s.imageChosen } } : State).isUp .s = false := hup
  simp only [signCount, h, Bool.false_eq_true, if_false, hcompose, hup']

theorem signCount_same (hup : s.isUp .s = true) (hsame : s.composed = s.sign.output) :
    (s.sign.refresh < 99 → signCount s = { s with sign :=
        { s.sign with output := s.composed, imageInUse := s.imageChosen, refresh := s.sign.refresh + 1 } })
    ∧ (99 ≤ s.sign.refresh → signCount s =
        repaintSign { s with sign := { s.sign with output := s.composed, imageInUse := s.imageChosen } }) := by
  have hup' : ({ s with sign := { s.sign with output := s.composed, imageInUse := s.imageChosen } } : State).isUp .s = true := hup
  refine ⟨fun hr => ?_, fun hr => ?_⟩ <;>
    simp only [signCount, h, Bool.false_eq_true, if_false, compose_of_same h hsame, hup', if_true, Config.refreshLimit]
  · exact if_pos (by omega)
  · exact if_neg (by omega)

theorem signCount_changed (hup : s.isUp .s = true) (hne : s.composed ≠ s.sign.output) :
    (signCount s).port .s = (s.port .s).placed (signFrame s.composed)
      ∧ (signCount s).sign = { s.sign with output := s.composed, imageInUse := s.imageChosen, refresh := 1 } := by
  let t := repaintSign { s with sign := { s.sign with output := s.composed, imageInUse := s.imageChosen } }
  have hport : t.port .s = (s.port .s).placed (signFrame s.composed) := emit_port_same ..
  have hup' : t.isUp .s = true := by
    rw [State.isUp, hport]
    exact (congrArg PortFace.up (PortState.face_placeGeneral _ _)).trans hup
  have hcount : signCount s = { t with sign := { t.sign with refresh := t.sign.refresh + 1 } } := by
    simp only [signCount, h, Bool.false_eq_true, if_false, compose_of_changed h hup hne, Config.refreshLimit]
    rw [show (repaintSign { s with sign := { s.sign with output := s.composed, imageInUse := s.imageChosen } }) = t from rfl, if_pos hup']
    exact if_pos (show 0 + 1 < 100 by decide)
  rw [hcount]
  exact ⟨hport, rfl⟩

end sign

/-! ### The event -/

/-- The hub a cadence count's composition is made from. -/
def countedFrom (signFirst : Bool) (s : State) : State := if signFirst then s else countCadence s

theorem takeCadence_blocks (signFirst : Bool) (s : State) :
    (takeCadence signFirst s).link = (signCount (countedFrom signFirst s)).link ∧ (takeCadence signFirst s).cadence = s.cadence.count
      ∧ (takeCadence signFirst s).sign = (signCount (countedFrom signFirst s)).sign ∧ (takeCadence signFirst s).power = s.power := by
  have hcall : ∀ t : State, (countCall t).link = t.link ∧ (countCall t).cadence = t.cadence ∧ (countCall t).sign = t.sign ∧ (countCall t).power = t.power := fun t => by
    unfold countCall
    split <;> exact ⟨rfl, rfl, rfl, rfl⟩
  cases signFirst
  · obtain ⟨hlink, hcadence, hsign, hpower⟩ := hcall (signCount (countCadence s))
    exact ⟨hlink, hcadence.trans (signCount_cadence _), hsign, hpower.trans (signCount_power _)⟩
  · obtain ⟨hlink, hcadence, hsign, hpower⟩ := hcall (countCadence (signCount s))
    exact ⟨hlink, hcadence.trans (congrArg CadenceUnit.count (signCount_cadence _)), hsign, hpower.trans (signCount_power _)⟩

theorem takeCadence_changesOnly (signFirst : Bool) (s : State) : s.changesOnly (takeCadence signFirst s) [.sign, .cadence, .intercom] := by
  simp [State.changesOnly]

theorem countedFrom_same (signFirst : Bool) (s : State) : (countedFrom signFirst s).sign = s.sign ∧ (countedFrom signFirst s).link = s.link
    ∧ (countedFrom signFirst s).power = s.power ∧ (countedFrom signFirst s).imageChosen = s.imageChosen
    ∧ (countedFrom signFirst s).composed = if signFirst then s.composed else State.composed { s with cadence := s.cadence.count } := by
  cases signFirst <;> exact ⟨rfl, rfl, rfl, rfl, rfl⟩

/-- Settles O55: the timers by `tick`, the latches by `count_latches` and its cases, the sign by the cases of `signCount`. -/
theorem cadenceCounts : Obligations.CadenceCounts := by
  unfold Obligations.CadenceCounts
  intro offers
  refine ⟨fun x t => ?_, fun x i => ?_, fun x i => ?_, fun x => ⟨x.count_latches, x.count_comparators⟩, fun s signFirst hrun => ?_⟩
  · intro w
    have htimer := x.count_timer t
    refine ⟨fun hs => ?_, fun hs hc => ?_, fun hs hc => ?_⟩ <;> rw [htimer, CadenceTimer.tick]
    · rw [if_pos hs]
    · rw [if_neg hs, if_pos hc]
    · rw [if_neg hs, if_neg (show ¬ 1 < (x.timer t).count by rw [show (x.timer t).count = 1 from hc]; decide)]
      split <;> rfl
  · intro y w hit terminal loaded lamp old hvalue hothers
    have hlatches := CadenceUnit.count_latches_of_alone hothers
    have hterminal : w.ends = true ↔ terminal := by simp [CadenceTimer.ends, terminal]
    have hloaded : w.reloads = true ↔ loaded := by simp only [CadenceTimer.reloads, Bool.and_eq_true, hterminal, beq_iff_eq, and_assoc, loaded]
    have hhit : y.mode ≠ .off → (y.hit (fun t => (x.timer t).offers) = true ↔ hit) := fun hm => by
      simp only [Comparator.hit, Bool.and_eq_true, bne_iff_ne, beq_iff_eq, ne_eq, hvalue, hm, not_false_eq_true, true_and]
      rfl
    let offered := fun t => (x.timer t).offers
    let reloads := fun t => (x.timer t).reloads
    have hlatches : x.count.latches = x.latches.set y.lamp (combined (y.mode == .setClear && y.hit offered)
        (y.mode == .setClear && y.value != 0 && w.ends) (if y.asksToggle offered reloads then 1 else 0) old) := hlatches
    have hother : y.mode ≠ .setClear → x.count.latches = x.latches.set y.lamp (if y.asksToggle offered reloads then !old else old) := fun hm => by
      have hset : (y.mode == .setClear) = false := beq_eq_false_iff_ne.mpr hm
      rw [hlatches, hset]
      simp only [Bool.false_and, combined_toggle]
    have harmed : y.mode = .onceToggle → (y.armedFor reloads = true ↔ y.armed = true ∨ loaded) := fun hm => by
      simp only [Comparator.armedFor, hm, beq_self_eq_true, Bool.true_and, Bool.or_eq_true]
      rw [← hloaded]
    refine ⟨fun hm => ?_, fun hm => ?_, fun hm => ⟨?_, ?_⟩, fun hm => ?_⟩
    · have hasks : y.asksToggle offered reloads = false := by rcases hm with hm | hm <;> simp [Comparator.asksToggle, hm]
      rw [hother (by rcases hm with hm | hm <;> simp [hm]), hasks]
      exact Vector.set_getElem_self _
    · have hasks : y.asksToggle offered reloads = true ↔ hit := by
        rw [← hhit (by simp [hm])]
        simp [Comparator.asksToggle, hm, offered]
      simp only [lamp, hother (by simp [hm]), hasks]
    · have hasks : y.asksToggle offered reloads = true ↔ hit ∧ (y.armed = true ∨ loaded) := by
        rw [← hhit (by simp [hm]), ← harmed hm]
        simp [Comparator.asksToggle, hm, offered]
      simp only [lamp, hother (by simp [hm]), hasks]
    · have hcomparator : (x.count.comparators[i]).armed = (y.armedFor reloads && !(y.mode == .onceToggle && y.hit offered)) :=
        congrArg Comparator.armed (x.count_comparators i)
      rw [hcomparator, hm, ← hhit (by simp [hm]), ← harmed hm]
      simp [offered, and_comm]
    · have hasks : y.asksToggle offered reloads = false := by simp [Comparator.asksToggle, hm]
      have hends : (y.mode == .setClear && y.value != 0 && w.ends) = true ↔ terminal := by rw [← hterminal]; simp [hm, hvalue]
      have hsets : (y.mode == .setClear && y.hit offered) = true ↔ hit := by rw [← hhit (by simp [hm])]; simp [hm, offered]
      simp only [lamp, hlatches, hasks, Bool.false_eq_true, if_false, combined_setClear, hends, hsets]
  · intro y z hy hz hyv hzv hothers
    have hhit : ∀ c : Comparator, c.mode ≠ .off → c.value ≠ 0 → (c.hit (fun t => (x.timer t).offers) = true ↔ offers (x.timer c.timer) = some c.value) :=
      fun c hm hv => by
        simp only [Comparator.hit, Bool.and_eq_true, bne_iff_ne, beq_iff_eq, ne_eq, hv, hm, not_false_eq_true, true_and]
        rfl
    have hlatches := CadenceUnit.count_latches_of_pair hy hz hothers
    have hiff : (y.hit (fun t => (x.timer t).offers) || z.hit fun t => (x.timer t).offers) = true
        ↔ offers (x.timer y.timer) = some y.value ∨ offers (x.timer z.timer) = some z.value := by
      rw [Bool.or_eq_true, hhit y (by simp [hy]) hyv, hhit z (by simp [hz]) hzv]
    exact hlatches.trans (congrArg (fun b => x.latches.set y.lamp b) (if_congr hiff rfl rfl))
  · obtain ⟨hlink, hcadence, hsign, hpower⟩ := takeCadence_blocks signFirst s
    obtain ⟨ksign, klink, kpower, kchosen, kcomposed⟩ := countedFrom_same signFirst s
    let v := countedFrom signFirst s
    have hv : v.parked = false := parked_of_run ((congrArg PowerUnit.state kpower).trans hrun)
    have hupv : v.isUp .s = s.isUp .s := congrArg PortState.up (State.port_of_link klink .s)
    have hportv : v.port .s = s.port .s := State.port_of_link klink .s
    have hport : (takeCadence signFirst s).port .s = (signCount v).port .s := State.port_of_link hlink .s
    have hexec : exec (.cadenceCount signFirst) s = .next (takeCadence signFirst s) :=
      event_of_run _ _ hrun ((congrArg PowerUnit.state hpower).trans hrun)
    have hcomposedv : v.composed = if signFirst then s.composed else State.composed { s with cadence := s.cadence.count } := kcomposed
    have hdownv := signCount_down hv
    have hsamev := signCount_same hv
    have hchangedv := signCount_changed hv
    rw [hupv] at hdownv hsamev hchangedv
    have hsigned : ∃ n, (signCount v).sign = { v.sign with output := v.composed, imageInUse := v.imageChosen, refresh := n } := by
      cases hup : s.isUp .s with
      | false => exact ⟨_, by rw [hdownv hup]⟩
      | true =>
        by_cases hsame : v.composed = v.sign.output
        · by_cases hr : v.sign.refresh < 99
          · exact ⟨_, by rw [(hsamev hup hsame).1 hr]⟩
          · exact ⟨_, by rw [(hsamev hup hsame).2 (Nat.not_lt.mp hr)]; rfl⟩
        · exact ⟨_, (hchangedv hup hsame).2⟩
    obtain ⟨n, hn⟩ := hsigned
    have houtput : (takeCadence signFirst s).sign.output = v.composed := by rw [hsign, hn]
    refine ⟨takeCadence signFirst s, hexec, hcadence, ?_, fun hdown => ?_, fun hup hsame => ⟨fun hr => ?_, fun hr => ?_⟩, fun hup hne => ?_,
      takeCadence_changesOnly signFirst s, fun t hs hc => ?_⟩
    · rw [hsign, hn, ksign, hcomposedv, kchosen]
    · rw [hsign, hlink, hdownv hdown]
      have hrefresh : v.sign.refresh = s.sign.refresh := by rw [ksign]
      exact ⟨hrefresh, klink⟩
    · rw [hsign, hlink, (hsamev hup (by rw [← houtput, hsame, ksign])).1 (by rw [ksign]; exact hr)]
      have hrefresh : v.sign.refresh + 1 = s.sign.refresh + 1 := by rw [ksign]
      exact ⟨hrefresh, klink⟩
    · have hsamec : v.composed = v.sign.output := by rw [← houtput, hsame, ksign]
      have hrepaint := (hsamev hup hsamec).2 (by rw [ksign]; exact hr.ge)
      refine ⟨by rw [hsign, hrepaint]; rfl, ?_, ?_⟩
      · rw [hport, hrepaint, ← hportv, show s.sign.output = v.composed by rw [← houtput, hsame]]
        exact emit_port_same ..
      · have hdue : refreshDue signFirst s = true := by
          have hrefresh : (compose v).sign.refresh = 99 := by
            rw [compose_of_same hv hsamec]
            exact (congrArg SignUnit.refresh ksign).trans hr
          rw [refreshDue, show (if signFirst then s else countCadence s) = v from rfl]
          simp only [hrefresh, hup, parked_of_run hrun]
          decide
        refine (event_of_run _ _ hrun ?_).trans ?_ <;> rw [if_pos hdue]
        exact (congrArg PowerUnit.state hpower).trans hrun
    · rw [hport, houtput, ← hportv]
      exact (hchangedv hup fun hsame => hne (by rw [houtput, hsame, ksign])).1
    · have hactive : (s.cadence.timer t).active = true ∧ (s.cadence.timer t).count = 1 := ⟨by simpa [CadenceTimer.active] using hs, hc⟩
      refine (event_of_run _ _ hrun ?_).trans ?_ <;> rw [if_pos hactive]
      exact (congrArg PowerUnit.state hpower).trans hrun

end Sys2Proof.Machine
end

