-- ==== Sys2Proof/Proofs/CadenceRequests.lean ====
section
/-! PROOFS. The requests of the cadence unit (R130 to R134, R140), and the statement `CadenceRequests`. -/
set_option Elab.async false
namespace Sys2Proof.Machine

theorem dec_enc_timerMode (x : TimerMode) : dec TimerMode.all (enc TimerMode.all x) = some x := dec_enc (by cases x <;> decide) (by decide)
theorem dec_enc_comparatorMode (x : ComparatorMode) : dec ComparatorMode.all (enc ComparatorMode.all x) = some x :=
  dec_enc (by cases x <;> decide) (by decide)

/-! ### TIMER_START (R131) -/

namespace CadenceUnit
variable (x : CadenceUnit) (t : TimerId)

/-- A timer as a start leaves it. -/
def started : CadenceTimer := { x.timer t with current := (x.timer t).programmed, count := (x.timer t).programmed, state := .running }

/-- The events of the two timers at a start. -/
def startEvent : CadenceEvent :=
  match t with
  | .ct0 => ⟨⟨some (x.timer t).programmed, true, false⟩, .nothing⟩
  | .ct1 => ⟨.nothing, ⟨some (x.timer t).programmed, true, false⟩⟩

theorem start_eq : x.start t = (x.setTimer t (x.started t)).compare (x.startEvent t) := by cases t <;> rfl

theorem startEvent_fields : (x.startEvent t).offeredTo = (fun t' => if t' = t then some (x.timer t).programmed else none)
    ∧ (x.startEvent t).loads = (fun t' => t' == t) ∧ (x.startEvent t).ends = fun _ => false := by
  refine ⟨funext fun t' => ?_, funext fun t' => ?_, funext fun t' => ?_⟩ <;> cases t <;> cases t' <;> rfl

theorem timer_setTimer_same (y : CadenceTimer) : (x.setTimer t y).timer t = y := by cases t <;> rfl

theorem timer_setTimer_other {t' : TimerId} (h : t' ≠ t) (y : CadenceTimer) : (x.setTimer t y).timer t' = x.timer t' := by
  cases t <;> cases t' <;> simp_all [setTimer, timer]

theorem setTimer_latches (y : CadenceTimer) : (x.setTimer t y).latches = x.latches ∧ (x.setTimer t y).comparators = x.comparators := by
  cases t <;> exact ⟨rfl, rfl⟩

theorem start_timer : (x.start t).timer t = x.started t := by rw [start_eq, compare_timer, timer_setTimer_same]

theorem start_timer_other {t' : TimerId} (h : t' ≠ t) : (x.start t).timer t' = x.timer t' := by
  rw [start_eq, compare_timer, timer_setTimer_other _ _ h]

theorem start_latches (l : Fin 4) : (x.start t).latches[l] =
    x.latchAfter (fun t' => if t' = t then some (x.timer t).programmed else none) (fun t' => t' == t) (fun _ => false) l := by
  obtain ⟨hoffered, hloads, hends⟩ := x.startEvent_fields t
  obtain ⟨hlatches, hcomparators⟩ := x.setTimer_latches t (x.started t)
  rw [← hoffered, ← hloads, ← hends, start_eq, compare_latches]
  simp only [latchAfter, hlatches, hcomparators]

theorem start_comparators (i : Fin 8) : (x.start t).comparators[i] =
    x.comparatorAfter (fun t' => if t' = t then some (x.timer t).programmed else none) (fun t' => t' == t) i := by
  obtain ⟨hoffered, hloads, -⟩ := x.startEvent_fields t
  obtain ⟨-, hcomparators⟩ := x.setTimer_latches t (x.started t)
  rw [← hoffered, ← hloads, start_eq, compare_comparators]
  simp only [comparatorAfter, hcomparators]

end CadenceUnit

/-! ### COMPARATOR_SET (R134) -/

theorem toNat_of_index {n : Nat} {b : Byte} {i : Fin n} (h : index n b = some i) : b.toNat = i.val := by
  unfold index at h
  split at h
  · cases h
    rfl
  · cases h

section comparator
variable {n lamp : Byte} {t : TimerId} {value : Nat} {mode : ComparatorMode} {s : State}

theorem actComparatorSet_refused (h : 8 ≤ n.toNat ∨ 16383 < value ∨ 4 ≤ lamp.toNat ∨ (mode = .pair ∧ n.toNat < 4)) :
    actComparatorSet n t value mode lamp s = (s, .refuse .range) := by
  unfold actComparatorSet
  split
  · rename_i i l hi hl
    have hn : n.toNat = i.val := toNat_of_index hi
    have hlamp : ¬ 4 ≤ lamp.toNat := fun hge => by simp [index_of_ge hge] at hl
    by_cases hv : 16383 < value
    · exact if_pos hv
    · rw [if_neg hv]
      rcases h with h | h | h | h
      · omega
      · exact absurd h hv
      · exact absurd h hlamp
      · exact if_pos (by rw [← hn]; exact h)
  · rfl

theorem actComparatorSet_done {i : Fin 8} {l : Fin 4} (hn : n.toNat = i.val) (hl : lamp.toNat = l.val) (hv : value ≤ 16383)
    (hpair : mode = .pair → 4 ≤ i.val) : actComparatorSet n t value mode lamp s =
      ({ s with cadence := { s.cadence with
          comparators := s.cadence.comparators.set i ⟨t, value, mode, l, (s.cadence.comparators[i]).armed⟩ } }, .ok []) := by
  simp only [actComparatorSet, index_of_toNat hn, index_of_toNat hl, if_neg (Nat.not_lt.mpr hv),
    if_neg (show ¬ (mode = .pair ∧ i.val < 4) from fun h => by have := hpair h.1; omega)]

end comparator

/-! ### TIMER_STOP and TIMER_STOP_AT_END (R132) -/

theorem actTimerStop_eq (t : TimerId) (s : State) : actTimerStop t s =
    ({ s with cadence := s.cadence.setTimer t (if (s.cadence.timer t).state = .stopped then s.cadence.timer t
        else { s.cadence.timer t with state := .stopped, count := 0 }) }, .ok [enc TimerState.all .stopped]) := by
  unfold actTimerStop
  dsimp only
  by_cases hs : (s.cadence.timer t).state = .stopped
  · have hactive : ¬ (s.cadence.timer t).active = true := by simp [CadenceTimer.active, hs]
    rw [if_neg hactive, if_pos hs, hs]
  · have hactive : (s.cadence.timer t).active = true := by simp [CadenceTimer.active, hs]
    rw [if_pos hactive, if_neg hs]
    rfl

theorem actTimerStopAtEnd_eq (t : TimerId) (s : State) : actTimerStopAtEnd t s =
    ({ s with cadence := s.cadence.setTimer t { s.cadence.timer t with state := if (s.cadence.timer t).state = .stopped then .stopped else .draining } },
      .ok [enc TimerState.all (if (s.cadence.timer t).state = .stopped then .stopped else .draining)]) := by
  have hstate : ∀ w : CadenceTimer, (if w.state = .running then { w with state := .draining } else w)
      = { w with state := if w.state = .stopped then .stopped else .draining } := fun w => by
    obtain ⟨_, _, _, state, _, _⟩ := w
    cases state <;> rfl
  unfold actTimerStopAtEnd
  dsimp only
  rw [hstate]

/-- Settles O56. -/
theorem cadenceRequests : Obligations.CadenceRequests := by
  unfold Obligations.CadenceRequests
  intro a s leaves
  refine ⟨fun h t hi lo mode => ?_, fun h n t hi lo mode lamp => ?_, fun t => ?_, fun h => ?_, fun h value => ⟨fun l => ?_, fun n hn => ?_⟩⟩
  · intro w period
    have hread : RequestName.timerSet.read a.port [enc TimerId.all t, hi, lo, enc TimerMode.all mode] = some (actTimerSet t (num [hi, lo]) mode) := by
      simp only [RequestName.read, readTimerSet, dec_enc_timerId, dec_enc_timerMode]
    have hclamped : (max 2 (min 16383 (num [hi, lo])) != num [hi, lo]) = decide (num [hi, lo] < 2 ∨ 16383 < num [hi, lo]) := by
      rw [Bool.eq_iff_iff, bne_iff_ne, decide_eq_true_iff]
      omega
    have hdone : actTimerSet t (num [hi, lo]) mode (s.heard a) = ({ s.heard a with cadence := s.cadence.setTimer t { w with programmed := period, mode := mode } },
        .done (be 2 period ++ [enc TimerMode.all mode, enc TimerState.all w.state] ++ be 2 w.current) (decide (num [hi, lo] < 2 ∨ 16383 < num [hi, lo]))) := by
      rw [← hclamped]
      rfl
    exact exec_done (r := .timerSet) (args := [enc TimerId.all t, hi, lo, enc TimerMode.all mode]) h (by simp) hread hdone
  · intro args
    have hread : RequestName.comparatorSet.read a.port args = some (actComparatorSet n t (num [hi, lo]) mode lamp) := by
      simp only [args, RequestName.read, readComparatorSet, dec_enc_timerId, dec_enc_comparatorMode]
    exact ⟨fun hbad => exec_refused (r := .comparatorSet) (args := args) h (by simp [args]) hread (actComparatorSet_refused hbad),
      fun i l hn hl hv hpair => exec_done (r := .comparatorSet) (args := args) h (by simp [args]) hread (actComparatorSet_done hn hl hv hpair)⟩
  · intro w
    have hread : ∀ act : TimerId → Action, readCode TimerId.all act [enc TimerId.all t] = some (act t) := fun act => by
      simp only [readCode, dec_enc_timerId]
      rfl
    refine ⟨fun h => ?_, s.cadence.start_timer t, fun t' ht => s.cadence.start_timer_other t ht,
      ⟨s.cadence.start_latches t, s.cadence.start_comparators t⟩, fun h => ?_, fun h => ?_⟩
    · have hdone : actTimerStart t (s.heard a) = ({ s.heard a with cadence := s.cadence.start t }, .ok (be 2 w.programmed ++ be 2 w.programmed)) := by
        have htimer : ((s.heard a).cadence.start t).timer t = _ := CadenceUnit.start_timer s.cadence t
        simp only [actTimerStart, htimer]
        rfl
      exact exec_done (r := .timerStart) (args := [enc TimerId.all t]) h (by simp) (hread _) hdone
    · have hdone : actTimerStop t (s.heard a) =
          ({ s.heard a with cadence := s.cadence.setTimer t (if w.state = .stopped then w else { w with state := .stopped, count := 0 }) },
            .ok [enc TimerState.all .stopped]) := actTimerStop_eq t (s.heard a)
      exact exec_done (r := .timerStop) (args := [enc TimerId.all t]) h (by simp) (hread _) hdone
    · intro st
      have hdone : actTimerStopAtEnd t (s.heard a) =
          ({ s.heard a with cadence := s.cadence.setTimer t { w with state := st } }, .ok [enc TimerState.all st]) := actTimerStopAtEnd_eq t (s.heard a)
      exact exec_done (r := .timerStopAtEnd) (args := [enc TimerId.all t]) h (by simp) (hread _) hdone
  · exact exec_done (r := .timerStatus) (args := []) h (by simp) rfl rfl
  · have hread : RequestName.lampWrite.read a.port [byte l.val, flag value] = some (actLampWrite (byte l.val) value) := by
      simp only [RequestName.read, readLampWrite, flagOf_flag, Option.map_some]
    refine exec_done (r := .lampWrite) (args := [byte l.val, flag value]) h (by simp) hread ?_
    simp only [actLampWrite, index_of_toNat (toNat_byte_slot l)]
    rfl
  · have hread : RequestName.lampWrite.read a.port [n, flag value] = some (actLampWrite n value) := by
      simp only [RequestName.read, readLampWrite, flagOf_flag, Option.map_some]
    refine exec_refused (r := .lampWrite) (args := [n, flag value]) h (by simp) hread ?_
    simp only [actLampWrite, index_of_ge hn]

end Sys2Proof.Machine
end

