-- ==== Sys2Proof/Proofs/IntercomRequests.lean ====
section
/-! PROOFS. The requests of the intercom (R148, R149, R153, R157, R162) and PIN muting (R156), and the statements `IntercomRequests` and `PinMuting`. -/
set_option Elab.async false
namespace Sys2Proof.Machine

theorem dec_enc_answerStations (x : AnswerStations) : dec AnswerStations.all (enc AnswerStations.all x) = some x :=
  dec_enc (by cases x <;> decide) (by decide)
theorem dec_enc_chimeId (x : ChimeId) : dec ChimeId.all (enc ChimeId.all x) = some x := dec_enc (by cases x <;> decide) (by decide)
theorem dec_enc_gate (x : Gate) : dec Gate.all (enc Gate.all x) = some x := dec_enc (by cases x <;> decide) (by decide)

theorem byte_of_toNat (b : Byte) : byte b.toNat = b := byte_toNat b

theorem actGainsSet_eq (g0 g1 g2 g3 : Byte) (s : State) : actGainsSet g0.toNat g1.toNat g2.toNat g3.toNat s =
    ({ s with intercom := { s.intercom with gains := ⟨min 127 g0.toNat, min 127 g1.toNat, min 127 g2.toNat, min 127 g3.toNat⟩ } },
      .done [byte (min 127 g0.toNat), byte (min 127 g1.toNat), byte (min 127 g2.toNat), byte (min 127 g3.toNat)]
        (decide (127 < g0.toNat ∨ 127 < g1.toNat ∨ 127 < g2.toNat ∨ 127 < g3.toNat))) := by
  have hclamped : ((⟨min 127 g0.toNat, min 127 g1.toNat, min 127 g2.toNat, min 127 g3.toNat⟩ : Gains) != ⟨g0.toNat, g1.toNat, g2.toNat, g3.toNat⟩)
      = decide (127 < g0.toNat ∨ 127 < g1.toNat ∨ 127 < g2.toNat ∨ 127 < g3.toNat) := by
    rw [Bool.eq_iff_iff, bne_iff_ne, decide_eq_true_iff, ne_eq, Gains.mk.injEq]
    omega
  rw [← hclamped]
  rfl

theorem actChimeSet_done {chime : ChimeId} {half hi lo duration : Byte} {gate : Gate} (h2 : 2 ≤ half.toNat) (h80 : half.toNat ≤ 80) (hd : duration ≠ 0) (s : State) :
    actChimeSet chime half.toNat (num [hi, lo]) duration.toNat gate s =
      ({ s with intercom := { s.intercom with chimes := s.intercom.chimes.write chime ⟨half.toNat, min 16383 (num [hi, lo]), duration.toNat, gate⟩ } },
        .done ([half] ++ be 2 (min 16383 (num [hi, lo])) ++ [duration, enc Gate.all gate]) (decide (16383 < num [hi, lo]))) := by
  have hclamped : (min 16383 (num [hi, lo]) != num [hi, lo]) = decide (16383 < num [hi, lo]) := by
    rw [Bool.eq_iff_iff, bne_iff_ne, decide_eq_true_iff]
    omega
  have hzero : duration.toNat ≠ 0 := fun hz => hd (BitVec.eq_of_toNat_eq hz)
  have hrange : ¬ (half.toNat < 2 ∨ 80 < half.toNat ∨ duration.toNat = 0) := by omega
  rw [actChimeSet, if_neg hrange, ← hclamped]
  simp only [chimeBytes, byte_of_toNat]
  rfl

theorem StationSet.not_isEmpty (x : StationSet) : (!x.isEmpty) = (x.left || x.right) := by
  obtain ⟨l, r⟩ := x
  cases l <;> cases r <;> rfl

/-- Settles O57. -/
theorem intercomRequests : Obligations.IntercomRequests := by
  unfold Obligations.IntercomRequests
  intro a s x leaves
  refine ⟨fun h stations => ?_, fun h => ?_, fun h g0 g1 g2 g3 => ?_, fun h chime half hi lo duration gate => ?_, fun h chime => ?_, fun h => ?_⟩
  · intro named
    have hread : RequestName.answer.read a.port [enc AnswerStations.all stations] = some (actAnswer stations) := by
      simp only [RequestName.read, readCode, dec_enc_answerStations]
      rfl
    have hup : (s.heard a).isUp .p = s.isUp .p := port_restartSilence_up ..
    refine ⟨fun hp => ?_, fun hp => ?_⟩
    · refine exec_refused (r := .answer) (args := [enc AnswerStations.all stations]) h (by simp) hread ?_
      rw [actAnswer_eq, hup, hp]
      rfl
    · intro done
      have hnamed : stations.set = named := by cases stations <;> rfl
      have hdone : ∀ y : IntercomUnit, x.answered named = y → y.state = .opened → done y := fun y hy hopened => by
        refine exec_done (r := .answer) (args := [enc AnswerStations.all stations]) (t := { s.heard a with intercom := y }) (res := .ok [enc IntercomState.all .opened, y.opened.byte]) h (by simp) hread ?_
        rw [actAnswer_eq, hup, hp, hnamed, ← hopened, ← hy]
        rfl
      refine ⟨fun hx => hdone _ ?_ rfl, fun hx => hdone _ ?_ rfl, fun hx => hdone _ ?_ hx, fun hx => hdone _ ?_ rfl⟩ <;>
        simp only [IntercomUnit.answered, hx, IntercomUnit.openWith]
  · refine exec_done (r := .hangup) (args := []) h (by simp) rfl ?_
    have hhang : (if x.state = .quiet then x else { x.hush with driverPlayer := none }) = if x.state = .quiet then x else
        { x with state := .quiet, calling := .none, opened := .none, callTimer := none, driverPlayer := none } := rfl
    rw [← hhang]
    rfl
  · exact exec_done (r := .gainsSet) (args := [g0, g1, g2, g3]) h (by simp) rfl (actGainsSet_eq g0 g1 g2 g3 (s.heard a))
  · intro args y
    have hread : RequestName.chimeSet.read a.port args = some (actChimeSet chime half.toNat (num [hi, lo]) duration.toNat gate) := by
      simp only [args, RequestName.read, readChimeSet, dec_enc_chimeId, dec_enc_gate]
    refine ⟨fun h2 h80 hd => exec_done (r := .chimeSet) (args := args) h (by simp [args]) hread (actChimeSet_done h2 h80 hd (s.heard a)), fun hbad => ?_⟩
    refine exec_refused (r := .chimeSet) (args := args) h (by simp [args]) hread (if_pos ?_)
    exact hbad.imp_right (Or.imp_right fun hz => by rw [hz]; rfl)
  · intro y
    have hread : RequestName.chimeRead.read a.port [enc ChimeId.all chime] = some (actChimeRead chime) := by
      simp only [RequestName.read, readCode, dec_enc_chimeId]
      rfl
    exact exec_answered (r := .chimeRead) (args := [enc ChimeId.all chime]) h (by simp) hread rfl
  · intro common
    refine ⟨fun hc => ?_, fun hd => ?_⟩
    · refine exec_answered (r := .intercomStatus) (args := []) (act := actIntercomStatus a.port) h (by simp) rfl ?_
      rw [actIntercomStatus, hc]
      simp only [StationSet.not_isEmpty, reduceCtorEq, if_false, List.append_nil]
      rfl
    · refine exec_answered (r := .intercomStatus) (args := []) (act := actIntercomStatus a.port) h (by simp) rfl ?_
      rw [actIntercomStatus, hd]
      simp only [StationSet.not_isEmpty, if_true]
      rfl

/-! ### PIN muting (R156) -/

theorem samples_append {l : List Byte} {n : Nat} (hl : l.length = 2 * n) (r : List Byte) : samples (l ++ r) = samples l ++ samples r := by
  induction n generalizing l with
  | zero => simp [List.length_eq_zero_iff.mp hl, samples]
  | succ n ih =>
    match l, hl with
    | hi :: lo :: rest, hl =>
      have hrest : rest.length = 2 * n := by simp at hl; omega
      simp [samples, ih hrest]

theorem samples_length {l : List Byte} {n : Nat} (hl : l.length = 2 * n) : (samples l).length = n := by
  induction n generalizing l with
  | zero => simp [List.length_eq_zero_iff.mp hl, samples]
  | succ n ih =>
    match l, hl with
    | hi :: lo :: rest, hl =>
      have hrest : rest.length = 2 * n := by simp at hl; omega
      simp [samples, ih hrest]

/-- Muted samples depend on how many there are alone. -/
theorem muteSamples_true {xs ys : List Int} (h : xs.length = ys.length) : muteSamples true xs = muteSamples true ys := by
  simp [muteSamples, h]

theorem takeButtons_muted (left right : Bool) (s : State) : (takeButtons left right s).intercom.muted = s.mutedStations := by
  have hmuted : ∀ t u : State, t.payment = u.payment → t.fare = u.fare → t.mutedStations = u.mutedStations := fun t u hp hf => by
    simp only [State.mutedStations, State.pinHead, State.party, hp, hf]
  unfold takeButtons
  dsimp only
  refine hmuted _ _ ?_ ?_ <;> split <;> split <;> simp

theorem takeAudioP_split {left right : List Byte} (hl : left.length = 80) (buttons : Byte) (s : State) :
    takeAudioP (buttons :: left ++ right) s =
      let t := takeButtons (buttons.getLsbD 0) (buttons.getLsbD 1) s
      let l := muteSamples s.mutedStations.left (samples left)
      let r := muteSamples s.mutedStations.right (samples right)
      formListenBlock l r (formDriverBlock l r t) := by
  have hsplit := samples_append (n := 40) hl right
  have hlen : (samples left).length = 40 := samples_length hl
  simp only [List.cons_append, takeAudioP, takeButtons_muted, hsplit, Config.blockSamples, List.take_left' hlen, List.drop_left' hlen]

theorem ingressFailure_audio_p (a : Arrival) {payload : List Byte} (h : payload.length = 161) :
    ingressFailure .p (frameOf .audio a.route a.tag payload) = none := by
  have h8 : (byte payload.length).toNat = 161 := by rw [h]; rfl
  have hk : kindOf (frameOf .audio a.route a.tag payload) = some .audio := rfl
  have ht : lengthTest (frameOf .audio a.route a.tag payload) = true := by simp [lengthTest, frameOf, Config.maxPayload, h]
  simp only [ingressFailure, ht, hk]
  simp [acceptedKinds, payloadTest, frameOf, h]

/-- Settles O59: both stations' samples reach the blocks through `muteSamples` alone. -/
theorem pinMuting : Obligations.PinMuting := by
  unfold Obligations.PinMuting
  intro a s r buttons left left' right right' ha h hpin hl hl' hr hr' hstation
  have hmuted : (s.heard a).mutedStations = match (s.party r.slot).station with
      | .left => ⟨true, false⟩ | .right => ⟨false, true⟩ | .none => ⟨true, true⟩ := by
    simp only [State.mutedStations, show (s.heard a).pinHead = some r from hpin]
    rfl
  have hquiet : ∀ {x y : List Byte}, x.length = 80 → y.length = 80 → muteSamples true (samples x) = muteSamples true (samples y) := fun hx hy =>
    muteSamples_true ((samples_length (n := 40) hx).trans (samples_length (n := 40) hy).symm)
  have htake : takeAudioP (buttons :: left' ++ right') (s.heard a) = takeAudioP (buttons :: left ++ right) (s.heard a) := by
    rw [takeAudioP_split hl, takeAudioP_split hl', hmuted]
    rcases hstation with ⟨hst, rfl⟩ | ⟨hst, rfl⟩ | hst <;> rw [hst] <;> dsimp only
    · rw [hquiet hl hl']
    · rw [hquiet hr hr']
    · rw [hquiet hl hl', hquiet hr hr']
  have harrive : ∀ {x y : List Byte}, x.length = 80 → y.length = 80 →
      arrive a .audio (buttons :: x ++ y) s = takeAudioP (buttons :: x ++ y) (s.heard a) := fun {x y} hx hy => by
    have hlen : (buttons :: x ++ y).length = 161 := by simp [hx, hy]
    exact arrive_of_hears a .audio _ s (by rw [ha]; exact h) (by rw [ha]; exact ingressFailure_audio_p a hlen) |>.trans (if_pos ha)
  have hexec : ∀ payload, exec (.audioFromP a payload) s = event (arrive a .audio payload) s := fun _ => rfl
  obtain ⟨u, hu⟩ : ∃ u, exec (.audioFromP a (buttons :: left ++ right)) s = .next u := ⟨_, rfl⟩
  refine ⟨u, hu, ?_⟩
  rw [← hu, hexec, hexec, event, event, harrive hl hr, harrive hl' hr', htake]

end Sys2Proof.Machine
end

