-- ==== Sys2Proof/Proofs/SilenceTakesDown.lean ====
section
/-! PROOFS. What a port going DOWN leaves of its lanes and what the blocks then do, and the statement `SilenceTakesDown`. -/
set_option Elab.async false
namespace Sys2Proof.Machine

/-! ### The port itself (R166, R167) -/

/-- A DOWN port with nothing to send and no silence timer running. -/
def PortState.Silenced (x : PortState) : Prop :=
  x.up = false ∧ x.silence = none ∧ x.voice = [] ∧ x.general = [] ∧ x.sending = none

theorem PortState.silenced_down (x : PortState) : x.down.Silenced := by
  unfold PortState.down PortState.abandon
  split <;> simp_all [PortState.Silenced]

/-- A DOWN port discards what is placed toward it. -/
theorem PortState.Silenced.placed {x : PortState} (h : x.Silenced) (f : Frame) : (x.placed f).Silenced := by
  have hup : (!x.up) = true := by simp [h.1]
  unfold PortState.placed PortState.placeGeneral
  rw [if_pos hup]
  exact h

theorem silenced_sendClosed (q : Port) : SendClosed fun r x => r = q → x.Silenced where
  place _ _ f h hr := (h hr).placed f
  discard _ _ h hr := h hr
  purge _ _ h hr := let ⟨hup, hsilence, _, hrest⟩ := h hr; ⟨hup, hsilence, rfl, hrest⟩

/-- The state once a port's link is DOWN, before it is told. -/
def State.linkedDown (s : State) (q : Port) : State := s.setPort q (s.port q).down

theorem goDown_eq (q : Port) (s : State) : goDown q s = deliverDown q (notifyLink q false (s.linkedDown q)) := rfl

theorem goDown_silenced (q : Port) (s : State) : ((goDown q s).port q).Silenced := by
  refine (State.Ports.deliverDown (I := fun r x => r = q → x.Silenced) (.notifyLink ⟨silenced_sendClosed q, fun r hr => ?_⟩)).holds q rfl
  rw [hr, State.port_setPort_same]
  exact PortState.silenced_down _

theorem goDown_isUp_other (q r : Port) (s : State) (h : r ≠ q) : (goDown q s).isUp r = s.isUp r := by
  have hup : (s.linkedDown q).isUp r = s.isUp r := congrArg PortState.up (State.port_setPort_other _ _ _ _ h)
  exact (isUp_of_face (s.linkedDown q) _ (by simp [goDown_eq, notifyLink]) r).trans hup

/-! ### K going DOWN (R87) -/

theorem cardLinkDown_of_empty {s : State} (h : s.payment.queue = []) : cardLinkDown s = s := by simp [cardLinkDown, h]

/-- Cancelling the records of a queue one after another empties it. -/
theorem cancelAll_queue (rs : List Record) (s : State) (h : s.payment.queue.map Record.slot = rs.map Record.slot) :
    (rs.foldl (fun s r => cancelRecord r.slot .link s) s).payment.queue = [] := by
  induction rs generalizing s with
  | nil => simpa using h
  | cons r rs ih =>
    cases hq : s.payment.queue with
    | nil => simp [hq] at h
    | cons x xs =>
      rw [hq, List.map_cons, List.map_cons, List.cons.injEq] at h
      obtain ⟨hslot, hrest⟩ := h
      refine ih _ ?_
      have hleft : (cancelRecord r.slot .link s).payment.queue = promotedQueue xs := by rw [← hslot, cancelRecord_head_payment hq]
      refine (congrArg (List.map Record.slot) hleft).trans (Eq.trans ?_ hrest)
      cases xs <;> rfl

/-- Cancelling the records behind the head one after another leaves the head alone. -/
theorem cancelBehind_queue (r : Record) (rs : List Record) (s : State) (hq : s.payment.queue = r :: rs) (hdistinct : ((r :: rs).map Record.slot).Nodup) :
    (rs.foldl (fun s r => cancelRecord r.slot .link s) s).payment.queue = [r] := by
  induction rs generalizing s with
  | nil => exact hq
  | cons x xs ih =>
    simp only [List.map_cons, List.nodup_cons, List.mem_cons, List.mem_map, not_or, not_exists, not_and] at hdistinct
    obtain ⟨⟨hx, hxs⟩, hfresh, hnodup⟩ := hdistinct
    have hleft : (cancelRecord x.slot .link s).payment.queue = r :: xs := by
      rw [cancelRecord_later_payment hq _ _ (Ne.symm hx)]
      simp only [hq, List.filter_cons, bne_self_eq_false, bne_iff_ne.mpr hx, if_true, Bool.false_eq_true, if_false, List.cons.injEq, true_and]
      exact List.filter_eq_self.mpr fun y hy => bne_iff_ne.mpr (hfresh y hy)
    exact ih _ hleft (by simpa [List.nodup_cons] using ⟨hxs, hnodup⟩)

/-- What K going DOWN leaves of a sound queue: the record that is AUTHORIZING (R87). -/
theorem cardLinkDown_queue {s : State} (hsound : s.payment.queueSound = true) (hdistinct : (s.payment.queue.map Record.slot).Nodup) :
    (cardLinkDown s).payment.queue = s.payment.queue.filter fun r => r.state == .authorizing := by
  cases hq : s.payment.queue with
  | nil => rw [cardLinkDown_of_empty hq, hq, List.filter_nil]
  | cons r rest =>
    simp only [PaymentUnit.queueSound, hq, Bool.and_eq_true, List.all_eq_true, beq_iff_eq] at hsound
    obtain ⟨⟨⟨⟨-, hrest⟩, -⟩, -⟩, -⟩ := hsound
    have hcancelled : rest.filter (fun y => y.state != .authorizing) = rest := List.filter_eq_self.mpr fun y hy => by simp [(hrest y hy).1]
    have hkept : rest.filter (fun y => y.state == .authorizing) = [] := List.filter_eq_nil_iff.mpr fun y hy => by simp [(hrest y hy).1]
    unfold cardLinkDown
    by_cases hr : r.state = .authorizing
    · simp only [hq, List.filter_cons, hr, hcancelled, hkept, bne_self_eq_false, beq_self_eq_true, Bool.false_eq_true, if_true, if_false]
      exact cancelBehind_queue r rest s hq (hq ▸ hdistinct)
    · simp only [hq, List.filter_cons, hcancelled, hkept, bne_iff_ne.mpr hr, beq_eq_false_iff_ne.mpr hr, Bool.false_eq_true, if_true, if_false]
      exact cancelAll_queue (r :: rest) s (by rw [hq])

theorem cardLinkDown_port_d (s : State) : (cardLinkDown s).port .d = s.port .d :=
  foldl_keeps (fun s : State => s.port .d) _ (fun b (r : Record) => cancelRecord_port_d r.slot .link b) _ s

theorem cardLinkDown_seqD (s : State) : (cardLinkDown s).request.seqD = s.request.seqD :=
  foldl_keeps (fun s : State => s.request.seqD) _ (fun b (r : Record) => cancelRecord_seqD r.slot .link b) _ s

/-! ### The intercom told of a port (R151) -/

theorem notifyMissed_port_c (set : StationSet) (s : State) : (notifyMissed set s).port .c = (s.port .c).missedTold s.request.seqC set := by
  obtain ⟨left, right⟩ := set
  cases left <;> cases right <;> simp [notifyMissed, PortState.missedTold, notifyC_port_c, notifyC_request] <;> rfl

theorem notifyMissed_port_d (set : StationSet) (s : State) : (notifyMissed set s).port .d = s.port .d := by
  unfold notifyMissed
  dsimp only
  split_ifs <;> simp only [notifyC_port_other _ _ _ .d (by decide)]

theorem notifyMissed_seqD (set : StationSet) (s : State) : (notifyMissed set s).request.seqD = s.request.seqD := by
  unfold notifyMissed
  dsimp only
  split_ifs <;> rfl

theorem talkFall_told (s : State) : (talkFall s).link = s.link ∧ (talkFall s).request = s.request := by
  unfold talkFall
  dsimp only
  split
  · split
    · exact ⟨rfl, rfl⟩
    · exact ⟨triggerChime_link _ _, by simp⟩
  · exact ⟨rfl, rfl⟩

theorem intercomConsoleDown_told (s : State) : (intercomConsoleDown s).link = s.link ∧ (intercomConsoleDown s).request = s.request := talkFall_told s

/-! ### What the blocks tell of a port going DOWN (R167) -/

section told
variable (q : Port) (s : State)

/-- No block tells D of a port going DOWN. -/
theorem deliverDown_towardD : (deliverDown q s).port .d = s.port .d ∧ (deliverDown q s).request.seqD = s.request.seqD := by
  cases q
  case d | s | v => exact ⟨rfl, rfl⟩
  case c => exact ⟨State.port_of_link (intercomConsoleDown_told s).1 _, congrArg RequestUnit.seqD (intercomConsoleDown_told s).2⟩
  case p => exact ⟨notifyMissed_port_d .., notifyMissed_seqD ..⟩
  case k => exact ⟨cardLinkDown_port_d s, cardLinkDown_seqD s⟩

theorem goDown_towardD (h : q ≠ .d) :
    (goDown q s).port .d = (s.port .d).placed (noticeFrame s.request.seqD .link [byte q.number, 0])
      ∧ (goDown q s).request.seqD = nextSeq s.request.seqD := by
  obtain ⟨hport, hseq⟩ := deliverDown_towardD q (notifyLink q false (s.linkedDown q))
  rw [goDown_eq, hport, hseq, notifyLink, notifyBoth_port_d, notifyBoth_request, State.linkedDown, State.port_setPort_other _ _ _ _ h.symm]
  exact ⟨rfl, rfl⟩

/-- What tells C of a port's LINK notice. -/
theorem linkDownTold_port_c (h : q ≠ .c) :
    (notifyLink q false (s.linkedDown q)).port .c = (s.port .c).placed (noticeFrame s.request.seqC .link [byte q.number, 0]) := by
  rw [notifyLink, notifyBoth_port_c, State.linkedDown, State.port_setPort_other _ _ _ _ h.symm]
  rfl

theorem linkDownTold_port_p (h : q ≠ .p) : (notifyLink q false (s.linkedDown q)).port .p = s.port .p := by
  rw [notifyLink, notifyBoth_port_other _ _ _ _ (by decide) (by decide), State.linkedDown, State.port_setPort_other _ _ _ _ h.symm]

end told

/-- What tells of the end of a record says so from any state that C and P see alike. -/
theorem State.payTold.from_beside {b b' u : State} {i : Fin 4} {trip : Nat} {result cause marker : Byte} (h : b.Beside b')
    (htold : b'.payTold u i trip result cause marker) : b.payTold u i trip result cause marker := by
  obtain ⟨hseq, hc, hp⟩ := htold
  refine ⟨hseq.trans (by rw [h.seqC]), hc.trans ?_, hp.trans ?_⟩
  · rw [h.portC, h.seqC, PortState.tripShown_congr _ i trip h.fare h.seqC rfl]
  · rw [h.portP, PortState.shownPassenger_congr _ _ _ _ _ h.fare rfl]

/-- Settles O22: the port by `goDown_silenced`, the blocks by what `deliverDown` does at each port. -/
theorem silenceTakesDown : Obligations.SilenceTakesDown := by
  unfold Obligations.SilenceTakesDown
  intro q s hrun hsilence
  obtain ⟨n, hn⟩ := Option.isSome_iff_exists.mp hsilence
  have hexpiry : silenceExpiry q s = if s.isUp q then goDown q s else s.setPort q { s.port q with silence := none, bringUp := false } := by
    rw [silenceExpiry, hn]
  refine ⟨fun hup => ?_, fun hup => ?_⟩
  · rw [if_neg (by simp [hup])] at hexpiry
    exact (event_of_run _ _ hrun (by rw [hexpiry]; exact hrun)).trans (by rw [hexpiry])
  · rw [if_pos hup] at hexpiry
    obtain ⟨hdown, hstopped, hvoice, hgeneral, hsending⟩ := goDown_silenced q s
    let told := notifyLink q false (s.linkedDown q)
    refine ⟨goDown q s, (event_of_run _ _ hrun (by rw [hexpiry]; exact running_moveClosed.goDown q hrun)).trans (by rw [hexpiry]),
      hdown, hstopped, hvoice, hgeneral, hsending, fun r hr => goDown_isUp_other q r s hr, ?_, ?_, ?_, ?_, ?_, ?_, ?_, goDown_towardD q s⟩
    · rintro rfl
      exact ⟨rfl, rfl, rfl, rfl, rfl⟩
    · rintro rfl
      exact ⟨rfl, rfl, rfl⟩
    · rintro rfl
      exact ⟨rfl, rfl, rfl, rfl⟩
    · rintro rfl hsound hdistinct
      exact cardLinkDown_queue (s := told) hsound hdistinct
    · rintro (rfl | rfl | rfl | ⟨rfl, hempty⟩)
      · exact linkDownTold_port_c .d s (by decide)
      · exact linkDownTold_port_c .s s (by decide)
      · exact linkDownTold_port_c .v s (by decide)
      · rw [goDown_eq, deliverDown, cardLinkDown_of_empty (s := told) hempty]
        exact linkDownTold_port_c .k s (by decide)
    · rintro rfl
      refine (notifyMissed_port_c _ told).trans ?_
      rw [linkDownTold_port_c .p s (by decide)]
      rfl
    · rintro rfl r hq hr
      have hlone : goDown .k s = cancelRecord r.slot .link told := by
        rw [goDown_eq, deliverDown, cardLinkDown]
        change ((s.payment.queue.filter _).foldl _ told) = _
        simp [hq, hr]
      have hbeside : (notifyC .link [3, 0] s).Beside told :=
        ⟨rfl, rfl, (linkDownTold_port_c .k s (by decide)).trans (notifyC_port_c ..).symm,
          (linkDownTold_port_p .k s (by decide)).trans (notifyC_port_other _ _ _ .p (by decide)).symm⟩
      rw [hlone]
      exact State.payTold.from_beside hbeside (cancelRecord_payTold r.slot .link told)

end Sys2Proof.Machine
end

