-- ==== Sys2Proof/Proofs/PortShut.lean ====
section
/-! PROOFS. A port shut by the power unit, the pending shut of S, and the park. -/
set_option Elab.async false
namespace Sys2Proof.Machine

/-! ### A port shut (R166) -/

/-- The state once a port is shut and, where it was UP, its LINK notices are placed. -/
def State.shutTold (s : State) (q : Port) : State :=
  if s.isUp q then notifyLink q false (s.setPort q (s.port q).closed.down) else s.setPort q (s.port q).closed

section shut
variable (q : Port) (s : State)

/-- A shut does no more than this where the blocks have nothing to do at the port's going DOWN. -/
theorem shutPort_of_undelivered (h : ∀ t : State, t.payment = s.payment → t.intercom = s.intercom → deliverDown q t = t) :
    shutPort q s = s.shutTold q := by
  unfold shutPort State.shutTold
  dsimp only
  rw [goDown_setPort, h (notifyLink q false (s.setPort q (s.port q).closed.down)) rfl rfl]

theorem PortState.closed_down_shut (x : PortState) : x.closed.down.shut = true := PortState.down_shut x.closed

/-- Link states and shut marks are those of the port shut alone. -/
theorem shutTold_face : (s.shutTold q).link.face = (s.setPort q (if s.isUp q then (s.port q).closed.down else (s.port q).closed)).link.face := by
  unfold State.shutTold
  split <;> simp [notifyLink]

theorem shutTold_shut : ((s.shutTold q).port q).shut = true ∧ (s.shutTold q).isUp q = false := by
  have hface := face_of_face _ _ (shutTold_face q s) q
  rw [State.port_setPort_same] at hface
  have hshut : ((s.shutTold q).port q).shut = _ := congrArg PortFace.shut hface
  have hup : (s.shutTold q).isUp q = _ := congrArg PortFace.up hface
  refine ⟨hshut.trans ?_, hup.trans ?_⟩
  · split
    · exact PortState.closed_down_shut (s.port q)
    · rfl
  · split
    · rfl
    · exact Bool.eq_false_iff.mpr ‹¬ s.isUp q = true›

theorem shutTold_face_other (r : Port) (h : r ≠ q) : ((s.shutTold q).port r).face = (s.port r).face := by
  rw [face_of_face _ _ (shutTold_face q s) r, State.port_setPort_other _ _ _ _ h]

theorem shutTold_isUp_other (r : Port) (h : r ≠ q) : (s.shutTold q).isUp r = s.isUp r := congrArg PortFace.up (shutTold_face_other q s r h)

theorem shutTold_shut_other (r : Port) (h : r ≠ q) : ((s.shutTold q).port r).shut = (s.port r).shut :=
  congrArg PortFace.shut (shutTold_face_other q s r h)

theorem shutTold_port_other (r : Port) (h : r ≠ q) (hc : r ≠ .c) (hd : r ≠ .d) : (s.shutTold q).port r = s.port r := by
  unfold State.shutTold
  split
  · rw [notifyLink, notifyBoth_port_other _ _ _ _ hc hd, State.port_setPort_other _ _ _ _ h]
  · exact State.port_setPort_other _ _ _ _ h

theorem shutTold_towardD (h : q ≠ .d) : (s.shutTold q).towardD = s.linksLost s.towardD [q] := by
  unfold State.shutTold
  simp only [State.linksLost, List.foldl_cons, List.foldl_nil]
  split
  · rw [State.towardD, notifyLink, notifyBoth_port_d, notifyBoth_request, State.port_setPort_other _ _ _ _ h.symm]
    rfl
  · rw [State.towardD, State.port_setPort_other _ _ _ _ h.symm]
    rfl

theorem shutTold_changesOnly : s.changesOnly (s.shutTold q) [.link, .request] := by
  unfold State.shutTold
  split <;> simp [State.changesOnly, notifyLink]

end shut

/-! ### The pending shut of S (R185) -/

/-- Whether S has drained: its general lane empty and its transmitter idle. -/
def State.signDrained (s : State) : Prop := (s.port .s).general = [] ∧ (s.port .s).sending = none

theorem settleSign_of_drained {s : State} (hparked : s.power.state = .parked) (hpending : s.power.shutPending = true) (h : s.signDrained) :
    settleSign s = { s.shutTold .s with power := { s.power with shutPending := false } } := by
  have hpower : (s.shutTold .s).power = s.power := by simpa [State.changesOnly] using (shutTold_changesOnly .s s).2.2.2.2.2.2.2.2.2.2.2
  have hdue : s.parked ∧ s.power.shutPending ∧ (s.port .s).general.isEmpty ∧ (s.port .s).sending.isNone := by
    simp [State.parked, hparked, hpending, h.1, h.2]
  rw [settleSign, if_pos hdue, shutPort_of_undelivered .s s fun _ _ _ => rfl]
  dsimp only
  rw [hpower]

theorem settleSign_of_not_drained {s : State} (h : ¬ s.signDrained) : settleSign s = s :=
  if_neg fun hdue => h ⟨List.isEmpty_iff.mp hdue.2.2.1, Option.isNone_iff_eq_none.mp hdue.2.2.2⟩

/-- A frame placed toward an UP port waits or is being sent. -/
theorem PortState.placed_not_drained (x : PortState) (f : Frame) (h : x.up = true) : (x.placed f).general = [] → (x.placed f).sending ≠ none := by
  unfold PortState.placed PortState.placeGeneral PortState.arbitrate PortState.countDiscard
  simp only [h, Bool.not_true, Bool.false_eq_true, if_false]
  split
  · rename_i hfull
    intro hempty
    have hnil : x.general = [] := hempty
    simp [hnil, Config.generalCapacity] at hfull
  · cases x.sending <;> cases x.voice <;> cases x.general <;> simp

/-! ### The park (R185) -/

/-- No payment is under way and the intercom is as the park leaves it, so that no block has anything to do at a port's going DOWN. -/
structure State.Hushed (s : State) : Prop where
  queue : s.payment.queue = []
  intercom : ∃ x : IntercomUnit, s.intercom = x.park

theorem State.setIntercom_self {s : State} {x : IntercomUnit} (h : s.intercom = x) : s.setIntercom x = s := by
  subst h
  rfl

theorem State.Hushed.deliverDown {s : State} (h : s.Hushed) {q : Port} (hq : q ≠ .d) : deliverDown q s = s := by
  obtain ⟨hqueue, x, hx⟩ := h
  cases q
  case d => exact absurd rfl hq
  case s | v => rfl
  case k => exact cardLinkDown_of_empty hqueue
  case c =>
    have hfall : talkFall s = s := by simp [talkFall, hx, IntercomUnit.park, IntercomUnit.hush]
    refine (congrArg (fun t : State => t.setIntercom { t.intercom with seenTalk := false, driverPlayer := none, partitionPlayer := none }) hfall).trans ?_
    exact State.setIntercom_self (by rw [hx]; rfl)
  case p =>
    have hmissed : notifyMissed s.intercom.calling s = s := by simp [notifyMissed, hx, IntercomUnit.park, IntercomUnit.hush, StationSet.none]
    refine (congrArg (fun t : State => t.setIntercom { t.intercom.hush with
      driverPlayer := none, partitionPlayer := none, seenLeft := false, seenRight := false }) hmissed).trans ?_
    exact State.setIntercom_self (by rw [hx]; rfl)

theorem State.Hushed.shutPort {s : State} (h : s.Hushed) {q : Port} (hq : q ≠ .d) : shutPort q s = s.shutTold q :=
  shutPort_of_undelivered q s fun _ hpayment hintercom => (State.Hushed.mk (hpayment ▸ h.queue) (hintercom ▸ h.intercom)).deliverDown hq

theorem State.Hushed.of_shutTold {s : State} (h : s.Hushed) (q : Port) : (s.shutTold q).Hushed := by
  have hpayment : (s.shutTold q).payment = s.payment := by simpa using (shutTold_changesOnly q s).2.2.2.2.2.2.1
  have hintercom : (s.shutTold q).intercom = s.intercom := by simpa using (shutTold_changesOnly q s).2.2.2.2.2.2.2.2.2.2.1
  exact ⟨hpayment ▸ h.queue, hintercom ▸ h.intercom⟩

/-- The hub told of its park: the notice, the dark sign and the intercom's hush, before any port is shut. -/
def State.parkTold (s : State) : State :=
  let t := parkSign (notifyD .parking [] { s with power := s.power.park })
  t.setIntercom t.intercom.park

/-- The hub at its park with C, P and K shut. -/
def State.parkShut (s : State) : State := ((s.parkTold.shutTold .c).shutTold .p).shutTold .k

section park
variable (s : State)

theorem parkTold_intercom : s.parkTold.intercom = s.intercom.park := by simp [State.parkTold, State.setIntercom]

theorem parkTold_payment : s.parkTold.payment = s.payment := by simp [State.parkTold, State.setIntercom]

theorem parkTold_hushed (h : s.payment.queue = []) : s.parkTold.Hushed := ⟨by rw [parkTold_payment, h], s.intercom, parkTold_intercom s⟩

theorem parkTold_port_other (q : Port) (hd : q ≠ .d) (hs : q ≠ .s) : s.parkTold.port q = s.port q := by
  have hdark : (parkSign (notifyD .parking [] { s with power := s.power.park })).port q = (notifyD .parking [] { s with power := s.power.park }).port q := by
    unfold parkSign
    dsimp only
    split
    · exact emit_port_other _ _ _ _ hs
    · rfl
  exact hdark.trans (notifyD_port_other _ _ _ _ hd)

theorem parkTold_port_s : s.parkTold.port .s = if s.isUp .s then (s.port .s).placed (signFrame .dark) else s.port .s := by
  have hport : (notifyD .parking [] { s with power := s.power.park }).port .s = s.port .s := notifyD_port_other _ _ _ _ (by decide)
  have hup : (notifyD .parking [] { s with power := s.power.park }).isUp .s = s.isUp .s := congrArg PortState.up hport
  change (parkSign (notifyD .parking [] { s with power := s.power.park })).port .s = _
  unfold parkSign
  rw [hup]
  split
  · exact (emit_port_same ..).trans (congrArg (PortState.placed · _) hport)
  · exact hport

theorem parkTold_towardD : s.parkTold.towardD = ((s.port .d).placed (noticeFrame s.request.seqD .parking []), nextSeq s.request.seqD) := by
  have hdark : (parkSign (notifyD .parking [] { s with power := s.power.park })).port .d = (notifyD .parking [] { s with power := s.power.park }).port .d := by
    unfold parkSign
    dsimp only
    split
    · exact emit_port_other _ _ _ _ (by decide)
    · rfl
  exact Prod.ext (hdark.trans (notifyD_port_d ..)) (congrArg RequestUnit.seqD (parkSign_request _))

theorem parkTold_face : s.parkTold.link.face = s.link.face := by simp [State.parkTold, State.setIntercom]

theorem parkTold_isUp (q : Port) : s.parkTold.isUp q = s.isUp q := isUp_of_face _ _ (parkTold_face s) q

theorem parkTold_sign : s.parkTold.sign = { s.sign with output := .dark, imageInUse := none, refresh := 0 } := by
  change (parkSign (notifyD .parking [] { s with power := s.power.park })).sign = _
  unfold parkSign
  dsimp only
  split <;> rfl

theorem parkTold_power : s.parkTold.power = s.power.park := by simp [State.parkTold, State.setIntercom]

/-- The ports that the park shuts are DOWN and shut, and the others stand. -/
theorem parkShut_shut (q : Port) (h : q = .c ∨ q = .p ∨ q = .k) : (s.parkShut.port q).shut = true ∧ s.parkShut.isUp q = false := by
  unfold State.parkShut
  have hk := shutTold_face_other .k ((s.parkTold.shutTold .c).shutTold .p)
  have hp := shutTold_face_other .p (s.parkTold.shutTold .c)
  obtain rfl | rfl | rfl := h
  · obtain ⟨hshut, hup⟩ := shutTold_shut .c s.parkTold
    have hc := (hk .c (by decide)).trans (hp .c (by decide))
    exact ⟨(congrArg PortFace.shut hc).trans hshut, (congrArg PortFace.up hc).trans hup⟩
  · obtain ⟨hshut, hup⟩ := shutTold_shut .p (s.parkTold.shutTold .c)
    exact ⟨(congrArg PortFace.shut (hk .p (by decide))).trans hshut, (congrArg PortFace.up (hk .p (by decide))).trans hup⟩
  · exact shutTold_shut .k _

theorem parkShut_port_other (q : Port) (h : q = .s ∨ q = .v) : s.parkShut.port q = s.parkTold.port q := by
  unfold State.parkShut
  obtain rfl | rfl := h <;>
    rw [shutTold_port_other _ _ _ (by decide) (by decide) (by decide), shutTold_port_other _ _ _ (by decide) (by decide) (by decide),
      shutTold_port_other _ _ _ (by decide) (by decide) (by decide)]

theorem parkShut_isUp_d : s.parkShut.isUp .d = s.isUp .d := by
  unfold State.parkShut
  rw [shutTold_isUp_other _ _ _ (by decide), shutTold_isUp_other _ _ _ (by decide), shutTold_isUp_other _ _ _ (by decide), parkTold_isUp]

theorem parkShut_towardD : s.parkShut.towardD =
    s.linksLost ((s.port .d).placed (noticeFrame s.request.seqD .parking []), nextSeq s.request.seqD) [.c, .p, .k] := by
  unfold State.parkShut
  rw [shutTold_towardD _ _ (by decide), shutTold_towardD _ _ (by decide), shutTold_towardD _ _ (by decide), parkTold_towardD]
  simp only [State.linksLost, List.foldl_cons, List.foldl_nil]
  rw [shutTold_isUp_other .p _ .k (by decide), shutTold_isUp_other .c _ .k (by decide), shutTold_isUp_other .c _ .p (by decide)]
  simp only [parkTold_isUp]

theorem parkShut_changesOnly : s.changesOnly s.parkShut [.link, .request, .sign, .intercom, .power] := by
  have htold : s.changesOnly s.parkTold [.link, .request, .sign, .intercom, .power] := by simp [State.changesOnly, State.parkTold, State.setIntercom]
  have hmono := fun (t : State) q => (shutTold_changesOnly q t).mono (bs' := [.link, .request, .sign, .intercom, .power]) (by simp)
  exact ((htold.trans (hmono ..)).trans (hmono ..)).trans (hmono ..)

theorem parkShut_units : s.parkShut.sign = s.parkTold.sign ∧ s.parkShut.intercom = s.intercom.park ∧ s.parkShut.power = s.power.park := by
  have hshut := ((shutTold_changesOnly .c s.parkTold).trans (shutTold_changesOnly .p _)).trans (shutTold_changesOnly .k _)
  obtain ⟨-, -, -, -, -, -, -, -, hsign, -, hintercom, hpower⟩ := hshut
  simp only [List.mem_cons, List.not_mem_nil, reduceCtorEq, or_self, false_or] at hsign hintercom hpower
  exact ⟨hsign, hintercom.trans (parkTold_intercom s), hpower.trans (parkTold_power s)⟩

theorem parkHub_eq (h : s.payment.queue = []) :
    parkHub s = parkSignPort (parkBlocks { s.parkShut with cadence := s.parkShut.cadence.park }) := by
  have hhushed := parkTold_hushed s h
  have hshut : shutPort .k (shutPort .p (shutPort .c s.parkTold)) = s.parkShut := by
    rw [hhushed.shutPort (by decide), (hhushed.of_shutTold .c).shutPort (by decide), ((hhushed.of_shutTold .c).of_shutTold .p).shutPort (by decide)]
    rfl
  exact congrArg (fun t : State => parkSignPort (parkBlocks { t with cadence := t.cadence.park })) hshut

end park

end Sys2Proof.Machine
end

