-- ==== Sys2Proof/Proofs/ParkAndWake.lean ====
section
/-! PROOFS. The wake, the state a park leaves, and the statement `ParkAndWake`. -/
set_option Elab.async false
namespace Sys2Proof.Machine

/-! ### What a park leaves (R185) -/

/-- The state at the end of a park with no payment under way. -/
def State.afterPark (s : State) : State :=
  parkSignPort (parkBlocks { s.parkShut with cadence := s.parkShut.cadence.park })

section park
variable (s : State)

/-- What the park's last step does to a port and the power unit: S is shut at once if it is DOWN, and otherwise later. -/
theorem parkSignPort_eq :
    parkSignPort s = if s.isUp .s then { s with power := { s.power with shutPending := true } } else s.setPort .s (s.port .s).closed := by
  unfold parkSignPort shutPort
  split
  · rfl
  · exact if_neg ‹_›

theorem parkShut_isUp_s : s.parkShut.isUp .s = s.isUp .s :=
  (congrArg PortState.up (parkShut_port_other s .s (.inl rfl))).trans (parkTold_isUp s .s)

/-- The state before the park's last step. -/
def State.beforeSignPort (s : State) : State := parkBlocks { s.parkShut with cadence := s.parkShut.cadence.park }

theorem beforeSignPort_port (q : Port) : s.beforeSignPort.port q = s.parkShut.port q :=
  State.port_of_link (s := s.parkShut) (by simp) q

theorem afterPark_eq : s.afterPark =
    if s.isUp .s then { s.beforeSignPort with power := { s.power.park with shutPending := true } }
    else s.beforeSignPort.setPort .s (s.parkShut.port .s).closed := by
  have hup : s.beforeSignPort.isUp .s = s.isUp .s := (congrArg PortState.up (beforeSignPort_port s .s)).trans (parkShut_isUp_s s)
  have hpower : s.beforeSignPort.power = s.power.park := (parkShut_units s).2.2
  rw [← hpower, ← hup]
  exact parkSignPort_eq s.beforeSignPort

/-- The park's last step reaches port S and the power unit alone. -/
theorem afterPark_beside :
    (∀ q, q ≠ .s → s.afterPark.port q = s.parkShut.port q) ∧ s.beforeSignPort.changesOnly s.afterPark [.link, .power] := by
  rw [afterPark_eq]
  split
  · exact ⟨fun q _ => beforeSignPort_port s q, by simp [State.changesOnly]⟩
  · exact ⟨fun q hq => (State.port_setPort_other _ _ _ _ hq).trans (beforeSignPort_port s q), by simp [State.changesOnly]⟩

theorem afterPark_power (h : s.power.shutPending = false) :
    s.afterPark.power = { s.power with state := .parked, parkTimer := none, shutPending := s.isUp .s } := by
  rw [afterPark_eq]
  split
  · rename_i hup
    rw [hup]
    rfl
  · rename_i hdown
    have hpark : s.beforeSignPort.power = s.power.park := (parkShut_units s).2.2
    refine hpark.trans ?_
    rw [Bool.eq_false_iff.mpr hdown, ← h]
    rfl

theorem afterPark_port_s :
    s.afterPark.port .s = if s.isUp .s then (s.port .s).placed (signFrame .dark) else (s.port .s).closed := by
  have hport := (parkShut_port_other s .s (.inl rfl)).trans (parkTold_port_s s)
  rw [afterPark_eq]
  split
  · exact ((beforeSignPort_port s .s).trans hport).trans (if_pos ‹_›)
  · rw [State.port_setPort_same, hport, if_neg ‹_›]

/-- With S waiting to send its dark frame, or shut, no shut is made at the event's end. -/
theorem settleSign_afterPark (h : s.power.shutPending = false) : settleSign s.afterPark = s.afterPark := by
  by_cases hup : s.isUp .s = true
  · refine settleSign_of_not_drained fun ⟨hgeneral, hsending⟩ => ?_
    rw [afterPark_port_s, if_pos hup] at hgeneral hsending
    exact PortState.placed_not_drained _ _ hup hgeneral hsending
  · exact settleSign_of_not_pending (by rw [afterPark_power s h]; exact Bool.eq_false_iff.mpr hup)

/-- The blocks a park reaches. -/
theorem afterPark_blocks :
    s.afterPark.tariff = { s.tariff with staging := none } ∧ s.afterPark.shift = { s.shift with snapshot := none }
      ∧ s.afterPark.payment = { s.payment with upload := .idle, uploadTimer := none } ∧ s.afterPark.fare = { s.fare with countKnown := false }
      ∧ s.afterPark.milestone = s.milestone ∧ s.afterPark.sign = { s.sign with output := .dark, imageInUse := none, refresh := 0 }
      ∧ s.afterPark.cadence = s.cadence.park ∧ s.afterPark.intercom = s.intercom.park ∧ s.afterPark.pending = s.pending := by
  obtain ⟨hpending, -, hrequest, htariff, hfare, hmilestone, hpayment, hshift, hsign, hcadence, hintercom, -⟩ := (afterPark_beside s).2
  obtain ⟨hpending', -, -, htariff', hfare', hmilestone', hpayment', hshift', -, hcadence', -, -⟩ := parkShut_changesOnly s
  obtain ⟨hsign', hintercom', -⟩ := parkShut_units s
  simp only [List.mem_cons, List.not_mem_nil, reduceCtorEq, or_self, false_or] at *
  rw [htariff, hshift, hpayment, hfare, hmilestone, hsign, hcadence, hintercom, hpending, ← htariff', ← hshift', ← hpayment', ← hfare', ← hmilestone',
    ← hcadence', ← hintercom', ← hpending', ← parkTold_sign, ← hsign']
  exact ⟨rfl, rfl, rfl, rfl, rfl, rfl, rfl, rfl, rfl⟩

theorem afterPark_towardD : s.afterPark.towardD =
    s.linksLost ((s.port .d).placed (noticeFrame s.request.seqD .parking []), nextSeq s.request.seqD) [.c, .p, .k] := by
  obtain ⟨hport, -, -, hrequest, -⟩ := afterPark_beside s
  simp only [List.mem_cons, List.not_mem_nil, reduceCtorEq, or_self, false_or] at hrequest
  rw [← parkShut_towardD]
  exact Prod.ext (hport .d (by decide)) (congrArg RequestUnit.seqD hrequest)

/-- The park conditions leave no payment under way. -/
theorem queue_of_mayPark (haccounts : s.accountsSound = true) (hsign : s.signTrue = true) (hmay : s.power.mayPark = true) : s.payment.queue = [] := by
  simp only [State.signTrue, Bool.and_eq_true, beq_iff_eq] at hsign
  obtain ⟨⟨-, hidle⟩, -⟩ := hsign
  simp only [PowerUnit.mayPark, Bool.and_eq_true] at hmay
  obtain ⟨⟨-, hall⟩, -⟩ := hmay
  simp only [State.accountsSound, Bool.and_eq_true, List.all_eq_true] at haccounts
  obtain ⟨⟨-, hrecords⟩, -⟩ := haccounts
  refine List.eq_nil_iff_forall_not_mem.mpr fun r hr => ?_
  have hpaying := hrecords r hr
  have hriding : (s.party r.slot).riding = false := by
    rw [hidle, State.everyIdle, List.all_eq_true] at hall
    simpa using hall r.slot (by rw [show slots = List.finRange 4 from rfl]; exact List.mem_finRange _)
  simp only [Record.sound, Bool.and_eq_true, beq_iff_eq] at hpaying
  simp [Party.riding, hpaying] at hriding

end park

/-! ### A wake (R187) -/

section open'
variable (q r : Port) (s : State)

theorem openPort_port_same : (openPort q s).port q = if (s.port q).shut then (s.port q).opened else s.port q := by
  unfold openPort
  split
  · exact State.port_setPort_same _ _ _
  · rfl

theorem openPort_port_other (h : r ≠ q) : (openPort q s).port r = s.port r := by
  unfold openPort
  split
  · exact State.port_setPort_other _ _ _ _ h
  · rfl

end open'

/-- The hub woken, before the upload is resumed. -/
def State.woken (s : State) : State :=
  { forgetCount (openPort .s (openPort .k (openPort .p (openPort .c { s with power := s.power.wake })))) with request := ⟨0, 0⟩ }

section wake
variable (s : State)

theorem wakeHub_eq : wakeHub s = sendUpload s.woken := rfl

/-- The ports that a park shuts are opened at the wake. -/
theorem woken_port (q : Port) (h : q = .c ∨ q = .p ∨ q = .k ∨ q = .s) :
    s.woken.port q = if (s.port q).shut then (s.port q).opened else s.port q := by
  change (openPort .s (openPort .k (openPort .p (openPort .c { s with power := s.power.wake })))).port q = _
  obtain rfl | rfl | rfl | rfl := h
  · rw [openPort_port_other _ _ _ (by decide), openPort_port_other _ _ _ (by decide), openPort_port_other _ _ _ (by decide), openPort_port_same]
    rfl
  · rw [openPort_port_other _ _ _ (by decide), openPort_port_other _ _ _ (by decide), openPort_port_same, openPort_port_other _ _ _ (by decide)]
    rfl
  · rw [openPort_port_other _ _ _ (by decide), openPort_port_same, openPort_port_other _ _ _ (by decide), openPort_port_other _ _ _ (by decide)]
    rfl
  · rw [openPort_port_same, openPort_port_other _ _ _ (by decide), openPort_port_other _ _ _ (by decide), openPort_port_other _ _ _ (by decide)]
    rfl

theorem woken_port_standing (q : Port) (h : q = .d ∨ q = .v) : s.woken.port q = s.port q := by
  change (openPort .s (openPort .k (openPort .p (openPort .c { s with power := s.power.wake })))).port q = _
  obtain rfl | rfl := h <;>
    rw [openPort_port_other _ _ _ (by decide), openPort_port_other _ _ _ (by decide), openPort_port_other _ _ _ (by decide),
      openPort_port_other _ _ _ (by decide)] <;> rfl

theorem woken_port_of_open (q : Port) (h : (s.port q).shut = false) : s.woken.port q = s.port q := by
  have hopen := woken_port s q
  rw [if_neg (by simp [h])] at hopen
  cases q
  case d | v => exact woken_port_standing s _ (by decide)
  all_goals exact hopen (by decide)

theorem woken_blocks : s.woken.power = s.power.wake ∧ s.woken.payment = s.payment ∧ s.woken.tariff = s.tariff := by
  simp [State.woken, forgetCount]

theorem wakeHub_payment : (wakeHub s).payment = s.payment.uploading (s.isUp .d) := by
  obtain ⟨hpower, hpayment, -⟩ := woken_blocks s
  rw [wakeHub_eq, sendUpload_payment, hpayment, State.uploads_of_run (by rw [hpower]; rfl)]
  exact congrArg s.payment.uploading (congrArg PortState.up (woken_port_standing s .d (.inl rfl)))

theorem wakeHub_port_d : (wakeHub s).port .d = (s.port .d).uploaded s.payment s.tariff.cabNumber := by
  obtain ⟨hpower, hpayment, htariff⟩ := woken_blocks s
  rw [wakeHub_eq, sendUpload_port_d _ (by rw [hpower]; rfl), hpayment, htariff, woken_port_standing s .d (.inl rfl)]

theorem wakeHub_port_of_shut (q : Port) (h : q = .c ∨ q = .p ∨ q = .k ∨ q = .s) (hshut : (s.port q).shut = true) :
    (wakeHub s).port q = (s.port q).opened := by
  have hd : q ≠ .d := by obtain rfl | rfl | rfl | rfl := h <;> decide
  rw [wakeHub_eq, sendUpload_port_other _ _ hd, woken_port s q h, if_pos hshut]

theorem wakeHub_face_of_open (q : Port) (hshut : (s.port q).shut = false) : ((wakeHub s).port q).face = (s.port q).face := by
  have hface := face_of_face s.woken (wakeHub s) (by simp [wakeHub_eq]) q
  rw [hface, woken_port_of_open s q hshut]

theorem wakeHub_changesOnly : s.changesOnly (wakeHub s) [.link, .request, .fare, .payment, .power] := by simp [State.changesOnly]

theorem wakeHub_request : (wakeHub s).request = ⟨0, 0⟩ := by simp [wakeHub_eq, State.woken]

end wake

/-- A run of bytes holds another exactly if it reads so at some offset. -/
theorem holdsBytes_iff (pattern bytes : List Byte) : holdsBytes pattern bytes = true ↔ ∃ pre post, bytes = pre ++ pattern ++ post := by
  have hinfix : holdsBytes pattern bytes = true ↔ pattern <:+: bytes := by
    induction bytes with
    | nil => simp [holdsBytes]
    | cons b bs ih => rw [holdsBytes, Bool.or_eq_true, List.isPrefixOf_iff_prefix, ih, List.infix_cons_iff]
  exact hinfix.trans ⟨fun ⟨pre, post, h⟩ => ⟨pre, post, h.symm⟩, fun ⟨pre, post, h⟩ => ⟨pre, post, h.symm⟩⟩

/-! ### A MOTION frame that wakes the hub (R186) -/

/-- With the ignition on the park delay timer does not run. -/
theorem PowerUnit.judge_parkTimer_of_ignition (x : PowerUnit) (before : Bool) (hon : x.ignition = true) (hidle : x.parkTimer = none) :
    (x.judge before).parkTimer = none := by
  have hmay : x.mayPark = false := by simp [mayPark, hon]
  unfold judge
  split
  · exact hidle
  · simp [hmay]

theorem takeAlarm_parkTimer (on : Bool) (s : State) (hon : s.power.ignition = true) (hidle : s.power.parkTimer = none) :
    (takeAlarm on s).power.parkTimer = none := by
  unfold takeAlarm
  dsimp only
  split
  · simp only [changeLatch, notifyEmergency_power, PowerUnit.takeLatch, deliverEmergency_power, deriveSign_power]
    exact PowerUnit.judge_parkTimer_of_ignition _ _ hon hidle
  · exact hidle

/-- The wake of a MOTION frame's ignition flag. -/
theorem takeFlags_woken {flags : Byte} {s : State} (h : s.wakes flags) :
    (takeFlags flags s).power.parkTimer = none ∧ (takeFlags flags s).payment = s.payment.uploading (s.isUp .d) := by
  have hon : (s.power.takeIgnition (flags.getLsbD 0)).ignition = true := (PowerUnit.takeIgnition_fields ..).2.1.trans h.2
  have hpower := (wakeHub_fields { s with power := s.power.takeIgnition (flags.getLsbD 0) }).1
  rw [takeFlags, takeIgnitionFlag_of_woken h]
  constructor
  · have hmay : (s.power.takeIgnition (flags.getLsbD 0)).mayPark = false := by rw [PowerUnit.mayPark, hon]; rfl
    refine takeAlarm_parkTimer _ _ ?_ ?_
    · rw [hpower]
      exact hon
    · rw [hpower]
      exact if_neg (Bool.eq_false_iff.mp hmay)
  · rw [takeAlarm_payment, wakeHub_payment]
    rfl

theorem takeMotion_woken {flags : Byte} {s : State} (h : s.wakes flags) (o : Order) (hi lo : Byte) :
    (takeMotion o [hi, lo, flags] s).power.parkTimer = none
      ∧ (takeMotion o [hi, lo, flags] s).payment = s.payment.uploading (s.isUp .d) := by
  rw [takeMotion]
  split
  · rw [takeCount_power, takeCount_payment]
    exact takeFlags_woken h
  · obtain ⟨htimer, hpayment⟩ := takeFlags_woken (s := takeCount (num [hi, lo]) s) (flags := flags) (by rw [State.wakes, takeCount_power]; exact h)
    refine ⟨htimer, hpayment.trans ?_⟩
    rw [takeCount_payment, isUp_of_face _ _ (takeCount_face ..)]

theorem copiedMotion_woken {flags : Byte} {s : State} (h : s.wakes flags) (f : Frame) (o : Order) (parked : Bool) (hi lo : Byte) :
    (handAndCopy .v f o parked (takeMotion o [hi, lo, flags]) s).power.parkTimer = none
      ∧ (handAndCopy .v f o parked (takeMotion o [hi, lo, flags]) s).payment = s.payment.uploading (s.isUp .d) := by
  unfold handAndCopy
  split
  · obtain ⟨htimer, hpayment⟩ := takeMotion_woken (s := copyTelemetry .v f parked s) (by rw [State.wakes, copyTelemetry_power]; exact h) o hi lo
    refine ⟨htimer, hpayment.trans ?_⟩
    rw [copyTelemetry_payment, isUp_of_face _ _ (copyTelemetry_face ..)]
  · rw [copyTelemetry_power, copyTelemetry_payment]
    exact takeMotion_woken h o hi lo

/-! ### A frame from D in PARKED (R186) -/

/-- A frame from D that a part in PARKED examines. -/
theorem receive_examined {f : Frame} (o : Order) {s : State} (hparked : s.power.state = .parked) (hup : s.isUp .d = true)
    (hshut : (s.port .d).shut = false) (hlen : f.len.toNat = f.payload.length) (hmax : f.payload.length ≤ 200) :
    receive .d f o s = examineForWake f (restartSilence .d s) := by
  have htest : lengthTest f = true := by simp [lengthTest, hlen, hmax, Config.maxPayload]
  have hp : (restartSilence .d s).parked = true := by simp [State.parked, restartSilence, hparked]
  rw [receive, if_neg (by simp [hshut]), if_pos hup, takeGood, if_pos ⟨hp, rfl⟩, if_pos htest]

theorem examineForWake_eq (f : Frame) (s : State) [Decidable (∃ pre post, f.payload = pre ++ wakeCallBytes s.tariff.cabNumber ++ post)] :
    examineForWake f s = if ∃ pre post, f.payload = pre ++ wakeCallBytes s.tariff.cabNumber ++ post then wakeHub s else s := by
  unfold examineForWake
  exact if_congr (holdsBytes_iff _ _) rfl rfl

/-! ### The statement -/

/-- Settles O60: the park by what `afterPark` leaves, the pending shut by `settleSign_of_drained`, the wakes by `wakeHub` block by block. -/
theorem parkAndWake : Obligations.ParkAndWake := by
  unfold Obligations.ParkAndWake
  refine ⟨fun s hpower hlink haccounts hsign htimer => ?_, fun s hparked hpending => ⟨fun hgeneral hsending => ?_, fun hbusy => ?_⟩,
    fun f o s hparked hup hshut hlen hmax => ?_, fun a s hi lo flags ha hparked hup hshut hon => ?_⟩
  · simp only [State.powerSound, Bool.and_eq_true, beq_iff_eq, htimer] at hpower
    obtain ⟨⟨⟨⟨⟨⟨⟨hmayPark, hpending⟩, -⟩, -⟩, -⟩, -⟩, -⟩, hshutS⟩ := hpower
    obtain ⟨hrunning, hmay⟩ := Bool.and_eq_true_iff.mp hmayPark.symm
    have hrun : s.power.state = .run := by simpa [State.running] using hrunning
    have hparked : s.parked = false := by simp [State.parked, hrun]
    have hnotpending : s.power.shutPending = false := by simpa [hparked] using hpending
    have hnotshut : (s.port .s).shut = false := by rw [hshutS, hparked, Bool.false_and]
    have hempty := queue_of_mayPark s haccounts hsign hmay
    have hpark : parkExpiry s = s.afterPark := (if_pos ⟨hrunning, htimer⟩).trans (parkHub_eq s hempty)
    have hport := (afterPark_beside s).1
    obtain ⟨htariff, hshift, hpayment, hfare, hmilestone, hunit, hcadence, hintercom, hqueue⟩ := afterPark_blocks s
    refine ⟨s.afterPark, (event_of_on _ _ (by simp [hrun])).trans (by rw [hpark, settleSign_afterPark s hnotpending]), afterPark_power s hnotpending,
      fun q hq => ?_, ?_, fun hup => (afterPark_port_s s).trans (if_pos hup), ?_, ?_, afterPark_towardD s, htariff, hshift, hpayment, hfare, hmilestone,
      hunit, hcadence, hintercom, hqueue⟩
    · obtain ⟨hshut, hdown⟩ := parkShut_shut s q hq
      have hq' : s.afterPark.port q = s.parkShut.port q := hport q (by obtain rfl | rfl | rfl := hq <;> decide)
      exact ⟨(congrArg PortState.shut hq').trans hshut, (congrArg PortState.up hq').trans hdown⟩
    · rw [afterPark_port_s]
      split
      · rename_i hup
        have hface := face_of_face s (emit .s (signFrame .dark) s) (by simp) .s
        rw [emit_port_same] at hface
        rw [hup]
        exact (congrArg PortFace.shut hface).trans hnotshut
      · rename_i hdown
        rw [Bool.eq_false_iff.mpr hdown]
        rfl
    · exact (congrArg PortState.up (hport .d (by decide))).trans (parkShut_isUp_d s)
    · rw [hport .v (by decide), parkShut_port_other s .v (.inr rfl), parkTold_port_other s .v (by decide) (by decide)]
  · have hsettled := settleSign_of_drained hparked hpending ⟨hgeneral, hsending⟩
    obtain ⟨hshut, hdown⟩ := shutTold_shut .s s
    obtain ⟨hqueue, -, -, htariff, hfare, hmilestone, hpayment, hshift, hsign, hcadence, hintercom, -⟩ := shutTold_changesOnly .s s
    let t : State := { s.shutTold .s with power := { s.power with shutPending := false } }
    have hsettled' : settleSign t = t := settleSign_of_not_pending rfl
    refine ⟨t, (event_of_on _ _ (by simp [hparked])).trans (by rw [hsettled]; exact congrArg Host.Outcome.next hsettled'), hshut, hdown, rfl, ?_⟩
    simp only [List.mem_cons, List.not_mem_nil, reduceCtorEq, or_self, false_or] at htariff hfare hmilestone hpayment hshift hsign hcadence hintercom
    exact ⟨hqueue, by simp, by simp, .inr htariff, .inr hfare, .inr hmilestone, .inr hpayment, .inr hshift, .inr hsign, .inr hcadence, .inr hintercom, by simp⟩
  · have hnot : ¬ s.signDrained := fun ⟨hgeneral, hsending⟩ => hbusy.elim (absurd hgeneral) (absurd hsending)
    exact (event_of_on _ _ (by simp [hparked])).trans (by rw [settleSign_of_not_drained hnot, settleSign_of_not_drained hnot])
  · intro n call
    classical
    let b := restartSilence .d s
    have hexamined : receive .d f o s = if ∃ pre post, f.payload = pre ++ call ++ post then wakeHub b else b :=
      (receive_examined o hparked hup hshut hlen hmax).trans (examineForWake_eq f b)
    have hevent : exec (.wakeCall f o) s = .next (settleSign (receive .d f o s)) := event_of_on _ _ (by simp [hparked])
    have hother : ∀ q, q ≠ .d → b.port q = s.port q := fun q hq => State.port_setPort_other _ _ _ _ hq
    have hd : b.port .d = { s.port .d with silence := some 500 } := State.port_setPort_same _ _ _
    refine ⟨fun hcall => ?_, fun hcall hpending => ?_⟩
    · rw [if_pos hcall] at hexamined
      have hpower : (wakeHub b).power = s.power.wake := (wakeHub_fields b).1
      have hupload : b.isUp .d = true := (congrArg PortState.up hd).trans hup
      refine ⟨wakeHub b, hevent.trans (by rw [hexamined, settleSign_of_not_pending (by rw [hpower]; rfl)]), hpower, fun q hq hq' => ?_, fun q hq => ?_,
        wakeHub_request b, (wakeHub_fields b).2, (wakeHub_payment b).trans (by rw [hupload]; rfl), (wakeHub_port_d b).trans (by rw [hd]; rfl), ?_⟩
      · have hne : q ≠ .d := by obtain rfl | rfl | rfl | rfl := hq <;> decide
        have hopened := wakeHub_port_of_shut b q hq (by rw [hother q hne]; exact hq')
        rw [State.isUp, hopened]
        exact ⟨rfl, rfl, rfl, rfl⟩
      · have hb : (b.port q).shut = (s.port q).shut ∧ b.isUp q = s.isUp q := by
          by_cases hne : q = .d
          · subst hne
            exact ⟨by rw [hd], by rw [State.isUp, hd]; rfl⟩
          · exact ⟨congrArg PortState.shut (hother q hne), congrArg PortState.up (hother q hne)⟩
        have hface := wakeHub_face_of_open b q (hb.1.trans hq)
        exact ⟨(congrArg PortFace.up hface).trans hb.2, (congrArg PortFace.shut hface).trans (hb.1.trans hq)⟩
      · have hb : s.changesOnly b [.link, .request, .fare, .payment, .power] := by simp [State.changesOnly, b, restartSilence]
        exact hb.trans (wakeHub_changesOnly b)
    · rw [if_neg hcall] at hexamined
      exact hevent.trans (by rw [hexamined, settleSign_of_not_pending (s := b) hpending]; rfl)
  · have hframe : arrive a .motion [hi, lo, flags] s
        = handAndCopy .v (frameOf .motion a.route a.tag [hi, lo, flags]) a.order s.parked (takeMotion a.order [hi, lo, flags]) (s.heard a) := by
      rw [arrive_of_up a .motion _ (by rw [ha]; exact hup) (by rw [ha]; exact hshut) (by rw [ha]; decide) (by rw [ha]; rfl), ha]
      rfl
    have hwakes : (s.heard a).wakes flags := ⟨hparked, hon⟩
    have hmoved := copiedMotion_moved (frameOf .motion a.route a.tag [hi, lo, flags]) a.order s.parked hi lo flags (s.heard a)
    obtain ⟨htimer, hpayment⟩ := copiedMotion_woken hwakes (frameOf .motion a.route a.tag [hi, lo, flags]) a.order s.parked hi lo
    have hup' : (s.heard a).isUp .d = s.isUp .d := congrArg PortState.up (State.port_setPort_other _ _ _ _ (by rw [ha]; decide))
    have hsettled := settleSign_of_not_pending (hmoved.pending.trans (if_pos hwakes))
    refine ⟨_, (event_of_on _ _ (by simp [hparked])).trans (by rw [hframe, hsettled]), hmoved.state.trans (if_pos hwakes), hmoved.ignition.trans hon, htimer, ?_⟩
    rw [hpayment, hup']
    rfl

end Sys2Proof.Machine
end

