-- ==== Sys2Proof/Proofs/ConsoleNeverSeesTheAlarm.lean ====
section
/-! PROOFS. Two runs that port C cannot tell apart, and the statement `ConsoleNeverSeesTheAlarm`. -/
set_option Elab.async false
namespace Sys2Proof.Machine

/-! ### The copies of a MOTION frame toward C (R173) -/

theorem hidden_alarm_bit (flags : Byte) : (flags ^^^ 2) &&& 0b11111101 = flags &&& 0b11111101 := by
  ext i hi
  interval_cases i <;> simp

/-- With report no the copies place no notice. -/
theorem placeCopies_request (i : Port) (t : PortSet) (f : Port → Frame) (parked : Bool) (s : State) :
    (placeCopies i t f false parked s).request = s.request := by
  refine foldl_keeps State.request _ (fun u q => ?_) Port.all s
  split
  · unfold placeCopy reportDiscard
    dsimp only
    split <;> rfl
  · rfl

section copies
variable (f : Frame) (parked : Bool) (s : State) (h : s.link.telemetryRoutes.v.report = false)
include h

theorem copyTelemetry_request : (copyTelemetry .v f parked s).request = s.request := by
  have hroute : (s.link.telemetryRoutes.get .v).report = false := h
  rw [copyTelemetry, hroute, placeCopies_request]

theorem copyTelemetry_port_c : (copyTelemetry .v f parked s).port .c =
    if (s.link.telemetryRoutes.v.targets.without .v).has .c then (s.port .c).placed (hideAlarm f) else s.port .c :=
  placeCopies_port _ _ _ _ _ _ _ fun _ => h

end copies

/-! ### Two runs alike at C -/

/-- Two states that differ in nothing the console is shown or that what it is shown is made of: the parties, the milestones, the tariff store, port C and C's
notice number. -/
structure State.SameAtC (s t : State) : Prop where
  fare : t.fare = s.fare
  milestone : t.milestone = s.milestone
  tariff : t.tariff = s.tariff
  portC : t.port .c = s.port .c
  seqC : t.request.seqC = s.request.seqC

namespace State.SameAtC

variable {s t u : State}

theorem refl (s : State) : s.SameAtC s := ⟨rfl, rfl, rfl, rfl, rfl⟩

theorem symm (h : s.SameAtC t) : t.SameAtC s := ⟨h.fare.symm, h.milestone.symm, h.tariff.symm, h.portC.symm, h.seqC.symm⟩

theorem trans (h : s.SameAtC t) (h' : t.SameAtC u) : s.SameAtC u :=
  ⟨h'.fare.trans h.fare, h'.milestone.trans h.milestone, h'.tariff.trans h.tariff, h'.portC.trans h.portC, h'.seqC.trans h.seqC⟩

theorem party (h : s.SameAtC t) (i : Fin 4) : t.party i = s.party i := congrArg (fun x : FareEngine => x.parties[i]) h.fare

theorem setParty (h : s.SameAtC t) (i : Fin 4) (p : Party) : (s.setParty i p).SameAtC (t.setParty i p) :=
  ⟨congrArg (fun x : FareEngine => x.withParty i p) h.fare, h.milestone, h.tariff, h.portC, h.seqC⟩

theorem setLastCount (h : s.SameAtC t) (n : Nat) : (setLastCount n s).SameAtC (setLastCount n t) :=
  ⟨congrArg (fun x : FareEngine => { x with lastCount := n, countKnown := true }) h.fare, h.milestone, h.tariff, h.portC, h.seqC⟩

theorem markMotionLost (h : s.SameAtC t) : (markMotionLost s).SameAtC (markMotionLost t) :=
  ⟨congrArg (fun x : FareEngine =>
    { x with parties := x.parties.map fun p : Party => if p.state = PartyState.metering then { p with motionLost := true } else p }) h.fare,
    h.milestone, h.tariff, h.portC, h.seqC⟩

theorem notifyBoth (h : s.SameAtC t) (n : Notice) (fields : List Byte) : (notifyBoth n fields s).SameAtC (notifyBoth n fields t) where
  fare := h.fare
  milestone := h.milestone
  tariff := h.tariff
  portC := by rw [notifyBoth_port_c, notifyBoth_port_c, h.portC, h.seqC]
  seqC := congrArg nextSeq h.seqC

/-- A hand-off to the shift is nothing to C. -/
theorem whileLive (f g : Totals → Totals) (h : s.SameAtC t) : (whileLive f s).SameAtC (whileLive g t) := by
  have hnone : ∀ (f : Totals → Totals) (s : State), s.SameAtC (Machine.whileLive f s) := fun f s => by
    unfold Machine.whileLive
    split <;> exact ⟨rfl, rfl, rfl, rfl, rfl⟩
  exact ((hnone f s).symm.trans h).trans (hnone g t)

theorem showChanges {b b' : State} (hb : b'.fare = b.fare) (h : s.SameAtC t) : (showChanges b s).SameAtC (showChanges b' t) where
  fare := by simp [h.fare]
  milestone := by simp [h.milestone]
  tariff := by simp [h.tariff]
  portC := by rw [showChanges_port_c, showChanges_port_c, h.portC, PortState.shownConsole_congr _ b' b t s hb h.fare]
  seqC := by rw [showChanges_request, showChanges_request, h.seqC]

theorem showViews (c p p' : Bool) (h : s.SameAtC t) : (showViews c p s).SameAtC (showViews c p' t) where
  fare := by simp [h.fare]
  milestone := by simp [h.milestone]
  tariff := by simp [h.tariff]
  portC := by
    have hrecords : consoleRecords t = consoleRecords s := by simp only [consoleRecords, h.party]
    have hup : t.isUp .c = s.isUp .c := congrArg PortState.up h.portC
    rw [showViews_port_c, showViews_port_c, h.portC, hrecords, hup]
  seqC := by rw [showViews_request, showViews_request, h.seqC]

/-! ### A pass (R55, R56) -/

theorem firingTold (h : s.SameAtC t) (i : Fin 4) (e : Fin 12) (value : Nat) : (firingTold i e value s).SameAtC (firingTold i e value t) := by
  have hafter : t.afterAction t.milestone.table[e] (t.party i) = s.afterAction s.milestone.table[e] (s.party i) := by
    rw [h.milestone, h.party]
    simp only [State.afterAction, State.tariffAt, State.extraAt, State.retariffed, State.stepped_congr h.tariff, h.tariff]
    rfl
  have hfare : (Machine.firingTold i e value t).fare = (Machine.firingTold i e value s).fare := by rw [firingTold_fare, firingTold_fare, hafter, h.fare]
  refine ⟨hfare, ?_, ?_, ?_, ?_⟩
  · rw [firingTold_milestone, firingTold_milestone]
    simp only [State.setArmed, State.armed, h.milestone]
  · rw [firingTold_tariff, firingTold_tariff, h.tariff]
  · rw [firingTold_port_c, firingTold_port_c, hafter, h.seqC, h.portC, PortState.shownConsole_congr _ t s _ _ h.fare hfare]
  · rw [firingTold_request, firingTold_request, h.seqC]

theorem passStep (h : s.SameAtC t) (i : Fin 4) (q : Quantity) (e : Fin 12) : (passStep i q s e).SameAtC (passStep i q t e) := by
  have hquantity : t.quantityOf q (t.party i) = s.quantityOf q (s.party i) := by rw [State.quantityOf_of_tariff s t _ _ h.tariff, h.party]
  have hdue : t.dueFor i q e = s.dueFor i q e :=
    State.dueFor_congr s t i q e (by rw [h.milestone]) (by rw [State.armed, State.armed, h.milestone]) hquantity (by rw [h.party])
  unfold Machine.passStep
  rw [hdue, hquantity]
  split
  · exact h.firingTold i e _
  · exact h

theorem runPass (h : s.SameAtC t) (i : Fin 4) (q : Quantity) : (runPass i q s).SameAtC (runPass i q t) := by
  rw [runPass_eq, runPass_eq]
  exact List.foldl_rel (r := State.SameAtC) h fun e _ _ _ h => h.passStep i q e

/-! ### A delta at the parties (R35) -/

theorem meterParty (h : s.SameAtC t) (q : Quantity) (grow : Party → Party) (i : Fin 4) : (meterParty q grow s i).SameAtC (meterParty q grow t i) := by
  have hpass := (h.setParty i (s.stepped (grow (s.party i)))).runPass i q
  unfold Machine.meterParty
  simp only [h.party, State.stepped_congr h.tariff]
  split_ifs
  · exact hpass
  · exact hpass.runPass i .fare
  · exact h

theorem meterEach (h : s.SameAtC t) (q : Quantity) {grow : State → Party → Party} (hgrow : ∀ s t : State, t.tariff = s.tariff → grow t = grow s)
    (is : List (Fin 4)) (c p : Bool) :
    (meterEach q grow is (s, c, p)).1.SameAtC (meterEach q grow is (t, c, p)).1
      ∧ (meterEach q grow is (t, c, p)).2 = (meterEach q grow is (s, c, p)).2 := by
  induction is generalizing s t c p with
  | nil => exact ⟨h, rfl⟩
  | cons i is ih =>
    have hchanges : meteringChanges (grow t) t i = meteringChanges (grow s) s i := by
      simp only [meteringChanges, h.party, hgrow s t h.tariff, State.stepped_congr h.tariff]
    rw [Machine.meterEach, Machine.meterEach, hchanges, hgrow s t h.tariff]
    exact ih (h.meterParty q (grow s) i) _ _

theorem meterAll (h : s.SameAtC t) (q : Quantity) {grow : State → Party → Party} (hgrow : ∀ s t : State, t.tariff = s.tariff → grow t = grow s) :
    (meterAll q grow s).SameAtC (meterAll q grow t) := by
  obtain ⟨hstate, hshown⟩ := h.meterEach q hgrow slots false false
  unfold Machine.meterAll
  dsimp only
  rw [hshown]
  exact hstate.showViews _ _ _

/-! ### A MOTION frame's count and flags (R33 to R35) -/

theorem takeCount (h : s.SameAtC t) (n : Nat) : (takeCount n s).SameAtC (takeCount n t) := by
  have hdelta : t.delta n = s.delta n := by rw [State.delta, State.delta, h.fare]
  have himplausible : t.implausible (s.delta n) = s.implausible (s.delta n) := by simp only [State.implausible, h.tariff]
  have hset := h.setLastCount n
  unfold Machine.takeCount
  rw [h.fare, hdelta, himplausible]
  split_ifs
  · exact (hset.notifyBoth ..).markMotionLost.showChanges h.fare
  · exact (whileLive _ _ (hset.notifyBoth ..)).markMotionLost.showChanges h.fare
  · unfold applyDelta
    split_ifs
    · exact hset
    · exact whileLive _ _ (hset.meterAll _ fun _ _ ht => grownBy_congr (by rw [ht]) _)

/-- The flags of a frame that wakes nothing are nothing to C. -/
theorem takeFlags {flags : Byte} (hw : ¬ s.wakes flags) : s.SameAtC (takeFlags flags s) := by
  have htaken := takeFlags_taken flags s
  obtain ⟨hport, hseq, -, hfare⟩ := takeFlags_told hw
  exact ⟨hfare, htaken.milestone, htaken.tariff, hport, hseq⟩

/-- What a frame that wakes nothing shows C is its count's doing alone. -/
theorem takeMotion {flags : Byte} (hw : ¬ s.wakes flags) (o : Order) (hi lo : Byte) :
    (Machine.takeCount (num [hi, lo]) s).SameAtC (takeMotion o [hi, lo, flags] s) := by
  rw [Machine.takeMotion]
  split
  · exact (takeFlags hw).takeCount _
  · exact takeFlags (by rw [State.wakes, takeCount_power]; exact hw)

/-! ### The copies of a frame (R173) -/

/-- With report no, the copies that C sees are those of frames alike but for the alarm bit. -/
theorem copyTelemetry {f g : Frame} (h : s.SameAtC t) (parked : Bool) (hf : hideAlarm f = hideAlarm g)
    (hroute : t.link.telemetryRoutes.v = s.link.telemetryRoutes.v) (hreport : s.link.telemetryRoutes.v.report = false) :
    (copyTelemetry .v f parked s).SameAtC (copyTelemetry .v g parked t) where
  fare := by simp [h.fare]
  milestone := by simp [h.milestone]
  tariff := by simp [h.tariff]
  portC := by
    rw [copyTelemetry_port_c g parked t (hroute ▸ hreport), copyTelemetry_port_c f parked s hreport, hf, hroute, h.portC]
  seqC := by
    rw [copyTelemetry_request g parked t (hroute ▸ hreport), copyTelemetry_request f parked s hreport, h.seqC]

end State.SameAtC

/-- Settles O21: two MOTION frames alike but for the alarm bit go the same way at C by `SameAtC`, through count, flags and copies. -/
theorem consoleNeverSeesTheAlarm : Obligations.ConsoleNeverSeesTheAlarm := by
  unfold Obligations.ConsoleNeverSeesTheAlarm
  intro a s hi lo flags ha ⟨hrun, hup, hshut⟩ hreport
  have hw : ∀ x : Byte, ¬ (s.heard a).wakes x := fun x hwakes => by
    have hparked : s.power.state = .parked := hwakes.1
    simp [hrun] at hparked
  let copied (x : Byte) : State :=
    handAndCopy .v (frameOf .motion a.route a.tag [hi, lo, x]) a.order s.parked (takeMotion a.order [hi, lo, x]) (s.heard a)
  have hexec : ∀ x : Byte, exec (.motion a [hi, lo, x]) s = .next (copied x) := fun x => by
    have hframe : arrive a .motion [hi, lo, x] s = copied x := by
      rw [arrive_of_up a .motion _ (by rw [ha]; exact hup) (by rw [ha]; exact hshut) (by rw [ha]; decide) (by rw [ha]; rfl), ha]
      rfl
    have hstate : (copied x).power.state = .run := (copiedMotion_moved ..).state.trans ((if_neg (hw x)).trans hrun)
    exact (event_of_run _ _ hrun (by rw [hframe]; exact hstate)).trans (by rw [hframe])
  have hhidden : hideAlarm (frameOf .motion a.route a.tag [hi, lo, flags]) = hideAlarm (frameOf .motion a.route a.tag [hi, lo, flags ^^^ 2]) := by
    simp only [hideAlarm, frameOf, hidden_alarm_bit]
    rfl
  have hsame : (copied flags).SameAtC (copied (flags ^^^ 2)) := by
    have hmotion : ∀ x y : Byte, ∀ t u : State, ¬ t.wakes x → ¬ u.wakes y → t.SameAtC u →
        (takeMotion a.order [hi, lo, x] t).SameAtC (takeMotion a.order [hi, lo, y] u) := fun x y t u ht hu htu =>
      ((State.SameAtC.takeMotion ht a.order hi lo).symm.trans (htu.takeCount _)).trans (State.SameAtC.takeMotion hu a.order hi lo)
    have hroute : ∀ x : Byte, (takeMotion a.order [hi, lo, x] (s.heard a)).link.telemetryRoutes.v = s.link.telemetryRoutes.v := fun x =>
      congrArg (fun y : LinkFace => y.telemetryRoutes.v) (takeMotion_beside (hw x) a.order hi lo).1
    simp only [copied, handAndCopy]
    split_ifs
    · refine hmotion _ _ _ _ ?_ ?_ ((State.SameAtC.refl _).copyTelemetry _ hhidden rfl hreport)
      all_goals
        rw [State.wakes, copyTelemetry_power]
        exact hw _
    · exact (hmotion _ _ _ _ (hw _) (hw _) (.refl _)).copyTelemetry _ hhidden ((hroute _).trans (hroute _).symm) (by rw [hroute]; exact hreport)
  exact ⟨copied flags, copied (flags ^^^ 2), hexec _, hexec _, hsame.portC.symm, hsame.seqC.symm⟩

end Sys2Proof.Machine
end
